-- ==== Sys2Proof/Word.lean ====
section
/-! DEFINITION. The words of the hub: bytes, line numbers, line data, hub time and the bus widths (spec 00, 05, 11). -/

namespace Sys2Proof

/-- One byte of a message or of a line. -/
abbrev Byte := BitVec 8

/-- A line number, 0 to 65535, two bytes in every message (spec 11). -/
abbrev Line := BitVec 16

/-- The 32 bytes of a line as one little-endian value: byte i in bits 8i+7 to 8i (spec 00 "Lines and the image"). -/
abbrev LineData := BitVec 256

/-- The byte enables of Write Words: bit i enables byte i of the line (spec 11, section 11.3). -/
abbrev Enables := BitVec 32

/-- Hub time and every deadline, in milliseconds modulo 2 to the 32 (R187). -/
abbrev Time := BitVec 32

/-- A journal sequence number (R80, R81). -/
abbrev Seq := BitVec 32

/-- One half-word of the backing store bus, MD15 to MD0 (R100). -/
abbrev HalfWord := BitVec 16

/-- A half-word address, MA19 to MA0 (R100). -/
abbrev HalfAddr := BitVec 20

/-- A session number or the session counter (R169). -/
abbrev SessionNo := BitVec 16

/-- A port P0 to P3, and the agent attached to it (spec 00 "Agents and the supervisor"). -/
abbrev Port := Fin 4

/-- The index of a region descriptor (R136). -/
abbrev RegionId := Fin 8

end Sys2Proof
end

