-- ==== Sys2Proof/Config.lean ====
section
/-! DEFINITION. The sizes, marks and default values the manual fixes for the part. -/

namespace Sys2Proof.Config

/-- Entries of the line table (R1). -/
def tableSize : Nat := 512
/-- Entries of the recall table (R61). -/
def recallTableSize : Nat := 16
/-- Entries of the writeback journal (R80). -/
def journalSize : Nat := 32
/-- The high water mark of the journal (R98). -/
def highWater : Nat := 24
/-- The low water mark of the journal (R98). -/
def lowWater : Nat := 16
/-- Places of the fault queue (R114). -/
def faultQueueSize : Nat := 6
/-- The attempts at which RETRY is refused RETRY_LIMIT (R128). -/
def attemptLimit : Nat := 4
/-- Outstanding requests a port may have (R32). -/
def outstandingLimit : Nat := 8
/-- FILL and DRAIN grants after which the oldest DIRECT job goes first (R108, R109). -/
def passLimit : Nat := 8
/-- Frames the replay buffer keeps (R162). -/
def replayDepth : Nat := 16
/-- The largest payload of a frame (R160). -/
def maxPayload : Nat := 240
/-- The largest capacity Hello may advertise (R170). -/
def maxCapacity : Nat := 512
/-- Half-words of a line on the backing store bus (R100). -/
def halfWordsPerLine : Nat := 16
/-- Lost lines one line part of Fault Read carries (R126). -/
def linesPerPart : Nat := 100
/-- The priority no threshold holds back (R152). -/
def topPriority : Nat := 7
/-- Lines of the image (spec 00). -/
def imageLines : Nat := 65536
/-- The protocol revision Hello must carry (R170). -/
def revision : Byte := 1

/-- Recall timeout after reset and Restart, in ms (R181). -/
def defaultRecallTimeout : Nat := 50
/-- Keepalive value after reset and Restart, in ms (R181). -/
def defaultKeepalive : Nat := 500
/-- Store timeout after reset and Restart, in tenths of a ms (R181, R102). -/
def defaultStoreTimeout : Nat := 10

/-- DESIGN CHOICE (log entry 1): the supervisor's port in `State.reset`, both straps low. -/
def resetSupervisor : Port := 0

end Sys2Proof.Config
end

