-- ==== Sys2Proof/Syntax.lean ====
section
/-! DEFINITION. The commands of the hub: one constructor for each row of spec/opcode_table.json. -/

namespace Sys2Proof

/-- What the link unit hands on of a good sequenced frame beside its kind: tag, sequence number and payload (R160). -/
structure RxFrame where
  tag     : Byte
  seq     : Byte
  payload : List Byte
deriving DecidableEq, Repr

/-- How a half-word access fails its job (R104, R116). -/
inductive StoreCause where
  | storeError
  | storeTimeout
deriving DecidableEq, Repr

/-- The commands. A frame's command carries the port it arrived on and the frame as received; an event carries what
the outside world brings with it (a level, a half-word, the cause of a failure), and nothing the hub already knows. -/
inductive Instr where
  -- data requests (spec 02)
  | readWords (p : Port) (f : RxFrame)
  | writeWords (p : Port) (f : RxFrame)
  | acquireRead (p : Port) (f : RxFrame)
  | acquireWrite (p : Port) (f : RxFrame)
  | upgrade (p : Port) (f : RxFrame)
  | release (p : Port) (f : RxFrame)
  | prefetch (p : Port) (f : RxFrame)
  | flush (p : Port) (f : RxFrame)
  | sync (p : Port) (f : RxFrame)
  -- answers, sessions, notices, regions (spec 03, 07, 08, 09)
  | recallAnswer (p : Port) (f : RxFrame)
  | hello (p : Port) (f : RxFrame)
  | goodbye (p : Port) (f : RxFrame)
  | noticeAck (p : Port) (f : RxFrame)
  | setThreshold (p : Port) (f : RxFrame)
  | regionQuery (p : Port) (f : RxFrame)
  -- supervisor requests (spec 05, 06, 07, 10)
  | hubStatus (p : Port) (f : RxFrame)
  | setTimers (p : Port) (f : RxFrame)
  | fence (p : Port) (f : RxFrame)
  | unfence (p : Port) (f : RxFrame)
  | restart (p : Port) (f : RxFrame)
  | regionSet (p : Port) (f : RxFrame)
  | faultList (p : Port) (f : RxFrame)
  | faultRead (p : Port) (f : RxFrame)
  /-- Resolve with action RETRY, and every Resolve frame that carries no listed action (log entry 13). -/
  | resolveRetry (p : Port) (f : RxFrame)
  | resolveSupply (p : Port) (f : RxFrame)
  | resolveFail (p : Port) (f : RxFrame)
  | resolveComplete (p : Port) (f : RxFrame)
  | resolveAbandon (p : Port) (f : RxFrame)
  | resolveRevert (p : Port) (f : RxFrame)
  | supplyLine (p : Port) (f : RxFrame)
  | storeRead (p : Port) (f : RxFrame)
  | storeWrite (p : Port) (f : RxFrame)
  -- other frames (spec 09, 11)
  | unknownKindFrame (p : Port) (kind : Byte) (f : RxFrame)
  | ping (p : Port) (tag : Byte) (payload : List Byte)
  | replayRequest (p : Port) (payload : List Byte)
  | linkRestart (p : Port) (payload : List Byte)
  | discardedLinkFrame (p : Port) (kind : Byte)
  /-- A damaged frame: the link unit reads its first byte only (R160). -/
  | damagedFrame (p : Port) (kind : Byte)
  | unexpectedSequence (p : Port) (seq : Byte)
  -- link, timer and reset events (spec 03, 09, 10)
  | linkUp (p : Port)
  | linkDown (p : Port)
  | keepaliveExpired (p : Port)
  | recallTimeout (id : Byte)
  | powerOnReset (supsel1 supsel0 : Bool)
  -- backing store bus events (spec 05)
  | storeTimeout
  | fillComplete (md : HalfWord)
  | fillFailed (cause : StoreCause)
  | drainComplete
  | drainFailed (cause : StoreCause)
  | directJobComplete (md : HalfWord)
  | directJobFailed (cause : StoreCause)
  -- steps of the hub's own blocks
  | grant
  | waiterService (line : Line)
  | allocation
  | waitingRecallOpen
  | journalSpaceService
  | syncListAnswer
  | goodbyeCompletion (p : Port)
  | regionSetCompletion
  | notice (p : Port)
  | resetNLow
  | hubTimeAdvance
  | halfWordAnswered (md : HalfWord)
  | mrdyMerrInactive
  | frameTransmitted (p : Port)
deriving DecidableEq, Repr

end Sys2Proof
end

