-- ==== Sys2Proof/Machine/State.lean ====
section
/-! DEFINITION. The state of the hub as plain data: every register, queue, table, timer and pin the manual gives it,
and the queue of commands that wait. -/

namespace Sys2Proof.Machine

/-! ## The manual's vocabulary -/

/-- The kinds a request can have (section 11.2). Resolve is one kind; its actions are `Action`. -/
inductive Kind where
  | hello | goodbye | noticeAck | setThreshold | regionQuery
  | readWords | writeWords | acquireRead | acquireWrite | upgrade | release | prefetch | flush | sync
  | hubStatus | setTimers | fence | unfence | restart | regionSet | faultList | faultRead | resolve
  | supplyLine | storeRead | storeWrite
deriving DecidableEq, Repr

/-- The actions of Resolve (R127). -/
inductive Action where
  | retry | supply | fail | complete | abandon | revert
deriving DecidableEq, Repr

/-- Reply statuses (section 11.5). -/
inductive Status where
  | done | partialDone | noSession | closing | fenced | unknownKind | notPermitted | badFormat | tagBusy | tooMany
  | hubStopped | revision | outOfImage | noAccess | notCacheable | alreadyHeld | notHeld | ownHolding | holdLimit
  | linePoisoned | tableFull | storeFault | sessionOpen | noNotice | notOnline | notFenced | overlap | regionInUse
  | regionBusy | noRecord | recordBusy | unread | wrongAction | retryLimit | notListed | lineTracked
deriving DecidableEq, Repr

/-- A port's holding of a line (R3). -/
inductive Holding where
  | none | read | write
deriving DecidableEq, Repr

/-- A port's access right in a region (R140). -/
inductive Access where
  | none | read | full
deriving DecidableEq, Repr

/-- Coherence classes (R138). -/
inductive RegionClass where
  | tracked | writeThrough | plain
deriving DecidableEq, Repr

/-- The hub copy of a line: its state, and its data in the two states where the data has a meaning (R1, R2; log entry 17). -/
inductive HubCopy where
  | empty
  | clean (data : LineData)
  | dirty (data : LineData)
  | poisoned
deriving DecidableEq, Repr

/-- What an entry is waiting for (R4). -/
inductive Activity where
  | idle | filling | recalling | evicting | faultHeld
deriving DecidableEq, Repr

/-- Recall kinds (R61). -/
inductive RecallKind where
  | downgrade | invalidate
deriving DecidableEq, Repr

/-- Recall purposes (R61). -/
inductive Purpose where
  | request | evict | region | close
deriving DecidableEq, Repr

/-- Outcomes of a Recall Answer (R66), with the data DATA carries. -/
inductive AnswerOutcome where
  | clean
  | data (d : LineData)
  | notHeld
deriving DecidableEq, Repr

/-- Origins of journal entries (R82). -/
inductive Origin where
  | evict | flush | through | supply | retry
deriving DecidableEq, Repr

/-- States of journal entries (R80). -/
inductive JournalState where
  | queued | writing | faulted
deriving DecidableEq, Repr

/-- Session states (R169). -/
inductive SessionState where
  | down | idle | online | closing | fenced
deriving DecidableEq, Repr

/-- Causes of fences and revocations (R75, R172). -/
inductive Cause where
  | recallTimeout | keepaliveExpired | replayLost | supervisorFence | linkLost
deriving DecidableEq, Repr

/-- Reasons of Session End (R168). -/
inductive EndReason where
  | restart | unfenced | linkRestart
deriving DecidableEq, Repr

/-- States of fault records (R117). -/
inductive RecordState where
  | posted | opened | retrying
deriving DecidableEq, Repr

/-- Kinds of fault records (R116). -/
inductive RecordKind where
  | fillFault | drainFault | holderLost
deriving DecidableEq, Repr

/-- The hub mode (R114). -/
inductive HubMode where
  | running | stopped
deriving DecidableEq, Repr

/-- Notice kinds (R149). -/
inductive NoticeKind where
  | faultPosted | agentFenced | sessionFenced | hubStopped | regionChanged | journalHigh
deriving DecidableEq, Repr

/-! ## Links and sessions (spec 09) -/

/-- A frame the hub has created: header fields and payload; its length and check follow from them (section 11.1). -/
structure Frame where
  kind    : Byte
  tag     : Byte
  seq     : Byte
  payload : List Byte
deriving DecidableEq, Repr

/-- One link unit (R158, R163). -/
structure LinkUnit where
  up            : Bool
  sendNum       : Byte
  recvNum       : Byte
  rejectPending : Option Byte
  replay        : List Frame
  /-- The expiry time while the keepalive timer runs (R171). -/
  keepalive     : Option Time
  tx            : List Frame
deriving DecidableEq, Repr

/-- One session record (R169). -/
structure Session where
  state    : SessionState
  capacity : Option Nat
  number   : Option SessionNo
deriving DecidableEq, Repr

/-! ## Notices (spec 08) -/

/-- A notice: kind, subject and data (R149). -/
structure Notice where
  kind    : NoticeKind
  subject : Option Port
  data    : Byte
deriving DecidableEq, Repr

/-- A notice in flight with its number (R152). -/
structure SentNotice where
  number : Byte
  notice : Notice
deriving DecidableEq, Repr

/-- One port's notice state (R151). -/
structure NoticeUnit where
  queue     : List Notice
  inFlight  : Option SentNotice
  counter   : Byte
  threshold : Nat
deriving DecidableEq, Repr

/-! ## Requests (spec 02) -/

/-- The name of an outstanding request (R32). -/
structure ReqId where
  port : Port
  tag  : Byte
deriving DecidableEq, Repr

/-- The kind of an outstanding request with its line and its own parameters (R31): for Write Words its first word, count
and byte enables, and its data at the bytes of the line it is for (R43). -/
inductive Req where
  | readWords (line : Line) (first count : Nat)
  | writeWords (line : Line) (first count : Nat) (enables : Enables) (data : LineData)
  | acquireRead (line : Line)
  | acquireWrite (line : Line)
  | upgrade (line : Line)
  | flush (line : Line)
  | sync
  | goodbye
  | hubStatus
  | regionSet (region : RegionId)
  | storeRead (line : Line)
  | storeWrite (line : Line) (data : LineData)
deriving DecidableEq, Repr

/-- An outstanding request record (R31). -/
structure Request where
  id  : ReqId
  req : Req
deriving DecidableEq, Repr

/-- An item of the sync list (R96): the Syncs and Flushes that wait on the journal. -/
inductive SyncKind where
  /-- A Flush, waiting on the entry with this sequence number. -/
  | flush (seq : Seq)
  /-- A Sync with its mark; `covered` names the entries at or below the mark still in the journal (R81; log entry 16). -/
  | sync (mark : Seq) (covered : List Seq)
deriving DecidableEq, Repr

structure SyncItem where
  id          : ReqId
  kind        : SyncKind
  partialFlag : Bool
deriving DecidableEq, Repr

/-! ## The line table (spec 01) -/

/-- An in-use entry of the line table (R1). -/
structure Entry where
  line       : Line
  region     : RegionId
  copy       : HubCopy
  holdings   : Vector Holding 4
  activity   : Activity
  waiters    : List ReqId
  prefetched : Bool
  recordId   : Option Byte
deriving DecidableEq, Repr

/-! ## Recalls (spec 03) -/

/-- A recall that waits for a table entry (R62). -/
structure WaitingRecall where
  line    : Line
  port    : Port
  kind    : RecallKind
  purpose : Purpose
deriving DecidableEq, Repr

/-- An open recall (R61): what was asked, its id and its deadline. -/
structure Recall where
  id       : Byte
  asked    : WaitingRecall
  deadline : Time
deriving DecidableEq, Repr

/-! ## The journal (spec 04) -/

/-- A journal entry (R80). -/
structure JournalEntry where
  line   : Line
  data   : LineData
  seq    : Seq
  origin : Origin
  state  : JournalState
deriving DecidableEq, Repr

/-- A waiter of the journal-space queue (R87). -/
inductive SpaceWaiter where
  | allocHead
  | line (l : Line) (origin : Origin)
deriving DecidableEq, Repr

/-! ## The backing store port (spec 05) -/

/-- The DIRECT job kinds (R103). -/
inductive DirectOp where
  | read | write | readModifyWrite | storeRead | storeWrite
deriving DecidableEq, Repr

/-- A DIRECT job that waits for its grant (R107). -/
structure DirectJob where
  id      : ReqId
  op      : DirectOp
  line    : Line
  enables : Enables
  data    : LineData
deriving DecidableEq, Repr

/-- To whom the outcome of a job is handed (R103). `orphan` marks a DIRECT job whose request was fenced or discarded
while the job was in flight (R106). -/
inductive JobOwner where
  | fill
  | drain (seq : Seq)
  | direct (op : DirectOp) (id : ReqId) (orphan : Bool)
deriving DecidableEq, Repr

/-- The job in flight (R103, R104): what it transfers and how far it is. -/
structure Job where
  owner    : JobOwner
  line     : Line
  /-- The data a write transfer carries. -/
  data     : LineData
  /-- The bytes a read-modify-write merges (R105). -/
  enables  : Enables
  /-- The half-words taken so far by a read transfer. -/
  buffer   : LineData
  /-- The transfer in progress is a write. -/
  writing  : Bool
  /-- The half-word of the access in progress, 0 to 15. -/
  index    : Nat
  /-- The access has its strobe asserted; otherwise it waits for MRDY and MERR to be inactive (R101). -/
  strobed  : Bool
  /-- The store timeout in force for this wait or access, in tenths of a ms (R101, R102). -/
  timeout  : Nat
deriving DecidableEq, Repr

/-- The backing store bus as the hub drives it (R100, R101); levels of the active-low pins are held as levels. `ma` is
absent outside an access, where the manual states no address (log entry 10). -/
structure Bus where
  ma    : Option HalfAddr
  md    : Option HalfWord
  mselN : Bool
  mrdN  : Bool
  mwrN  : Bool
deriving DecidableEq, Repr

/-! ## Fault records (spec 06) -/

/-- The fields of a fault record that depend on its kind (R116). -/
inductive RecordBody where
  | fillFault (line : Line) (cause : StoreCause) (attempts : Nat)
  | drainFault (line : Line) (cause : StoreCause) (attempts : Nat) (seq : Seq) (origin : Origin) (data : LineData)
  | holderLost (port : Port) (cause : Cause) (lines : List Line)
deriving DecidableEq, Repr

/-- A fault record (R116). -/
structure FaultRecord where
  id      : Byte
  state   : RecordState
  created : Time
  body    : RecordBody
deriving DecidableEq, Repr

/-! ## Regions and timers (spec 07, 10) -/

/-- A region descriptor (R136). -/
structure Region where
  enabled : Bool
  first   : Line
  count   : Nat
  cls     : RegionClass
  access  : Vector Access 4
deriving DecidableEq, Repr

/-- The three timer values (R181). -/
structure Timers where
  recallMs    : Nat
  keepaliveMs : Nat
  storeTenths : Nat
deriving DecidableEq, Repr

end Sys2Proof.Machine

namespace Sys2Proof.Machine

/-- The state of the hub. -/
structure State where
  /-- The commands that wait, first in, first out: the model's own field (log entry 2). -/
  pending        : List Instr
  /-- The level of RESET_N (R186). -/
  resetN         : Bool
  /-- The STOP pin, asserted or not (R114, R122). -/
  stopOut        : Bool
  bus            : Bus
  /-- The level of MRDY (R101). -/
  mrdy           : Bool
  /-- The level of MERR (R101). -/
  merr           : Bool
  supervisor     : Port
  hubTime        : Time
  timers         : Timers
  links          : Vector LinkUnit 4
  sessions       : Vector Session 4
  sessionCounter : SessionNo
  notices        : Vector NoticeUnit 4
  /-- Outstanding requests in the order of their admission (R31). -/
  requests       : List Request
  allocQueue     : List ReqId
  syncList       : List SyncItem
  /-- In-use entries in recency order, most recent first (R1, R6). -/
  table          : List Entry
  recalls        : List Recall
  recallWait     : List WaitingRecall
  recallCounter  : Byte
  /-- Journal entries in the order of their insertion, oldest first (R80). -/
  journal        : List JournalEntry
  seqCounter     : Seq
  jspace         : List SpaceWaiter
  /-- The high water alarm is armed (R98). -/
  highAlarm      : Bool
  job            : Option Job
  fillQueue      : List Line
  directQueue    : List DirectJob
  passCount      : Nat
  faultQueue     : List FaultRecord
  stopRecord     : Option FaultRecord
  recordCounter  : Byte
  mode           : HubMode
  regions        : Vector Region 8
  /-- The completion record: the region whose Region Set is completing (R136). -/
  completing     : Option RegionId
deriving DecidableEq, Repr

/-- No command of this hub ends in a fault: what goes wrong is state (fault records, the stop record, FENCED sessions)
or a reply status. The type is closed and empty, so that is safe: no run can be cut short by a fault. -/
inductive Fault where
deriving DecidableEq, Repr

/-- Why a command has no meaning. -/
inductive Refusal where
  /-- Raised by an arm of `exec` for a command the model gives no meaning yet; safe, the run stops. No arm raises it. -/
  | notModelled (mnemonic : String)
deriving DecidableEq, Repr

/-- The bus with no access in progress (R103, R113). -/
def Bus.quiet : Bus := { ma := none, md := none, mselN := true, mrdN := true, mwrN := true }

/-- A link unit after power-on reset (R158). -/
def LinkUnit.reset : LinkUnit :=
  { up := false, sendNum := 0, recvNum := 0, rejectPending := none, replay := [], keepalive := none, tx := [] }

/-- A session record after power-on reset (R169). -/
def Session.reset : Session := { state := .down, capacity := none, number := none }

/-- A port's notice state after reset, after Restart and between sessions (R151, R156). -/
def NoticeUnit.reset : NoticeUnit := { queue := [], inFlight := none, counter := 0, threshold := 0 }

/-- A descriptor after reset and Restart (R136). -/
def Region.reset : Region :=
  { enabled := false, first := 0, count := 0, cls := .tracked, access := Vector.replicate 4 .none }

/-- The timer values after reset and Restart (R181). -/
def Timers.reset : Timers :=
  { recallMs := Config.defaultRecallTimeout, keepaliveMs := Config.defaultKeepalive, storeTenths := Config.defaultStoreTimeout }

/-- The hub right after power-on reset (R186 and the rules it names). DESIGN CHOICE: both straps low, so P0 is the
supervisor (log entry 1), and MRDY and MERR inactive (log entry 11). -/
def State.reset : State :=
  { pending := []
    resetN := true
    stopOut := false
    bus := Bus.quiet
    mrdy := false
    merr := false
    supervisor := Config.resetSupervisor
    hubTime := 0
    timers := Timers.reset
    links := Vector.replicate 4 LinkUnit.reset
    sessions := Vector.replicate 4 Session.reset
    sessionCounter := 0
    notices := Vector.replicate 4 NoticeUnit.reset
    requests := []
    allocQueue := []
    syncList := []
    table := []
    recalls := []
    recallWait := []
    recallCounter := 0
    journal := []
    seqCounter := 1
    jspace := []
    highAlarm := true
    job := none
    fillQueue := []
    directQueue := []
    passCount := 0
    faultQueue := []
    stopRecord := none
    recordCounter := 1
    mode := .running
    regions := Vector.replicate 8 Region.reset
    completing := none }

end Sys2Proof.Machine
end

