-- ==== Sys2Proof/Machine/Bytes.lean ====
section
/-! DEFINITION. Byte order: bytes, half-words and words of a line, little-endian numbers in payloads (spec 00, R43, R100,
spec 11). -/

namespace Sys2Proof.Machine

/-- Byte i of a line (spec 00). -/
def byteAt (d : LineData) (i : Nat) : Byte := d.extractLsb' (8 * i) 8

/-- The line with byte i replaced. -/
def setByte (d : LineData) (i : Nat) (b : Byte) : LineData :=
  (d &&& ~~~((0xFF : LineData) <<< (8 * i))) ||| (b.setWidth 256 <<< (8 * i))

/-- The 32 bytes of a line, byte 0 first (spec 11). -/
def lineBytes (d : LineData) : List Byte := (List.range 32).map (byteAt d)

/-- The line whose bytes from byte 0 on are those of the list. -/
def lineOfBytes : List Byte → LineData
  | [] => 0
  | b :: bs => b.setWidth 256 ||| (lineOfBytes bs <<< 8)

/-- The bytes of `count` words from word `first` on (R41, R42). -/
def wordBytes (d : LineData) (first count : Nat) : List Byte :=
  (List.range (4 * count)).map fun j => byteAt d (4 * first + j)

/-- Half-word j of a line: the lower-numbered byte on MD7 to MD0 (R100). -/
def halfWordAt (d : LineData) (j : Nat) : HalfWord := d.extractLsb' (16 * j) 16

/-- The line with half-word j replaced. -/
def setHalfWord (d : LineData) (j : Nat) (h : HalfWord) : LineData :=
  (d &&& ~~~((0xFFFF : LineData) <<< (16 * j))) ||| (h.setWidth 256 <<< (16 * j))

/-- The byte-by-byte merge of Write Words: each enabled byte is taken from the new data (R43). -/
def mergeBytes (old new : LineData) (en : Enables) : LineData :=
  (List.range 32).foldl (fun d i => if en.getLsbD i then setByte d i (byteAt new i) else d) old

/-- The half-word address of half-word j of a line: line times 16, plus j (R100). -/
def halfAddr (l : Line) (j : Nat) : HalfAddr := (l.setWidth 20 <<< 4) + BitVec.ofNat 20 j

/-- A two-byte number as sent, low byte first (spec 11). -/
def le16 (v : BitVec 16) : List Byte := [v.extractLsb' 0 8, v.extractLsb' 8 8]

/-- A four-byte number as sent, low byte first (spec 11). -/
def le32 (v : BitVec 32) : List Byte :=
  [v.extractLsb' 0 8, v.extractLsb' 8 8, v.extractLsb' 16 8, v.extractLsb' 24 8]

/-- A count as a two-byte number. -/
def count16 (n : Nat) : List Byte := le16 (BitVec.ofNat 16 n)

/-- A count as one byte. -/
def count8 (n : Nat) : Byte := BitVec.ofNat 8 n

/-- The two-byte number with these bytes. -/
def of16 (lo hi : Byte) : BitVec 16 := hi ++ lo

/-- The four-byte number with these bytes, lowest first. -/
def of32 (b0 b1 b2 b3 : Byte) : BitVec 32 := (b3 ++ b2 ++ b1 ++ b0 : BitVec (8 + 8 + 8 + 8))

/-- A one-bit field as a byte: 1 when set (section 11.4). -/
def bit (b : Bool) : Byte := if b then 1 else 0

/-- A port as a byte. -/
def portByte (p : Port) : Byte := BitVec.ofNat 8 p.val

/-- The ports in ascending order. -/
def ports : List Port := [0, 1, 2, 3]

/-- The region indices in ascending order. -/
def regionIds : List RegionId := [0, 1, 2, 3, 4, 5, 6, 7]

end Sys2Proof.Machine
end

