-- ==== Sys2Proof/Machine/Codes.lean ====
section
/-! DEFINITION. The codes of section 11.2 and section 11.5, and the tables that belong to a request kind (R35, R123,
R149, R153, R154, R179). -/

namespace Sys2Proof.Machine

/-- Kind codes of requests (section 11.2). -/
def Kind.code : Kind → Byte
  | .hello => 0x10 | .goodbye => 0x11 | .noticeAck => 0x12 | .setThreshold => 0x13 | .regionQuery => 0x14
  | .readWords => 0x20 | .writeWords => 0x21 | .acquireRead => 0x22 | .acquireWrite => 0x23 | .upgrade => 0x24
  | .release => 0x25 | .prefetch => 0x26 | .flush => 0x27 | .sync => 0x28
  | .hubStatus => 0x40 | .setTimers => 0x41 | .fence => 0x42 | .unfence => 0x43 | .restart => 0x44
  | .regionSet => 0x45 | .faultList => 0x46 | .faultRead => 0x47 | .resolve => 0x48 | .supplyLine => 0x49
  | .storeRead => 0x4A | .storeWrite => 0x4B

/-- Link frame kinds (section 11.2). -/
def pingKind : Byte := 0x01
def pongKind : Byte := 0x02
def linkRejectKind : Byte := 0x03
def replayRequestKind : Byte := 0x04
def linkRestartKind : Byte := 0x05
def sessionEndKind : Byte := 0x06

/-- Sequenced kinds that are no requests (section 11.2). -/
def recallAnswerKind : Byte := 0x30
def replyKind : Byte := 0x80
def recallKind : Byte := 0x81
def noticeKind : Byte := 0x82

/-- A kind byte in the range of the link frames, 0x00 to 0x0F (R160). -/
def isLinkKind (k : Byte) : Bool := k.toNat < 0x10

/-- A link kind the hub discards when an agent sends it: Pong, Link Reject, Session End and the unassigned link codes
(R160, R188). -/
def isDiscardedLinkKind (k : Byte) : Bool :=
  isLinkKind k && k != pingKind && k != replayRequestKind && k != linkRestartKind

/-- A kind of the agent-to-hub rows of the kind table above the link range (section 11.2). -/
def isAgentKind (k : Byte) : Bool :=
  (0x10 ≤ k.toNat && k.toNat ≤ 0x14) || (0x20 ≤ k.toNat && k.toNat ≤ 0x28) || k.toNat == 0x30 ||
    (0x40 ≤ k.toNat && k.toNat ≤ 0x4B)

/-- Only the supervisor's port may send the kind (section 11.2, R179). -/
def Kind.supervisorOnly : Kind → Bool
  | .hubStatus | .setTimers | .fence | .unfence | .restart | .regionSet | .faultList | .faultRead | .resolve
  | .supplyLine | .storeRead | .storeWrite => true
  | _ => false

/-- The kind is admitted from the supervisor's port while that port is FENCED (R179). -/
def Kind.supervisorFenced : Kind → Bool
  | .hubStatus | .unfence | .restart | .faultList | .faultRead | .resolve | .supplyLine => true
  | _ => false

/-- The kind is admitted from any port in CLOSING and FENCED: Notice Ack and Set Threshold (R153, R154, R173, R174). -/
def Kind.anySession : Kind → Bool
  | .noticeAck | .setThreshold => true
  | _ => false

/-- The kind is admitted while the hub is STOPPED (R123). -/
def Kind.inStopped : Kind → Bool
  | .hello | .goodbye | .noticeAck | .setThreshold | .release | .hubStatus | .faultList | .faultRead | .storeRead
  | .storeWrite | .restart => true
  | _ => false

/-- Status codes (section 11.5). -/
def Status.code : Status → Byte
  | .done => 0x00 | .partialDone => 0x01 | .noSession => 0x02 | .closing => 0x03 | .fenced => 0x04
  | .unknownKind => 0x05 | .notPermitted => 0x06 | .badFormat => 0x07 | .tagBusy => 0x08 | .tooMany => 0x09
  | .hubStopped => 0x0A | .revision => 0x0B | .outOfImage => 0x0C | .noAccess => 0x0D | .notCacheable => 0x0E
  | .alreadyHeld => 0x0F | .notHeld => 0x10 | .ownHolding => 0x11 | .holdLimit => 0x12 | .linePoisoned => 0x13
  | .tableFull => 0x14 | .storeFault => 0x15 | .sessionOpen => 0x16 | .noNotice => 0x17 | .notOnline => 0x18
  | .notFenced => 0x19 | .overlap => 0x1A | .regionInUse => 0x1B | .regionBusy => 0x1C | .noRecord => 0x1D
  | .recordBusy => 0x1E | .unread => 0x1F | .wrongAction => 0x20 | .retryLimit => 0x21 | .notListed => 0x22
  | .lineTracked => 0x23

/-- Notice kind codes (section 11.5). -/
def NoticeKind.code : NoticeKind → Byte
  | .faultPosted => 1 | .agentFenced => 2 | .sessionFenced => 3 | .hubStopped => 4 | .regionChanged => 5
  | .journalHigh => 6

/-- The fixed priorities of the notice kinds (R149). -/
def NoticeKind.priority : NoticeKind → Nat
  | .faultPosted => 5 | .agentFenced => 7 | .sessionFenced => 7 | .hubStopped => 7 | .regionChanged => 2
  | .journalHigh => 3

/-- The session states in which a port receives a notice of the kind (R149). -/
def NoticeKind.receivedIn : NoticeKind → SessionState → Bool
  | .regionChanged, .online => true
  | .regionChanged, _ => false
  | .sessionFenced, .fenced => true
  | .sessionFenced, _ => false
  | _, .online => true
  | _, .closing => true
  | _, .fenced => true
  | _, _ => false

/-- Fence and revocation cause codes (section 11.5). -/
def Cause.code : Cause → Byte
  | .recallTimeout => 1 | .keepaliveExpired => 2 | .replayLost => 3 | .supervisorFence => 4 | .linkLost => 5

/-- Session End reason codes (section 11.5). -/
def EndReason.code : EndReason → Byte
  | .restart => 1 | .unfenced => 2 | .linkRestart => 3

/-- Recall kind codes (section 11.5). -/
def RecallKind.code : RecallKind → Byte
  | .downgrade => 1 | .invalidate => 2

/-- Recall purpose codes (section 11.5). -/
def Purpose.code : Purpose → Byte
  | .request => 1 | .evict => 2 | .region => 3 | .close => 4

/-- Class codes (section 11.5). -/
def RegionClass.code : RegionClass → Byte
  | .tracked => 0 | .writeThrough => 1 | .plain => 2

/-- The class with this code, none for an unlisted code (R190). -/
def RegionClass.ofCode (b : Byte) : Option RegionClass :=
  if b = 0 then some .tracked else if b = 1 then some .writeThrough else if b = 2 then some .plain else none

/-- Access codes (section 11.5). -/
def Access.code : Access → Byte
  | .none => 0 | .read => 1 | .full => 2

/-- The access with this two-bit code, none for the unlisted value 3 (R190). -/
def Access.ofCode (b : BitVec 2) : Option Access :=
  if b = 0 then some .none else if b = 1 then some .read else if b = 2 then some .full else Option.none

/-- Record kind codes (section 11.5). -/
def RecordKind.code : RecordKind → Byte
  | .fillFault => 1 | .drainFault => 2 | .holderLost => 3

/-- Record state codes (section 11.5). -/
def RecordState.code : RecordState → Byte
  | .posted => 1 | .opened => 2 | .retrying => 3

/-- Journal origin codes (section 11.5). -/
def Origin.code : Origin → Byte
  | .evict => 1 | .flush => 2 | .through => 3 | .supply => 4 | .retry => 5

/-- Resolve action codes (section 11.5). -/
def Action.code : Action → Byte
  | .retry => 1 | .supply => 2 | .fail => 3 | .complete => 4 | .abandon => 5 | .revert => 6

/-- Hub mode codes (section 11.5). -/
def HubMode.code : HubMode → Byte
  | .running => 0 | .stopped => 1

/-- Session state codes (section 11.5). -/
def SessionState.code : SessionState → Byte
  | .down => 0 | .idle => 1 | .online => 2 | .closing => 3 | .fenced => 4

/-- Codes of the job in flight (section 11.5). -/
def JobOwner.code : JobOwner → Byte
  | .fill => 1
  | .drain _ => 2
  | .direct .read _ _ => 3
  | .direct .write _ _ => 4
  | .direct .readModifyWrite _ _ => 5
  | .direct .storeRead _ _ => 6
  | .direct .storeWrite _ _ => 7

/-- The kind of an outstanding request. -/
def Req.kind : Req → Kind
  | .readWords _ _ _ => .readWords
  | .writeWords _ _ _ _ _ => .writeWords
  | .acquireRead _ => .acquireRead
  | .acquireWrite _ => .acquireWrite
  | .upgrade _ => .upgrade
  | .flush _ => .flush
  | .sync => .sync
  | .goodbye => .goodbye
  | .hubStatus => .hubStatus
  | .regionSet _ => .regionSet
  | .storeRead _ => .storeRead
  | .storeWrite _ _ => .storeWrite

/-- The line an outstanding request names, if its kind names one (R31). -/
def Req.line? : Req → Option Line
  | .readWords l _ _ | .writeWords l _ _ _ _ | .acquireRead l | .acquireWrite l | .upgrade l | .flush l | .storeRead l
  | .storeWrite l _ => some l
  | .sync | .goodbye | .hubStatus | .regionSet _ => none

/-- The kind of a fault record (R116). -/
def RecordBody.kind : RecordBody → RecordKind
  | .fillFault _ _ _ => .fillFault
  | .drainFault _ _ _ _ _ _ => .drainFault
  | .holderLost _ _ _ => .holderLost

end Sys2Proof.Machine

namespace Sys2Proof

/-- Store cause codes (section 11.5). -/
def StoreCause.code : StoreCause → Byte
  | .storeError => 1 | .storeTimeout => 2

end Sys2Proof
end

