-- ==== Sys2Proof/Machine/Operands.lean ====
section
/-! DEFINITION. The operand forms: request payloads read as section 11.3 lays them out, with the ranges of each kind's
own rule. `none` is BAD_FORMAT at check 3 (R189, R190). -/

namespace Sys2Proof.Machine

/-- An empty payload (Goodbye, Sync, Hub Status, Restart, Fault List). -/
def parseEmpty : List Byte → Option Unit
  | [] => some ()
  | _ => none

/-- One line number (Acquire Read, Acquire Write, Upgrade, Prefetch, Flush, Store Read). -/
def parseLine : List Byte → Option Line
  | [l0, l1] => some (of16 l0 l1)
  | _ => none

/-- 32 bytes of line data, no more and no less. -/
def parseData (bs : List Byte) : Option LineData :=
  if bs.length = 32 then some (lineOfBytes bs) else none

/-- The limits of a word range: first word 0 to 7, count 1 to 8, together at most 8 (R41). -/
def wordRange (first count : Nat) : Bool := first ≤ 7 && 1 ≤ count && count ≤ 8 && first + count ≤ 8

/-- Read Words: line, first word, count (R41). -/
def parseReadWords : List Byte → Option (Line × Nat × Nat)
  | [l0, l1, f, c] => if wordRange f.toNat c.toNat then some (of16 l0 l1, f.toNat, c.toNat) else none
  | _ => none

/-- Every enable lies in the words from the first on (R43). -/
def enablesInside (en : Enables) (first count : Nat) : Bool :=
  (List.range 32).all fun i => !en.getLsbD i || (4 * first ≤ i && i < 4 * (first + count))

/-- A Write Words as read from its payload; the data stands at the bytes of the line it is for. -/
structure WriteOperand where
  line    : Line
  first   : Nat
  count   : Nat
  enables : Enables
  data    : LineData
deriving DecidableEq, Repr

/-- Write Words: line, first word, count, byte enables, data of exactly count words; an enable is set, none outside the
words (R43, section 11.3). -/
def parseWriteWords : List Byte → Option WriteOperand
  | l0 :: l1 :: f :: c :: e0 :: e1 :: e2 :: e3 :: data =>
    let first := f.toNat
    let count := c.toNat
    let en := of32 e0 e1 e2 e3
    if wordRange first count && data.length == 4 * count && en != 0 && enablesInside en first count then
      some { line := of16 l0 l1, first := first, count := count, enables := en,
             data := lineOfBytes (List.replicate (4 * first) 0 ++ data) }
    else none
  | _ => none

/-- A full-line write has all 32 byte enables set (R43). -/
def isFullLine (en : Enables) : Bool := en == BitVec.allOnes 32

/-- Release: line, and 32 bytes when data is carried (R49). -/
def parseRelease : List Byte → Option (Line × Option LineData)
  | [l0, l1] => some (of16 l0 l1, none)
  | l0 :: l1 :: data => (parseData data).map fun d => (of16 l0 l1, some d)
  | _ => none

/-- A Recall Answer as read from its payload (R66). -/
structure AnswerOperand where
  id      : Byte
  line    : Line
  outcome : AnswerOutcome
deriving DecidableEq, Repr

/-- Recall Answer: recall id, line, outcome, and 32 bytes exactly with DATA (R66). -/
def parseRecallAnswer : List Byte → Option AnswerOperand
  | id :: l0 :: l1 :: o :: data =>
    if o = 2 then (parseData data).map fun d => { id := id, line := of16 l0 l1, outcome := .data d }
    else if data ≠ [] then none
    else if o = 1 then some { id := id, line := of16 l0 l1, outcome := .clean }
    else if o = 3 then some { id := id, line := of16 l0 l1, outcome := .notHeld }
    else none
  | _ => none

/-- Hello: protocol revision and capacity, 0 to 512 (R170). -/
def parseHello : List Byte → Option (Byte × Nat)
  | [r, c0, c1] => if (of16 c0 c1).toNat ≤ Config.maxCapacity then some (r, (of16 c0 c1).toNat) else none
  | _ => none

/-- Notice Ack: one notice number (R153). -/
def parseByte : List Byte → Option Byte
  | [b] => some b
  | _ => none

/-- Set Threshold: one threshold, 0 to 7 (R154). -/
def parseThreshold : List Byte → Option Nat
  | [b] => if b.toNat ≤ 7 then some b.toNat else none
  | _ => none

/-- A region index, 0 to 7 (R141, R148). -/
def regionOfByte (b : Byte) : Option RegionId := if h : b.toNat < 8 then some ⟨b.toNat, h⟩ else none

/-- Region Query: one region index (R148). -/
def parseRegion : List Byte → Option RegionId
  | [b] => regionOfByte b
  | _ => none

/-- A port number, 0 to 3 (R182, R183). -/
def portOfByte (b : Byte) : Option Port := if h : b.toNat < 4 then some ⟨b.toNat, h⟩ else none

/-- Fence and Unfence: one port number (R182). -/
def parsePort : List Byte → Option Port
  | [b] => portOfByte b
  | _ => none

/-- Set Timers: the three values, each in its range (R181). -/
def parseTimers : List Byte → Option Timers
  | [r0, r1, k0, k1, s] =>
    let t : Timers := { recallMs := (of16 r0 r1).toNat, keepaliveMs := (of16 k0 k1).toNat, storeTenths := s.toNat }
    if 1 ≤ t.recallMs && t.recallMs ≤ 1000 && 20 ≤ t.keepaliveMs && t.keepaliveMs ≤ 5000 &&
        1 ≤ t.storeTenths && t.storeTenths ≤ 100 then some t else none
  | _ => none

/-- The access byte: two bits per port, P0 in bits 1 to 0 (section 11.3); a pair of value 3 is unlisted (R190). -/
def parseAccess (b : Byte) : Option (Vector Access 4) :=
  match Access.ofCode (b.extractLsb' 0 2), Access.ofCode (b.extractLsb' 2 2), Access.ofCode (b.extractLsb' 4 2),
      Access.ofCode (b.extractLsb' 6 2) with
  | some a0, some a1, some a2, some a3 => some #v[a0, a1, a2, a3]
  | _, _, _, _ => none

/-- The ranges of a descriptor (R136, R141). -/
def Region.inRange (r : Region) : Bool :=
  r.count ≤ Config.imageLines && r.first.toNat + r.count ≤ Config.imageLines && (!r.enabled || 1 ≤ r.count)

/-- Region Set: region index and descriptor; the flags byte's bits above bit 0 are ignored (R141, R190). -/
def parseRegionSet : List Byte → Option (RegionId × Region)
  | [i, fl, f0, f1, c0, c1, c2, c3, cl, ac] =>
    match regionOfByte i, RegionClass.ofCode cl, parseAccess ac with
    | some id, some cls, some acc =>
      let r : Region := { enabled := fl.getLsbD 0, first := of16 f0 f1, count := (of32 c0 c1 c2 c3).toNat, cls := cls,
                          access := acc }
      if r.inRange then some (id, r) else none
    | _, _, _ => none
  | _ => none

/-- Fault Read: record id and part (R126). -/
def parseFaultRead : List Byte → Option (Byte × Nat)
  | [id, part] => some (id, part.toNat)
  | _ => none

/-- Resolve with one given action: record id, the action's code, and data of exactly 32 bytes when data is carried
(R127; log entry 13). -/
def parseResolve (a : Action) : List Byte → Option (Byte × Option LineData)
  | [id, act] => if act = a.code then some (id, none) else none
  | id :: act :: data => if act = a.code then (parseData data).map fun d => (id, some d) else none
  | _ => none

/-- Supply Line: record id, line and 32 bytes (R134). -/
def parseSupplyLine : List Byte → Option (Byte × Line × LineData)
  | id :: l0 :: l1 :: data => (parseData data).map fun d => (id, of16 l0 l1, d)
  | _ => none

/-- Store Write: line and 32 bytes (R110). -/
def parseStoreWrite : List Byte → Option (Line × LineData)
  | l0 :: l1 :: data => (parseData data).map fun d => (of16 l0 l1, d)
  | _ => none

/-- Link Restart: a flags byte whose bit 0 is the answer flag; the other bits are ignored (section 11.2, R190). -/
def parseAnswerFlag : List Byte → Option Bool
  | [b] => some (b.getLsbD 0)
  | _ => none

end Sys2Proof.Machine
end

