-- ==== Sys2Proof/Machine/Frames.lean ====
section
/-! DEFINITION. Frames on the lane: the check, the bytes of a frame, and the payloads the hub sends (R160, section 11.1,
section 11.4, section 11.6). -/

namespace Sys2Proof.Machine

/-- One bit of the check's division by 0x1021, most significant bit first (section 11.1). -/
def crcShift (c : BitVec 16) : BitVec 16 := if c.msb then (c <<< 1) ^^^ 0x1021#16 else c <<< 1

/-- One byte entered into the check. -/
def crcByte (c : BitVec 16) (b : Byte) : BitVec 16 :=
  crcShift (crcShift (crcShift (crcShift (crcShift (crcShift (crcShift (crcShift (c ^^^ (b ++ 0#8)))))))))

/-- The check of a frame: CRC-16, polynomial 0x1021, initial value 0xFFFF, no reflection, no final inversion
(section 11.1). -/
def crc16 (bs : List Byte) : BitVec 16 := bs.foldl crcByte 0xFFFF#16

/-- A frame's header and payload (section 11.1). -/
def Frame.body (f : Frame) : List Byte := f.kind :: f.tag :: f.seq :: count8 f.payload.length :: f.payload

/-- The bytes of a frame as the lane carries them: header, payload, check low byte first (section 11.1). -/
def Frame.bytes (f : Frame) : List Byte := f.body ++ le16 (crc16 f.body)

/-- A received run of bytes is a good frame (R160): at least six bytes, length field at most 240 and equal to the
number of bytes less six, and the check right. -/
def isGoodFrame (bs : List Byte) : Bool :=
  match bs with
  | _ :: _ :: _ :: len :: rest =>
    2 ≤ rest.length && len.toNat ≤ Config.maxPayload && len.toNat + 6 == bs.length &&
      bs.drop (bs.length - 2) == le16 (crc16 (bs.take (bs.length - 2)))
  | _ => false

/-- The frame the hub sends as a Reply: status code, then the kind's data (section 11.4). -/
def replyPayload (st : Status) (data : List Byte) : List Byte := st.code :: data

/-- A Recall's payload: recall id, line, kind, purpose (section 11.4). -/
def recallPayload (id : Byte) (w : WaitingRecall) : List Byte :=
  id :: le16 w.line ++ [w.kind.code, w.purpose.code]

/-- The subject byte of a notice: the port, or 0xFF for none (section 11.4). -/
def subjectByte : Option Port → Byte
  | none => 0xFF
  | some p => portByte p

/-- A Notice's payload: number, kind, subject, data (section 11.4). -/
def noticePayload (n : SentNotice) : List Byte :=
  [n.number, n.notice.kind.code, subjectByte n.notice.subject, n.notice.data]

/-- A Session End's payload: reason, then the session number (section 11.2). -/
def sessionEndPayload (r : EndReason) (no : SessionNo) : List Byte := r.code :: le16 no

/-- The access byte of a descriptor: two bits per port (section 11.3). -/
def accessByte (a : Vector Access 4) : Byte :=
  a[0].code ||| (a[1].code <<< 2) ||| (a[2].code <<< 4) ||| (a[3].code <<< 6)

/-- A descriptor in the reply to Region Query, with the completing flag in bit 1 (section 11.3, R148). -/
def descriptorBytes (r : Region) (completing : Bool) : List Byte :=
  (bit r.enabled ||| (bit completing <<< 1)) :: le16 r.first ++ le32 (BitVec.ofNat 32 r.count) ++
    [r.cls.code, accessByte r.access]

/-- What the lane of a port carries: nothing while RESET_N is low, the frame at the head of the transmit queue, or the
idle pattern (R159, R163, R186). -/
inductive LaneOutput where
  | nothing
  | idlePattern
  | sending (bytes : List Byte)
deriving DecidableEq, Repr

def State.laneOutput (s : State) (p : Port) : LaneOutput :=
  if !s.resetN then .nothing
  else match s.links[p].tx with
    | [] => .idlePattern
    | f :: _ => .sending f.bytes

end Sys2Proof.Machine
end

