-- ==== Sys2Proof/WellFormed.lean ====
section
/-! DEFINITION. The well-formed commands: those that the lane, the frames of chapter 11 and the rows of the table can
bring. -/

namespace Sys2Proof

open Machine

/-- The payload of a good frame has at most 240 bytes (R160). -/
def payloadFits (bs : List Byte) : Bool := bs.length ≤ Config.maxPayload

/-- The action byte of a Resolve payload, when it has one (section 11.3). -/
def actionByte? (bs : List Byte) : Option Byte := bs[1]?

/-- A Resolve frame belongs to the row of the action it carries (log entry 13). -/
def carriesAction (a : Action) (bs : List Byte) : Bool := actionByte? bs == some a.code

/-- The frame carries one of the actions with a row other than RETRY's. -/
def carriesOther (bs : List Byte) : Bool :=
  [Action.supply, .fail, .complete, .abandon, .revert].any fun a => carriesAction a bs

/-- The well-formed commands. -/
def Instr.wellFormed : Instr → Bool
  | .readWords _ f | .writeWords _ f | .acquireRead _ f | .acquireWrite _ f | .upgrade _ f | .release _ f
  | .prefetch _ f | .flush _ f | .sync _ f | .recallAnswer _ f | .hello _ f | .goodbye _ f | .noticeAck _ f
  | .setThreshold _ f | .regionQuery _ f | .hubStatus _ f | .setTimers _ f | .fence _ f | .unfence _ f | .restart _ f
  | .regionSet _ f | .faultList _ f | .faultRead _ f | .supplyLine _ f | .storeRead _ f | .storeWrite _ f =>
    payloadFits f.payload
  | .resolveRetry _ f => payloadFits f.payload && !carriesOther f.payload
  | .resolveSupply _ f => payloadFits f.payload && carriesAction .supply f.payload
  | .resolveFail _ f => payloadFits f.payload && carriesAction .fail f.payload
  | .resolveComplete _ f => payloadFits f.payload && carriesAction .complete f.payload
  | .resolveAbandon _ f => payloadFits f.payload && carriesAction .abandon f.payload
  | .resolveRevert _ f => payloadFits f.payload && carriesAction .revert f.payload
  | .unknownKindFrame _ kind f => payloadFits f.payload && !isLinkKind kind && !isAgentKind kind
  | .ping _ _ payload | .replayRequest _ payload | .linkRestart _ payload => payloadFits payload
  | .discardedLinkFrame _ kind => isDiscardedLinkKind kind
  | .damagedFrame _ _ | .unexpectedSequence _ _ | .linkUp _ | .linkDown _ | .keepaliveExpired _ | .recallTimeout _
  | .powerOnReset _ _ | .storeTimeout | .fillComplete _ | .fillFailed _ | .drainComplete | .drainFailed _
  | .directJobComplete _ | .directJobFailed _ | .grant | .waiterService _ | .allocation | .waitingRecallOpen
  | .journalSpaceService | .syncListAnswer | .goodbyeCompletion _ | .regionSetCompletion | .notice _ | .resetNLow
  | .hubTimeAdvance | .halfWordAnswered _ | .mrdyMerrInactive | .frameTransmitted _ => true

end Sys2Proof
end

