-- ==== Sys2Proof/Decode.lean ====
section
/-! DEFINITION. Words of the opcode table, which spell no command of this hub, and the bytes of a received frame, which
do (R160, R161, R164, R188, spec 11). -/

namespace Sys2Proof

open Machine

/-- The opcode table gives no row any bits, so no word spells a command (log entry 14). -/
def decodeTableWord (_nbits _w : Nat) : Option Instr := none

namespace Machine

/-- The kinds of requests, in the order of their codes (section 11.2). -/
def Kind.all : List Kind :=
  [.hello, .goodbye, .noticeAck, .setThreshold, .regionQuery, .readWords, .writeWords, .acquireRead, .acquireWrite,
   .upgrade, .release, .prefetch, .flush, .sync, .hubStatus, .setTimers, .fence, .unfence, .restart, .regionSet,
   .faultList, .faultRead, .resolve, .supplyLine, .storeRead, .storeWrite]

/-- The request kind with a code (section 11.2). -/
def Kind.ofCode (b : Byte) : Option Kind := Kind.all.find? fun k => k.code == b

/-- The row of a Resolve frame: its action's, or RETRY's when it carries no listed action (log entry 13). -/
def resolveCommand (p : Port) (f : RxFrame) : Instr :=
  if carriesAction .supply f.payload then .resolveSupply p f
  else if carriesAction .fail f.payload then .resolveFail p f
  else if carriesAction .complete f.payload then .resolveComplete p f
  else if carriesAction .abandon f.payload then .resolveAbandon p f
  else if carriesAction .revert f.payload then .resolveRevert p f
  else .resolveRetry p f

/-- The command of a request frame of a kind. -/
def Kind.command (k : Kind) (p : Port) (f : RxFrame) : Instr :=
  match k with
  | .hello => .hello p f | .goodbye => .goodbye p f | .noticeAck => .noticeAck p f | .setThreshold => .setThreshold p f
  | .regionQuery => .regionQuery p f | .readWords => .readWords p f | .writeWords => .writeWords p f
  | .acquireRead => .acquireRead p f | .acquireWrite => .acquireWrite p f | .upgrade => .upgrade p f
  | .release => .release p f | .prefetch => .prefetch p f | .flush => .flush p f | .sync => .sync p f
  | .hubStatus => .hubStatus p f | .setTimers => .setTimers p f | .fence => .fence p f | .unfence => .unfence p f
  | .restart => .restart p f | .regionSet => .regionSet p f | .faultList => .faultList p f
  | .faultRead => .faultRead p f | .resolve => resolveCommand p f | .supplyLine => .supplyLine p f
  | .storeRead => .storeRead p f | .storeWrite => .storeWrite p f

/-- The command of a good link frame (R160). -/
def linkCommand (p : Port) (kind tag : Byte) (payload : List Byte) : Instr :=
  if kind = pingKind then .ping p tag payload
  else if kind = replayRequestKind then .replayRequest p payload
  else if kind = linkRestartKind then .linkRestart p payload
  else .discardedLinkFrame p kind

/-- The command of a good sequenced frame with the receive number (R164, R188). -/
def sequencedCommand (p : Port) (kind : Byte) (f : RxFrame) : Instr :=
  if kind = recallAnswerKind then .recallAnswer p f
  else match Kind.ofCode kind with
    | some k => k.command p f
    | none => .unknownKindFrame p kind f

/-- The command that the bytes of a frame spell when they arrive on a port whose receive number is `expected`: a damaged
frame by its first byte alone (R160, R161), a link frame, a frame out of sequence (R164), or a request, Recall Answer or
unknown kind. A run of no bytes is no frame. -/
def decodeFrame (p : Port) (expected : Byte) (bytes : List Byte) : Option Instr :=
  match bytes with
  | [] => none
  | kind :: rest =>
    if !isGoodFrame bytes then some (.damagedFrame p kind)
    else match rest with
      | tag :: seq :: _ :: body =>
        let payload := body.take (body.length - 2)
        if isLinkKind kind then some (linkCommand p kind tag payload)
        else if seq = expected then some (sequencedCommand p kind { tag := tag, seq := seq, payload := payload })
        else some (.unexpectedSequence p seq)
      | _ => some (.damagedFrame p kind)

/-- The frame of a request or Recall Answer, as its agent sends it. -/
def toFrame (f : RxFrame) (kind : Byte) : Frame := { kind := kind, tag := f.tag, seq := f.seq, payload := f.payload }

/-- The frame an agent sends for a command that a good frame brings whole: the port, and the frame of section 11.1. The
other commands carry less than the frame they come from, or come from no frame. -/
def commandFrame? : Instr → Option (Port × Frame)
  | .readWords p f => some (p, toFrame f Kind.readWords.code)
  | .writeWords p f => some (p, toFrame f Kind.writeWords.code)
  | .acquireRead p f => some (p, toFrame f Kind.acquireRead.code)
  | .acquireWrite p f => some (p, toFrame f Kind.acquireWrite.code)
  | .upgrade p f => some (p, toFrame f Kind.upgrade.code)
  | .release p f => some (p, toFrame f Kind.release.code)
  | .prefetch p f => some (p, toFrame f Kind.prefetch.code)
  | .flush p f => some (p, toFrame f Kind.flush.code)
  | .sync p f => some (p, toFrame f Kind.sync.code)
  | .recallAnswer p f => some (p, toFrame f recallAnswerKind)
  | .hello p f => some (p, toFrame f Kind.hello.code)
  | .goodbye p f => some (p, toFrame f Kind.goodbye.code)
  | .noticeAck p f => some (p, toFrame f Kind.noticeAck.code)
  | .setThreshold p f => some (p, toFrame f Kind.setThreshold.code)
  | .regionQuery p f => some (p, toFrame f Kind.regionQuery.code)
  | .hubStatus p f => some (p, toFrame f Kind.hubStatus.code)
  | .setTimers p f => some (p, toFrame f Kind.setTimers.code)
  | .fence p f => some (p, toFrame f Kind.fence.code)
  | .unfence p f => some (p, toFrame f Kind.unfence.code)
  | .restart p f => some (p, toFrame f Kind.restart.code)
  | .regionSet p f => some (p, toFrame f Kind.regionSet.code)
  | .faultList p f => some (p, toFrame f Kind.faultList.code)
  | .faultRead p f => some (p, toFrame f Kind.faultRead.code)
  | .resolveRetry p f | .resolveSupply p f | .resolveFail p f | .resolveComplete p f | .resolveAbandon p f
  | .resolveRevert p f => some (p, toFrame f Kind.resolve.code)
  | .supplyLine p f => some (p, toFrame f Kind.supplyLine.code)
  | .storeRead p f => some (p, toFrame f Kind.storeRead.code)
  | .storeWrite p f => some (p, toFrame f Kind.storeWrite.code)
  | .unknownKindFrame p kind f => some (p, toFrame f kind)
  | .ping p tag payload => some (p, { kind := pingKind, tag := tag, seq := 0, payload := payload })
  | .replayRequest p payload => some (p, { kind := replayRequestKind, tag := 0, seq := 0, payload := payload })
  | .linkRestart p payload => some (p, { kind := linkRestartKind, tag := 0, seq := 0, payload := payload })
  | .discardedLinkFrame p kind => some (p, { kind := kind, tag := 0, seq := 0, payload := [] })
  | .damagedFrame _ _ | .unexpectedSequence _ _ | .linkUp _ | .linkDown _ | .keepaliveExpired _ | .recallTimeout _
  | .powerOnReset _ _ | .storeTimeout | .fillComplete _ | .fillFailed _ | .drainComplete | .drainFailed _
  | .directJobComplete _ | .directJobFailed _ | .grant | .waiterService _ | .allocation | .waitingRecallOpen
  | .journalSpaceService | .syncListAnswer | .goodbyeCompletion _ | .regionSetCompletion | .notice _ | .resetNLow
  | .hubTimeAdvance | .halfWordAnswered _ | .mrdyMerrInactive | .frameTransmitted _ => none

end Machine

end Sys2Proof
end

