-- ==== Sys2Proof/Machine/Flags.lean ====
section
/-! DEFINITION. The conditions the rules test: views of the state, each computed once here (log entry 15). -/

namespace Sys2Proof.Machine

/-! ## Sessions and requests -/

/-- The session state of a port (R169). -/
def State.sessionState (s : State) (p : Port) : SessionState := s.sessions[p].state

/-- A port has a session while it is ONLINE, CLOSING or FENCED (R169). -/
def SessionState.hasSession : SessionState → Bool
  | .online | .closing | .fenced => true
  | .down | .idle => false

/-- A port that can be fenced, and can hold lines: ONLINE or CLOSING (R169, R172). -/
def SessionState.isOpen : SessionState → Bool
  | .online | .closing => true
  | .down | .idle | .fenced => false

/-- The outstanding set of a port, in the order of admission (R31, R169). -/
def State.outstanding (s : State) (p : Port) : List Request := s.requests.filter fun r => r.id.port == p

/-- The outstanding request with this name (R32). -/
def State.request? (s : State) (id : ReqId) : Option Request := s.requests.find? fun r => r.id == id

/-! ## The line table -/

/-- The in-use entry of a line, if the line is present (R1). -/
def State.entry? (s : State) (l : Line) : Option Entry := s.table.find? fun e => e.line == l

/-- The holding of a line by a port; a line that is not present is held by no port (R36). -/
def State.holding (s : State) (l : Line) (p : Port) : Holding :=
  match s.entry? l with
  | some e => e.holdings[p]
  | none => .none

/-- A port's holding count: the entries in which it holds READ or WRITE (R3). -/
def State.holdingCount (s : State) (p : Port) : Nat := s.table.countP fun e => e.holdings[p] != .none

/-- Some port holds the line. -/
def Entry.held (e : Entry) : Bool := ports.any fun p => e.holdings[p] != .none

/-- The entry's line is POISONED (R2). -/
def Entry.poisoned (e : Entry) : Bool := e.copy == .poisoned

/-- The data of a CLEAN or DIRTY copy. -/
def HubCopy.data? : HubCopy → Option LineData
  | .clean d | .dirty d => some d
  | .empty | .poisoned => none

/-- The data of the hub copy; the two states without data give zero bytes, which no rule uses (R2). -/
def HubCopy.data (c : HubCopy) : LineData := c.data?.getD 0

def HubCopy.isClean : HubCopy → Bool
  | .clean _ => true
  | _ => false

def HubCopy.isDirty : HubCopy → Bool
  | .dirty _ => true
  | _ => false

/-- A victim candidate: IDLE, no holders, no waiters, CLEAN or DIRTY (R14). -/
def Entry.candidate (e : Entry) : Bool :=
  e.activity == .idle && !e.held && e.waiters.isEmpty && e.copy.data?.isSome

/-- An entry that could be made EVICTING: IDLE, at least one holder, no waiters (R16). -/
def Entry.evictable (e : Entry) : Bool := e.activity == .idle && e.held && e.waiters.isEmpty

/-- An entry that stands for a fault: FAULT_HELD or POISONED (R18). -/
def Entry.faultBound (e : Entry) : Bool := e.activity == .faultHeld || e.poisoned

/-! ## Regions -/

/-- A line lies in the range of a descriptor (R136). -/
def Region.contains (r : Region) (l : Line) : Bool :=
  r.first.toNat ≤ l.toNat && l.toNat < r.first.toNat + r.count

/-- The enabled region that contains the line (R137). -/
def State.regionOf (s : State) (l : Line) : Option RegionId :=
  regionIds.find? fun i => s.regions[i].enabled && s.regions[i].contains l

/-- The class of the line's region (R137). -/
def State.classOf (s : State) (l : Line) : Option RegionClass := (s.regionOf l).map fun i => s.regions[i].cls

/-- The line lies in a TRACKED or WRITE_THROUGH region (R110). -/
def State.isTracked (s : State) (l : Line) : Bool :=
  match s.classOf l with
  | some .tracked | some .writeThrough => true
  | some .plain | none => false

/-- Access rights are ordered NONE, READ, FULL (R35). -/
def Access.rank : Access → Nat
  | .none => 0 | .read => 1 | .full => 2

/-- The recall an excess holding takes: INVALIDATE where the right is NONE, DOWNGRADE where it is READ and the port
holds WRITE; none where the holding is within the right (R140). -/
def excessRecall : Access → Holding → Option RecallKind
  | _, .none => none
  | .none, _ => some .invalidate
  | .read, .write => some .downgrade
  | .read, .read => none
  | .full, _ => none

/-- Two ranges share a line (R142, check 2). -/
def Region.overlaps (a b : Region) : Bool :=
  0 < a.count && 0 < b.count && a.first.toNat < b.first.toNat + b.count && b.first.toNat < a.first.toNat + a.count

/-! ## Recalls -/

/-- A recall of the line to the port is outstanding: open or waiting (R62). -/
def State.recallOutstanding (s : State) (l : Line) (p : Port) : Bool :=
  s.recalls.any (fun r => r.asked.line == l && r.asked.port == p) ||
    s.recallWait.any (fun w => w.line == l && w.port == p)

/-- Some recall of the line is outstanding (R10). -/
def State.lineRecalled (s : State) (l : Line) : Bool :=
  s.recalls.any (fun r => r.asked.line == l) || s.recallWait.any (fun w => w.line == l)

/-- A deadline or expiry is reached when the hub time equals it (R187). -/
def reached (now deadline : Time) : Bool := now == deadline

/-! ## The journal -/

/-- The journal holds a QUEUED entry of the line (R99). -/
def State.hasQueued (s : State) (l : Line) : Bool := s.journal.any fun j => j.line == l && j.state == .queued

/-- A journal slot is free (R80). -/
def State.slotFree (s : State) : Bool := s.journal.length < Config.journalSize

/-- An insertion for the line can be taken: it merges, or a slot is free (R83). -/
def State.canInsert (s : State) (l : Line) : Bool := s.hasQueued l || s.slotFree

/-- The newest journal entry of a line, in any state (R99): the last in the order of insertion. -/
def State.newest? (s : State) (l : Line) : Option JournalEntry := s.journal.reverse.find? fun j => j.line == l

/-- The sequence number of the DRAIN job in flight, if one is. -/
def State.draining? (s : State) : Option Seq :=
  match s.job with
  | some j => match j.owner with
    | .drain q => some q
    | _ => none
  | none => none

/-- A retried entry that waits for its DRAIN grant: WRITING with origin RETRY and without a DRAIN job (R82, R94). -/
def State.retryWaiting (s : State) (j : JournalEntry) : Bool :=
  j.state == .writing && j.origin == .retry && s.draining? != some j.seq

/-- A QUEUED entry is eligible when its line has no WRITING or FAULTED entry (R90). -/
def State.eligible (s : State) (j : JournalEntry) : Bool :=
  j.state == .queued && !s.journal.any fun k => k.line == j.line && k.state != .queued

/-- The entry the journal gives at a grant: the oldest retried entry that waits, else the oldest eligible one (R90). -/
def State.drainChoice (s : State) : Option JournalEntry :=
  match s.journal.find? s.retryWaiting with
  | some j => some j
  | none => s.journal.find? s.eligible

/-- The DRAIN request: the journal asks while the hub is RUNNING and has an entry to give (R90, R93, R107). -/
def State.drainRequested (s : State) : Bool := s.mode == .running && s.drainChoice.isSome

/-! ## Fault records -/

/-- The number of POSTED records in the fault queue (R119). -/
def State.postedCount (s : State) : Nat := s.faultQueue.countP fun r => r.state == .posted

/-- The record with an id in the fault queue. -/
def State.queuedRecord? (s : State) (id : Byte) : Option FaultRecord := s.faultQueue.find? fun r => r.id == id

/-- The record with an id in the fault queue or the stop record slot, and whether it is the stop record (R126). -/
def State.record? (s : State) (id : Byte) : Option (FaultRecord × Bool) :=
  match s.queuedRecord? id with
  | some r => some (r, false)
  | none => match s.stopRecord with
    | some r => if r.id = id then some (r, true) else none
    | none => none

/-- The waiting requests of a FILL_FAULT record: the waiters of its line's entry, in their order (R121). -/
def State.waitingRequests (s : State) (l : Line) : List Request :=
  match s.entry? l with
  | some e => e.waiters.filterMap s.request?
  | none => []

end Sys2Proof.Machine
end

