-- ==== Sys2Proof/Machine/Ops.lean ====
section
/-! DEFINITION. The named operations over links, replies, outstanding requests and notices (spec 02, 08, 09). -/

namespace Sys2Proof.Machine

/-! ## Per-port records -/

def State.setLink (s : State) (p : Port) (l : LinkUnit) : State := { s with links := s.links.set p l }

def State.setSession (s : State) (p : Port) (x : Session) : State := { s with sessions := s.sessions.set p x }

def State.setNotices (s : State) (p : Port) (n : NoticeUnit) : State := { s with notices := s.notices.set p n }

/-! ## Creating frames (R162, R163) -/

/-- A link frame joins the transmit queue with sequence 0 (R160); on a DOWN link it is not sent (R159). -/
def LinkUnit.sendLink (l : LinkUnit) (kind tag : Byte) (payload : List Byte) : LinkUnit :=
  if l.up then { l with tx := l.tx ++ [{ kind := kind, tag := tag, seq := 0, payload := payload }] } else l

/-- A sequenced frame takes the send number, which moves on, and joins the replay buffer, which keeps the last 16, and
the transmit queue (R162, R163); on a DOWN link it is not sent (R159). -/
def LinkUnit.sendSeq (l : LinkUnit) (kind tag : Byte) (payload : List Byte) : LinkUnit :=
  if l.up then
    let f : Frame := { kind := kind, tag := tag, seq := l.sendNum, payload := payload }
    { l with sendNum := l.sendNum + 1
             replay := (l.replay ++ [f]).drop (l.replay.length + 1 - Config.replayDepth)
             tx := l.tx ++ [f] }
  else l

def State.sendLink (s : State) (p : Port) (kind tag : Byte) (payload : List Byte) : State :=
  s.setLink p (s.links[p].sendLink kind tag payload)

def State.sendSeq (s : State) (p : Port) (kind tag : Byte) (payload : List Byte) : State :=
  s.setLink p (s.links[p].sendSeq kind tag payload)

/-- A Reply is created on a port's link (section 11.4). -/
def State.reply (s : State) (p : Port) (tag : Byte) (st : Status) (data : List Byte) : State :=
  s.sendSeq p replyKind tag (replyPayload st data)

/-- A Session End with a reason and the number of the session that ended (R168). -/
def State.sendSessionEnd (s : State) (p : Port) (r : EndReason) (no : SessionNo) : State :=
  s.sendLink p sessionEndKind 0 (sessionEndPayload r no)

/-! ## Receiving frames (R160, R164, R171) -/

/-- A port takes frames while RESET_N is high and its link is UP (R159, R186). -/
def State.receives (s : State) (p : Port) : Bool := s.resetN && s.links[p].up

/-- The expiry a keepalive started now has (R171). -/
def State.keepaliveExpiry (s : State) : Time := s.hubTime + BitVec.ofNat 32 s.timers.keepaliveMs

/-- A good frame of any kind restarts the keepalive timer while it runs (R160, R171). -/
def State.restartKeepalive (s : State) (p : Port) : State :=
  match s.links[p].keepalive with
  | some _ => s.setLink p { s.links[p] with keepalive := some s.keepaliveExpiry }
  | none => s

/-- The receive number moves on and any pending reject is cleared (R164). -/
def State.acceptSeq (s : State) (p : Port) : State :=
  s.setLink p { s.links[p] with recvNum := s.links[p].recvNum + 1, rejectPending := none }

/-- The Link Reject rule: one Link Reject with the receive number, if none is pending (R164). -/
def State.rejectSeq (s : State) (p : Port) : State :=
  match s.links[p].rejectPending with
  | some _ => s
  | none =>
    let n := s.links[p].recvNum
    let t := s.sendLink p linkRejectKind 0 [n]
    t.setLink p { t.links[p] with rejectPending := some n }

/-- A good frame on a port: it restarts a running keepalive, then is taken. A port that receives nothing is unchanged. -/
def State.onGoodFrame (s : State) (p : Port) (take : State → State) : State :=
  if s.receives p then take (s.restartKeepalive p) else s

/-- A good sequenced frame: accepted and taken when its number is the receive number, else discarded under the Link
Reject rule (R164). -/
def State.onSequenced (s : State) (p : Port) (seq : Byte) (take : State → State) : State :=
  s.onGoodFrame p fun t => if t.links[p].recvNum = seq then take (t.acceptSeq p) else t.rejectSeq p

/-! ## Outstanding requests (R31, R32, R40) -/

/-- An admitted request becomes outstanding (R31). -/
def State.admitReq (s : State) (id : ReqId) (q : Req) : State :=
  { s with requests := s.requests ++ [{ id := id, req := q }] }

/-- A request is answered: it leaves the outstanding set and its reply is created (R32, R40). -/
def State.answer (s : State) (id : ReqId) (st : Status) (data : List Byte) : State :=
  ({ s with requests := s.requests.filter fun r => r.id != id }).reply id.port id.tag st data

/-- Check 1 of admission: the session state (R34, R153, R154, R170, R174, R179). A DOWN port receives no frame. -/
def State.checkSession (s : State) (p : Port) (k : Kind) : Option Status :=
  match s.sessionState p with
  | .down => some .noSession
  | .idle => if k = .hello then none else some .noSession
  | .online => if k = .hello then some .sessionOpen else none
  | .closing => if k.anySession then none else some .closing
  | .fenced => if k.anySession || (k.supervisorFenced && p == s.supervisor) then none else some .fenced

/-- Checks 1 to 5 of admission, in their order; none passes them all (R33). -/
def State.admission (s : State) (p : Port) (k : Kind) (tag : Byte) (formatGood : Bool) : Option Status :=
  match s.checkSession p k with
  | some st => some st
  | none =>
    if k.supervisorOnly && p != s.supervisor then some .notPermitted
    else if !formatGood then some .badFormat
    else if (s.outstanding p).any (fun r => r.id.tag == tag) then some .tagBusy
    else if Config.outstandingLimit ≤ (s.outstanding p).length then some .tooMany
    else if s.mode == .stopped && !k.inStopped then some .hubStopped
    else none

/-- A request's frame: link layer, then checks 1 to 5 with the payload's format, then what an admitted request does with
its operand. A refusal is a reply with the status alone (R33). -/
def State.onRequest {α : Type} (s : State) (p : Port) (f : RxFrame) (k : Kind) (operand : State → Option α)
    (take : State → α → State) : State :=
  s.onSequenced p f.seq fun t =>
    match t.admission p k f.tag (operand t).isSome, operand t with
    | some st, _ => t.reply p f.tag st []
    | none, some a => take t a
    | none, none => t

/-! ## Notices (R149 to R152) -/

/-- A waiting notice is sendable above the threshold, or at priority 7 (R152). -/
def Notice.sendable (threshold : Nat) (n : Notice) : Bool :=
  threshold < n.kind.priority || n.kind.priority == Config.topPriority

/-- The sendable notice of highest priority, the oldest among equals (R152). -/
def bestNotice (threshold : Nat) : List Notice → Option Notice
  | [] => none
  | n :: ns =>
    match bestNotice threshold ns with
    | none => if n.sendable threshold then some n else none
    | some m => if n.sendable threshold && m.kind.priority ≤ n.kind.priority then some n else some m

/-- Two notices match: same kind and subject (R150). -/
def Notice.sameKey (a b : Notice) : Bool := a.kind == b.kind && a.subject == b.subject

/-- The data a waiting notice takes from a matching new one: the union for REGION_CHANGED, else the new data (R151). -/
def Notice.refresh (waiting new : Notice) : Notice :=
  match waiting.kind with
  | .regionChanged => { waiting with data := waiting.data ||| new.data }
  | _ => { waiting with data := new.data }

/-- A notice meets the queue: it refreshes its match in place, or joins the tail (R150). -/
def NoticeUnit.enqueue (u : NoticeUnit) (n : Notice) : NoticeUnit :=
  if u.queue.any (·.sameKey n) then
    { u with queue := u.queue.map fun w => if w.sameKey n then w.refresh n else w }
  else { u with queue := u.queue ++ [n] }

/-- The notice the unit sends now, if it has none in flight: the notice with the counter's number, in flight and out of
the queue (R152). -/
def NoticeUnit.next (u : NoticeUnit) : Option (NoticeUnit × SentNotice) :=
  match u.inFlight with
  | some _ => none
  | none =>
    match bestNotice u.threshold u.queue with
    | none => none
    | some n =>
      let sent : SentNotice := { number := u.counter, notice := n }
      some ({ u with queue := u.queue.erase n, inFlight := some sent, counter := u.counter + 1 }, sent)

/-- A Notice message is created on the port's link (R152). -/
def State.sendNotice (s : State) (p : Port) (n : SentNotice) : State := s.sendSeq p noticeKind 0 (noticePayload n)

/-- The delivery step of the notice unit on one port (R152). -/
def State.deliverNotice (s : State) (p : Port) : State :=
  match s.notices[p].next with
  | some (u, sent) => (s.setNotices p u).sendNotice p sent
  | none => s

/-- A block posts a notice: dropped when the port's session does not receive its kind, else taken and, where possible,
sent at once (R149, R150). -/
def State.postNotice (s : State) (p : Port) (n : Notice) : State :=
  if n.kind.receivedIn (s.sessionState p) then
    (s.setNotices p (s.notices[p].enqueue n)).deliverNotice p
  else s

/-- A notice posted for every port, P0 first. -/
def State.postAll (s : State) (n : Notice) : State := ports.foldl (fun t p => t.postNotice p n) s

/-- The first value from v on, by `next`, that is not in use (R64, R81, R115). -/
def firstFree {α : Type} [DecidableEq α] (used : List α) (next : α → α) : Nat → α → α
  | 0, v => v
  | n + 1, v => if v ∈ used then firstFree used next n (next v) else v

end Sys2Proof.Machine
end

