-- ==== Sys2Proof/Machine/FaultOps.lean ====
section
/-! DEFINITION. The fault unit: ids, creation, posting again and retirement of fault records, and the stop record (spec
06, R114 to R122, R135). -/

namespace Sys2Proof.Machine

/-- The record id after this one: 255 is followed by 1 (R115). -/
def nextRecordId (v : Byte) : Byte := if v = 255 then 1 else v + 1

/-- The ids in use by the fault queue and the stop record slot (R115). -/
def State.recordIds (s : State) : List Byte := s.faultQueue.map (·.id) ++ s.stopRecord.toList.map (·.id)

/-- The id a new record takes (R115); id 0 is not used. -/
def State.newRecordId (s : State) : Byte := firstFree (0 :: s.recordIds) nextRecordId 9 s.recordCounter

/-- FAULT_POSTED for the supervisor's port, with the number of POSTED records in the queue (R119). -/
def State.postFaultPosted (s : State) : State :=
  s.postNotice s.supervisor { kind := .faultPosted, subject := none, data := count8 s.postedCount }

/-- HUB_STOPPED with the kind of the stop record (R122). -/
def hubStoppedNotice (k : RecordKind) : Notice := { kind := .hubStopped, subject := none, data := k.code }

/-- A record is created (R118): in the queue with FAULT_POSTED, or, when the queue holds six, in the stop record slot,
with STOPPED, STOP asserted and HUB_STOPPED in the same step (R122). The id it took is `State.newRecordId` of the state
before. -/
def State.createRecord (s : State) (body : RecordBody) : State :=
  let r : FaultRecord := { id := s.newRecordId, state := .posted, created := s.hubTime, body := body }
  let t := { s with recordCounter := nextRecordId r.id }
  if t.faultQueue.length < Config.faultQueueSize then
    { t with faultQueue := t.faultQueue ++ [r] }.postFaultPosted
  else
    { t with stopRecord := some r, mode := .stopped, stopOut := true }.postAll (hubStoppedNotice body.kind)

/-- A record of the queue is changed in place. -/
def State.updateRecord (s : State) (id : Byte) (f : FaultRecord → FaultRecord) : State :=
  { s with faultQueue := s.faultQueue.map fun r => if r.id = id then f r else r }

/-- One more failed attempt, with its cause (R120). -/
def RecordBody.failAgain (c : StoreCause) : RecordBody → RecordBody
  | .fillFault l _ n => .fillFault l c (n + 1)
  | .drainFault l _ n q o d => .drainFault l c (n + 1) q o d
  | b@(.holderLost _ _ _) => b

/-- A RETRYING record whose retry failed is posted again, in its place and with its id (R120). -/
def State.repostRecord (s : State) (id : Byte) (c : StoreCause) : State :=
  (s.updateRecord id fun r => { r with state := .posted, body := r.body.failAgain c }).postFaultPosted

/-- A record leaves the fault queue, and its id is free (R135). -/
def State.retireRecord (s : State) (id : Byte) : State :=
  { s with faultQueue := s.faultQueue.filter fun r => r.id != id }

/-- The DRAIN_FAULT record of the fault queue that names this sequence number (R118). -/
def State.drainRecord? (s : State) (q : Seq) : Option FaultRecord :=
  s.faultQueue.find? fun r => match r.body with
    | .drainFault _ _ _ q' _ _ => q' == q
    | _ => false

end Sys2Proof.Machine
end

