-- ==== Sys2Proof/Machine/RecallOps.lean ====
section
/-! DEFINITION. The recall unit: asking, opening, queueing and removing recalls (spec 03, R61 to R65). -/

namespace Sys2Proof.Machine

/-- The id the next recall takes (R64). -/
def State.newRecallId (s : State) : Byte :=
  firstFree (s.recalls.map (·.id)) (· + 1) (Config.recallTableSize + 1) s.recallCounter

/-- The deadline of a recall opened now (R64). -/
def State.recallDeadline (s : State) : Time := s.hubTime + BitVec.ofNat 32 s.timers.recallMs

/-- Opening a recall: it takes a table entry, an id and a deadline, and the Recall message is created (R64). -/
def State.openRecall (s : State) (w : WaitingRecall) : State :=
  let r : Recall := { id := s.newRecallId, asked := w, deadline := s.recallDeadline }
  { s with recalls := s.recalls ++ [r], recallCounter := r.id + 1 }.sendSeq w.port recallKind 0 (recallPayload r.id w)

/-- A recall is asked for: no second one for a (line, port) pair; opened at once if a table entry is free, else queued
(R63). -/
def State.askRecall (s : State) (w : WaitingRecall) : State :=
  if s.recallOutstanding w.line w.port then s
  else if s.recalls.length < Config.recallTableSize then s.openRecall w
  else { s with recallWait := s.recallWait ++ [w] }

/-- Recalls asked one after another. -/
def State.askRecalls (s : State) (ws : List WaitingRecall) : State := ws.foldl State.askRecall s

/-- The oldest waiting recall is opened if a table entry is free (R65). -/
def State.openWaiting (s : State) : State :=
  if s.recalls.length < Config.recallTableSize then
    match s.recallWait with
    | [] => s
    | w :: ws => { s with recallWait := ws }.openRecall w
  else s

/-- Waiting recalls are opened, oldest first, while a table entry is free: at most `fuel` of them. -/
def State.openAllWaiting (s : State) : Nat → State
  | 0 => s
  | n + 1 => (s.openWaiting).openAllWaiting n

/-- The recall of the line to the port leaves the table or the wait queue, and a freed table entry opens the oldest
waiting recall before any recall a block asks for in this step (R65, R70). -/
def State.removeRecall (s : State) (l : Line) (p : Port) : State :=
  { s with recalls := s.recalls.filter fun r => !(r.asked.line == l && r.asked.port == p)
           recallWait := s.recallWait.filter fun w => !(w.line == l && w.port == p) }.openWaiting

end Sys2Proof.Machine
end

