-- ==== Sys2Proof/Machine/JournalOps.lean ====
section
/-! DEFINITION. The writeback journal and the sync list: insertion, the owed copy, removal, answering (spec 04). -/

namespace Sys2Proof.Machine

/-- The sequence number after this one: 0 is never assigned (R81). -/
def nextSeq (v : Seq) : Seq := if v + 1 = 0 then 1 else v + 1

/-- The sequence number a new entry takes (R81). -/
def State.newSeq (s : State) : Seq :=
  firstFree (0 :: s.journal.map (·.seq)) nextSeq (Config.journalSize + 2) s.seqCounter

/-- The high water alarm: a new entry that brings the count to 24 with the alarm armed posts JOURNAL_HIGH for the
supervisor and disarms it (R98). -/
def State.raiseHighWater (s : State) : State :=
  if s.highAlarm && s.journal.length == Config.highWater then
    { s with highAlarm := false }.postNotice s.supervisor
      { kind := .journalHigh, subject := none, data := count8 s.journal.length }
  else s

/-- A new entry at the tail of the journal (R85). -/
def State.appendJournal (s : State) (l : Line) (d : LineData) (o : Origin) : State :=
  let j : JournalEntry := { line := l, data := d, seq := s.newSeq, origin := o, state := .queued }
  { s with journal := s.journal ++ [j], seqCounter := nextSeq j.seq }.raiseHighWater

/-- A merge into the line's QUEUED entry: its data and origin are replaced, all else is kept (R84). -/
def State.mergeJournal (s : State) (l : Line) (d : LineData) (o : Origin) : State :=
  { s with journal := s.journal.map fun j =>
      if j.line == l && j.state == .queued then { j with data := d, origin := o } else j }

/-- An insertion (R83). It is made only when it can be taken. -/
def State.insertJournal (s : State) (l : Line) (d : LineData) (o : Origin) : State :=
  if s.hasQueued l then s.mergeJournal l d o else s.appendJournal l d o

/-! ## Entries of the line table -/

/-- The entry of a line is changed in place, if the line is present. -/
def State.updateEntry (s : State) (l : Line) (f : Entry → Entry) : State :=
  { s with table := s.table.map fun e => if e.line == l then f e else e }

def State.setCopy (s : State) (l : Line) (c : HubCopy) : State := s.updateEntry l fun e => { e with copy := c }

def State.setActivity (s : State) (l : Line) (a : Activity) : State := s.updateEntry l fun e => { e with activity := a }

def State.setHolding (s : State) (l : Line) (p : Port) (h : Holding) : State :=
  s.updateEntry l fun e => { e with holdings := e.holdings.set p h }

def State.joinWaiters (s : State) (l : Line) (r : ReqId) : State :=
  s.updateEntry l fun e => { e with waiters := e.waiters ++ [r] }

/-- An entry is removed: it leaves the recency order, and a journal-space waiter of its line leaves with it (R27, R89). -/
def State.removeEntry (s : State) (l : Line) : State :=
  { s with table := s.table.filter fun e => e.line != l
           jspace := s.jspace.filter fun w => match w with
             | .line l' _ => l' != l
             | .allocHead => true }

/-- A line waiter of the journal-space queue leaves it (R89). -/
def State.leaveSpace (s : State) (l : Line) : State :=
  { s with jspace := s.jspace.filter fun w => match w with
      | .line l' _ => l' != l
      | .allocHead => true }

/-- The line stands in the journal-space queue (R87). -/
def State.inSpace (s : State) (l : Line) : Bool :=
  s.jspace.any fun w => match w with
    | .line l' _ => l' == l
    | .allocHead => false

/-- A line joins the journal-space queue; one already there keeps its place and its origin (R86, R87). -/
def State.joinSpace (s : State) (l : Line) (o : Origin) : State :=
  if s.inSpace l then s else { s with jspace := s.jspace ++ [.line l o] }

/-- The DIRTY copy of a present line enters the journal and becomes CLEAN (R83). -/
def State.insertCopy (s : State) (l : Line) (d : LineData) (o : Origin) : State :=
  ((s.insertJournal l d o).setCopy l (.clean d)).leaveSpace l

/-- A hub copy becomes DIRTY with this data. In a WRITE_THROUGH region it is owed to the journal in the same step:
inserted if that can be taken, else the line joins the journal-space queue (R86, R139). DESIGN CHOICE: at once, before waiters
of the line are served in that step (log entry 26). -/
def State.makeDirty (s : State) (l : Line) (d : LineData) (o : Origin) : State :=
  let t := s.setCopy l (.dirty d)
  if s.classOf l = some .writeThrough then
    if t.canInsert l then t.insertCopy l d o else t.joinSpace l o
  else t

/-! ## The sync list (R96, R97) -/

def State.joinSync (s : State) (i : SyncItem) : State := { s with syncList := s.syncList ++ [i] }

/-- A Flush joins the sync list, waiting on an entry (R96). -/
def State.waitFlush (s : State) (id : ReqId) (q : Seq) : State :=
  s.joinSync { id := id, kind := .flush q, partialFlag := false }

/-- The item covers an entry: a Flush the one it waits on, a Sync every entry at or below its mark (R97). -/
def SyncItem.covers (i : SyncItem) (q : Seq) : Bool :=
  match i.kind with
  | .flush q' => q' == q
  | .sync _ covered => covered.contains q

/-- The item's entries have all left the journal (R97). -/
def SyncItem.satisfied (journal : List JournalEntry) (i : SyncItem) : Bool :=
  !journal.any fun j => i.covers j.seq

/-- The status an item is answered with (R97). -/
def SyncItem.status (i : SyncItem) : Status := if i.partialFlag then .partialDone else .done

/-- The sync list is examined: the items whose entries have left are answered, in list order, and leave (R97). -/
def State.examineSync (s : State) : State :=
  (s.syncList.filter (·.satisfied s.journal)).foldl (fun t i => t.answer i.id i.status [])
    { s with syncList := s.syncList.filter fun i => !i.satisfied s.journal }

/-- The entry with this number leaves every Sync's covered entries. -/
def SyncItem.forget (q : Seq) (i : SyncItem) : SyncItem :=
  match i.kind with
  | .flush _ => i
  | .sync m covered => { i with kind := .sync m (covered.filter (· != q)) }

/-- An entry leaves the journal, by a completed drain, COMPLETE or ABANDON: the PARTIAL flags of an ABANDON, the count
and its low water mark, and the sync list (R91, R95, R97, R98). The journal-space queue is served at the end of the
step (R88). -/
def State.removeJournal (s : State) (q : Seq) (abandoned : Bool) : State :=
  let flagged := if abandoned then
      s.syncList.map fun i => if i.covers q then { i with partialFlag := true } else i
    else s.syncList
  let rest := s.journal.filter fun j => j.seq != q
  let t := { s with journal := rest, syncList := flagged, highAlarm := s.highAlarm || rest.length == Config.lowWater }
  let u := t.examineSync
  { u with syncList := u.syncList.map (SyncItem.forget q) }

end Sys2Proof.Machine
end

