-- ==== Sys2Proof/Machine/PortOps.lean ====
section
/-! DEFINITION. The backing store port: accesses on the bus, the start and end of a job, and the arbiter (spec 05). -/

namespace Sys2Proof.Machine

/-! ## Accesses (R100, R101) -/

/-- The half-word a write access drives on MD15 to MD0; a read drives nothing (R101). The wait before the strobe drives
nothing either, which is the model's choice (`State.beginAccess`). -/
def Job.drives (j : Job) : Option HalfWord := if j.writing then some (halfWordAt j.data j.index) else none

/-- The bus during a strobed access of the job: address, data of a write, MSEL_N and one strobe (R101). -/
def Job.bus (j : Job) : Bus :=
  { ma := some (halfAddr j.line j.index), md := j.drives, mselN := false, mrdN := j.writing, mwrN := !j.writing }

/-- The access the job has reached is begun: strobed at once when MRDY and MERR are both inactive, else it waits for
them; either way it is timed with the store timeout in force now (R101, R102). DESIGN CHOICE: during the wait MA and MD are
not driven, for a write too: the data is on MD only while the strobe is asserted (log entry 10). -/
def State.beginAccess (s : State) (j : Job) : State :=
  if s.mrdy || s.merr then
    { s with job := some { j with strobed := false, timeout := s.timers.storeTenths }, bus := Bus.quiet }
  else
    let k := { j with strobed := true, timeout := s.timers.storeTenths }
    { s with job := some k, bus := k.bus }

/-- The job in flight ends and the port becomes idle (R103, R106). -/
def State.endJob (s : State) : State := { s with job := none, bus := Bus.quiet }

/-- The access in progress is the last of its transfer. -/
def Job.lastHalfWord (j : Job) : Bool := j.index + 1 == Config.halfWordsPerLine

/-- The job is a read-modify-write. -/
def Job.modifies (j : Job) : Bool :=
  match j.owner with
  | .direct .readModifyWrite _ _ => true
  | _ => false

/-- The access in progress is the last of its job: the last of a write, or of a read that no write follows (R104,
R105). -/
def Job.lastAccess (j : Job) : Bool := j.lastHalfWord && (j.writing || !j.modifies)

/-- The job after a read access was answered with this half-word (R101); a write takes no data. -/
def Job.take (j : Job) (md : HalfWord) : Job :=
  if j.writing then j else { j with buffer := setHalfWord j.buffer j.index md }

/-- The job at its next access: the next half-word, or, at the end of the read of a read-modify-write, the first
half-word of the write of the merged line (R104, R105). -/
def Job.advance (j : Job) : Job :=
  if j.lastHalfWord then
    { j with writing := true, index := 0, data := mergeBytes j.buffer j.data j.enables }
  else { j with index := j.index + 1 }

/-! ## The arbiter (R107 to R109, R112) -/

/-- A job as it begins (R103). -/
def newJob (owner : JobOwner) (l : Line) (writes : Bool) (d : LineData) (en : Enables) : Job :=
  { owner := owner, line := l, data := d, enables := en, buffer := 0, writing := writes, index := 0, strobed := false,
    timeout := 0 }

/-- The pass count at a FILL or DRAIN grant (R109). -/
def State.countPass (s : State) : State :=
  if s.directQueue.isEmpty then s else { s with passCount := s.passCount + 1 }

/-- The pass count returns to 0 when the DIRECT queue is empty (R109). -/
def State.clearPass (s : State) : State := if s.directQueue.isEmpty then { s with passCount := 0 } else s

/-- A FILL is granted: it leaves the FILL queue and begins its first access (R107, R108). -/
def State.grantFill (s : State) (l : Line) : State :=
  ({ s with fillQueue := s.fillQueue.tail }.countPass).beginAccess (newJob .fill l false 0 0)

/-- A DRAIN is granted: the journal's choice becomes WRITING, and its data is fixed in the job (R90, R103). -/
def State.grantDrain (s : State) (j : JournalEntry) : State :=
  let t : State := { s with journal := s.journal.map fun k => if k.seq == j.seq then { k with state := .writing } else k }
  t.countPass.beginAccess (newJob (.drain j.seq) j.line true j.data 0)

/-- The DIRECT jobs that begin with a write transfer (R103). -/
def DirectOp.writesFirst : DirectOp → Bool
  | .write | .storeWrite => true
  | .read | .readModifyWrite | .storeRead => false

/-- A DIRECT job is granted: it leaves the DIRECT queue and the pass count returns to 0 (R107, R109). -/
def State.grantDirect (s : State) (d : DirectJob) : State :=
  { s with directQueue := s.directQueue.erase d, passCount := 0 }.beginAccess
    (newJob (.direct d.op d.id false) d.line d.op.writesFirst d.data d.enables)

/-- A supervisor job: Store Read or Store Write (R112). -/
def DirectJob.isStore (d : DirectJob) : Bool := d.op == .storeRead || d.op == .storeWrite

/-- What the arbiter grants next (R108, R112). -/
inductive Grant where
  | fill (l : Line)
  | drain (j : JournalEntry)
  | direct (d : DirectJob)
deriving DecidableEq, Repr

def State.oldestFill (s : State) : Option Grant := s.fillQueue.head?.map .fill
def State.drainGrant (s : State) : Option Grant := if s.drainRequested then s.drainChoice.map .drain else none
def State.oldestDirect (s : State) : Option Grant := s.directQueue.head?.map .direct

/-- The choice of the arbiter: in RUNNING by the three cases of R108; in STOPPED the oldest supervisor job (R112). -/
def State.arbiterChoice (s : State) : Option Grant :=
  match s.mode with
  | .stopped => (s.directQueue.find? DirectJob.isStore).map .direct
  | .running =>
    if !s.directQueue.isEmpty && Config.passLimit ≤ s.passCount then s.oldestDirect
    else if s.journal.length < Config.highWater then
      s.oldestFill.or (s.drainGrant.or s.oldestDirect)
    else s.drainGrant.or (s.oldestFill.or s.oldestDirect)

/-- A grant is made when the port is idle and a job waits that may be granted (R108). -/
def State.arbitrate (s : State) : State :=
  if s.job.isSome then s
  else match s.arbiterChoice with
    | none => s
    | some (.fill l) => s.grantFill l
    | some (.drain j) => s.grantDrain j
    | some (.direct d) => s.grantDirect d

/-- A DIRECT job is handed to the port (R107). -/
def State.handDirect (s : State) (d : DirectJob) : State := { s with directQueue := s.directQueue ++ [d] }

/-- The line table asks for a FILL of a line; an entry stands in the FILL queue at most once (R107). -/
def State.askFill (s : State) (l : Line) : State :=
  if s.fillQueue.contains l then s else { s with fillQueue := s.fillQueue ++ [l] }

end Sys2Proof.Machine
end

