-- ==== Sys2Proof/Machine/Service.lean ====
section
/-! DEFINITION. The service of an entry's waiters, and the closing of recalls (R9, R10, R17, R39 to R53, R70, R145, R174). -/

namespace Sys2Proof.Machine

/-! ## The checks of R36 and R37, made at admission and again at service (R39) -/

/-- Check 7: the requester's holding against the kind (R36). -/
def holdingCheck (k : Kind) (h : Holding) (count capacity : Nat) : Option Status :=
  match k with
  | .readWords | .writeWords | .flush => if h = .write then some .ownHolding else none
  | .acquireRead | .acquireWrite =>
    if h ≠ .none then some .alreadyHeld else if capacity ≤ count then some .holdLimit else none
  | .upgrade => if h ≠ .read then some .notHeld else none
  | .release => if h = .none then some .notHeld else none
  | _ => none

/-- The capacity a port advertised; a port without a session has none to hold with (R169). -/
def State.capacity (s : State) (p : Port) : Nat := s.sessions[p].capacity.getD 0

/-- Check 7 for a line. -/
def State.checkHolding (s : State) (p : Port) (k : Kind) (l : Line) : Option Status :=
  holdingCheck k (s.holding l p) (s.holdingCount p) (s.capacity p)

/-- Check 8: the line is present and POISONED (R37). -/
def State.checkPoison (s : State) (l : Line) : Option Status :=
  match s.entry? l with
  | some e => if e.poisoned then some .linePoisoned else none
  | none => none

/-- Checks 7 and 8, in that order. -/
def State.checkLine (s : State) (p : Port) (k : Kind) (l : Line) : Option Status :=
  (s.checkHolding p k l).or (s.checkPoison l)

/-! ## What a head waiter's service needs and does -/

/-- The recalls the service of a request needs (R42, R44 to R47, R52): DOWNGRADE of another port's WRITE for the kinds
that read, INVALIDATE of every other holder for the kinds that take the line. -/
def recallsNeeded (e : Entry) (p : Port) (k : Kind) : List (Port × RecallKind) :=
  match k with
  | .readWords | .acquireRead | .flush =>
    (ports.filter fun q => q != p && e.holdings[q] == .write).map fun q => (q, .downgrade)
  | .writeWords | .acquireWrite | .upgrade =>
    (ports.filter fun q => q != p && e.holdings[q] != .none).map fun q => (q, .invalidate)
  | _ => []

/-- Recalls of a line with one purpose, in the order given. -/
def recallsFor (l : Line) (u : Purpose) (ps : List (Port × RecallKind)) : List WaitingRecall :=
  ps.map fun x => { line := l, port := x.1, kind := x.2, purpose := u }

/-- The head leaves an entry's waiters. -/
def State.dropHead (s : State) (l : Line) : State := s.updateEntry l fun e => { e with waiters := e.waiters.tail }

/-- An entry moves to the most-recent end and its prefetched-unused flag is cleared (R6, R7). -/
def State.touch (s : State) (l : Line) : State :=
  match s.entry? l with
  | some e => { s with table := { e with prefetched := false } :: s.table.filter fun x => x.line != l }
  | none => s

/-- The end of a request served with data or DONE: it leaves the waiters, the entry moves in recency order, and the
reply is created (R9). -/
def State.serveDone (s : State) (l : Line) (id : ReqId) (data : List Byte) : State :=
  ((s.dropHead l).touch l).answer id .done data

/-- After a grant: a holding in excess of the port's right takes a REGION recall (R145), and a CLOSING port's new
holding a CLOSE recall (R174). DESIGN CHOICE: REGION is asked first, so a new holding of a CLOSING port that is in excess
takes no CLOSE recall (R63; log entry 6). -/
def State.watchGrant (s : State) (l : Line) (p : Port) : State :=
  match s.entry? l with
  | none => s
  | some e =>
    let t := match excessRecall s.regions[e.region].access[p] e.holdings[p] with
      | some k => s.askRecall { line := l, port := p, kind := k, purpose := .region }
      | none => s
    if t.sessionState p = .closing then
      t.askRecall { line := l, port := p, kind := .invalidate, purpose := .close }
    else t

/-- The port's own READ is dropped by its Write Words; an outstanding recall of it closes in the same step (R44, R72).
DESIGN CHOICE: where the table entry this frees opens a waiting recall to the same port, its Recall is created before the
DONE reply (log entry 6). -/
def State.dropOwnRead (s : State) (l : Line) (p : Port) : State :=
  let t := s.setHolding l p .none
  if t.recallOutstanding l p then t.removeRecall l p else t

/-- Service of a Flush that needs no recall (R52, R53): the state, and whether service goes on with the next waiter. -/
def State.serveFlush (s : State) (l : Line) (e : Entry) (id : ReqId) : State × Bool :=
  match e.copy with
  | .dirty d =>
    if s.canInsert l then
      let t := s.insertCopy l d .flush
      match t.newest? l with
      | some j => ((t.dropHead l).waitFlush id j.seq, true)
      | none => (t, false)
    else (s.joinSpace l .flush, false)
  | _ =>
    match s.newest? l with
    | some j => ((s.dropHead l).waitFlush id j.seq, true)
    | none => ((s.dropHead l).answer id .done [], true)

/-- Service of the head waiter once its checks have passed and no recall is needed. DESIGN CHOICE: the DONE reply of an
Acquire or Upgrade is created before the recall its grant is watched for asks (log entry 6). -/
def State.serveReq (s : State) (l : Line) (e : Entry) (q : Request) : State × Bool :=
  let p := q.id.port
  match q.req with
  | .readWords _ first count => (s.serveDone l q.id (wordBytes e.copy.data first count), true)
  | .writeWords _ _ _ en d =>
    let dropped := e.holdings[p] == .read
    let t := if dropped then s.dropOwnRead l p else s
    ((t.makeDirty l (mergeBytes e.copy.data d en) .through).serveDone l q.id [bit dropped], true)
  | .acquireRead _ => (((s.setHolding l p .read).serveDone l q.id (lineBytes e.copy.data)).watchGrant l p, true)
  | .acquireWrite _ => (((s.setHolding l p .write).serveDone l q.id (lineBytes e.copy.data)).watchGrant l p, true)
  | .upgrade _ => (((s.setHolding l p .write).serveDone l q.id []).watchGrant l p, true)
  | .flush _ => s.serveFlush l e q.id
  | _ => (s, false)

/-- Service of the head of an IDLE entry's waiters (R9, R10): the state, and whether service goes on with a new head. -/
def State.serveHead (s : State) (l : Line) : State × Bool :=
  match s.entry? l with
  | none => (s, false)
  | some e =>
    if e.activity ≠ .idle then (s, false)
    else match e.waiters with
      | [] => (s, false)
      | id :: _ =>
        match s.request? id with
        | none => (s.dropHead l, true)
        | some q =>
          match s.checkLine id.port q.req.kind l with
          | some st => ((s.dropHead l).answer id st [], true)
          | none =>
            match recallsNeeded e id.port q.req.kind with
            | [] => s.serveReq l e q
            | needed => ((s.setActivity l .recalling).askRecalls (recallsFor l .request needed), false)

def State.serviceLoop (l : Line) : Nat → State → State
  | 0, s => s
  | n + 1, s =>
    match s.serveHead l with
    | (t, true) => State.serviceLoop l n t
    | (t, false) => t

/-- Service of an entry's waiters, from the head until the list is empty or the head must wait (R9). Each request that
service goes past has left the list, so as many rounds as there are waiters are enough. -/
def State.service (s : State) (l : Line) : State :=
  match s.entry? l with
  | some e => State.serviceLoop l e.waiters.length s
  | none => s

/-! ## The closing of a recall (R17, R70) -/

/-- INVALIDATE recalls with purpose EVICT for each holder of an entry (R16, R17). -/
def State.askEvict (s : State) (l : Line) (e : Entry) : State :=
  s.askRecalls (recallsFor l .evict ((ports.filter fun q => e.holdings[q] != .none).map fun q => (q, .invalidate)))

/-- An EVICTING entry whose last outstanding recall has closed (R17). -/
def State.finishEviction (s : State) (l : Line) (e : Entry) : State :=
  if !e.waiters.isEmpty then (s.setActivity l .idle).service l
  else if e.poisoned then s.setActivity l .idle
  else if e.held then s.askEvict l e
  else s.setActivity l .idle

/-- The line table is told that a recall of the line has closed (R70): with no other outstanding, a RECALLING entry
becomes IDLE and is served, and an EVICTING one finishes. -/
def State.tellLineTable (s : State) (l : Line) : State :=
  if s.lineRecalled l then s
  else match s.entry? l with
    | none => s
    | some e =>
      match e.activity with
      | .recalling => (s.setActivity l .idle).service l
      | .evicting => s.finishEviction l e
      | _ => s

/-- The region table is told (R70, R145): while a Region Set of the line's region is completing, a target that still
holds the line in excess takes a new REGION recall. -/
def State.tellRegionTable (s : State) (l : Line) (p : Port) : State :=
  match s.completing, s.entry? l with
  | some r, some e =>
    if s.regions[r].contains l then
      match excessRecall s.regions[r].access[p] e.holdings[p] with
      | some k => s.askRecall { line := l, port := p, kind := k, purpose := .region }
      | none => s
    else s
  | _, _ => s

/-- Session control is told (R70, R174): a CLOSING target that still holds the line takes a CLOSE recall. -/
def State.tellSession (s : State) (l : Line) (p : Port) : State :=
  if s.sessionState p = .closing ∧ s.holding l p ≠ .none then
    s.askRecall { line := l, port := p, kind := .invalidate, purpose := .close }
  else s

/-- The recall of the line to the port closes (R70). DESIGN CHOICE: the Recall of the waiting recall that the freed table
entry opens is created before the replies of the line's service; and the blocks are told in the order line table, region
table, session control, so the first that asks a recall of what the port still holds gives it its kind and purpose, and the
others make none (R63; log entry 6). -/
def State.closeRecall (s : State) (l : Line) (p : Port) : State :=
  (((s.removeRecall l p).tellLineTable l).tellRegionTable l p).tellSession l p

end Sys2Proof.Machine
end

