-- ==== Sys2Proof/Machine/Allocation.lean ====
section
/-! DEFINITION. Allocation, replacement and filling of line table entries, and the journal-space queue (R12 to R23, R87 to
R89). -/

namespace Sys2Proof.Machine

/-! ## Creating an entry (R20 to R23) -/

/-- The data of a full-line Write Words (R22). -/
def Request.fullLine? (q : Request) : Option LineData :=
  match q.req with
  | .writeWords _ _ _ en d => if isFullLine en then some d else none
  | _ => none

/-- The fields a new entry has before its copy is known (R20); `none` for the waiter is a Prefetch. -/
def State.freshEntry (s : State) (l : Line) (w : Option Request) : Entry :=
  { line := l, region := (s.regionOf l).getD 0, copy := .empty, holdings := Vector.replicate 4 .none,
    activity := .filling, waiters := w.toList.map (·.id), prefetched := w.isNone, recordId := none }

/-- A new entry enters the recency order: at the most-recent end for a request, at the least-recent for Prefetch (R6). -/
def State.placeEntry (s : State) (e : Entry) : State :=
  { s with table := if e.prefetched then s.table ++ [e] else e :: s.table }

/-- An entry is created for a line (R20): its copy comes from a full-line write's data (R22), else from the journal
(R21), else from the backing store through a FILL (R23). -/
def State.createEntry (s : State) (l : Line) (w : Option Request) : State :=
  let e := s.freshEntry l w
  match w.bind Request.fullLine? with
  | some d => ((s.placeEntry { e with activity := .idle }).makeDirty l d .through).service l
  | none =>
    match s.newest? l with
    | some j => (s.placeEntry { e with activity := .idle, copy := .clean j.data }).service l
    | none => (s.placeEntry e).askFill l

/-! ## Victims (R14, R15) -/

/-- What R14 and R15 give: an entry to take, a wait for journal space, or no candidate at all. -/
inductive Victim where
  | take (e : Entry)
  | waitForSpace
  | noCandidate
deriving DecidableEq, Repr

/-- The least recent candidate, if its data can be kept; else the least recent CLEAN candidate; else a wait for journal
space (R14, R15; log entry 8). -/
def State.victim (s : State) : Victim :=
  let cs := s.table.reverse.filter Entry.candidate
  match cs with
  | [] => .noCandidate
  | e :: _ =>
    if e.copy.isClean || s.canInsert e.line then .take e
    else match cs.find? (·.copy.isClean) with
      | some c => .take c
      | none => .waitForSpace

/-- A victim is removed, its DIRTY data entering the journal first with origin EVICT (R14, R15). -/
def State.removeVictim (s : State) (e : Entry) : State :=
  match e.copy with
  | .dirty d => (s.insertJournal e.line d .evict).removeEntry e.line
  | _ => s.removeEntry e.line

/-! ## The allocation queue (R12, R13, R16, R18) -/

/-- The head leaves the allocation queue, and with it its place in the journal-space queue (R12, R89). -/
def State.popAlloc (s : State) : State :=
  { s with allocQueue := s.allocQueue.tail, jspace := s.jspace.filter (· != .allocHead) }

/-- The head of the allocation queue waits for journal space, once (R15, R87). -/
def State.joinSpaceHead (s : State) : State :=
  if s.jspace.contains .allocHead then s else { s with jspace := s.jspace ++ [.allocHead] }

/-- An entry is made EVICTING, and its holders are recalled (R16). -/
def State.evict (s : State) (e : Entry) : State := (s.setActivity e.line .evicting).askEvict e.line e

/-- The head of the allocation queue is examined (R13, R16, R18): the state, and whether it left the queue, so that the
next head is examined at once. -/
def State.examineAlloc (s : State) : State × Bool :=
  match s.allocQueue with
  | [] => (s, false)
  | id :: _ =>
    match s.request? id with
    | none => (s.popAlloc, true)
    | some q =>
      match q.req.line? with
      | none => (s.popAlloc, true)
      | some l =>
        if (s.entry? l).isSome then ((s.popAlloc.joinWaiters l id).service l, true)
        else if s.table.length < Config.tableSize then (s.popAlloc.createEntry l (some q), true)
        else match s.victim with
          | .take e => ((s.popAlloc.removeVictim e).createEntry l (some q), true)
          | .waitForSpace => (s.joinSpaceHead, false)
          | .noCandidate =>
            if s.table.any (fun e => e.activity == .evicting) then (s, false)
            else match s.table.reverse.find? Entry.evictable with
              | some e => (s.evict e, false)
              | none =>
                if s.table.all Entry.faultBound then (s.popAlloc.answer id .tableFull [], true)
                else (s, false)

def State.allocLoop : Nat → State → State
  | 0, s => s
  | n + 1, s =>
    match s.examineAlloc with
    | (t, true) => State.allocLoop n t
    | (t, false) => t

/-- Heads of the allocation queue are examined until one must wait (R13). Each that does not wait leaves the queue. -/
def State.serveAlloc (s : State) : State := State.allocLoop (s.allocQueue.length + 1) s

/-- An entry of the table has the property, which that line's entry did not have in the table before. -/
def newlyIn (before after : State) (f : Entry → Bool) : Bool :=
  after.table.any fun e => f e && !(before.entry? e.line).any f

/-- The line the head of the allocation queue names. -/
def State.headLine? (s : State) : Option Line := (s.allocQueue.head?.bind s.request?).bind (·.req.line?)

/-- The head of the allocation queue stands in the journal-space queue, and there is a candidate it can take (R15, R89).
It has then just appeared: a head that could take one would not stand there. -/
def State.headCanTake (s : State) : Bool :=
  s.jspace.contains .allocHead && match s.victim with
    | .take _ => true
    | .waitForSpace | .noCandidate => false

/-- One of the events has happened at which R13 has a waiting head examined: it has become head; an entry was removed, or
became a candidate (R14); a candidate has appeared that a head waiting for journal space can take (R15); the EVICTING entry
finished (R17); its line became present; an entry came to be IDLE with a holder and no waiters while none is EVICTING; an
entry became FAULT_HELD or POISONED. The journal-space queue's reaching the head is `State.spaceLoop`'s. DESIGN CHOICE: what
an entry becomes is read from the states before and after the step, so one that had a waiter served inside the step, and is
after it what it was before, has become nothing (log entry 25). -/
def State.headRoused (before after : State) : Bool :=
  before.allocQueue.head? != after.allocQueue.head? ||
  before.table.any (fun e => (after.entry? e.line).isNone) ||
  newlyIn before after Entry.candidate || after.headCanTake ||
  before.table.any (fun e => e.activity == .evicting && !(after.entry? e.line).any (·.activity == .evicting)) ||
  after.headLine?.any (fun l => (before.entry? l).isNone && (after.entry? l).isSome) ||
  (newlyIn before after Entry.evictable && !after.table.any (·.activity == .evicting)) ||
  newlyIn before after Entry.faultBound

/-- The head of the allocation queue is examined if one of R13's events has happened since the state `before`. -/
def State.rouseHead (s before : State) : State := if State.headRoused before s then s.serveAlloc else s

/-- A request that needs the entry of a line: it joins the waiters of a present line, and is served at once on an IDLE
entry (R8, R9), or joins the allocation queue (R12), which the end of the step examines. -/
def State.enterLine (s : State) (l : Line) (id : ReqId) : State :=
  if (s.entry? l).isSome then (s.joinWaiters l id).service l
  else { s with allocQueue := s.allocQueue ++ [id] }

/-! ## The journal-space queue (R88) -/

/-- The head waiter of the line's entry is a Flush. -/
def State.flushHead (s : State) (l : Line) : Bool :=
  match s.entry? l with
  | some e => match e.waiters.head?.bind s.request? with
    | some q => q.req.kind == .flush
    | none => false
  | none => false

/-- A line waiter is reached with a free slot (R88): a DIRTY copy is inserted with the waiter's origin, and a Flush at
the head of its waiters is served; a copy no longer DIRTY inserts nothing. -/
def State.serveSpaceLine (s : State) (l : Line) (o : Origin) : State :=
  match s.entry? l with
  | some e => match e.copy with
    | .dirty d =>
      let t := s.insertCopy l d o
      if t.flushHead l then t.service l else t
    | _ => s
  | none => s

/-- The journal-space queue is served from its head while a slot is free and the queue is not empty (R88). -/
def State.spaceLoop : Nat → State → State
  | 0, s => s
  | n + 1, s =>
    if s.slotFree then
      match s.jspace with
      | [] => s
      | .line l o :: rest => State.spaceLoop n ({ s with jspace := rest }.serveSpaceLine l o)
      | .allocHead :: rest => State.spaceLoop n ({ s with jspace := rest }.serveAlloc)
    else s

/-- Journal space runs to its end: each round takes one waiter. -/
def State.serveSpace (s : State) : State := State.spaceLoop s.jspace.length s

/-- A Prefetch takes an entry only with an empty allocation queue, and only a free entry or a victim it can take at once
(R19). -/
def State.prefetchEntry (s : State) (l : Line) : Option State :=
  if !s.allocQueue.isEmpty then none
  else if s.table.length < Config.tableSize then some (s.createEntry l none)
  else match s.victim with
    | .take e => some ((s.removeVictim e).createEntry l none)
    | _ => none

/-! ## The end of a step -/

/-- A completing Region Set is complete when no holding in the region is in excess and no REGION recall of a line of the
region is outstanding (R145). -/
def State.regionSetDone (s : State) (r : RegionId) : Bool :=
  (s.table.all fun e => !s.regions[r].contains e.line ||
      ports.all fun p => (excessRecall s.regions[r].access[p] e.holdings[p]).isNone) &&
    (s.recalls.all fun x => !(x.asked.purpose == .region && s.regions[r].contains x.asked.line)) &&
    (s.recallWait.all fun w => !(w.purpose == .region && s.regions[r].contains w.line))

/-- The outstanding Region Set, if its request is still outstanding (R146). -/
def State.regionSetRequest? (s : State) : Option Request := s.requests.find? fun q => q.req.kind == .regionSet

/-- The completion record becomes absent and the Region Set is answered DONE, when it is complete (R145). -/
def State.completeRegionSet (s : State) : State :=
  match s.completing with
  | none => s
  | some r =>
    if s.regionSetDone r then
      let t := { s with completing := none }
      match t.regionSetRequest? with
      | some q => t.answer q.id .done []
      | none => t
    else s

/-- A port's session record, keepalive and notice state between sessions: IDLE (R156, R175). -/
def State.closeSession (s : State) (p : Port) : State :=
  ((s.setSession p { state := .idle, capacity := none, number := none }).setNotices p NoticeUnit.reset).setLink p
    { s.links[p] with keepalive := none }

/-- The Goodbye of a CLOSING port completes when the outstanding set holds only the Goodbye and the holding count is 0
(R175). -/
def State.completeGoodbye (s : State) (p : Port) : State :=
  if s.sessionState p = .closing ∧ s.holdingCount p = 0 then
    match s.outstanding p with
    | [q] => if q.req = .goodbye then (s.answer q.id .done []).closeSession p else s
    | _ => s
  else s

/-- Completions: the Region Set first, whose answer can be the last a CLOSING supervisor waits for, then the ports'
Goodbyes (R145, R175). -/
def State.complete (s : State) : State := ports.foldl State.completeGoodbye s.completeRegionSet

/-- The end of a step that found the hub in the state `before`: what the rules say follows in the same step. Freed
journal slots (R88) and, on R13's events, the head of the allocation queue; then the grant (R106, R108; log entry 7), then
completions (R145, R175). DESIGN CHOICE: so every frame that the command's own meaning has created, the notices of a failed
job or a fence among them, goes before the replies created here, and the DONE of a completing Region Set behind all others
but those of Goodbyes (log entry 6). -/
def State.settle (s before : State) : State := ((s.serveSpace).rouseHead before).arbitrate.complete

end Sys2Proof.Machine
end

