-- ==== Sys2Proof/Machine/SessionOps.lean ====
section
/-! DEFINITION. Revocation, fences and the ends of sessions (R59, R60, R75 to R78, R155, R156, R172, R176). -/

namespace Sys2Proof.Machine

/-- A line into its place in an ascending list. -/
def insertLine (l : Line) : List Line → List Line
  | [] => [l]
  | m :: ms => if l.toNat ≤ m.toNat then l :: m :: ms else m :: insertLine l ms

/-- Lines in ascending order. -/
def sortLines : List Line → List Line
  | [] => []
  | l :: ls => insertLine l (sortLines ls)

/-- The lines a port holds WRITE, ascending. -/
def State.writtenBy (s : State) (p : Port) : List Line :=
  sortLines ((s.table.filter fun e => e.holdings[p] == .write).map (·.line))

/-- Every holding of the port becomes NONE; while RUNNING the copies of its WRITE lines become POISONED (R76, R78). -/
def State.dropHoldings (s : State) (p : Port) : State :=
  { s with table := s.table.map fun e =>
      let copy := if e.holdings[p] == .write && s.mode == .running then .poisoned else e.copy
      { e with holdings := e.holdings.set p .none, copy := copy } }

/-- The poisoned entries hold the id of their HOLDER_LOST record, and their line waiters leave the journal-space queue
(R5, R76, R89). -/
def State.markPoisoned (s : State) (ls : List Line) (id : Byte) : State :=
  { s with table := s.table.map fun e => if ls.contains e.line then { e with recordId := some id } else e
           jspace := s.jspace.filter fun w => match w with
             | .line l _ => !ls.contains l
             | .allocHead => true }

/-- The holdings of a revoked port (R76, R78): removed, with one HOLDER_LOST record for the lines poisoned while
RUNNING. -/
def State.revokeHoldings (s : State) (p : Port) (c : Cause) : State :=
  let lost := if s.mode = .running then s.writtenBy p else []
  let t := s.dropHoldings p
  if lost = [] then t
  else (t.markPoisoned lost t.newRecordId).createRecord (.holderLost p c lost)

/-- Every recall that targets the port closes; the freed table entries open waiting recalls to other ports (R77, step
1). -/
def State.closeRecallsTo (s : State) (p : Port) : State :=
  { s with recalls := s.recalls.filter fun r => r.asked.port != p
           recallWait := s.recallWait.filter fun w => w.port != p }.openAllWaiting Config.recallTableSize

/-- A Flush of the port stands at the head of the entry's waiters: its line leaves the journal-space queue, unless it
stands there as an owed WRITE_THROUGH line (R53, R89). -/
def State.leaveFlushSpace (s : State) (p : Port) : List SpaceWaiter :=
  s.jspace.filter fun w => match w with
    | .line l .flush => match s.entry? l with
      | some e => (e.waiters.head?.map (·.port)) != some p
      | none => true
    | .line _ _ => true
    | .allocHead => (s.allocQueue.head?.map (·.port)) != some p

/-- A DIRECT job of the port in flight runs to its end with its outcome discarded (R59, R106). -/
def Job.abandonBy (p : Port) (j : Job) : Job :=
  match j.owner with
  | .direct op id _ => if id.port = p then { j with owner := .direct op id true } else j
  | _ => j

/-- The port's requests leave their places (R59, R77, step 2). -/
def State.leavePlaces (s : State) (p : Port) : State :=
  let t : State :=
    { s with jspace := s.leaveFlushSpace p
             table := s.table.map fun e => { e with waiters := e.waiters.filter fun r => r.port != p }
             allocQueue := s.allocQueue.filter fun r => r.port != p
             syncList := s.syncList.filter fun i => i.id.port != p
             directQueue := s.directQueue.filter fun d => d.id.port != p
             job := s.job.map (Job.abandonBy p) }
  t.clearPass

/-- Every outstanding request of the port is answered FENCED, in the order of admission (R59, R172). -/
def State.answerFenced (s : State) (p : Port) : State :=
  (s.outstanding p).foldl (fun t r => t.answer r.id .fenced []) s

/-- Every outstanding request of the port is discarded (R60, R176). -/
def State.discardRequests (s : State) (p : Port) : State :=
  { s with requests := s.requests.filter fun r => r.id.port != p }

/-- An entry goes on once revocation has taken a port's part in it away: with no recall outstanding a RECALLING entry
becomes IDLE and an EVICTING one finishes; an IDLE entry that lost a waiting Flush is served again (R53, R77, step 3). -/
def State.resumeEntry (s : State) (l : Line) : State :=
  match s.entry? l with
  | some e => if e.activity = .idle then s.service l else s.tellLineTable l
  | none => s

/-- Entries are resumed one at a time, in ascending order of line number (R77, step 3). -/
def State.resumeEntries (s : State) : State := (sortLines (s.table.map (·.line))).foldl State.resumeEntry s

/-- Revocation (R75 to R78): the holdings, then the port's recalls, its requests, and the entries that can go on. On a
fence its requests are answered FENCED, otherwise discarded. -/
def State.revoke (s : State) (p : Port) (c : Cause) (fenced : Bool) : State :=
  let t := ((s.revokeHoldings p c).closeRecallsTo p).leavePlaces p
  (if fenced then t.answerFenced p else t.discardRequests p).resumeEntries

/-- The notices a fence leaves on the port: everything before is discarded, SESSION_FENCED is queued, and HUB_STOPPED
behind it while the hub is STOPPED; SESSION_FENCED is sent at once (R155). -/
def State.fenceNotices (s : State) (p : Port) (c : Cause) : State :=
  let stopped := match s.stopRecord with
    | some r => if s.mode = .stopped then [hubStoppedNotice r.body.kind] else []
    | none => []
  (s.setNotices p { s.notices[p] with
      queue := { kind := .sessionFenced, subject := none, data := c.code } :: stopped, inFlight := none }).deliverNotice p

/-- A port is fenced with a cause; a request to fence a port that is not ONLINE or CLOSING is dropped (R172). -/
def State.fencePort (s : State) (p : Port) (c : Cause) : State :=
  if (s.sessionState p).isOpen then
    let t := (s.setSession p { s.sessions[p] with state := .fenced }).setLink p { s.links[p] with keepalive := none }
    let u := (t.revoke p c true).fenceNotices p c
    if p = u.supervisor then u
    else u.postNotice u.supervisor { kind := .agentFenced, subject := some p, data := c.code }
  else s

/-- A session ends by link loss or Link Restart (R176): revocation with LINK_LOST from ONLINE or CLOSING, the outstanding
requests discarded, and the port in the given state with nothing of the session left. -/
def State.endSession (s : State) (p : Port) (next : SessionState) : State :=
  let t := if (s.sessionState p).isOpen then s.revoke p .linkLost false else s.discardRequests p
  ((t.setSession p { state := next, capacity := none, number := none }).setNotices p NoticeUnit.reset).setLink p
    { t.links[p] with keepalive := none }

/-- The hub after Restart (R185): every block as after power-on reset but the link states, the transmit queues, the
sessions' DOWN or IDLE, the session counter, the supervisor, hub time, the memory's levels and the waiting commands. -/
def State.afterRestart (s : State) : State :=
  { State.reset with
    pending := s.pending
    resetN := s.resetN
    mrdy := s.mrdy
    merr := s.merr
    supervisor := s.supervisor
    hubTime := s.hubTime
    sessionCounter := s.sessionCounter
    links := s.links.map fun l => { LinkUnit.reset with up := l.up, tx := l.tx }
    sessions := s.links.map fun l => { Session.reset with state := if l.up then .idle else .down } }

/-- Session End with reason RESTART on a port that has a session (R184). -/
def State.endForRestart (s : State) (p : Port) : State :=
  if (s.sessionState p).hasSession then s.sendSessionEnd p .restart (s.sessions[p].number.getD 0) else s

/-- Restart, once admitted and answered (R184). -/
def State.restartHub (s : State) : State := (ports.foldl State.endForRestart s).afterRestart

/-- The hub at power-on reset with these strap levels (R178, R186); the memory's levels are inputs and stay. -/
def State.powerOn (s : State) (supsel1 supsel0 : Bool) : State :=
  { State.reset with
    pending := s.pending
    mrdy := s.mrdy
    merr := s.merr
    supervisor := match supsel1, supsel0 with
      | false, false => 0
      | false, true => 1
      | true, false => 2
      | true, true => 3 }

end Sys2Proof.Machine
end

