-- ==== Sys2Proof/Machine/DataRequests.lean ====
section
/-! DEFINITION. The meanings of the nine data requests (spec 02). -/

namespace Sys2Proof.Machine

/-- The answer of a command of this hub: a next state. -/
abbrev Result := Host.Outcome State Fault Refusal

/-- Check 6 (R35): the region of the line, the requester's right against the one needed, then the class. -/
def State.checkRegion (s : State) (p : Port) (l : Line) (need : Access) (plainGood : Bool) :
    Except Status RegionClass :=
  match s.regionOf l with
  | none => .error .outOfImage
  | some i =>
    let r := s.regions[i]
    if r.access[p].rank < need.rank then .error .noAccess
    else if r.cls == .plain && !plainGood then .error .notCacheable
    else .ok r.cls

/-- Checks 6 to 8 of a data request that names a line, in their order: the status of the first that fails, or the class
of the line's region. Check 8 is for TRACKED and WRITE_THROUGH lines (R37). -/
def State.checkData (s : State) (p : Port) (k : Kind) (l : Line) (need : Access) (plainGood : Bool) :
    Except Status RegionClass :=
  match s.checkRegion p l need plainGood with
  | .error st => .error st
  | .ok cls =>
    match if cls = .plain then s.checkHolding p k l else s.checkLine p k l with
    | some st => .error st
    | none => .ok cls

/-- A data request that needs its line's entry, or becomes a DIRECT job on a PLAIN line (R38). -/
def State.takeLineRequest (s : State) (id : ReqId) (q : Req) (l : Line) (need : Access) (direct : Option DirectJob) :
    State :=
  match s.checkData id.port q.kind l need direct.isSome with
  | .error st => s.reply id.port id.tag st []
  | .ok cls =>
    match cls, direct with
    | .plain, some d => ((s.admitReq id q).handDirect d).settle s
    | _, _ => ((s.admitReq id q).enterLine l id).settle s

/-- READ_WORDS (R41, R42, R56). -/
def execReadWords (p : Port) (f : RxFrame) (s : State) : Result :=
  .next (s.onRequest p f .readWords (fun _ => parseReadWords f.payload) fun t x =>
    t.takeLineRequest ⟨p, f.tag⟩ (.readWords x.1 x.2.1 x.2.2) x.1 .read
      (some { id := ⟨p, f.tag⟩, op := .read, line := x.1, enables := 0, data := 0 }))

/-- WRITE_WORDS (R43, R44, R57). -/
def execWriteWords (p : Port) (f : RxFrame) (s : State) : Result :=
  .next (s.onRequest p f .writeWords (fun _ => parseWriteWords f.payload) fun t x =>
    t.takeLineRequest ⟨p, f.tag⟩ (.writeWords x.line x.first x.count x.enables x.data) x.line .full
      (some { id := ⟨p, f.tag⟩, op := if isFullLine x.enables then .write else .readModifyWrite, line := x.line,
              enables := x.enables, data := x.data }))

/-- ACQUIRE_READ (R45). -/
def execAcquireRead (p : Port) (f : RxFrame) (s : State) : Result :=
  .next (s.onRequest p f .acquireRead (fun _ => parseLine f.payload) fun t l =>
    t.takeLineRequest ⟨p, f.tag⟩ (.acquireRead l) l .read none)

/-- ACQUIRE_WRITE (R46). -/
def execAcquireWrite (p : Port) (f : RxFrame) (s : State) : Result :=
  .next (s.onRequest p f .acquireWrite (fun _ => parseLine f.payload) fun t l =>
    t.takeLineRequest ⟨p, f.tag⟩ (.acquireWrite l) l .full none)

/-- UPGRADE (R47). -/
def execUpgrade (p : Port) (f : RxFrame) (s : State) : Result :=
  .next (s.onRequest p f .upgrade (fun _ => parseLine f.payload) fun t l =>
    t.takeLineRequest ⟨p, f.tag⟩ (.upgrade l) l .full none)

/-- A Release's operand: data is good only from a WRITE holder of the line (R49). -/
def State.releaseOperand (s : State) (p : Port) (payload : List Byte) : Option (Line × Option LineData) :=
  match parseRelease payload with
  | some (l, some d) => if s.holding l p = .write then some (l, some d) else none
  | x => x

/-- An admitted Release is taken at once (R49, R71): the holding becomes NONE, data makes the copy DIRTY, DONE is
answered, and an outstanding recall of the line to the port closes. DESIGN CHOICE: data of a WRITE_THROUGH line is owed to the
journal before the recall closes and waiters are served (log entry 26). -/
def State.takeRelease (s : State) (p : Port) (tag : Byte) (l : Line) (data : Option LineData) : State :=
  match s.checkHolding p .release l with
  | some st => s.reply p tag st []
  | none =>
    let t := s.setHolding l p .none
    let u := match data with
      | some d => t.makeDirty l d .through
      | none => t
    let v := u.reply p tag .done []
    (if v.recallOutstanding l p then v.closeRecall l p else v).settle s

/-- RELEASE (R49, R71, R73). -/
def execRelease (p : Port) (f : RxFrame) (s : State) : Result :=
  .next (s.onRequest p f .release (fun t => t.releaseOperand p f.payload) fun t x => t.takeRelease p f.tag x.1 x.2)

/-- An admitted Prefetch is answered at once, with FETCHED set when it took an entry (R50). -/
def State.takePrefetch (s : State) (p : Port) (tag : Byte) (l : Line) : State :=
  match s.checkData p .prefetch l .read false with
  | .error st => s.reply p tag st []
  | .ok _ =>
    if (s.entry? l).isSome then s.reply p tag .done [bit false]
    else match s.prefetchEntry l with
      | some t => (t.reply p tag .done [bit true]).settle s
      | none => s.reply p tag .done [bit false]

/-- PREFETCH (R50). -/
def execPrefetch (p : Port) (f : RxFrame) (s : State) : Result :=
  .next (s.onRequest p f .prefetch (fun _ => parseLine f.payload) fun t l => t.takePrefetch p f.tag l)

/-- An admitted Flush (R51): DONE on a PLAIN line; on an absent line the sync list, or DONE when the journal holds
nothing of it; on a present line the entry's waiters. -/
def State.takeFlush (s : State) (id : ReqId) (l : Line) : State :=
  match s.checkData id.port .flush l .read true with
  | .error st => s.reply id.port id.tag st []
  | .ok .plain => s.reply id.port id.tag .done []
  | .ok _ =>
    if (s.entry? l).isSome then ((s.admitReq id (.flush l)).enterLine l id).settle s
    else match s.newest? l with
      | some j => (s.admitReq id (.flush l)).waitFlush id j.seq
      | none => s.reply id.port id.tag .done []

/-- FLUSH (R51, R52). -/
def execFlush (p : Port) (f : RxFrame) (s : State) : Result :=
  .next (s.onRequest p f .flush (fun _ => parseLine f.payload) fun t l => t.takeFlush ⟨p, f.tag⟩ l)

/-- An admitted Sync (R55, R96): its mark is the youngest entry of the journal; an empty journal answers it DONE. -/
def State.takeSync (s : State) (id : ReqId) : State :=
  match s.journal.getLast? with
  | none => s.reply id.port id.tag .done []
  | some j =>
    (s.admitReq id .sync).joinSync
      { id := id, kind := .sync j.seq (s.journal.map (·.seq)), partialFlag := false }

/-- SYNC (R55). -/
def execSync (p : Port) (f : RxFrame) (s : State) : Result :=
  .next (s.onRequest p f .sync (fun _ => parseEmpty f.payload) fun t _ => t.takeSync ⟨p, f.tag⟩)

end Sys2Proof.Machine
end

