-- ==== Sys2Proof/Machine/RecallAnswers.lean ====
section
/-! DEFINITION. The meanings of RECALL_ANSWER, RECALL_TIMEOUT and WAITING_RECALL_OPEN (spec 03). -/

namespace Sys2Proof.Machine

/-- A matched answer to a DOWNGRADE (R68): the target's new holding, and the data the hub copy takes. -/
def downgradeEffect : AnswerOutcome → Holding × Option LineData
  | .clean => (.read, none)
  | .data d => (.read, some d)
  | .notHeld => (.none, none)

/-- A matched answer to an INVALIDATE (R69): the holding becomes NONE, and data counts from a WRITE holder only. -/
def invalidateEffect (h : Holding) : AnswerOutcome → Holding × Option LineData
  | .data d => if h = .write then (.none, some d) else (.none, none)
  | _ => (.none, none)

/-- The effect of a matched answer by the recall's kind (R67). -/
def answerEffect (k : RecallKind) (h : Holding) (o : AnswerOutcome) : Holding × Option LineData :=
  match k with
  | .downgrade => downgradeEffect o
  | .invalidate => invalidateEffect h o

/-- The open recall a good answer matches: id, line and target port (R67). -/
def State.matchRecall (s : State) (p : Port) (a : AnswerOperand) : Option Recall :=
  s.recalls.find? fun r => r.id == a.id && r.asked.line == a.line && r.asked.port == p

/-- A good answer is taken (R67 to R70), or discarded when nothing matches. DESIGN CHOICE: data of a WRITE_THROUGH line is owed to
the journal before the recall closes and waiters are served (log entry 26). -/
def State.takeAnswer (s : State) (p : Port) (a : AnswerOperand) : State :=
  match s.matchRecall p a with
  | none => s
  | some r =>
    let eff := answerEffect r.asked.kind (s.holding a.line p) a.outcome
    let t := s.setHolding a.line p eff.1
    let u := match eff.2 with
      | some d => t.makeDirty a.line d .through
      | none => t
    (u.closeRecall a.line p).settle s

/-- A Recall Answer in its port's session state (R66). -/
def State.onAnswer (s : State) (p : Port) (f : RxFrame) : State :=
  match s.sessionState p with
  | .online | .closing =>
    match parseRecallAnswer f.payload with
    | some a => s.takeAnswer p a
    | none => s.reply p f.tag .badFormat []
  | .fenced => s.reply p f.tag .fenced []
  | .idle => s.reply p f.tag .noSession []
  | .down => s

/-- RECALL_ANSWER (R66 to R69). -/
def execRecallAnswer (p : Port) (f : RxFrame) (s : State) : Result :=
  .next (s.onSequenced p f.seq fun t => t.onAnswer p f)

/-- The deadline of an open recall, once reached, fences its target while the hub is RUNNING (R74). -/
def State.takeDeadline (s : State) (id : Byte) : State :=
  match s.recalls.find? fun r => r.id == id with
  | none => s
  | some r =>
    if s.mode = .running ∧ reached s.hubTime r.deadline = true then
      (s.fencePort r.asked.port .recallTimeout).settle s
    else s

/-- RECALL_TIMEOUT (R74). -/
def execRecallTimeout (id : Byte) (s : State) : Result :=
  .next (if s.resetN then s.takeDeadline id else s)

/-- WAITING_RECALL_OPEN (R65). -/
def execWaitingRecallOpen (s : State) : Result := .next (if s.resetN then s.openWaiting else s)

end Sys2Proof.Machine
end

