-- ==== Sys2Proof/Machine/SessionRequests.lean ====
section
/-! DEFINITION. The meanings of HELLO, GOODBYE, GOODBYE_COMPLETION, the notice requests, NOTICE and
UNKNOWN_KIND_FRAME (spec 08, 09, 11). -/

namespace Sys2Proof.Machine

/-- The session counter moves on by one, from 65535 to 1 (R170). -/
def nextSession (n : SessionNo) : SessionNo := if n + 1 = 0 then 1 else n + 1

/-- The data of the Welcome (R170, section 11.4). -/
def State.welcome (s : State) (p : Port) (no : SessionNo) (capacity : Nat) : List Byte :=
  le16 no ++ [portByte p, bit (p == s.supervisor)] ++ count16 capacity ++
    [count8 Config.outstandingLimit, count8 Config.maxPayload, count8 Config.replayDepth] ++
    count16 s.timers.recallMs ++ count16 s.timers.keepaliveMs

/-- An accepted Hello opens a session (R170): ONLINE, a session number, the keepalive started, the Welcome, and, while
STOPPED, HUB_STOPPED as the first notice (R157). -/
def State.openSession (s : State) (p : Port) (tag : Byte) (capacity : Nat) : State :=
  let no := nextSession s.sessionCounter
  let t := { s with sessionCounter := no }.setSession p { state := .online, capacity := some capacity, number := some no }
  let u := t.setLink p { t.links[p] with keepalive := some t.keepaliveExpiry }
  let v := u.reply p tag .done (u.welcome p no capacity)
  match v.stopRecord with
  | some r => if v.mode = .stopped then v.postNotice p (hubStoppedNotice r.body.kind) else v
  | none => v

/-- HELLO (R170). -/
def execHello (p : Port) (f : RxFrame) (s : State) : Result :=
  .next (s.onRequest p f .hello (fun _ => parseHello f.payload) fun t x =>
    if x.1 = Config.revision then t.openSession p f.tag x.2 else t.reply p f.tag .revision [])

/-- The lines a port holds, ascending. -/
def State.heldBy (s : State) (p : Port) : List Line :=
  sortLines ((s.table.filter fun e => e.holdings[p] != .none).map (·.line))

/-- An admitted Goodbye: CLOSING, an INVALIDATE with purpose CLOSE for every holding, and completion examined (R174). -/
def State.takeGoodbye (s : State) (id : ReqId) : State :=
  let p := id.port
  let t := (s.admitReq id .goodbye).setSession p { s.sessions[p] with state := .closing }
  (t.askRecalls ((t.heldBy p).map fun l => { line := l, port := p, kind := .invalidate, purpose := .close })).completeGoodbye p

/-- GOODBYE (R174). -/
def execGoodbye (p : Port) (f : RxFrame) (s : State) : Result :=
  .next (s.onRequest p f .goodbye (fun _ => parseEmpty f.payload) fun t _ => t.takeGoodbye ⟨p, f.tag⟩)

/-- GOODBYE_COMPLETION (R175). -/
def execGoodbyeCompletion (p : Port) (s : State) : Result := .next (if s.resetN then s.completeGoodbye p else s)

/-- An admitted Notice Ack (R153): the notice in flight with that number is removed and the next is sent, or NO_NOTICE.
The reply is created before the next notice. -/
def State.takeNoticeAck (s : State) (p : Port) (tag n : Byte) : State :=
  match s.notices[p].inFlight with
  | some x =>
    if x.number = n then
      ((s.setNotices p { s.notices[p] with inFlight := none }).reply p tag .done []).deliverNotice p
    else s.reply p tag .noNotice []
  | none => s.reply p tag .noNotice []

/-- NOTICE_ACK (R153). -/
def execNoticeAck (p : Port) (f : RxFrame) (s : State) : Result :=
  .next (s.onRequest p f .noticeAck (fun _ => parseByte f.payload) fun t n => t.takeNoticeAck p f.tag n)

/-- An admitted Set Threshold (R154). -/
def State.takeThreshold (s : State) (p : Port) (tag : Byte) (n : Nat) : State :=
  ((s.setNotices p { s.notices[p] with threshold := n }).reply p tag .done []).deliverNotice p

/-- SET_THRESHOLD (R154). -/
def execSetThreshold (p : Port) (f : RxFrame) (s : State) : Result :=
  .next (s.onRequest p f .setThreshold (fun _ => parseThreshold f.payload) fun t n => t.takeThreshold p f.tag n)

/-- NOTICE (R152): the delivery step of a port's notice unit. -/
def execNotice (p : Port) (s : State) : Result := .next (if s.resetN then s.deliverNotice p else s)

/-- The refusal of a frame of unknown kind (R188): by session state, or UNKNOWN_KIND in ONLINE. -/
def unknownKindStatus : SessionState → Status
  | .online => .unknownKind
  | .closing => .closing
  | .fenced => .fenced
  | .idle | .down => .noSession

/-- UNKNOWN_KIND_FRAME (R188): the kind byte itself plays no part in the refusal. -/
def execUnknownKindFrame (p : Port) (f : RxFrame) (s : State) : Result :=
  .next (s.onSequenced p f.seq fun t => t.reply p f.tag (unknownKindStatus (t.sessionState p)) [])

end Sys2Proof.Machine
end

