-- ==== Sys2Proof/Machine/SupervisorRequests.lean ====
section
/-! DEFINITION. The meanings of HUB_STATUS, SET_TIMERS, FENCE, UNFENCE and RESTART (spec 10). -/

namespace Sys2Proof.Machine

/-- A one-byte field of Hub Status that can be none: 0xFF then (section 11.4). -/
def optByte : Option Byte → Byte
  | some b => b
  | none => 0xFF

/-- A capacity of Hub Status: 0xFFFF when none (section 11.4). -/
def capacityBytes : Option Nat → List Byte
  | some n => count16 n
  | none => [0xFF, 0xFF]

def State.statusHub (s : State) : List Byte :=
  s.mode.code :: le32 s.hubTime ++ [portByte s.supervisor, optByte (s.completing.map fun r => count8 r.val)]

/-- The number of in-use entries with a property, as reported. -/
def State.entryCount (s : State) (f : Entry → Bool) : List Byte := count16 (s.table.countP f)

def State.statusTable (s : State) : List Byte :=
  count16 s.table.length ++
    s.entryCount (·.copy == .empty) ++ s.entryCount (·.copy.isClean) ++ s.entryCount (·.copy.isDirty) ++
    s.entryCount (·.poisoned) ++
    s.entryCount (·.activity == .idle) ++ s.entryCount (·.activity == .filling) ++
    s.entryCount (·.activity == .recalling) ++ s.entryCount (·.activity == .evicting) ++
    s.entryCount (·.activity == .faultHeld) ++
    s.entryCount (·.prefetched) ++ count16 s.allocQueue.length

def State.statusRecalls (s : State) : List Byte := count16 s.recalls.length ++ count16 s.recallWait.length

def State.journalCount (s : State) (st : JournalState) : List Byte := count16 (s.journal.countP (·.state == st))

def State.statusJournal (s : State) : List Byte :=
  count16 s.journal.length ++ s.journalCount .queued ++ s.journalCount .writing ++ s.journalCount .faulted ++
    count16 s.jspace.length ++ [bit s.highAlarm] ++ count16 s.syncList.length

def State.statusPort (s : State) : List Byte :=
  optByte (s.job.map fun j => j.owner.code) :: count16 s.fillQueue.length ++ count16 s.directQueue.length

def State.recordCount (s : State) (st : RecordState) : List Byte := count16 (s.faultQueue.countP (·.state == st))

def State.statusFaults (s : State) : List Byte :=
  count16 s.faultQueue.length ++ s.recordCount .posted ++ s.recordCount .opened ++ s.recordCount .retrying ++
    [bit s.stopRecord.isSome, optByte (s.stopRecord.map fun r => r.body.kind.code)]

def State.statusAgent (s : State) (p : Port) : List Byte :=
  (s.sessionState p).code :: capacityBytes s.sessions[p].capacity ++ count16 (s.holdingCount p) ++
    count16 (s.outstanding p).length ++ [count8 s.notices[p].threshold] ++ count16 s.notices[p].queue.length ++
    [bit s.notices[p].inFlight.isSome]

def State.statusTimers (s : State) : List Byte :=
  count16 s.timers.recallMs ++ count16 s.timers.keepaliveMs ++ count16 s.timers.storeTenths

/-- The values of Hub Status in the order of R180's table, sized and coded as section 11.4 states. -/
def State.hubStatus (s : State) : List Byte :=
  s.statusHub ++ s.statusTable ++ s.statusRecalls ++ s.statusJournal ++ s.statusPort ++ s.statusFaults ++
    (ports.map s.statusAgent).flatten ++ s.statusTimers

/-- HUB_STATUS (R180): the supervisor's own outstanding count includes the Hub Status being answered. -/
def execHubStatus (p : Port) (f : RxFrame) (s : State) : Result :=
  .next (s.onRequest p f .hubStatus (fun _ => parseEmpty f.payload) fun t _ =>
    t.reply p f.tag .done (t.admitReq ⟨p, f.tag⟩ .hubStatus).hubStatus)

/-- SET_TIMERS (R181). -/
def execSetTimers (p : Port) (f : RxFrame) (s : State) : Result :=
  .next (s.onRequest p f .setTimers (fun _ => parseTimers f.payload) fun t x =>
    { t with timers := x }.reply p f.tag .done [])

/-- An admitted Fence (R182): the DONE reply is created before the fence's AGENT_FENCED. DESIGN CHOICE: it is created
before the FAULT_POSTED or HUB_STOPPED of the revocation too (log entry 6). -/
def State.takeFence (s : State) (p : Port) (tag : Byte) (q : Port) : State :=
  if q = s.supervisor then s.reply p tag .notPermitted []
  else if (s.sessionState q).isOpen then ((s.reply p tag .done []).fencePort q .supervisorFence).settle s
  else s.reply p tag .notOnline []

/-- FENCE (R182). -/
def execFence (p : Port) (f : RxFrame) (s : State) : Result :=
  .next (s.onRequest p f .fence (fun _ => parsePort f.payload) fun t q => t.takeFence p f.tag q)

/-- An admitted Unfence (R173, R183). -/
def State.takeUnfence (s : State) (p : Port) (tag : Byte) (q : Port) : State :=
  if q = s.supervisor then s.reply p tag .notPermitted []
  else if s.sessionState q = .fenced then
    let no := s.sessions[q].number.getD 0
    ((s.reply p tag .done []).closeSession q).sendSessionEnd q .unfenced no
  else s.reply p tag .notFenced []

/-- UNFENCE (R183). -/
def execUnfence (p : Port) (f : RxFrame) (s : State) : Result :=
  .next (s.onRequest p f .unfence (fun _ => parsePort f.payload) fun t q => t.takeUnfence p f.tag q)

/-- RESTART (R184, R185). -/
def execRestart (p : Port) (f : RxFrame) (s : State) : Result :=
  .next (s.onRequest p f .restart (fun _ => parseEmpty f.payload) fun t _ => (t.reply p f.tag .done []).restartHub)

end Sys2Proof.Machine
end

