-- ==== Sys2Proof/Machine/RegionRequests.lean ====
section
/-! DEFINITION. The meanings of REGION_SET, REGION_SET_COMPLETION and REGION_QUERY (spec 07). -/

namespace Sys2Proof.Machine

/-- The DIRECT jobs of data requests: Read Words and Write Words (R142). -/
def DirectOp.isData : DirectOp → Bool
  | .read | .write | .readModifyWrite => true
  | .storeRead | .storeWrite => false

/-- The line of the job in flight, when it is a DIRECT job of a data request (R142). -/
def Job.dataLine? (j : Job) : Option Line :=
  match j.owner with
  | .direct op _ _ => if op.isData then some j.line else none
  | _ => none

/-- The lines that requests of the allocation queue name. -/
def State.allocLines (s : State) : List Line := s.allocQueue.filterMap fun id => (s.request? id).bind (·.req.line?)

/-- An enabled region is in use while an entry, a journal entry, an allocation or a DIRECT job of a data request names a
line of its range as held (R142). -/
def State.regionInUse (s : State) (r : Region) : Bool :=
  r.enabled &&
    (s.table.any (fun e => r.contains e.line) || s.journal.any (fun j => r.contains j.line) ||
      s.allocLines.any r.contains || s.directQueue.any (fun d => d.op.isData && r.contains d.line) ||
      (s.job.bind Job.dataLine?).toList.any r.contains)

/-- The new descriptor's range shares a line with another enabled one (R142, check 2). -/
def State.overlapsOther (s : State) (i : RegionId) (r : Region) : Bool :=
  regionIds.any fun j => j != i && s.regions[j].enabled && r.overlaps s.regions[j]

/-- The change touches the access values only (R142). -/
def Region.accessOnly (old new : Region) : Bool :=
  old.enabled == new.enabled && old.first == new.first && old.count == new.count && old.cls == new.cls

/-- The three checks of R142, in their order. -/
def State.checkRegionSet (s : State) (i : RegionId) (r : Region) : Option Status :=
  if s.completing.isSome then some .regionBusy
  else if r.enabled && s.overlapsOther i r then some .overlap
  else if !s.regions[i].accessOnly r && s.regionInUse s.regions[i] then some .regionInUse
  else none

/-- REGION_CHANGED for every ONLINE port (R147). -/
def State.postRegionChanged (s : State) (i : RegionId) : State :=
  s.postAll { kind := .regionChanged, subject := none, data := (1 : Byte) <<< i.val }

/-- The recalls an excess holding of an entry takes (R140, R144). -/
def excessRecalls (r : Region) (e : Entry) : List WaitingRecall :=
  ports.filterMap fun p => (excessRecall r.access[p] e.holdings[p]).map fun k =>
    { line := e.line, port := p, kind := k, purpose := .region }

/-- The recalls of every excess holding in a region, lines ascending, then ports (R144); no line lies in a disabled one
(R137). -/
def State.regionRecalls (s : State) (r : Region) : List WaitingRecall :=
  ((sortLines ((s.table.filter fun e => r.enabled && r.contains e.line).map (·.line))).filterMap s.entry?).flatMap
    (excessRecalls r)

/-- A Region Set that is taken (R143, R144): the descriptor is replaced; excess holdings of an access-only change are
recalled and the Region Set completes later, else it is answered at once. -/
def State.takeRegionSet (s : State) (id : ReqId) (i : RegionId) (r : Region) : State :=
  match s.checkRegionSet i r with
  | some st => s.reply id.port id.tag st []
  | none =>
    let t := { s with regions := s.regions.set i r }
    let recalls := if s.regions[i].accessOnly r then t.regionRecalls r else []
    if recalls.isEmpty then (t.reply id.port id.tag .done []).postRegionChanged i
    else ({ (t.admitReq id (.regionSet i)) with completing := some i }.askRecalls recalls).postRegionChanged i

/-- REGION_SET (R141 to R144). -/
def execRegionSet (p : Port) (f : RxFrame) (s : State) : Result :=
  .next (s.onRequest p f .regionSet (fun _ => parseRegionSet f.payload) fun t x =>
    t.takeRegionSet ⟨p, f.tag⟩ x.1 x.2)

/-- REGION_SET_COMPLETION (R145): the completion record, and the Goodbyes its answer lets complete. -/
def execRegionSetCompletion (s : State) : Result := .next (if s.resetN then s.complete else s)

/-- REGION_QUERY (R148). -/
def execRegionQuery (p : Port) (f : RxFrame) (s : State) : Result :=
  .next (s.onRequest p f .regionQuery (fun _ => parseRegion f.payload) fun t i =>
    t.reply p f.tag .done (descriptorBytes t.regions[i] (t.completing == some i)))

end Sys2Proof.Machine
end

