-- ==== Sys2Proof/Machine/FaultRequests.lean ====
section
/-! DEFINITION. The meanings of FAULT_LIST, FAULT_READ, the six actions of RESOLVE, and SUPPLY_LINE (spec 06). -/

namespace Sys2Proof.Machine

/-! ## Reading records (R125, R126) -/

/-- An item of Fault List: id, kind, and state with the stop flag in bit 7 (section 11.4). -/
def listItem (stop : Bool) (r : FaultRecord) : List Byte :=
  [r.id, r.body.kind.code, r.state.code ||| (if stop then 0x80 else 0)]

/-- The data of Fault List: the records in queue order, then the stop record (R125). -/
def State.faultList (s : State) : List Byte :=
  count8 (s.faultQueue.length + s.stopRecord.toList.length) ::
    (s.faultQueue.flatMap (listItem false) ++ s.stopRecord.toList.flatMap (listItem true))

/-- FAULT_LIST (R125). -/
def execFaultList (p : Port) (f : RxFrame) (s : State) : Result :=
  .next (s.onRequest p f .faultList (fun _ => parseEmpty f.payload) fun t _ => t.reply p f.tag .done t.faultList)

/-- The number of line parts of a list of lost lines: its length over 100, rounded up (R126). -/
def lineParts (lines : List Line) : Nat := (lines.length + (Config.linesPerPart - 1)) / Config.linesPerPart

/-- The parts of a record besides part 0 (R126). -/
def RecordBody.parts : RecordBody → Nat
  | .holderLost _ _ lines => lineParts lines
  | .fillFault _ _ _ | .drainFault _ _ _ _ _ _ => 0

/-- A waiting request in part 0: port, request kind, tag (section 11.6). -/
def waitingItem (q : Request) : List Byte := [portByte q.id.port, q.req.kind.code, q.id.tag]

/-- Part 0 after the header, by kind (section 11.6). -/
def State.recordBytes (s : State) : RecordBody → List Byte
  | .fillFault l c n =>
    le16 l ++ [c.code, count8 n, count8 (s.waitingRequests l).length] ++ (s.waitingRequests l).flatMap waitingItem
  | .drainFault l c n q o d => le16 l ++ [c.code, count8 n] ++ le32 q ++ [o.code] ++ lineBytes d
  | .holderLost p c lines => [portByte p, c.code] ++ count16 lines.length ++ [count8 (lineParts lines)]

/-- The header of part 0: id, kind, state before the read, stop flag, created time (section 11.6). -/
def recordHeader (r : FaultRecord) (stop : Bool) : List Byte :=
  [r.id, r.body.kind.code, r.state.code, bit stop] ++ le32 r.created

/-- The lost lines at positions 100 (p - 1) + 1 to 100 p of the list (R126). -/
def partLines (lines : List Line) (p : Nat) : List Line :=
  (lines.drop (Config.linesPerPart * (p - 1))).take Config.linesPerPart

/-- A line part: its count, then the lines (section 11.6). -/
def linePart : RecordBody → Nat → List Byte
  | .holderLost _ _ lines, p => count8 (partLines lines p).length :: (partLines lines p).flatMap le16
  | _, _ => []

/-- A POSTED record that is read becomes OPEN (R117). -/
def FaultRecord.opened (r : FaultRecord) : FaultRecord :=
  if r.state = .posted then { r with state := .opened } else r

/-- The record with an id becomes OPEN if it was POSTED, in the queue or in the stop record slot (R124, R126). -/
def State.openRecord (s : State) (id : Byte) : State :=
  { s.updateRecord id FaultRecord.opened with
    stopRecord := s.stopRecord.map fun r => if r.id = id then r.opened else r }

/-- An admitted Fault Read (R126): the record, then the part, then the reply with what the record was before the read. -/
def State.takeFaultRead (s : State) (p : Port) (tag id : Byte) (part : Nat) : State :=
  match s.record? id with
  | none => s.reply p tag .noRecord []
  | some (r, stop) =>
    if part = 0 then (s.reply p tag .done (recordHeader r stop ++ s.recordBytes r.body)).openRecord id
    else if part ≤ r.body.parts then s.reply p tag .done (linePart r.body part)
    else s.reply p tag .badFormat []

/-- FAULT_READ (R126). -/
def execFaultRead (p : Port) (f : RxFrame) (s : State) : Result :=
  .next (s.onRequest p f .faultRead (fun _ => parseFaultRead f.payload) fun t x => t.takeFaultRead p f.tag x.1 x.2)

/-! ## Resolve (R127 to R133) -/

/-- The actions of each kind (R128). -/
def RecordKind.takes : RecordKind → Action → Bool
  | .fillFault, .retry | .fillFault, .supply | .fillFault, .fail => true
  | .drainFault, .retry | .drainFault, .complete | .drainFault, .abandon => true
  | .holderLost, .revert => true
  | _, _ => false

/-- The failed attempts of a record (R116). -/
def RecordBody.attempts : RecordBody → Nat
  | .fillFault _ _ n | .drainFault _ _ n _ _ _ => n
  | .holderLost _ _ _ => 0

/-- Checks 4 to 8 of R128 on a record, in their order. -/
def FaultRecord.checkResolve (r : FaultRecord) (a : Action) (hasData : Bool) : Option Status :=
  if r.state = .retrying then some .recordBusy
  else if r.state = .posted then some .unread
  else if !r.body.kind.takes a then some .wrongAction
  else if hasData != (a == .supply) then some .badFormat
  else if a = .retry ∧ Config.attemptLimit ≤ r.body.attempts then some .retryLimit
  else none

/-- An admitted Resolve: check 3, checks 4 to 8, then the action's effect, DONE, and what follows in the same step (R128).
DESIGN CHOICE (log entry 6): what the effect itself creates, the answers of waiters and of the sync list and the
JOURNAL_HIGH that SUPPLY of a WRITE_THROUGH line raises (R98), goes before DONE; what the end of the step creates, the
answers of requests that the freed table entry or journal slot lets the queues serve (R130, R132, R133), goes after it. -/
def State.takeResolve (s : State) (a : Action) (p : Port) (tag id : Byte) (data : Option LineData)
    (effect : State → FaultRecord → Option LineData → State) : State :=
  match s.queuedRecord? id with
  | none => s.reply p tag .noRecord []
  | some r =>
    match r.checkResolve a data.isSome with
    | some st => s.reply p tag st []
    | none => ((effect s r data).reply p tag .done []).settle s

/-- RETRY: the fill is asked for again (R129), or the journal entry waits for its DRAIN (R94, R131). -/
def State.retryRecord (s : State) (r : FaultRecord) (_ : Option LineData) : State :=
  let t := s.updateRecord r.id fun x => { x with state := .retrying }
  match r.body with
  | .fillFault l _ _ => (t.setActivity l .filling).askFill l
  | .drainFault _ _ _ q _ _ =>
    { t with journal := t.journal.map fun j => if j.seq == q then { j with state := .writing, origin := .retry } else j }
  | .holderLost _ _ _ => s

/-- SUPPLY: the data becomes the entry's DIRTY copy, the record is retired, and the waiters are served (R130). DESIGN CHOICE:
in a WRITE_THROUGH region the data enters the journal, or its line the journal-space queue, before the waiters are served (log
entry 26). -/
def State.supplyRecord (s : State) (r : FaultRecord) (data : Option LineData) : State :=
  match r.body, data with
  | .fillFault l _ _, some d =>
    let t := s.updateEntry l fun e => { e with activity := .idle, recordId := none }
    ((t.makeDirty l d .supply).retireRecord r.id).service l
  | _, _ => s

/-- FAIL: the waiting requests are answered STORE_FAULT in list order, the entry is removed, the record retired (R130). -/
def State.failRecord (s : State) (r : FaultRecord) (_ : Option LineData) : State :=
  match r.body with
  | .fillFault l _ _ =>
    let waiting := (s.entry? l).elim [] Entry.waiters
    let t := waiting.foldl (fun u id => u.answer id .storeFault []) s
    (t.removeEntry l).retireRecord r.id
  | _ => s

/-- COMPLETE and ABANDON: the entry leaves the journal, written by declaration or unwritten, and the record is retired
(R95, R132). -/
def State.dropRecord (abandoned : Bool) (s : State) (r : FaultRecord) (_ : Option LineData) : State :=
  match r.body with
  | .drainFault _ _ _ q _ _ => (s.removeJournal q abandoned).retireRecord r.id
  | _ => s

/-- REVERT: every line still listed loses its entry, and the record is retired (R133). -/
def State.revertRecord (s : State) (r : FaultRecord) (_ : Option LineData) : State :=
  match r.body with
  | .holderLost _ _ lines => (lines.foldl State.removeEntry s).retireRecord r.id
  | _ => s

/-- The frame of a Resolve with one action (R127; log entry 13). -/
def State.onResolve (s : State) (a : Action) (p : Port) (f : RxFrame)
    (effect : State → FaultRecord → Option LineData → State) : State :=
  s.onRequest p f .resolve (fun _ => parseResolve a f.payload) fun t x => t.takeResolve a p f.tag x.1 x.2 effect

/-- RESOLVE_RETRY (R129, R131). -/
def execResolveRetry (p : Port) (f : RxFrame) (s : State) : Result := .next (s.onResolve .retry p f State.retryRecord)

/-- RESOLVE_SUPPLY (R130). -/
def execResolveSupply (p : Port) (f : RxFrame) (s : State) : Result := .next (s.onResolve .supply p f State.supplyRecord)

/-- RESOLVE_FAIL (R130). -/
def execResolveFail (p : Port) (f : RxFrame) (s : State) : Result := .next (s.onResolve .fail p f State.failRecord)

/-- RESOLVE_COMPLETE (R132). -/
def execResolveComplete (p : Port) (f : RxFrame) (s : State) : Result :=
  .next (s.onResolve .complete p f (State.dropRecord false))

/-- RESOLVE_ABANDON (R132). -/
def execResolveAbandon (p : Port) (f : RxFrame) (s : State) : Result :=
  .next (s.onResolve .abandon p f (State.dropRecord true))

/-- RESOLVE_REVERT (R133). -/
def execResolveRevert (p : Port) (f : RxFrame) (s : State) : Result := .next (s.onResolve .revert p f State.revertRecord)

/-! ## Supply Line (R134) -/

/-- The lost lines a record lists. -/
def RecordBody.lostLines : RecordBody → List Line
  | .holderLost _ _ lines => lines
  | .fillFault _ _ _ | .drainFault _ _ _ _ _ _ => []

/-- A line leaves the lost lines of a record (R121). -/
def RecordBody.dropLine (l : Line) : RecordBody → RecordBody
  | .holderLost p c lines => .holderLost p c (lines.filter (· != l))
  | b => b

/-- Checks 2 to 4 of R134 on a record, in their order. -/
def FaultRecord.checkSupply (r : FaultRecord) (l : Line) : Option Status :=
  if r.state = .posted then some .unread
  else if r.body.kind ≠ .holderLost then some .wrongAction
  else if !r.body.lostLines.contains l then some .notListed
  else none

/-- The line takes the supplied data, DIRTY, and leaves the record's list, which retires the record when it is empty
(R134). -/
def State.supplyLine (s : State) (r : FaultRecord) (l : Line) (d : LineData) : State :=
  let t := (s.updateEntry l fun e => { e with recordId := none }).makeDirty l d .supply
  if (r.body.dropLine l).lostLines.isEmpty then t.retireRecord r.id
  else t.updateRecord r.id fun x => { x with body := x.body.dropLine l }

/-- An admitted Supply Line (R134). DESIGN CHOICE (log entry 6): the JOURNAL_HIGH that the insertion of a WRITE_THROUGH line
raises (R98) goes before DONE; the answers that the end of the step creates go after it. -/
def State.takeSupplyLine (s : State) (p : Port) (tag id : Byte) (l : Line) (d : LineData) : State :=
  match s.queuedRecord? id with
  | none => s.reply p tag .noRecord []
  | some r =>
    match r.checkSupply l with
    | some st => s.reply p tag st []
    | none =>
      ((s.supplyLine r l d).reply p tag .done (count16 (r.body.dropLine l).lostLines.length)).settle s

/-- SUPPLY_LINE (R134). -/
def execSupplyLine (p : Port) (f : RxFrame) (s : State) : Result :=
  .next (s.onRequest p f .supplyLine (fun _ => parseSupplyLine f.payload) fun t x =>
    t.takeSupplyLine p f.tag x.1 x.2.1 x.2.2)

end Sys2Proof.Machine
end

