-- ==== Sys2Proof/Machine/StoreRequests.lean ====
section
/-! DEFINITION. The meanings of STORE_READ and STORE_WRITE (R110, R111). -/

namespace Sys2Proof.Machine

/-- An admitted store request: the tracked-line check, waived in STOPPED, then the DIRECT queue (R110). -/
def State.takeStore (s : State) (id : ReqId) (q : Req) (d : DirectJob) : State :=
  if s.mode = .running ∧ s.isTracked d.line = true then s.reply id.port id.tag .lineTracked []
  else ((s.admitReq id q).handDirect d).settle s

/-- STORE_READ (R110). -/
def execStoreRead (p : Port) (f : RxFrame) (s : State) : Result :=
  .next (s.onRequest p f .storeRead (fun _ => parseLine f.payload) fun t l =>
    t.takeStore ⟨p, f.tag⟩ (.storeRead l) { id := ⟨p, f.tag⟩, op := .storeRead, line := l, enables := 0, data := 0 })

/-- STORE_WRITE (R110). -/
def execStoreWrite (p : Port) (f : RxFrame) (s : State) : Result :=
  .next (s.onRequest p f .storeWrite (fun _ => parseStoreWrite f.payload) fun t x =>
    t.takeStore ⟨p, f.tag⟩ (.storeWrite x.1 x.2)
      { id := ⟨p, f.tag⟩, op := .storeWrite, line := x.1, enables := 0, data := x.2 })

end Sys2Proof.Machine
end

