-- ==== Sys2Proof/Machine/BusEvents.lean ====
section
/-! DEFINITION. The meanings of the backing store bus events: STORE_TIMEOUT, HALF_WORD_ANSWERED, MRDY_MERR_INACTIVE, and
the ends of FILL, DRAIN and DIRECT jobs (R24, R25, R91 to R93, R101 to R106, R112). -/

namespace Sys2Proof.Machine

/-! ## What the owner of a job does with its outcome (R106) -/

/-- A FILL completed (R24): the data becomes the CLEAN copy, the entry IDLE, a RETRY's record is retired, and service
runs. -/
def State.fillDone (s : State) (l : Line) (d : LineData) : State :=
  match s.entry? l with
  | none => s
  | some e =>
    let t := s.updateEntry l fun x => { x with copy := .clean d, activity := .idle, recordId := none }
    let u := match e.recordId with
      | some id => t.retireRecord id
      | none => t
    u.service l

/-- A FILL failed (R25): nothing in STOPPED; while RUNNING a retry's record is posted again, an entry without waiters is
removed, and any other is held with a new FILL_FAULT record. -/
def State.fillLost (s : State) (l : Line) (c : StoreCause) : State :=
  match s.mode, s.entry? l with
  | .stopped, _ | _, none => s
  | .running, some e =>
    match e.recordId with
    | some id => (s.setActivity l .faultHeld).repostRecord id c
    | none =>
      if e.waiters.isEmpty then s.removeEntry l
      else
        (s.updateEntry l fun x => { x with activity := .faultHeld, recordId := some s.newRecordId }).createRecord
          (.fillFault l c 1)

/-- The journal entry with a sequence number (R81). -/
def State.journalEntry? (s : State) (q : Seq) : Option JournalEntry := s.journal.find? fun j => j.seq == q

/-- The record of an entry that Resolve RETRY sent back (R82). -/
def State.retriedRecord? (s : State) (q : Seq) : Option FaultRecord :=
  match s.journalEntry? q with
  | some j => if j.origin = .retry then s.drainRecord? q else none
  | none => none

/-- A DRAIN completed (R91): the entry leaves the journal, and a RETRY's record is retired. -/
def State.drainDone (s : State) (q : Seq) : State :=
  let t := s.removeJournal q false
  match s.retriedRecord? q with
  | some r => t.retireRecord r.id
  | none => t

/-- A DRAIN failed (R92, R93): the entry becomes FAULTED in place; while RUNNING a record is created on the first failure
and posted again after a RETRY. -/
def State.drainLost (s : State) (q : Seq) (c : StoreCause) : State :=
  let t := { s with journal := s.journal.map fun j => if j.seq == q then { j with state := .faulted } else j }
  match s.mode, s.journalEntry? q with
  | .stopped, _ | _, none => t
  | .running, some j =>
    if j.origin = .retry then
      match s.drainRecord? q with
      | some r => t.repostRecord r.id c
      | none => t
    else t.createRecord (.drainFault j.line c 1 q j.origin j.data)

/-- The data of a completed DIRECT job's reply (R56, R57, R111, section 11.4). A PLAIN line has no holding to drop. -/
def directData (op : DirectOp) (q : Req) (d : LineData) : List Byte :=
  match op, q with
  | .read, .readWords _ first count => wordBytes d first count
  | .storeRead, _ => lineBytes d
  | .write, _ | .readModifyWrite, _ => [bit false]
  | _, _ => []

/-- A DIRECT job completed (R106): its request is answered DONE, unless it was fenced or discarded meanwhile. -/
def State.directDone (s : State) (op : DirectOp) (id : ReqId) (orphan : Bool) (d : LineData) : State :=
  if orphan then s
  else match s.request? id with
    | some q => s.answer id .done (directData op q.req d)
    | none => s

/-- A DIRECT job failed (R58, R111): its request is answered STORE_FAULT, unless it was fenced or discarded meanwhile. -/
def State.directLost (s : State) (id : ReqId) (orphan : Bool) : State :=
  if orphan then s
  else match s.request? id with
    | some _ => s.answer id .storeFault []
    | none => s

/-- The outcome of a failed job goes to its owner (R106). -/
def State.failJob (s : State) (j : Job) (c : StoreCause) : State :=
  match j.owner with
  | .fill => s.fillLost j.line c
  | .drain q => s.drainLost q c
  | .direct _ id orphan => s.directLost id orphan

/-- The outcome of a completed job goes to its owner, with the data read (R106). -/
def State.completeJob (s : State) (j : Job) : State :=
  match j.owner with
  | .fill => s.fillDone j.line j.buffer
  | .drain q => s.drainDone q
  | .direct op id orphan => s.directDone op id orphan j.buffer

/-! ## The events -/

/-- The classes of owners the table's events tell apart. -/
def JobOwner.isFill : JobOwner → Bool
  | .fill => true
  | .drain _ | .direct _ _ _ => false
def JobOwner.isDrain : JobOwner → Bool
  | .drain _ => true
  | .fill | .direct _ _ _ => false
def JobOwner.isDirect : JobOwner → Bool
  | .direct _ _ _ => true
  | .fill | .drain _ => false

/-- An access has its strobe asserted: a job is at a strobed access, and RESET_N is not low, which holds the strobes
inactive (R101, R113). -/
def State.strobing (s : State) : Bool := s.resetN && s.job.any (·.strobed)

/-- MRDY answers the last access of a job whose owner is of the kind named: the job completes, and in the same step the
arbiter makes the next grant (R104, R106). With no strobe asserted MRDY is ignored but for its level (R101). At any other
time the event cannot occur (log entry 4). -/
def State.onComplete (s : State) (kind : JobOwner → Bool) (md : HalfWord) : State :=
  let t : State := { s with mrdy := true }
  match s.strobing, s.job with
  | true, some j => if kind j.owner && j.lastAccess then (t.endJob.completeJob (j.take md)).settle s else s
  | _, _ => t

/-- A job ends in failure at its access in progress: the port becomes idle, the outcome goes to the owner, and the step
ends (R104, R106). -/
def State.endFailed (s before : State) (j : Job) (c : StoreCause) : State := (s.endJob.failJob j c).settle before

/-- MERR is asserted: it ends the strobed access of a job whose owner is of the kind named, and the job with it (R101,
R104). With no strobe asserted MERR is ignored but for its level, which the next access waits for (R101). At any other time
the event cannot occur (log entry 4). -/
def State.onError (s : State) (kind : JobOwner → Bool) : State :=
  let t : State := { s with merr := true }
  match s.strobing, s.job with
  | true, some j => if kind j.owner then t.endFailed s j .storeError else s
  | _, _ => t

/-- The store timeout of the access in progress, or of the wait before its strobe, passes, for a job whose owner is of the
kind named (R101). At any other time the event cannot occur (log entry 4). -/
def State.onTimeout (s : State) (kind : JobOwner → Bool) : State :=
  match s.resetN, s.job with
  | true, some j => if kind j.owner then s.endFailed s j .storeTimeout else s
  | _, _ => s

/-- The access in progress of a job whose owner is of the kind named ends in error or timeout (R101). -/
def State.onFailure (s : State) (kind : JobOwner → Bool) : StoreCause → State
  | .storeError => s.onError kind
  | .storeTimeout => s.onTimeout kind

/-- STORE_TIMEOUT (R101): the timeout of the access in progress passes, and its job fails. -/
def execStoreTimeout (s : State) : Result := .next (s.onTimeout fun _ => true)

/-- FILL_COMPLETE (R24). -/
def execFillComplete (md : HalfWord) (s : State) : Result := .next (s.onComplete JobOwner.isFill md)

/-- FILL_FAILED (R25). -/
def execFillFailed (c : StoreCause) (s : State) : Result := .next (s.onFailure JobOwner.isFill c)

/-- DRAIN_COMPLETE (R91): the last access of a write answers no data. -/
def execDrainComplete (s : State) : Result := .next (s.onComplete JobOwner.isDrain 0)

/-- DRAIN_FAILED (R92, R93). -/
def execDrainFailed (c : StoreCause) (s : State) : Result := .next (s.onFailure JobOwner.isDrain c)

/-- DIRECT_JOB_COMPLETE (R106, R111). -/
def execDirectJobComplete (md : HalfWord) (s : State) : Result := .next (s.onComplete JobOwner.isDirect md)

/-- DIRECT_JOB_FAILED (R58, R111). -/
def execDirectJobFailed (c : StoreCause) (s : State) : Result := .next (s.onFailure JobOwner.isDirect c)

/-- MRDY is asserted (R101, R104): it answers a strobed access, and the job goes on to its next one, which waits until
MRDY is inactive; with no strobe asserted it is ignored but for its level. The last access of a job is answered by a
completion. -/
def State.onHalfWord (s : State) (md : HalfWord) : State :=
  let t : State := { s with mrdy := true }
  match s.strobing, s.job with
  | true, some j => if j.lastAccess then s else t.beginAccess (j.take md).advance
  | _, _ => t

/-- HALF_WORD_ANSWERED (R101, R104, R105). -/
def execHalfWordAnswered (md : HalfWord) (s : State) : Result := .next (s.onHalfWord md)

/-- MRDY and MERR are inactive (R101): an access that waits is strobed, timed with the store timeout in force now. -/
def State.onMemoryQuiet (s : State) : State :=
  let t : State := { s with mrdy := false, merr := false }
  match s.resetN, s.job with
  | true, some j => if j.strobed then t else t.beginAccess j
  | _, _ => t

/-- MRDY_MERR_INACTIVE (R101, R102). -/
def execMrdyMerrInactive (s : State) : Result := .next s.onMemoryQuiet

end Sys2Proof.Machine
end

