-- ==== Sys2Proof/Machine/LinkEvents.lean ====
section
/-! DEFINITION. The meanings of the link frames and link events: PING, REPLAY_REQUEST, LINK_RESTART,
DISCARDED_LINK_FRAME, DAMAGED_FRAME, UNEXPECTED_SEQUENCE, LINK_UP, LINK_DOWN, KEEPALIVE_EXPIRED and FRAME_TRANSMITTED
(spec 09). -/

namespace Sys2Proof.Machine

/-! ## Link frames -/

/-- A Pong with the Ping's tag, the receive number and the send number (R166). -/
def State.sendPong (s : State) (p : Port) (tag : Byte) : State :=
  s.sendLink p pongKind tag [s.links[p].recvNum, s.links[p].sendNum]

/-- PING (R166): the payload is ignored. -/
def execPing (p : Port) (tag : Byte) (_payload : List Byte) (s : State) : Result :=
  .next (s.onGoodFrame p fun t => t.sendPong p tag)

/-- The buffered frames from a number on, or none when the number is not in the replay buffer (R165). -/
def LinkUnit.replayFrom (l : LinkUnit) (n : Byte) : Option (List Frame) :=
  match l.replay.dropWhile (fun f => f.seq != n) with
  | [] => none
  | fs => some fs

/-- A Replay Request for a number (R165): the frames again, or nothing at the send number, or the fence REPLAY_LOST. -/
def State.takeReplay (s : State) (p : Port) (n : Byte) : State :=
  match s.links[p].replayFrom n with
  | some fs => s.setLink p { s.links[p] with tx := s.links[p].tx ++ fs }
  | none =>
    if n = s.links[p].sendNum then s
    else if (s.sessionState p).isOpen then (s.fencePort p .replayLost).settle s
    else s

/-- REPLAY_REQUEST (R165, R189): a payload that is not exactly one byte is discarded. -/
def execReplayRequest (p : Port) (payload : List Byte) (s : State) : Result :=
  .next (s.onGoodFrame p fun t =>
    match parseByte payload with
    | some n => t.takeReplay p n
    | none => t)

/-- Both directions of a link are reset (R158, R163, R167): numbers, pending reject, replay buffer, keepalive and
transmit queue; the link stays UP. -/
def LinkUnit.restarted (l : LinkUnit) : LinkUnit := { LinkUnit.reset with up := l.up }

/-- The hub's own Link Restart, with the answer flag set (R167). -/
def State.answerLinkRestart (s : State) (p : Port) : State := s.sendLink p linkRestartKind 0 [1]

/-- The notice in flight is sent again, as the first sequenced frame after a Link Restart in FENCED (R157, R167). -/
def State.resendNotice (s : State) (p : Port) : State :=
  match s.notices[p].inFlight with
  | some n => s.sendNotice p n
  | none => s

/-- A Link Restart with the answer flag clear (R167): the session of an open port ends as at link loss; the link is reset
and answered; then Session End, or, in FENCED, the notice in flight again. -/
def State.takeLinkRestart (s : State) (p : Port) : State :=
  if (s.sessionState p).isOpen then
    let no := s.sessions[p].number.getD 0
    let t := s.endSession p .idle
    let u := (t.setLink p t.links[p].restarted).answerLinkRestart p
    (u.sendSessionEnd p .linkRestart no).settle s
  else
    let u := (s.setLink p s.links[p].restarted).answerLinkRestart p
    if s.sessionState p = .fenced then u.resendNotice p else u

/-- LINK_RESTART (R167, R189): a payload that is not exactly one byte is discarded, and so is a Link Restart with the
answer flag set. -/
def execLinkRestart (p : Port) (payload : List Byte) (s : State) : Result :=
  .next (s.onGoodFrame p fun t =>
    match parseAnswerFlag payload with
    | some false => t.takeLinkRestart p
    | _ => t)

/-- DISCARDED_LINK_FRAME (R160, R188): only a running keepalive is restarted, whatever the kind. -/
def execDiscardedLinkFrame (p : Port) (_kind : Byte) (s : State) : Result := .next (s.onGoodFrame p fun t => t)

/-- DAMAGED_FRAME (R161): silent in the link range, else under the Link Reject rule; the keepalive is not restarted. -/
def execDamagedFrame (p : Port) (kind : Byte) (s : State) : Result :=
  .next (if s.receives p && !isLinkKind kind then s.rejectSeq p else s)

/-- UNEXPECTED_SEQUENCE (R164): a good sequenced frame with another number than the receive number. With the receive
number the event is not this one (log entry 4). -/
def execUnexpectedSequence (p : Port) (seq : Byte) (s : State) : Result :=
  .next (if s.links[p].recvNum = seq then s else s.onSequenced p seq fun t => t)

/-! ## Link events -/

/-- A link comes up (R158, R159): numbers 0, buffer empty, no reject pending, and the port IDLE. -/
def State.bringUp (s : State) (p : Port) : State :=
  (s.setLink p { LinkUnit.reset with up := true }).setSession p { Session.reset with state := .idle }

/-- LINK_UP (R159): a DOWN link recognises the agent's idle pattern. -/
def execLinkUp (p : Port) (s : State) : Result := .next (if s.resetN && !s.links[p].up then s.bringUp p else s)

/-- A link goes down (R159, R176): the port's session ends, its link unit is reset, and frames waiting on it are
discarded. -/
def State.bringDown (s : State) (p : Port) : State :=
  ((s.endSession p .down).setLink p LinkUnit.reset).settle s

/-- LINK_DOWN (R159, R176). -/
def execLinkDown (p : Port) (s : State) : Result := .next (if s.receives p then s.bringDown p else s)

/-- A keepalive expiry that is reached fences its port, while RUNNING (R171, R172). -/
def State.takeExpiry (s : State) (p : Port) : State :=
  match s.links[p].keepalive with
  | some t =>
    if s.mode = .running ∧ reached s.hubTime t = true then (s.fencePort p .keepaliveExpired).settle s else s
  | none => s

/-- KEEPALIVE_EXPIRED (R171). -/
def execKeepaliveExpired (p : Port) (s : State) : Result := .next (if s.resetN then s.takeExpiry p else s)

/-- FRAME_TRANSMITTED (R163): the frame at the head of the transmit queue leaves it. -/
def execFrameTransmitted (p : Port) (s : State) : Result :=
  .next (if s.receives p then s.setLink p { s.links[p] with tx := s.links[p].tx.tail } else s)

end Sys2Proof.Machine
end

