-- ==== Sys2Proof/Machine/BlockSteps.lean ====
section
/-! DEFINITION. The meanings of the steps of the hub's own blocks: GRANT, WAITER_SERVICE, ALLOCATION,
JOURNAL_SPACE_SERVICE and SYNC_LIST_ANSWER. Each runs the operation that other commands run at the end of their own step
(log entry 3). -/

namespace Sys2Proof.Machine

/-- GRANT (R108). -/
def execGrant (s : State) : Result := .next (if s.resetN then s.arbitrate else s)

/-- WAITER_SERVICE (R9), with what follows it in its step. -/
def execWaiterService (l : Line) (s : State) : Result := .next (if s.resetN then (s.service l).settle s else s)

/-- The head of the allocation queue stands in the journal-space queue, and there is nothing it can take: its line is not
present, no entry is free, no candidate is left. It stays until that queue reaches it or an event of R13 happens (R15). -/
def State.headKept (s : State) : Bool :=
  s.jspace.contains .allocHead && !s.headLine?.any (fun l => (s.entry? l).isSome) &&
    Config.tableSize ≤ s.table.length && s.victim == .noCandidate

/-- ALLOCATION (R13), with the grant and the completions that follow in its step. -/
def execAllocation (s : State) : Result :=
  .next (if s.resetN && !s.headKept then s.serveAlloc.arbitrate.complete else s)

/-- JOURNAL_SPACE_SERVICE (R88), with what follows it in its step. -/
def execJournalSpaceService (s : State) : Result := .next (if s.resetN then s.settle s else s)

/-- SYNC_LIST_ANSWER (R97), with the Goodbyes its answers let complete (R175). -/
def execSyncListAnswer (s : State) : Result := .next (if s.resetN then s.examineSync.complete else s)

end Sys2Proof.Machine
end

