-- ==== Sys2Proof/Machine/ResetEvents.lean ====
section
/-! DEFINITION. The meanings of POWER_ON_RESET, RESET_N_LOW and HUB_TIME_ADVANCE (spec 10). -/

namespace Sys2Proof.Machine

/-- POWER_ON_RESET (R178, R186): RESET_N rises, with these levels on SUPSEL1 and SUPSEL0. DESIGN CHOICE (log entry 4): R186 states
nothing of the event while RESET_N is already high, where no rise can occur; the command then stands for a low level and the rise
that follows it in one, a whole power-on reset. -/
def execPowerOnReset (supsel1 supsel0 : Bool) (s : State) : Result := .next (s.powerOn supsel1 supsel0)

/-- RESET_N_LOW (R113, R114, R186): the lanes fall silent, the backing store outputs are inactive and undriven, STOP is
deasserted; everything else the hub held is discarded when RESET_N rises. -/
def execResetNLow (s : State) : Result := .next { s with resetN := false, stopOut := false, bus := Bus.quiet }

/-- Every deadline and expiry that the hub time has reached is taken: the open recalls in the order of their opening, then
the keepalives, P0 first (R74, R171; log entry 5). -/
def State.takeReached (s : State) : State := ports.foldl State.takeExpiry ((s.recalls.map (·.id)).foldl State.takeDeadline s)

/-- HUB_TIME_ADVANCE (R187): one millisecond, modulo 2 to the 32, in RUNNING and in STOPPED. A deadline the hub time has
reached is taken before the hub time leaves it, if no RECALL_TIMEOUT or KEEPALIVE_EXPIRED has brought it. -/
def execHubTimeAdvance (s : State) : Result :=
  .next (if s.resetN then { s.takeReached with hubTime := s.takeReached.hubTime + 1 } else s)

end Sys2Proof.Machine
end

