-- ==== Sys2Proof/Machine/Dispatch.lean ====
section
/-! DEFINITION. One arm per command, each one direct call of its meaning. -/

namespace Sys2Proof.Machine

def exec (i : Instr) (s : State) : Host.Outcome State Fault Refusal :=
  match i with
  | .readWords p f => Sys2Proof.Machine.execReadWords p f s
  | .writeWords p f => Sys2Proof.Machine.execWriteWords p f s
  | .acquireRead p f => Sys2Proof.Machine.execAcquireRead p f s
  | .acquireWrite p f => Sys2Proof.Machine.execAcquireWrite p f s
  | .upgrade p f => Sys2Proof.Machine.execUpgrade p f s
  | .release p f => Sys2Proof.Machine.execRelease p f s
  | .prefetch p f => Sys2Proof.Machine.execPrefetch p f s
  | .flush p f => Sys2Proof.Machine.execFlush p f s
  | .sync p f => Sys2Proof.Machine.execSync p f s
  | .recallAnswer p f => Sys2Proof.Machine.execRecallAnswer p f s
  | .hello p f => Sys2Proof.Machine.execHello p f s
  | .goodbye p f => Sys2Proof.Machine.execGoodbye p f s
  | .noticeAck p f => Sys2Proof.Machine.execNoticeAck p f s
  | .setThreshold p f => Sys2Proof.Machine.execSetThreshold p f s
  | .regionQuery p f => Sys2Proof.Machine.execRegionQuery p f s
  | .hubStatus p f => Sys2Proof.Machine.execHubStatus p f s
  | .setTimers p f => Sys2Proof.Machine.execSetTimers p f s
  | .fence p f => Sys2Proof.Machine.execFence p f s
  | .unfence p f => Sys2Proof.Machine.execUnfence p f s
  | .restart p f => Sys2Proof.Machine.execRestart p f s
  | .regionSet p f => Sys2Proof.Machine.execRegionSet p f s
  | .faultList p f => Sys2Proof.Machine.execFaultList p f s
  | .faultRead p f => Sys2Proof.Machine.execFaultRead p f s
  | .resolveRetry p f => Sys2Proof.Machine.execResolveRetry p f s
  | .resolveSupply p f => Sys2Proof.Machine.execResolveSupply p f s
  | .resolveFail p f => Sys2Proof.Machine.execResolveFail p f s
  | .resolveComplete p f => Sys2Proof.Machine.execResolveComplete p f s
  | .resolveAbandon p f => Sys2Proof.Machine.execResolveAbandon p f s
  | .resolveRevert p f => Sys2Proof.Machine.execResolveRevert p f s
  | .supplyLine p f => Sys2Proof.Machine.execSupplyLine p f s
  | .storeRead p f => Sys2Proof.Machine.execStoreRead p f s
  | .storeWrite p f => Sys2Proof.Machine.execStoreWrite p f s
  | .unknownKindFrame p _ f => Sys2Proof.Machine.execUnknownKindFrame p f s
  | .ping p tag payload => Sys2Proof.Machine.execPing p tag payload s
  | .replayRequest p payload => Sys2Proof.Machine.execReplayRequest p payload s
  | .linkRestart p payload => Sys2Proof.Machine.execLinkRestart p payload s
  | .discardedLinkFrame p kind => Sys2Proof.Machine.execDiscardedLinkFrame p kind s
  | .damagedFrame p kind => Sys2Proof.Machine.execDamagedFrame p kind s
  | .unexpectedSequence p seq => Sys2Proof.Machine.execUnexpectedSequence p seq s
  | .linkUp p => Sys2Proof.Machine.execLinkUp p s
  | .linkDown p => Sys2Proof.Machine.execLinkDown p s
  | .keepaliveExpired p => Sys2Proof.Machine.execKeepaliveExpired p s
  | .recallTimeout id => Sys2Proof.Machine.execRecallTimeout id s
  | .powerOnReset supsel1 supsel0 => Sys2Proof.Machine.execPowerOnReset supsel1 supsel0 s
  | .storeTimeout => Sys2Proof.Machine.execStoreTimeout s
  | .fillComplete md => Sys2Proof.Machine.execFillComplete md s
  | .fillFailed cause => Sys2Proof.Machine.execFillFailed cause s
  | .drainComplete => Sys2Proof.Machine.execDrainComplete s
  | .drainFailed cause => Sys2Proof.Machine.execDrainFailed cause s
  | .directJobComplete md => Sys2Proof.Machine.execDirectJobComplete md s
  | .directJobFailed cause => Sys2Proof.Machine.execDirectJobFailed cause s
  | .grant => Sys2Proof.Machine.execGrant s
  | .waiterService line => Sys2Proof.Machine.execWaiterService line s
  | .allocation => Sys2Proof.Machine.execAllocation s
  | .waitingRecallOpen => Sys2Proof.Machine.execWaitingRecallOpen s
  | .journalSpaceService => Sys2Proof.Machine.execJournalSpaceService s
  | .syncListAnswer => Sys2Proof.Machine.execSyncListAnswer s
  | .goodbyeCompletion p => Sys2Proof.Machine.execGoodbyeCompletion p s
  | .regionSetCompletion => Sys2Proof.Machine.execRegionSetCompletion s
  | .notice p => Sys2Proof.Machine.execNotice p s
  | .resetNLow => Sys2Proof.Machine.execResetNLow s
  | .hubTimeAdvance => Sys2Proof.Machine.execHubTimeAdvance s
  | .halfWordAnswered md => Sys2Proof.Machine.execHalfWordAnswered md s
  | .mrdyMerrInactive => Sys2Proof.Machine.execMrdyMerrInactive s
  | .frameTransmitted p => Sys2Proof.Machine.execFrameTransmitted p s

end Sys2Proof.Machine
end

