-- ==== Sys2Proof/Safety.lean ====
section
/-! DEFINITION. What the statements about this hub are said in: completion, the bounds and laws of the state, the states
in which nothing waits, and the arrival of a frame. -/

namespace Sys2Proof.Machine

/-! ## Outcomes -/

/-- The command has a next state with this property. -/
def Completes (r : Result) (good : State → Prop) : Prop := ∃ t, r = .next t ∧ good t

/-- These commands, one after another, lead from one state to the other. -/
def Runs : List Instr → State → State → Prop
  | [], s, t => s = t
  | c :: cs, s, t => ∃ u, exec c s = .next u ∧ Runs cs u t

/-! ## Laws of the state -/

/-- The fault unit is in order (R114): at most six records, the stop record slot occupied exactly while STOPPED, STOP
asserted only while STOPPED and, outside reset, all the while. -/
structure FaultUnitOk (s : State) : Prop where
  queue   : s.faultQueue.length ≤ Config.faultQueueSize
  slot    : s.stopRecord.isSome = true ↔ s.mode = .stopped
  pinOff  : s.stopOut = true → s.mode = .stopped
  pinOn   : s.mode = .stopped → s.resetN = true → s.stopOut = true

/-- The tables are within their sizes (R1, R61, R80), and no line is in the line table twice (R1). -/
structure TablesOk (s : State) : Prop where
  entries : s.table.length ≤ Config.tableSize
  lines   : (s.table.map Entry.line).Nodup
  recalls : s.recalls.length ≤ Config.recallTableSize
  journal : s.journal.length ≤ Config.journalSize

/-- Every replay buffer is within its depth (R162). -/
def ReplayOk (s : State) : Prop := ∀ p : Port, s.links[p].replay.length ≤ Config.replayDepth

/-- No port has more than eight outstanding requests (R32). -/
def RequestsOk (s : State) : Prop := ∀ p : Port, (s.outstanding p).length ≤ Config.outstandingLimit

/-- While a port holds a line WRITE it is the only holder (R3); a line that is held has data in the hub, CLEAN or DIRTY
(R2); the copy is EMPTY exactly while the entry is FILLING or FAULT_HELD (R4). -/
structure HoldingsOk (s : State) : Prop where
  alone : ∀ e ∈ s.table, ∀ p q : Port, e.holdings[p] = .write → q ≠ p → e.holdings[q] = .none
  data  : ∀ e ∈ s.table, ∀ p : Port, e.holdings[p] ≠ .none → e.copy.data?.isSome = true
  empty : ∀ e ∈ s.table, e.copy = .empty ↔ e.activity = .filling ∨ e.activity = .faultHeld

/-- The outstanding recalls as they were asked: the open ones, then the waiting ones (R62). -/
def State.outstandingRecalls (s : State) : List WaitingRecall := s.recalls.map (·.asked) ++ s.recallWait

/-- Each outstanding recall targets a holder of its line, a DOWNGRADE a WRITE holder; a (line, port) pair has one at most;
the ids of the open ones are distinct (R61, R63, R64). -/
structure RecallsOk (s : State) : Prop where
  holder : ∀ w ∈ s.outstandingRecalls, s.holding w.line w.port ≠ .none
  writer : ∀ w ∈ s.outstandingRecalls, w.kind = .downgrade → s.holding w.line w.port = .write
  one    : s.outstandingRecalls.Pairwise fun a b => ¬ (a.line = b.line ∧ a.port = b.port)
  ids    : (s.recalls.map (·.id)).Nodup

/-- A line has at most two journal entries: one that is WRITING or FAULTED, and behind it one that is QUEUED (R80); the
sequence numbers are distinct (R81). -/
structure JournalOk (s : State) : Prop where
  line : s.journal.Pairwise fun a b => a.line = b.line → a.state ≠ .queued ∧ b.state = .queued
  seqs : (s.journal.map (·.seq)).Nodup

/-- The lines of the FILL jobs: that of the job in flight, then those that wait (R103, R107). -/
def State.fillJobs (s : State) : List Line :=
  (match s.job with
    | some j => match j.owner with
      | .fill => [j.line]
      | .drain _ | .direct _ _ _ => []
    | none => []) ++ s.fillQueue

/-- No line has two FILL jobs, and a line with one has an entry that is FILLING (R23, R107); the entry of a DRAIN in flight
is WRITING (R80, R90). -/
structure JobsOk (s : State) : Prop where
  fills    : s.fillJobs.Nodup
  filling  : ∀ l ∈ s.fillJobs, ∃ e ∈ s.table, e.line = l ∧ e.activity = .filling
  draining : ∀ j q, s.job = some j → j.owner = .drain q → ∃ k ∈ s.journal, k.seq = q ∧ k.state = .writing

/-- Every fault record: those of the fault queue, then the stop record (R114). -/
def State.faultRecords (s : State) : List FaultRecord := s.faultQueue ++ s.stopRecord.toList

/-- The lines of a record: the line of a FILL_FAULT, the lost lines of a HOLDER_LOST (R116, R121). -/
def RecordBody.lines : RecordBody → List Line
  | .fillFault l _ _ => [l]
  | .drainFault _ _ _ _ _ _ => []
  | .holderLost _ _ ls => ls

/-- The sequence number that a DRAIN_FAULT record names (R118). -/
def RecordBody.seq? : RecordBody → Option Seq
  | .drainFault _ _ _ q _ _ => some q
  | .fillFault _ _ _ | .holderLost _ _ _ => none

/-- An entry is as a record of its line says: FAULT_HELD, or FILLING while a FILL_FAULT is RETRYING (R25, R129); POISONED
for a HOLDER_LOST (R76). -/
def FaultRecord.Fits (r : FaultRecord) (a : Activity) (c : HubCopy) : Prop :=
  match r.body with
  | .fillFault _ _ _ => a = if r.state = .retrying then .filling else .faultHeld
  | .drainFault _ _ _ _ _ _ => True
  | .holderLost _ _ _ => c = .poisoned

/-- The fault records and what they stand for name each other. Their ids are distinct (R115); the entry of each line of a
record holds its id and is as the record says, and an id in an entry is that of a record of its line (R5, R121); each
DRAIN_FAULT has its own journal entry, FAULTED, or WRITING again with origin RETRY while the record is RETRYING (R92, R94);
the stop record is not RETRYING (R124). -/
structure RecordsOk (s : State) : Prop where
  ids     : (s.faultRecords.map (·.id)).Nodup
  lines   : ∀ r ∈ s.faultRecords, ∀ l ∈ r.body.lines,
    ∃ e ∈ s.table, e.line = l ∧ e.recordId = some r.id ∧ r.Fits e.activity e.copy
  entries : ∀ e ∈ s.table, ∀ id, e.recordId = some id → ∃ r ∈ s.faultRecords, r.id = id ∧ e.line ∈ r.body.lines
  seqs    : (s.faultRecords.filterMap (·.body.seq?)).Nodup
  drains  : ∀ r ∈ s.faultRecords, ∀ q, r.body.seq? = some q → ∃ k ∈ s.journal, k.seq = q ∧
    (k.state = .faulted ∨ (k.state = .writing ∧ k.origin = .retry ∧ r.state = .retrying))
  stop    : ∀ r, s.stopRecord = some r → r.state ≠ .retrying

/-- The outstanding requests of a port have distinct tags (R32). -/
def TagsOk (s : State) : Prop := (s.requests.map (·.id)).Nodup

/-- The hub is in order. -/
structure InOrder (s : State) : Prop where
  faults   : FaultUnitOk s
  tables   : TablesOk s
  replays  : ReplayOk s
  requests : RequestsOk s
  holdings : HoldingsOk s
  recalls  : RecallsOk s
  journal  : JournalOk s
  jobs     : JobsOk s
  records  : RecordsOk s
  tags     : TagsOk s

/-! ## States in which nothing waits -/

/-- Nothing waits for the port, or the port has a job in flight. -/
def State.portSettled (s : State) : Prop :=
  s.job.isSome = true ∨ (s.fillQueue = [] ∧ s.directQueue = [] ∧ s.drainRequested = false)

/-- Nothing waits for allocation, journal space, the port, a Region Set's recalls or the end of a session. -/
structure Quiet (s : State) : Prop where
  alloc    : s.allocQueue = []
  space    : s.jspace = []
  region   : s.completing = none
  sessions : ∀ p : Port, s.sessionState p ≠ .closing
  port     : s.portSettled

/-- Nothing waits for allocation, journal space or the port. -/
structure Idle (s : State) : Prop where
  alloc : s.allocQueue = []
  space : s.jspace = []
  port  : s.portSettled

/-! ## The arrival of a frame -/

/-- A good sequenced frame with the receive number arrives on an UP link of a hub that is not held in reset (R159, R160,
R164, R186). -/
structure Arrives (s : State) (p : Port) (seq : Byte) : Prop where
  resetN : s.resetN = true
  up     : s.links[p].up = true
  seq    : s.links[p].recvNum = seq

/-- The link unit once such a frame is accepted: a running keepalive is restarted, the receive number moves on, no reject
is pending (R160, R164, R171). -/
def LinkUnit.accepted (l : LinkUnit) (expiry : Time) : LinkUnit :=
  { l with keepalive := l.keepalive.map fun _ => expiry, recvNum := l.recvNum + 1, rejectPending := none }

/-- The link unit once such a frame is accepted and a sequenced frame of the hub created behind it (R162, R163). -/
def State.linkReplied (s : State) (p : Port) (tag : Byte) (st : Status) (data : List Byte) : LinkUnit :=
  (s.links[p].accepted s.keepaliveExpiry).sendSeq replyKind tag (replyPayload st data)

/-- The state whose only change is a frame accepted on a port and answered with a reply. -/
def State.replied (s : State) (p : Port) (tag : Byte) (st : Status) (data : List Byte) : State :=
  { s with links := s.links.set p (s.linkReplied p tag st data) }

/-- The state whose only change is a frame accepted on a port. -/
def State.accepted (s : State) (p : Port) : State :=
  { s with links := s.links.set p (s.links[p].accepted s.keepaliveExpiry) }

/-- The state whose only change is a frame accepted on a port and its request admitted (R31). -/
def State.asked (s : State) (p : Port) (tag : Byte) (q : Req) : State := (s.accepted p).admitReq ⟨p, tag⟩ q

/-- Checks 1, 2, 4 and 5 of admission pass for a request of a kind (R33, R34, R123, R179). -/
structure MayAsk (s : State) (p : Port) (k : Kind) (tag : Byte) : Prop where
  session   : s.checkSession p k = none
  permitted : k.supervisorOnly = true → p = s.supervisor
  tagFree   : ∀ r ∈ s.outstanding p, r.id.tag ≠ tag
  room      : (s.outstanding p).length < Config.outstandingLimit
  mode      : s.mode = .running ∨ k.inStopped = true

/-- A request's frame arrives and is admitted up to its format. -/
structure Admits (s : State) (p : Port) (f : RxFrame) (k : Kind) : Prop where
  arrives : Arrives s p f.seq
  may     : MayAsk s p k f.tag

/-- Check 1 of admission lets the kind through in the port's session state (R34, R153, R154, R170, R174, R179). -/
def State.sessionTakes (s : State) (p : Port) (k : Kind) : Prop :=
  match s.sessionState p with
  | .down => False
  | .idle => k = .hello
  | .online => k ≠ .hello
  | .closing => k.anySession = true
  | .fenced => k.anySession = true ∨ (k.supervisorFenced = true ∧ p = s.supervisor)

/-- The status with which check 1 refuses, by session state (R34, R170). -/
def refusalIn : SessionState → Status
  | .down | .idle => .noSession
  | .online => .sessionOpen
  | .closing => .closing
  | .fenced => .fenced

/-- The payload is good for the kind (R189, R190 and each kind's own rule). -/
def State.goodFormat (s : State) (p : Port) (k : Kind) (payload : List Byte) : Bool :=
  match k with
  | .goodbye | .sync | .hubStatus | .restart | .faultList => (parseEmpty payload).isSome
  | .acquireRead | .acquireWrite | .upgrade | .prefetch | .flush | .storeRead => (parseLine payload).isSome
  | .readWords => (parseReadWords payload).isSome
  | .writeWords => (parseWriteWords payload).isSome
  | .release => (s.releaseOperand p payload).isSome
  | .hello => (parseHello payload).isSome
  | .noticeAck => (parseByte payload).isSome
  | .setThreshold => (parseThreshold payload).isSome
  | .regionQuery => (parseRegion payload).isSome
  | .regionSet => (parseRegionSet payload).isSome
  | .setTimers => (parseTimers payload).isSome
  | .fence | .unfence => (parsePort payload).isSome
  | .faultRead => (parseFaultRead payload).isSome
  | .resolve => [Action.retry, .supply, .fail, .complete, .abandon, .revert].any fun a => (parseResolve a payload).isSome
  | .supplyLine => (parseSupplyLine payload).isSome
  | .storeWrite => (parseStoreWrite payload).isSome

/-! ## Lines that can be served -/

/-- The entries of the other lines, in recency order. -/
def State.others (s : State) (l : Line) : List Entry := s.table.filter fun e => e.line != l

/-- The state with another line table. -/
def State.withTable (s : State) (t : List Entry) : State := { s with table := t }

/-- The line lies in an enabled region that is not PLAIN, in which the port has the right (R35). -/
structure MayUse (s : State) (p : Port) (l : Line) (need : Access) (i : RegionId) : Prop where
  region : s.regionOf l = some i
  cached : s.regions[i].cls ≠ .plain
  right  : need.rank ≤ s.regions[i].access[p].rank

/-- The port may use the line, which is present, IDLE and without waiters, with a CLEAN or DIRTY copy of this data. -/
structure Serves (s : State) (p : Port) (l : Line) (need : Access) (e : Entry) (d : LineData) : Prop where
  use       : MayUse s p l need e.region
  present   : s.entry? l = some e
  idle      : e.activity = .idle
  noWaiters : e.waiters = []
  data      : e.copy.data? = some d

/-- The data requests that name a line and make checks 6 to 8 (R35). -/
def Kind.checksLine : Kind → Bool
  | .readWords | .writeWords | .acquireRead | .acquireWrite | .upgrade | .prefetch | .flush => true
  | _ => false

/-- The right a data request needs (R35). -/
def Kind.needs : Kind → Access
  | .readWords | .acquireRead | .prefetch | .flush => .read
  | .writeWords | .acquireWrite | .upgrade => .full
  | _ => .none

/-- A PLAIN line is no ground to refuse the kind (R35). -/
def Kind.takesPlain : Kind → Bool
  | .readWords | .writeWords | .flush => true
  | _ => false

/-- The line a data request's payload names, when its format is good (R41, R43, section 11.3). -/
def Kind.lineNamed (k : Kind) (payload : List Byte) : Option Line :=
  match k with
  | .readWords => (parseReadWords payload).map (·.1)
  | .writeWords => (parseWriteWords payload).map (·.line)
  | .acquireRead | .acquireWrite | .upgrade | .prefetch | .flush => parseLine payload
  | _ => none

/-- The entry a request creates for its line, before its copy is known: FILLING, held by no port, its only waiter the
request (R20, R23). -/
def newEntry (l : Line) (i : RegionId) (w : ReqId) : Entry :=
  { line := l, region := i, copy := .empty, holdings := Vector.replicate 4 .none, activity := .filling, waiters := [w],
    prefetched := false, recordId := none }

/-- The table has a free entry for a line that is absent, and the journal holds nothing of it (R12, R21, R23). -/
structure Absent (s : State) (l : Line) : Prop where
  absent  : s.entry? l = none
  room    : s.table.length < Config.tableSize
  journal : ∀ j ∈ s.journal, j.line ≠ l

/-- The id the next recall takes: the counter's value or, where an open recall has it, the next one up, from 255 on to 0, that
none has (R64). -/
def State.freeRecallId (s : State) : Byte :=
  (((List.range 256).map fun k => s.recallCounter + BitVec.ofNat 8 k).find? fun n => s.recalls.all fun r => r.id != n).getD 0

/-- A recall opened: the table entry, the counter, the deadline and the Recall message (R64). -/
def State.opened (s : State) (w : WaitingRecall) : State :=
  let r : Recall := { id := s.freeRecallId, asked := w, deadline := s.hubTime + BitVec.ofNat 32 s.timers.recallMs }
  let t : State := { s with recalls := s.recalls ++ [r], recallCounter := r.id + 1 }
  t.sendSeq w.port recallKind 0 (recallPayload r.id w)

/-- A recall asked for: one that is outstanding for its line and port already is enough; else it is opened while fewer than 16
are open, and waits while 16 are (R63). -/
def State.recalled (s : State) (w : WaitingRecall) : State :=
  if s.outstandingRecalls.any fun x => x.line == w.line && x.port == w.port then s
  else if s.recalls.length < 16 then s.opened w
  else { s with recallWait := s.recallWait ++ [w] }

/-- Recalls asked for one after another. -/
def State.recalledInTurn (s : State) (ws : List WaitingRecall) : State := ws.foldl State.recalled s

/-- The one entry a state changes: the entries of the table in their order, that of the line changed. -/
def State.changed (s : State) (l : Line) (f : Entry → Entry) : List Entry :=
  s.table.map fun x => if x.line == l then f x else x

/-- The journal entry is the newest of its line (R81, R99). -/
def State.Newest (s : State) (l : Line) (j : JournalEntry) : Prop :=
  ∃ older younger, s.journal = older ++ j :: younger ∧ j.line = l ∧ ∀ k ∈ younger, k.line ≠ l

/-- A new entry can be appended for the line with the counter's sequence number (R80, R81, R83). -/
structure Appends (s : State) (l : Line) : Prop where
  room    : s.journal.length < Config.journalSize
  queued  : ∀ j ∈ s.journal, j.line = l → j.state ≠ .queued
  counter : s.seqCounter ≠ 0
  fresh   : ∀ j ∈ s.journal, j.seq ≠ s.seqCounter

/-- The state with a QUEUED entry appended to its journal. One that brings the count to 24 with the alarm armed disarms it, and
JOURNAL_HIGH is posted for the supervisor's port with the count (R85, R98). -/
def State.appended (s : State) (l : Line) (d : LineData) (o : Origin) : State :=
  let t : State :=
    { s with journal := s.journal ++ [{ line := l, data := d, seq := s.seqCounter, origin := o, state := .queued }]
             seqCounter := nextSeq s.seqCounter }
  if s.journal.length = 23 ∧ s.highAlarm = true then
    { t with highAlarm := false }.postNotice s.supervisor { kind := .journalHigh, subject := none, data := 24 }
  else t

/-- What becomes of data that is owed to the journal, when `run` says which state the step leaves, and that state is `with_` of the
hub copy, but for the journal, what follows from a new entry and the journal-space queue, and with the reply behind all that: the
data merges into the line's QUEUED entry, or is appended, and the copy is CLEAN; on a full journal without a QUEUED entry of the
line the copy is DIRTY and the line waits (R83 to R87). -/
def State.Owed (s : State) (l : Line) (d : LineData) (o : Origin) (with_ : HubCopy → State) (reply : State → State)
    (run : State → Prop) : Prop :=
  ((∃ j ∈ s.journal, j.line = l ∧ j.state = .queued) → run (reply { with_ (.clean d) with
    journal := s.journal.map fun j => if j.line == l && j.state == .queued then { j with data := d, origin := o } else j })) ∧
  (Appends s l → run (reply ((with_ (.clean d)).appended l d o))) ∧
  (s.journal.length = 32 → (∀ j ∈ s.journal, j.line = l → j.state ≠ .queued) →
    run (reply { with_ (.dirty d) with jspace := [.line l o] }))

/-! ## The sync list -/

/-- No journal entry that the item waits for is left: the one of a Flush, none that a Sync covers (R96, R97). -/
def SyncItem.done (i : SyncItem) (js : List JournalEntry) : Bool :=
  js.all fun k => match i.kind with
    | .flush q => k.seq != q
    | .sync _ covered => !covered.contains k.seq

/-- The item once the entry with a number leaves the journal: a Sync covers it no more, and an ABANDON of an entry that the item
waits for sets the PARTIAL flag (R95, R97). -/
def SyncItem.without (i : SyncItem) (q : Seq) (abandoned : Bool) : SyncItem :=
  match i.kind with
  | .flush n => { i with partialFlag := i.partialFlag || (abandoned && n == q) }
  | .sync m covered =>
    { i with kind := .sync m (covered.filter fun n => n != q), partialFlag := i.partialFlag || (abandoned && covered.contains q) }

/-- The state with these items its sync list, but that those that are done are answered in their order and leave it: PARTIAL where
flagged, else DONE (R97). -/
def State.syncsAnswered (s : State) (items : List SyncItem) : State :=
  (items.filter fun i => i.done s.journal).foldl
    (fun t i => t.answer i.id (if i.partialFlag then .partialDone else .done) [])
    { s with syncList := items.filter fun i => !i.done s.journal }

/-! ## Recalls that close -/

/-- A recall is the only one of its line that is outstanding (R61, R62). -/
structure OnlyRecall (s : State) (l : Line) (p : Port) (r : Recall) : Prop where
  isOpen : r ∈ s.recalls
  line   : r.asked.line = l
  port   : r.asked.port = p
  only   : ∀ x ∈ s.recalls, x.asked.line = l → x = r
  unsent : s.recallWait = []

/-- The recalls without those of the line to the port. -/
def State.recallsWithout (s : State) (l : Line) (p : Port) : List Recall :=
  s.recalls.filter fun r => !(r.asked.line == l && r.asked.port == p)

/-! ## Ports that have left -/

/-- The hub keeps nothing of a port: no holding, no outstanding request in any place, and no recall to it (R59, R60,
R77). -/
structure NothingOf (s : State) (p : Port) : Prop where
  holdings : ∀ e ∈ s.table, e.holdings[p] = .none
  waiters  : ∀ e ∈ s.table, ∀ w ∈ e.waiters, w.port ≠ p
  recalls  : ∀ r ∈ s.recalls, r.asked.port ≠ p
  unsent   : ∀ w ∈ s.recallWait, w.port ≠ p
  requests : ∀ r ∈ s.requests, r.id.port ≠ p
  alloc    : ∀ r ∈ s.allocQueue, r.port ≠ p
  sync     : ∀ i ∈ s.syncList, i.id.port ≠ p
  direct   : ∀ d ∈ s.directQueue, d.id.port ≠ p

/-- The FENCED replies of these requests, in their order, the first under this number (R59, R163). -/
def fencedReplies : Byte → List Request → List Frame
  | _, [] => []
  | n, r :: rs => { kind := replyKind, tag := r.id.tag, seq := n, payload := [Status.fenced.code] } :: fencedReplies (n + 1) rs

/-- The id the next fault record takes: the counter's value or, where a record has it, the next one up, from 255 on to 1, that
none has; never 0 (R115). -/
def State.freeRecordId (s : State) : Byte :=
  (((List.range 256).map fun k => s.recordCounter + BitVec.ofNat 8 k).find? fun n =>
    n != 0 && s.faultRecords.all fun r => r.id != n).getD 0

/-- What revocation of a port's holdings with a cause does to the hub copies and the fault unit. While RUNNING every line the port
holds WRITE becomes POISONED and names one new record, HOLDER_LOST with the port, the cause and those lines, ascending; with six
records in the fault queue that is the stop record, and the hub is STOPPED. With no such line, or while STOPPED, no record appears
(R75, R76, R78, R115, R116, R118, R122). -/
def State.Revokes (s t : State) (p : Port) (c : Cause) : Prop :=
  ∃ lost : List Line,
    lost.Pairwise (fun a b => a.toNat < b.toNat) ∧
    (∀ l : Line, l ∈ lost ↔ s.mode = .running ∧ s.holding l p = .write) ∧
    let r : FaultRecord := ⟨s.freeRecordId, .posted, s.hubTime, .holderLost p c lost⟩
    (lost = [] → t.faultQueue = s.faultQueue ∧ t.stopRecord = s.stopRecord ∧ t.mode = s.mode) ∧
    (lost ≠ [] →
      (∀ l ∈ lost, ∃ e ∈ t.table, e.line = l ∧ e.copy = .poisoned ∧ e.recordId = some r.id) ∧
      (s.faultQueue.length < 6 → t.faultQueue = s.faultQueue ++ [r] ∧ t.stopRecord = s.stopRecord ∧ t.mode = .running) ∧
      (s.faultQueue.length = 6 → t.faultQueue = s.faultQueue ∧ t.stopRecord = some r ∧ t.mode = .stopped ∧ t.stopOut = true))

/-- The command fences the ONLINE or CLOSING port, with this cause: a recall deadline of a recall to it, its keepalive's expiry, a
Replay Request for a frame that is lost, the supervisor's Fence (R74, R165, R171, R172, R182). -/
inductive Fences (s : State) (p : Port) : Instr → Cause → Prop where
  | recallTimeout (r : Recall) (is : r ∈ s.recalls) (only : ∀ x ∈ s.recalls, x.id = r.id → x = r) (target : r.asked.port = p)
      (running : s.mode = .running) (due : s.hubTime = r.deadline) : Fences s p (.recallTimeout r.id) .recallTimeout
  | keepaliveExpired (running : s.mode = .running) (due : s.links[p].keepalive = some s.hubTime) :
      Fences s p (.keepaliveExpired p) .keepaliveExpired
  | replayRequest (n : Byte) (up : s.links[p].up = true) (lost : ∀ x ∈ s.links[p].replay, x.seq ≠ n)
      (unsent : n ≠ s.links[p].sendNum) : Fences s p (.replayRequest p [n]) .replayLost
  | fence (sup : Port) (f : RxFrame) (admits : Admits s sup f .fence) (payload : f.payload = [portByte p])
      (other : p ≠ s.supervisor) : Fences s p (.fence sup f) .supervisorFence

/-! ## Link frames -/

/-- The link unit once a good frame of any kind has restarted a running keepalive (R160, R171). -/
def LinkUnit.heard (l : LinkUnit) (expiry : Time) : LinkUnit := { l with keepalive := l.keepalive.map fun _ => expiry }

/-- The state whose only change is that a good frame was heard on a port. -/
def State.heard (s : State) (p : Port) : State :=
  { s with links := s.links.set p (s.links[p].heard s.keepaliveExpiry) }

/-- A frame of the hub that stands outside the sequence (R160, R163). -/
def linkFrame (kind tag : Byte) (payload : List Byte) : Frame := { kind := kind, tag := tag, seq := 0, payload := payload }

/-- The link unit once the Link Reject rule has run: a Link Reject with the receive number, unless one is pending (R164). -/
def LinkUnit.rejecting (l : LinkUnit) : LinkUnit :=
  match l.rejectPending with
  | some _ => l
  | none => { l with rejectPending := some l.recvNum, tx := l.tx ++ [linkFrame linkRejectKind 0 [l.recvNum]] }

/-! ## Sessions and notices -/

/-- The session record of a port between sessions, with its link UP (R169). -/
def Session.idle : Session := { state := .idle, capacity := none, number := none }

/-- The session counter's next value (R170). -/
def State.nextSessionNo (s : State) : SessionNo := if s.sessionCounter = 65535 then 1 else s.sessionCounter + 1

/-- The state after an accepted Hello, without a notice (R170). -/
def State.sessionOpened (s : State) (p : Port) (tag : Byte) (capacity : Nat) : State :=
  { s with
    sessionCounter := s.nextSessionNo
    sessions := s.sessions.set p { state := .online, capacity := some capacity, number := some s.nextSessionNo }
    links := s.links.set p ({ s.links[p].accepted s.keepaliveExpiry with keepalive := some s.keepaliveExpiry }.sendSeq
      replyKind tag (replyPayload .done (le16 s.nextSessionNo ++ [portByte p, bit (p == s.supervisor)] ++ count16 capacity ++
        [8, 240, 16] ++ count16 s.timers.recallMs ++ count16 s.timers.keepaliveMs))) }

/-- A port holds no line. -/
def State.holdsNothing (s : State) (p : Port) : Prop := ∀ e ∈ s.table, e.holdings[p] = .none

/-- The notice unit once it sends a waiting notice, which leaves these others in its queue (R152). -/
def NoticeUnit.sends (u : NoticeUnit) (n : Notice) (rest : List Notice) : NoticeUnit :=
  { u with queue := rest, inFlight := some { number := u.counter, notice := n }, counter := u.counter + 1 }

/-- The state once a port's notice unit, as given, sends a notice (R152). -/
def State.notified (s : State) (p : Port) (u : NoticeUnit) (n : Notice) (rest : List Notice) : State :=
  { s with
    notices := s.notices.set p (u.sends n rest)
    links := s.links.set p (s.links[p].sendSeq noticeKind 0 (noticePayload { number := u.counter, notice := n })) }

/-- The notice R152 sends from a queue: sendable, of the highest priority, and the oldest of that priority. -/
structure Chosen (threshold : Nat) (queue before : List Notice) (n : Notice) (after : List Notice) : Prop where
  queue    : queue = before ++ n :: after
  sendable : n.sendable threshold = true
  older    : ∀ m ∈ before, m.sendable threshold = true → m.kind.priority < n.kind.priority
  younger  : ∀ m ∈ after, m.sendable threshold = true → m.kind.priority ≤ n.kind.priority

/-- The state with another notice unit for a port. -/
def State.withNotices (s : State) (p : Port) (u : NoticeUnit) : State := { s with notices := s.notices.set p u }

/-- The state once a notice has been taken into a port's queue, which is now this: the notice unit sends what it can (R150,
R152). -/
def State.NoticeTaken (s t : State) (p : Port) (queue : List Notice) : Prop :=
  let u : NoticeUnit := { s.notices[p] with queue := queue }
  (∀ (before after : List Notice) (m : Notice), u.inFlight = none → Chosen u.threshold queue before m after →
    t = s.notified p u m (before ++ after)) ∧
  (u.inFlight ≠ none ∨ (∀ m ∈ queue, m.sendable u.threshold = false) → t = s.withNotices p u)

/-! ## Regions -/

/-- The region of an enabled descriptor is in use: one of R142's places names a line of its range. -/
def State.InUse (s : State) (r : Region) : Prop :=
  (∃ e ∈ s.table, r.contains e.line = true) ∨ (∃ j ∈ s.journal, r.contains j.line = true) ∨
  (∃ id ∈ s.allocQueue, ∃ q l, s.request? id = some q ∧ q.req.line? = some l ∧ r.contains l = true) ∨
  (∃ d ∈ s.directQueue, d.op.isData = true ∧ r.contains d.line = true) ∨
  (∃ j op id orphan, s.job = some j ∧ j.owner = .direct op id orphan ∧ op.isData = true ∧ r.contains j.line = true)

/-- The right a holding needs (R140). -/
def Holding.needs : Holding → Access
  | .none => .none
  | .read => .read
  | .write => .full

/-- A port's holding of an entry exceeds its right in a region (R140). -/
def Region.Excess (r : Region) (e : Entry) (p : Port) : Prop := r.access[p].rank < e.holdings[p].needs.rank

/-- The recall that follows a grant: of a holding beyond the port's right, with purpose REGION; of a CLOSING port's, with purpose
CLOSE (R145, R174). Where both would be asked only the first is (log entry 6). -/
def State.afterGrant (s : State) (l : Line) (p : Port) (i : RegionId) (h : Holding) : List WaitingRecall :=
  let right : Access := s.regions[i].access[p]
  if right.rank < h.needs.rank then
    [{ line := l, port := p, kind := if right = .none then .invalidate else .downgrade, purpose := .region }]
  else if s.sessionState p = .closing then [{ line := l, port := p, kind := .invalidate, purpose := .close }]
  else []

/-- No port holds a line of the region in excess (R145). -/
def State.NoExcess (s : State) (r : Region) : Prop :=
  ∀ e ∈ s.table, r.contains e.line = true → ∀ p : Port, ¬ r.Excess e p

/-- A recall of purpose REGION of a line of the region is outstanding (R145). -/
def State.RegionRecalled (s : State) (r : Region) : Prop :=
  (∃ x ∈ s.recalls, x.asked.purpose = .region ∧ r.contains x.asked.line = true) ∨
  (∃ w ∈ s.recallWait, w.purpose = .region ∧ r.contains w.line = true)

/-- The notice of a Region Set (R147). -/
def regionNotice (i : RegionId) : Notice := { kind := .regionChanged, subject := none, data := (1 : Byte) <<< i.val }

/-! ## Fault records -/

/-- The record with an id stands in the fault queue, between these. -/
structure Queued (s : State) (before : List FaultRecord) (r : FaultRecord) (after : List FaultRecord) : Prop where
  queue  : s.faultQueue = before ++ r :: after
  others : ∀ x ∈ before ++ after, x.id ≠ r.id

/-- The next record can take the counter's id, and a place in the fault queue (R114, R115). -/
structure RecordRoom (s : State) : Prop where
  room    : s.faultQueue.length < Config.faultQueueSize
  counter : s.recordCounter ≠ 0
  fresh   : ∀ r ∈ s.faultQueue, r.id ≠ s.recordCounter
  running : s.stopRecord = none

/-- The record the counter's id gives a new fault (R116, R118). -/
def State.newRecord (s : State) (body : RecordBody) : FaultRecord :=
  { id := s.recordCounter, state := .posted, created := s.hubTime, body := body }

/-- The state with another fault queue, in which a record has just become POSTED: FAULT_POSTED is posted for the supervisor's
port with the number of POSTED records (R119). -/
def State.faultPosted (s : State) (queue : List FaultRecord) : State :=
  let t : State := { s with faultQueue := queue }
  t.postNotice s.supervisor
    { kind := .faultPosted, subject := none, data := BitVec.ofNat 8 (queue.countP fun r => r.state == .posted) }

/-- The state once a new record has joined the fault queue (R115, R118). -/
def State.recorded (s : State) (body : RecordBody) : State :=
  { s with recordCounter := if s.recordCounter = 255 then 1 else s.recordCounter + 1 }.faultPosted
    (s.faultQueue ++ [s.newRecord body])

/-- The state once a new record has found the fault queue full: the stop record, STOPPED, STOP asserted, and HUB_STOPPED for
every port (R114, R118, R122). -/
def State.hubStops (s : State) (body : RecordBody) : State :=
  { s with
    recordCounter := if s.recordCounter = 255 then 1 else s.recordCounter + 1
    stopRecord := some (s.newRecord body)
    mode := .stopped
    stopOut := true }.postAll { kind := .hubStopped, subject := none, data := body.kind.code }

/-! ## The backing store port -/

/-- No FILL and no DIRECT job waits for the port. -/
structure NoJobs (s : State) : Prop where
  fills   : s.fillQueue = []
  directs : s.directQueue = []

/-- Every journal entry has this state. -/
def AllIn (js : List JournalEntry) (x : JournalState) : Prop := ∀ j ∈ js, j.state = x

/-- The bus of an access with its strobe asserted: the half-word address, 16 for each line and the half-word's index; the
half-word of a write, its lower-numbered byte on MD7 to MD0; MSEL_N and one strobe, low (R100, R101). -/
def Job.strobes (j : Job) : Bus :=
  { ma    := some (BitVec.ofNat 20 (16 * j.line.toNat + j.index))
    md    := if j.writing then some (byteAt j.data (2 * j.index + 1) ++ byteAt j.data (2 * j.index)) else none
    mselN := false
    mrdN  := j.writing
    mwrN  := !j.writing }

/-- The state in which a job begins an access: with MRDY and MERR inactive it is strobed, else it waits for them; timed with
the store timeout in force (R101, R102). -/
def State.begun (s : State) (j : Job) : State :=
  if s.mrdy = false ∧ s.merr = false then
    { s with job := some { j with strobed := true, timeout := s.timers.storeTenths }, bus := j.strobes }
  else { s with job := some { j with strobed := false, timeout := s.timers.storeTenths }, bus := Bus.quiet }

/-- A job at its first access (R103, R104). -/
def Job.first (owner : JobOwner) (line : Line) (writing : Bool) (data : LineData) (enables : Enables) : Job :=
  { owner := owner, line := line, data := data, enables := enables, buffer := 0, writing := writing, index := 0,
    strobed := false, timeout := 0 }

/-- The first access of a DIRECT job: a write for the kinds that only write (R103). -/
def DirectJob.first (d : DirectJob) : Job :=
  Job.first (.direct d.op d.id false) d.line (d.op == .write || d.op == .storeWrite) d.data d.enables

/-- A journal entry that Resolve RETRY sent back and that waits for its grant, while no job is in flight (R94). -/
def JournalEntry.retried (j : JournalEntry) : Prop := j.state = .writing ∧ j.origin = .retry

/-- A QUEUED entry whose line has no WRITING or FAULTED entry (R90). -/
def State.Eligible (s : State) (j : JournalEntry) : Prop :=
  j.state = .queued ∧ ∀ k ∈ s.journal, k.line = j.line → k.state = .queued

/-- The entry a DRAIN is granted for: the oldest retried entry, if there is none the oldest eligible entry (R90). -/
inductive DrainNext (s : State) (before : List JournalEntry) (j : JournalEntry) (after : List JournalEntry) : Prop where
  | retried (at_ : s.journal = before ++ j :: after) (is : j.retried) (oldest : ∀ k ∈ before, ¬ k.retried)
  | eligible (at_ : s.journal = before ++ j :: after) (none : ∀ k ∈ s.journal, ¬ k.retried) (is : s.Eligible j)
      (oldest : ∀ k ∈ before, ¬ s.Eligible k)

/-- The journal has no entry to give (R90). -/
def State.NoDrain (s : State) : Prop := ∀ k ∈ s.journal, ¬ k.retried ∧ ¬ s.Eligible k

/-- The state in which a FILL is granted: it leaves the FILL queue, and passes a DIRECT job that waits (R107, R109). -/
def State.fillGranted (s : State) (l : Line) (rest : List Line) : State :=
  { s with
    fillQueue := rest
    passCount := if s.directQueue = [] then s.passCount else s.passCount + 1 }.begun (Job.first .fill l false 0 0)

/-- The state in which a DRAIN is granted: the entry becomes WRITING, and its data is fixed (R90, R103, R109). -/
def State.drainGranted (s : State) (before : List JournalEntry) (j : JournalEntry) (after : List JournalEntry) : State :=
  { s with
    journal := before ++ { j with state := .writing } :: after
    passCount := if s.directQueue = [] then s.passCount else s.passCount + 1 }.begun
    (Job.first (.drain j.seq) j.line true j.data 0)

/-- The state in which a DIRECT job is granted, which leaves these others in the DIRECT queue (R107, R109). -/
def State.directGranted (s : State) (d : DirectJob) (rest : List DirectJob) : State :=
  { s with directQueue := rest, passCount := 0 }.begun d.first

/-- MRDY can answer the last access of the job in flight: the sixteenth of a write, or of a read that no write follows (R104,
R105). -/
structure LastAccess (s : State) (j : Job) : Prop where
  resetN  : s.resetN = true
  job     : s.job = some j
  strobed : j.strobed = true
  index   : j.index = 15

/-- The state once the last access was answered and the port is idle (R101, R106). -/
def State.jobDone (s : State) : State := { s with mrdy := true, job := none, bus := Bus.quiet }

/-- The access of the job in flight can end with the cause: MERR ends a strobed one, a timeout any (R101). -/
structure CanFail (s : State) (j : Job) (c : StoreCause) : Prop where
  resetN  : s.resetN = true
  job     : s.job = some j
  strobed : c = .storeError → j.strobed = true

/-- The state once an access failed and the port is idle: MERR is asserted after a STORE_ERROR (R101, R106). -/
def State.jobFailed (s : State) (c : StoreCause) : State :=
  { s with merr := if c = .storeError then true else s.merr, job := none, bus := Bus.quiet }

end Sys2Proof.Machine
end

