-- ==== Sys2Proof/Certificates/Slice0/Obligations.lean ====
section
/-! DEFINITION. What is claimed about the hub, for the provers. -/

open Sys2Proof Sys2Proof.Machine

/-! ## Data requests that are served at once -/

/-- A Read Words on a line nobody holds WRITE is answered with its words from the hub copy, and the entry moves to the
most-recent end; nothing else changes but the link (R41, R42, R6, R7). -/
def Obligations.ReadWordsServed : Prop :=
  ∀ (p : Port) (f : RxFrame) (s : State) (l : Line) (e : Entry) (d : LineData) (first count : Nat),
    Admits s p f .readWords → Quiet s → Serves s p l .read e d →
    f.payload = le16 l ++ [count8 first, count8 count] → first ≤ 7 → 1 ≤ count → first + count ≤ 8 →
    (∀ q : Port, e.holdings[q] ≠ .write) →
    exec (.readWords p f) s = .next ((s.replied p f.tag .done (wordBytes d first count)).withTable
      ({ e with prefetched := false } :: s.others l))

/-- A Write Words on a TRACKED line that no other port holds merges its enabled bytes into the hub copy, which becomes
DIRTY, drops the requester's own READ, and is answered with HOLDING_DROPPED; a recall of that READ that is outstanding closes
in the same step (R43, R44, R72). -/
def Obligations.WriteWordsServed : Prop :=
  ∀ (p : Port) (f : RxFrame) (s : State) (l : Line) (e : Entry) (d new : LineData) (first count : Nat) (en : Enables),
    Admits s p f .writeWords → Quiet s → Serves s p l .full e d → s.regions[e.region].cls = .tracked →
    f.payload = le16 l ++ [count8 first, count8 count] ++ le32 en ++ wordBytes new first count →
    first ≤ 7 → 1 ≤ count → first + count ≤ 8 → en ≠ 0 → enablesInside en first count = true →
    (∀ q : Port, q ≠ p → e.holdings[q] = .none) → e.holdings[p] ≠ .write →
    let written : State := (s.replied p f.tag .done [bit (e.holdings[p] == .read)]).withTable
      ({ e with copy := .dirty (mergeBytes d new en), holdings := e.holdings.set p .none, prefetched := false } :: s.others l)
    (s.recallOutstanding l p = false → exec (.writeWords p f) s = .next written) ∧
    (∀ r : Recall, e.holdings[p] = .read → OnlyRecall s l p r →
      exec (.writeWords p f) s = .next { written with recalls := s.recallsWithout l p })

/-- An Acquire Read of a line nobody holds WRITE grants READ, an Acquire Write of a line nobody holds grants WRITE, both
answered with the 32 bytes; an Upgrade by the only holder turns its READ into WRITE and is answered DONE without data. The
hub copy keeps its state and data, and the entry moves to the most-recent end (R45, R46, R47, R6, R7). -/
def Obligations.AcquiresServed : Prop :=
  (∀ (p : Port) (f : RxFrame) (s : State) (l : Line) (e : Entry) (d : LineData),
      Admits s p f .acquireRead → Quiet s → Serves s p l .read e d → f.payload = le16 l →
      e.holdings[p] = .none → s.holdingCount p < s.capacity p → (∀ q : Port, e.holdings[q] ≠ .write) →
      exec (.acquireRead p f) s = .next ((s.replied p f.tag .done (lineBytes d)).withTable
        ({ e with holdings := e.holdings.set p .read, prefetched := false } :: s.others l))) ∧
  (∀ (p : Port) (f : RxFrame) (s : State) (l : Line) (e : Entry) (d : LineData),
      Admits s p f .acquireWrite → Quiet s → Serves s p l .full e d → f.payload = le16 l →
      (∀ q : Port, e.holdings[q] = .none) → s.holdingCount p < s.capacity p →
      exec (.acquireWrite p f) s = .next ((s.replied p f.tag .done (lineBytes d)).withTable
        ({ e with holdings := e.holdings.set p .write, prefetched := false } :: s.others l))) ∧
  (∀ (p : Port) (f : RxFrame) (s : State) (l : Line) (e : Entry) (d : LineData),
      Admits s p f .upgrade → Quiet s → Serves s p l .full e d → f.payload = le16 l →
      e.holdings[p] = .read → (∀ q : Port, q ≠ p → e.holdings[q] = .none) →
      exec (.upgrade p f) s = .next ((s.replied p f.tag .done []).withTable
        ({ e with holdings := e.holdings.set p .write, prefetched := false } :: s.others l)))

/-! ## Data requests that wait, or are refused -/

/-- With the port busy, a Read Words, Acquire Read, Acquire Write or partial Write Words on an absent line takes a free
entry, which is created FILLING at the most-recent end with the request its only waiter, and a FILL joins the FILL queue
(R12, R20, R23, R107). -/
def Obligations.AbsentLineAsksFill : Prop :=
  ∀ (p : Port) (f : RxFrame) (s : State) (l : Line) (i : RegionId), Quiet s → s.job.isSome = true → Absent s l →
    l ∉ s.fillQueue →
    let filled (q : Req) : State :=
      { s.asked p f.tag q with table := newEntry l i ⟨p, f.tag⟩ :: s.table, fillQueue := s.fillQueue ++ [l] }
    (Admits s p f .acquireRead → MayUse s p l .read i → f.payload = le16 l → s.holdingCount p < s.capacity p →
      exec (.acquireRead p f) s = .next (filled (.acquireRead l))) ∧
    (Admits s p f .acquireWrite → MayUse s p l .full i → f.payload = le16 l → s.holdingCount p < s.capacity p →
      exec (.acquireWrite p f) s = .next (filled (.acquireWrite l))) ∧
    (∀ first count : Nat, Admits s p f .readWords → MayUse s p l .read i →
      f.payload = le16 l ++ [count8 first, count8 count] → first ≤ 7 → 1 ≤ count → first + count ≤ 8 →
      exec (.readWords p f) s = .next (filled (.readWords l first count))) ∧
    (∀ x : WriteOperand, Admits s p f .writeWords → MayUse s p l .full i → parseWriteWords f.payload = some x →
      x.line = l → isFullLine x.enables = false →
      exec (.writeWords p f) s = .next (filled (.writeWords l x.first x.count x.enables x.data)))

/-- A full-line Write Words on an absent TRACKED line creates its entry from its own data, DIRTY and IDLE at the
most-recent end, without a fill, and is answered DONE with HOLDING_DROPPED clear (R22, R44). -/
def Obligations.FullLineWriteCreatesEntry : Prop :=
  ∀ (p : Port) (f : RxFrame) (s : State) (l : Line) (i : RegionId) (new : LineData),
    Admits s p f .writeWords → Quiet s → MayUse s p l .full i → s.regions[i].cls = .tracked → s.entry? l = none →
    s.table.length < Config.tableSize →
    f.payload = le16 l ++ [count8 0, count8 8] ++ le32 (BitVec.allOnes 32) ++ lineBytes new →
    exec (.writeWords p f) s = .next ((s.replied p f.tag .done [bit false]).withTable
      ({ newEntry l i ⟨p, f.tag⟩ with copy := .dirty new, activity := .idle, waiters := [] } :: s.table))

/-- A request that other holders stand in the way of joins its entry's waiters, and the entry becomes RECALLING: of each of them
one recall is asked, with purpose REQUEST, a DOWNGRADE of a WRITE holder for the kinds that read, an INVALIDATE of every other
holder for the kinds that write. A recall is opened under the next free id, with the hub time plus the recall timeout as deadline;
while 16 are open it joins the wait queue; one that is outstanding for the line and the port is enough (R10, R42 to R47, R52, R62,
R63, R64). That they are asked in the order of the ports is the model's choice (log entry 6). -/
def Obligations.RecallAsked : Prop :=
  ∀ (p : Port) (f : RxFrame) (s : State) (l : Line) (e : Entry) (d : LineData), Quiet s →
    let recalling (r : Req) (kind : RecallKind) (holders : List Port) : State :=
      ((s.asked p f.tag r).withTable (s.table.map fun x =>
        if x.line == l then { x with activity := .recalling, waiters := x.waiters ++ [⟨p, f.tag⟩] } else x)).recalledInTurn
        (holders.map fun q => { line := l, port := q, kind := kind, purpose := .request })
    let writers : List Port := (List.finRange 4).filter fun q => decide (q ≠ p ∧ e.holdings[q] = .write)
    let holders : List Port := (List.finRange 4).filter fun q => decide (q ≠ p ∧ e.holdings[q] ≠ .none)
    (Serves s p l .read e d → writers ≠ [] → e.holdings[p] ≠ .write →
      (Admits s p f .acquireRead → f.payload = le16 l → e.holdings[p] = .none → s.holdingCount p < s.capacity p →
        exec (.acquireRead p f) s = .next (recalling (.acquireRead l) .downgrade writers)) ∧
      (Admits s p f .flush → f.payload = le16 l → exec (.flush p f) s = .next (recalling (.flush l) .downgrade writers)) ∧
      (∀ first count : Nat, Admits s p f .readWords → parseReadWords f.payload = some (l, first, count) →
        exec (.readWords p f) s = .next (recalling (.readWords l first count) .downgrade writers))) ∧
    (Serves s p l .full e d → holders ≠ [] →
      (Admits s p f .acquireWrite → f.payload = le16 l → e.holdings[p] = .none → s.holdingCount p < s.capacity p →
        exec (.acquireWrite p f) s = .next (recalling (.acquireWrite l) .invalidate holders)) ∧
      (Admits s p f .upgrade → f.payload = le16 l → e.holdings[p] = .read →
        exec (.upgrade p f) s = .next (recalling (.upgrade l) .invalidate holders)) ∧
      (∀ x : WriteOperand, Admits s p f .writeWords → parseWriteWords f.payload = some x → x.line = l →
        e.holdings[p] ≠ .write →
        exec (.writeWords p f) s = .next (recalling (.writeWords l x.first x.count x.enables x.data) .invalidate holders)))

/-- With the port busy, a Read Words or Write Words on a PLAIN line joins the DIRECT queue as a read, a write or a
read-modify-write, and touches neither the line table nor the journal (R38, R56, R57, R107). -/
def Obligations.PlainLineBecomesDirect : Prop :=
  ∀ (p : Port) (f : RxFrame) (s : State) (l : Line) (i : RegionId), Quiet s → s.job.isSome = true →
    s.regionOf l = some i → s.regions[i].cls = .plain → s.entry? l = none →
    (∀ first count : Nat, Admits s p f .readWords → s.regions[i].access[p] ≠ .none →
      parseReadWords f.payload = some (l, first, count) →
      exec (.readWords p f) s = .next { s.asked p f.tag (.readWords l first count) with
        directQueue := s.directQueue ++ [{ id := ⟨p, f.tag⟩, op := .read, line := l, enables := 0, data := 0 }] }) ∧
    (∀ x : WriteOperand, Admits s p f .writeWords → s.regions[i].access[p] = .full →
      parseWriteWords f.payload = some x → x.line = l →
      exec (.writeWords p f) s = .next { s.asked p f.tag (.writeWords l x.first x.count x.enables x.data) with
        directQueue := s.directQueue ++
          [{ id := ⟨p, f.tag⟩, op := if isFullLine x.enables then .write else .readModifyWrite, line := l,
             enables := x.enables, data := x.data }] })

/-- Checks 6 to 8 refuse a data request in their order, and a refusal changes nothing but the link: a line outside every
enabled region, a right below the one needed, a PLAIN line, the requester's holding, a POISONED line (R33, R35, R36,
R37). -/
def Obligations.DataRequestRefused : Prop :=
  ∀ (k : Kind) (p : Port) (f : RxFrame) (s : State) (l : Line), k.checksLine = true → Admits s p f k →
    k.lineNamed f.payload = some l →
    (s.regionOf l = none → exec (k.command p f) s = .next (s.replied p f.tag .outOfImage [])) ∧
    ∀ i : RegionId, s.regionOf l = some i →
      (s.regions[i].access[p].rank < k.needs.rank → exec (k.command p f) s = .next (s.replied p f.tag .noAccess [])) ∧
      (k.needs.rank ≤ s.regions[i].access[p].rank →
        (s.regions[i].cls = .plain → k.takesPlain = false →
          exec (k.command p f) s = .next (s.replied p f.tag .notCacheable [])) ∧
        (s.regions[i].cls ≠ .plain →
          (s.holding l p = .write → k = .readWords ∨ k = .writeWords ∨ k = .flush →
            exec (k.command p f) s = .next (s.replied p f.tag .ownHolding [])) ∧
          (s.holding l p ≠ .none → k = .acquireRead ∨ k = .acquireWrite →
            exec (k.command p f) s = .next (s.replied p f.tag .alreadyHeld [])) ∧
          (s.holding l p = .none → s.capacity p ≤ s.holdingCount p → k = .acquireRead ∨ k = .acquireWrite →
            exec (k.command p f) s = .next (s.replied p f.tag .holdLimit [])) ∧
          (s.holding l p ≠ .read → k = .upgrade →
            exec (k.command p f) s = .next (s.replied p f.tag .notHeld [])) ∧
          (s.checkHolding p k l = none → (∃ e, s.entry? l = some e ∧ e.copy = .poisoned) →
            exec (k.command p f) s = .next (s.replied p f.tag .linePoisoned []))))

/-! ## The whole machine -/

/-- A step takes the command at the front of the queue and runs it on the state with the rest of the queue; on an empty
queue the hub idles (log entry 2). -/
def Obligations.StepRunsFrontCommand : Prop :=
  ∀ (c : Instr) (s : State), step (s.withCommand c) = exec c s ∧ (s.pending = [] → step s = .next s)

/-- What power-on reset leaves, in the values the spec gives: no session, no line, no recall, no journal entry, no record,
every region disabled, every counter at its first value and the timers at their defaults (R186 and the rules it names). -/
def Obligations.ResetValues : Prop :=
  (∀ p : Port, State.reset.sessions[p] = { state := .down, capacity := none, number := none } ∧
    State.reset.links[p] = { up := false, sendNum := 0, recvNum := 0, rejectPending := none, replay := [],
                             keepalive := none, tx := [] } ∧
    State.reset.notices[p] = { queue := [], inFlight := none, counter := 0, threshold := 0 }) ∧
  State.reset.requests = [] ∧ State.reset.allocQueue = [] ∧ State.reset.syncList = [] ∧
  State.reset.table = [] ∧ State.reset.recalls = [] ∧ State.reset.recallWait = [] ∧ State.reset.recallCounter = 0 ∧
  State.reset.journal = [] ∧ State.reset.seqCounter = 1 ∧ State.reset.highAlarm = true ∧ State.reset.jspace = [] ∧
  State.reset.job = none ∧ State.reset.fillQueue = [] ∧ State.reset.directQueue = [] ∧ State.reset.passCount = 0 ∧
  State.reset.faultQueue = [] ∧ State.reset.stopRecord = none ∧ State.reset.recordCounter = 1 ∧
  State.reset.mode = .running ∧ State.reset.stopOut = false ∧
  (∀ i : RegionId, State.reset.regions[i] =
    { enabled := false, first := 0, count := 0, cls := .tracked, access := Vector.replicate 4 .none }) ∧
  State.reset.completing = none ∧ State.reset.sessionCounter = 0 ∧ State.reset.hubTime = 0 ∧
  State.reset.timers = { recallMs := 50, keepaliveMs := 500, storeTenths := 10 }

/-- The hub is in order right after reset (R186): empty, so within every bound and law of `StepKeepsOrder`. -/
def Obligations.ResetInOrder : Prop := InOrder State.reset

/-- Every step keeps the hub in order. Its coherence law: while a port holds a line WRITE it is the only holder, and a line
that is held has data in the hub (R2, R3, R4). The laws beside it: each outstanding recall targets a holder, a DOWNGRADE a WRITE
holder, one at most for a line and port, with distinct open ids (R61 to R64); a line's journal entries are one that is WRITING or
FAULTED and behind it one that is QUEUED, with distinct numbers (R80, R81); a FILL belongs to a FILLING entry, a DRAIN to a
WRITING one (R23, R90); fault records and the entries they stand for name each other, under distinct ids (R5, R115, R121); tags
are distinct (R32); no line is twice in the table; every table, queue and buffer is within its size; and the stop record, STOPPED
and the STOP pin go together (R114). -/
def Obligations.StepKeepsOrder : Prop := ∀ s t : State, InOrder s → step s = .next t → InOrder t

/-- STOPPED is left by Restart and power-on reset alone, and until then no record is created: the ids in the fault queue
only leave, in their order, and the stop record stays (R114, R118, R124). -/
def Obligations.StoppedUntilReset : Prop :=
  ∀ (c : Instr) (s t : State), s.mode = .stopped → exec c s = .next t →
    (∀ p f, c ≠ .restart p f) → (∀ a b, c ≠ .powerOnReset a b) →
    t.mode = .stopped ∧ (t.faultQueue.map (·.id)).Sublist (s.faultQueue.map (·.id)) ∧
      t.stopRecord.map (·.id) = s.stopRecord.map (·.id)

/-- The control registers change by their own commands alone: the supervisor's port by power-on reset, hub time by its
tick, the timers by Set Timers, the session counter by Hello, the regions by Region Set, a link's state by its own events;
Restart resets the timers and the regions and keeps the others (R136, R159, R169, R178, R181, R185, R187). That no command,
Restart among them, touches the commands that wait is the model's choice: the queue is its own field (log entry 2). -/
def Obligations.ControlRegistersWritten : Prop :=
  ∀ (c : Instr) (s t : State), exec c s = .next t → (∀ a b, c ≠ .powerOnReset a b) →
    t.pending = s.pending ∧ t.supervisor = s.supervisor ∧
    (c ≠ .resetNLow → t.resetN = s.resetN) ∧
    (c ≠ .hubTimeAdvance → t.hubTime = s.hubTime) ∧
    ((∀ p f, c ≠ .hello p f) → t.sessionCounter = s.sessionCounter) ∧
    (∀ p : Port, c ≠ .linkUp p → c ≠ .linkDown p → t.links[p].up = s.links[p].up) ∧
    ((∀ p f, c ≠ .restart p f) →
      ((∀ p f, c ≠ .setTimers p f) → t.timers = s.timers) ∧
      ((∀ p f, c ≠ .regionSet p f) → t.regions = s.regions))

/-! ## Frames, bytes and half-words -/

/-- The bytes of the frame that an agent sends for a well-formed command decode to that command, at the port's receive number,
with every operand the command has (R160, section 11.1, section 11.2). Decoding ignores the sequence field of a link frame, and
the tag field of one that carries no tag; the frame spelt here has 0 in both. -/
def Obligations.FramesSpellTheirCommands : Prop :=
  ∀ (i : Instr) (p : Port) (fr : Frame), i.wellFormed = true → commandFrame? i = some (p, fr) →
    decodeFrame p fr.seq fr.bytes = some i

/-- Frames written out byte by byte spell the commands the spec gives them: an Acquire Read of line 0x1234 with tag 5 and
number 7, a Ping with tag 9, a Recall Answer CLEAN to recall 2 of line 1, and a damaged frame. -/
def Obligations.FrameBytesSpelled : Prop :=
  decodeFrame 1 7 [0x22, 0x05, 0x07, 0x02, 0x34, 0x12, 0x60, 0x57] =
      some (.acquireRead 1 { tag := 5, seq := 7, payload := [0x34, 0x12] }) ∧
    decodeFrame 0 0 [0x01, 0x09, 0x00, 0x00, 0xE5, 0x6C] = some (.ping 0 9 []) ∧
    decodeFrame 2 3 [0x30, 0x00, 0x03, 0x04, 0x02, 0x01, 0x00, 0x01, 0x7D, 0xFA] =
      some (.recallAnswer 2 { tag := 0, seq := 3, payload := [0x02, 0x01, 0x00, 0x01] }) ∧
    decodeFrame 3 0 [0x22, 0x05, 0x07, 0x02, 0x34, 0x12, 0x00, 0x00] = some (.damagedFrame 3 0x22)

/-- Each byte of a merged line comes from the new data where its enable is set and from the old line elsewhere (R43). -/
def Obligations.MergeTakesEnabledBytes : Prop :=
  ∀ (old new : LineData) (en : Enables) (i : Nat), i < 32 →
    byteAt (mergeBytes old new en) i = if en.getLsbD i then byteAt new i else byteAt old i

/-! ## Admission -/

/-- Checks 1 to 5 of admission, for every kind of request, in their order: the first that fails decides the refusal, which
is a reply with the status alone and changes nothing else but the link (R33, R34, R123, R179, R189). -/
def Obligations.AdmissionInOrder : Prop :=
  ∀ (k : Kind) (p : Port) (f : RxFrame) (s : State), Arrives s p f.seq →
    let refused (st : Status) : Prop := exec (k.command p f) s = .next (s.replied p f.tag st [])
    (¬ s.sessionTakes p k → refused (refusalIn (s.sessionState p))) ∧
    (s.sessionTakes p k →
      (k.supervisorOnly = true → p ≠ s.supervisor → refused .notPermitted) ∧
      ((k.supervisorOnly = true → p = s.supervisor) →
        (s.goodFormat p k f.payload = false → refused .badFormat) ∧
        (s.goodFormat p k f.payload = true →
          ((∃ r ∈ s.outstanding p, r.id.tag = f.tag) → refused .tagBusy) ∧
          ((∀ r ∈ s.outstanding p, r.id.tag ≠ f.tag) →
            (8 ≤ (s.outstanding p).length → refused .tooMany) ∧
            ((s.outstanding p).length < 8 → s.mode = .stopped → k.inStopped = false → refused .hubStopped)))))

/-! ## Release, Prefetch, Flush and Sync -/

/-- A Release is taken at once, whatever the entry's activity: the holding becomes NONE, data of a WRITE holder makes the
copy DIRTY, DONE is answered, and the entry keeps its place in recency order. With data from a port that holds the line READ
or not at all it is refused BAD_FORMAT, without data from a port that does not hold it NOT_HELD (R36, R49). -/
def Obligations.ReleaseAnswered : Prop :=
  (∀ (p : Port) (f : RxFrame) (s : State) (l : Line), Admits s p f .release → Quiet s → s.recallOutstanding l p = false →
      (f.payload = le16 l → s.holding l p ≠ .none →
        exec (.release p f) s = .next ((s.replied p f.tag .done []).withTable
          (s.changed l fun x => { x with holdings := x.holdings.set p .none }))) ∧
      (∀ d : LineData, f.payload = le16 l ++ lineBytes d → s.holding l p = .write → s.classOf l ≠ some .writeThrough →
        exec (.release p f) s = .next ((s.replied p f.tag .done []).withTable
          (s.changed l fun x => { x with holdings := x.holdings.set p .none, copy := .dirty d })))) ∧
  (∀ (p : Port) (f : RxFrame) (s : State) (l : Line), Admits s p f .release →
      (∀ d : LineData, f.payload = le16 l ++ lineBytes d → s.holding l p ≠ .write →
        exec (.release p f) s = .next (s.replied p f.tag .badFormat [])) ∧
      (f.payload = le16 l → s.holding l p = .none → exec (.release p f) s = .next (s.replied p f.tag .notHeld [])))

/-- A copy that becomes DIRTY in a WRITE_THROUGH region is owed to the journal in the same step: it merges into the line's QUEUED
entry, or takes a new entry, and is CLEAN; on a full journal without a QUEUED entry of the line it stays DIRTY, and the line joins
the journal-space queue. So for the data of a Release, of a Write Words and of a Recall Answer, with origin THROUGH, and for that
of Resolve SUPPLY and Supply Line, with origin SUPPLY. A new entry that brings the count to 24 with the alarm armed disarms it and
posts JOURNAL_HIGH for the supervisor (R83, R84, R85, R86, R87, R98, R139), whose frame goes before the reply by the model's choice
(log entry 6). -/
def Obligations.WriteThroughOwed : Prop :=
  ∀ (p : Port) (f : RxFrame) (s : State) (l : Line) (d : LineData), Quiet s → s.job.isSome = true →
    s.classOf l = some .writeThrough →
    (Admits s p f .release → s.recallOutstanding l p = false → f.payload = le16 l ++ lineBytes d → s.holding l p = .write →
      s.Owed l d .through (fun c => (s.accepted p).withTable
        (s.changed l fun x => { x with holdings := x.holdings.set p .none, copy := c }))
        (fun t => t.reply p f.tag .done []) fun t => exec (.release p f) s = .next t) ∧
    (∀ (e : Entry) (old new : LineData) (first count : Nat) (en : Enables), Admits s p f .writeWords →
      Serves s p l .full e old →
      f.payload = le16 l ++ [count8 first, count8 count] ++ le32 en ++ wordBytes new first count →
      first ≤ 7 → 1 ≤ count → first + count ≤ 8 → en ≠ 0 → enablesInside en first count = true →
      (∀ q : Port, q ≠ p → e.holdings[q] = .none) → e.holdings[p] ≠ .write → s.recallOutstanding l p = false →
      d = mergeBytes old new en →
      s.Owed l d .through (fun c => (s.accepted p).withTable
        ({ e with copy := c, holdings := e.holdings.set p .none, prefetched := false } :: s.others l))
        (fun t => t.reply p f.tag .done [bit (e.holdings[p] == .read)]) fun t => exec (.writeWords p f) s = .next t) ∧
    (∀ (e : Entry) (r : Recall), Arrives s p f.seq → s.sessionState p = .online → s.entry? l = some e →
      e.activity = .recalling → e.waiters = [] → OnlyRecall s l p r → e.holdings[p] = .write →
      f.payload = r.id :: le16 l ++ [2] ++ lineBytes d →
      s.Owed l d .through (fun c => { (s.accepted p).withTable
        (s.changed l fun x => { x with
          holdings := x.holdings.set p (if r.asked.kind = .downgrade then .read else .none), copy := c, activity := .idle }) with
            recalls := s.recallsWithout l p })
        (fun t => t) fun t => exec (.recallAnswer p f) s = .next t) ∧
    (∀ (before after : List FaultRecord) (r : FaultRecord) (x : StoreCause) (n : Nat) (e : Entry), Admits s p f .resolve →
      Queued s before r after → r.state = .opened → r.body = .fillFault l x n → s.entry? l = some e →
      e.activity = .faultHeld → e.waiters = [] → f.payload = [r.id, 2] ++ lineBytes d →
      s.Owed l d .supply (fun c => { (s.accepted p).withTable
        (s.changed l fun x => { x with copy := c, activity := .idle, recordId := none }) with faultQueue := before ++ after })
        (fun t => t.reply p f.tag .done []) fun t => exec (.resolveSupply p f) s = .next t) ∧
    (∀ (before after : List FaultRecord) (r : FaultRecord) (q : Port) (x : Cause) (lines : List Line),
      Admits s p f .supplyLine → f.payload = r.id :: le16 l ++ lineBytes d → Queued s before r after → r.state ≠ .posted →
      r.body = .holderLost q x lines → l ∈ lines →
      let left : List Line := lines.filter fun x => decide (x ≠ l)
      s.Owed l d .supply (fun c => { (s.accepted p).withTable
        (s.changed l fun x => { x with copy := c, recordId := none }) with
          faultQueue := before ++ (if left = [] then [] else [{ r with body := .holderLost q x left }]) ++ after })
        (fun t => t.reply p f.tag .done (count16 left.length)) fun t => exec (.supplyLine p f) s = .next t)

/-- A Prefetch is answered at once: FETCHED clear for a line that is present, or absent with no entry to be had at once;
FETCHED set when it takes a free entry, created FILLING at the least-recent end with a FILL asked for (R19, R20, R23,
R50). -/
def Obligations.PrefetchTaken : Prop :=
  ∀ (p : Port) (f : RxFrame) (s : State) (l : Line) (i : RegionId), Admits s p f .prefetch → MayUse s p l .read i →
    s.checkPoison l = none → f.payload = le16 l →
    ((∃ e, s.entry? l = some e) → exec (.prefetch p f) s = .next (s.replied p f.tag .done [bit false])) ∧
    (s.entry? l = none →
      s.allocQueue ≠ [] ∨ (Config.tableSize ≤ s.table.length ∧ ∀ e ∈ s.table, e.candidate = false) →
      exec (.prefetch p f) s = .next (s.replied p f.tag .done [bit false])) ∧
    (Quiet s → s.job.isSome = true → Absent s l → l ∉ s.fillQueue →
      exec (.prefetch p f) s = .next { s.replied p f.tag .done [bit true] with
        table := s.table ++ [{ newEntry l i ⟨p, f.tag⟩ with waiters := [], prefetched := true }]
        fillQueue := s.fillQueue ++ [l] })

/-- A Flush is answered DONE on a PLAIN line, and on a line whose data is neither DIRTY in the table nor in the journal; it
waits on the newest journal entry of an absent line, or of one whose copy is CLEAN; a DIRTY copy enters the journal with origin
FLUSH, becomes CLEAN, and the Flush waits on its entry: the line's QUEUED entry, into which the data merges, or a new one, which
posts JOURNAL_HIGH when it brings the count to 24 with the alarm armed. On a full journal without a QUEUED entry of the line the
Flush stays at the head of the entry's waiters, the copy stays DIRTY, and the line joins the journal-space queue (R51, R52, R53,
R84, R85, R87, R96, R98). -/
def Obligations.FlushTaken : Prop :=
  ∀ (p : Port) (f : RxFrame) (s : State) (l : Line), Admits s p f .flush → f.payload = le16 l →
    (∀ i : RegionId, s.regionOf l = some i → s.regions[i].cls = .plain → s.regions[i].access[p] ≠ .none →
      s.holding l p = .none → exec (.flush p f) s = .next (s.replied p f.tag .done [])) ∧
    (∀ i : RegionId, MayUse s p l .read i → s.entry? l = none → (∀ j ∈ s.journal, j.line ≠ l) →
      exec (.flush p f) s = .next (s.replied p f.tag .done [])) ∧
    (∀ (i : RegionId) (j : JournalEntry), MayUse s p l .read i → s.entry? l = none → s.Newest l j →
      exec (.flush p f) s = .next { s.asked p f.tag (.flush l) with
        syncList := s.syncList ++ [{ id := ⟨p, f.tag⟩, kind := .flush j.seq, partialFlag := false }] }) ∧
    (∀ (e : Entry) (d : LineData), TablesOk s → Quiet s → Serves s p l .read e d →
      (∀ q : Port, e.holdings[q] ≠ .write) →
      (e.copy = .clean d → (∀ j ∈ s.journal, j.line ≠ l) →
        exec (.flush p f) s = .next (s.replied p f.tag .done [])) ∧
      (∀ j : JournalEntry, e.copy = .clean d → s.Newest l j →
        exec (.flush p f) s = .next { s.asked p f.tag (.flush l) with
          syncList := s.syncList ++ [{ id := ⟨p, f.tag⟩, kind := .flush j.seq, partialFlag := false }] }) ∧
      (e.copy = .dirty d → s.job.isSome = true → s.journal.length = 32 →
        (∀ j ∈ s.journal, j.line = l → j.state ≠ .queued) →
        exec (.flush p f) s = .next { (s.asked p f.tag (.flush l)).withTable
            (s.changed l fun x => { x with waiters := [⟨p, f.tag⟩] }) with jspace := [.line l .flush] }) ∧
      (∀ (older younger : List JournalEntry) (j : JournalEntry), e.copy = .dirty d → s.job.isSome = true →
        s.journal = older ++ j :: younger → j.line = l → j.state = .queued → (∀ k ∈ younger, k.line ≠ l) →
        (∀ k ∈ older, k.line = l → k.state ≠ .queued) →
        exec (.flush p f) s = .next { (s.asked p f.tag (.flush l)).withTable (s.changed l fun x => { x with copy := .clean d }) with
          journal := older ++ { j with data := d, origin := .flush } :: younger
          syncList := s.syncList ++ [{ id := ⟨p, f.tag⟩, kind := .flush j.seq, partialFlag := false }] }) ∧
      (e.copy = .dirty d → s.job.isSome = true → Appends s l →
        exec (.flush p f) s = .next { ((s.asked p f.tag (.flush l)).withTable
            (s.changed l fun x => { x with copy := .clean d })).appended l d .flush with
          syncList := s.syncList ++ [{ id := ⟨p, f.tag⟩, kind := .flush s.seqCounter, partialFlag := false }] }))

/-- A Sync is answered DONE at once on an empty journal, and otherwise joins the sync list with the sequence number of the
journal's youngest entry as its mark (R55, R96). -/
def Obligations.SyncTaken : Prop :=
  ∀ (p : Port) (f : RxFrame) (s : State), Admits s p f .sync → f.payload = [] →
    (s.journal = [] → exec (.sync p f) s = .next (s.replied p f.tag .done [])) ∧
    (∀ (older : List JournalEntry) (j : JournalEntry), s.journal = older ++ [j] →
      exec (.sync p f) s = .next { s.asked p f.tag .sync with
        syncList := s.syncList ++
          [{ id := ⟨p, f.tag⟩, kind := .sync j.seq (s.journal.map (·.seq)), partialFlag := false }] })

/-! ## Recall answers -/

/-- A good answer to the only outstanding recall of a RECALLING entry without waiters closes the recall and makes the entry
IDLE, with the target's holding and the hub copy by R68's and R69's tables: a DOWNGRADE leaves READ, or NONE for NOT_HELD;
an INVALIDATE leaves NONE; DATA from a WRITE holder replaces the copy, which is DIRTY. An EVICTING entry ends the same way once
no holder is left. What a DOWNGRADE has left READ is recalled again, INVALIDATE: from an entry that stays EVICTING with purpose
EVICT; from a port without a right to it, under the Region Set that is completing, with purpose REGION; from a CLOSING port with
purpose CLOSE (R17, R67 to R70, R145, R174). Where more than one of these would be asked only the first is, in this order, which
is the model's choice (log entry 6). -/
def Obligations.RecallAnswered : Prop :=
  ∀ (p : Port) (f : RxFrame) (s : State) (l : Line) (e : Entry) (r : Recall), Arrives s p f.seq → Idle s →
    s.sessionState p = .online ∨ s.sessionState p = .closing → (∀ q : Port, q ≠ p → s.sessionState q ≠ .closing) →
    s.entry? l = some e → e.waiters = [] → OnlyRecall s l p r → s.classOf l ≠ some .writeThrough →
    let left (change : Entry → Entry) : State :=
      { (s.accepted p).withTable (s.changed l change) with recalls := s.recallsWithout l p }
    let settled (h : Holding) (c : Option HubCopy) : State :=
      left fun x => { x with holdings := x.holdings.set p h, copy := c.getD x.copy, activity := .idle }
    let alone : Prop := ∀ q : Port, q ≠ p → e.holdings[q] = .none
    (s.sessionState p = .online → s.completing = none →
      let answered (h : Holding) (c : Option HubCopy) : Prop := exec (.recallAnswer p f) s = .next (settled h c)
      (r.asked.kind = .downgrade →
        (e.activity = .recalling →
          (f.payload = r.id :: le16 l ++ [1] → answered .read none) ∧
          (∀ d : LineData, f.payload = r.id :: le16 l ++ [2] ++ lineBytes d → answered .read (some (.dirty d)))) ∧
        (e.activity = .recalling ∨ (e.activity = .evicting ∧ alone) →
          f.payload = r.id :: le16 l ++ [3] → answered .none none)) ∧
      (r.asked.kind = .invalidate → e.activity = .recalling ∨ (e.activity = .evicting ∧ alone) →
        (f.payload = r.id :: le16 l ++ [1] ∨ f.payload = r.id :: le16 l ++ [3] → answered .none none) ∧
        (∀ d : LineData, f.payload = r.id :: le16 l ++ [2] ++ lineBytes d →
          (e.holdings[p] = .write → answered .none (some (.dirty d))) ∧
          (e.holdings[p] ≠ .write → answered .none none)))) ∧
    (∀ c : Option HubCopy, r.asked.kind = .downgrade →
      (f.payload = r.id :: le16 l ++ [1] ∧ c = none) ∨
        (∃ d : LineData, f.payload = r.id :: le16 l ++ [2] ++ lineBytes d ∧ c = some (.dirty d)) →
      let recalls (t : State) (u : Purpose) : Prop :=
        exec (.recallAnswer p f) s = .next (t.recalled { line := l, port := p, kind := .invalidate, purpose := u })
      let loses (i : RegionId) : Prop := s.regions[i].contains l = true ∧ s.regions[i].access[p] = .none
      (e.activity = .evicting → alone → e.copy ≠ .poisoned → (∀ i : RegionId, s.completing = some i → loses i) →
        recalls (left fun x => { x with holdings := x.holdings.set p .read, copy := c.getD x.copy }) .evict) ∧
      (∀ i : RegionId, e.activity = .recalling → s.completing = some i → loses i → recalls (settled .read c) .region) ∧
      (e.activity = .recalling → s.completing = none → s.sessionState p = .closing → recalls (settled .read c) .close))

/-- A good answer that matches no open recall changes nothing; a bad one, and any answer in FENCED or IDLE, is refused with
its tag and changes nothing else (R66, R67). -/
def Obligations.RecallAnswerDiscarded : Prop :=
  ∀ (p : Port) (f : RxFrame) (s : State), Arrives s p f.seq →
    (s.sessionState p = .online ∨ s.sessionState p = .closing →
      (parseRecallAnswer f.payload = none → exec (.recallAnswer p f) s = .next (s.replied p f.tag .badFormat [])) ∧
      (∀ a, parseRecallAnswer f.payload = some a →
        (∀ r ∈ s.recalls, ¬ (r.id = a.id ∧ r.asked.line = a.line ∧ r.asked.port = p)) →
        exec (.recallAnswer p f) s = .next (s.accepted p))) ∧
    (s.sessionState p = .fenced → exec (.recallAnswer p f) s = .next (s.replied p f.tag .fenced [])) ∧
    (s.sessionState p = .idle → exec (.recallAnswer p f) s = .next (s.replied p f.tag .noSession []))

/-- A Release by the target of the only outstanding recall of its line is also the answer to that recall, which closes in
the same step and makes a RECALLING entry IDLE (R71). -/
def Obligations.ReleaseAnswersRecall : Prop :=
  ∀ (p : Port) (f : RxFrame) (s : State) (l : Line) (e : Entry) (r : Recall), Admits s p f .release → Quiet s →
    s.entry? l = some e → e.activity = .recalling → e.waiters = [] → e.holdings[p] ≠ .none → OnlyRecall s l p r →
    f.payload = le16 l →
    exec (.release p f) s = .next { (s.replied p f.tag .done []).withTable
      (s.changed l fun x => { x with holdings := x.holdings.set p .none, activity := .idle }) with
        recalls := s.recallsWithout l p }

/-- An answer to the recall of a line that another port's request waits for, RECALLING or EVICTING, hands the line over in one
step, and the entry is IDLE at the most-recent end. DATA of the writer makes the copy DIRTY and is what an Acquire Write is
granted WRITE with, the writer left with nothing, or after a DOWNGRADE an Acquire Read READ, the writer left with READ; a last
other reader that gives way turns an Upgrade's READ into WRITE. A grant beyond the port's right is recalled at once, with
purpose REGION, and one to a CLOSING port with purpose CLOSE (R9, R17, R46, R47, R68, R69, R70, R145, R174). That the reply goes
before that recall, and that REGION is asked where both would be, is the model's choice (log entry 6). -/
def Obligations.RecallAnswerHandsLineOver : Prop :=
  ∀ (p q : Port) (f : RxFrame) (tag : Byte) (s : State) (l : Line) (e : Entry) (r : Recall),
    Arrives s p f.seq → Idle s → p ≠ q → s.sessionState p = .online → (∀ x : Port, x ≠ q → s.sessionState x ≠ .closing) →
    s.regionOf l = some e.region → s.regions[e.region].cls = .tracked →
    s.entry? l = some e → e.activity = .recalling ∨ e.activity = .evicting → e.waiters = [⟨q, tag⟩] →
    OnlyRecall s l p r → e.copy ≠ .poisoned →
    let right : Access := s.regions[e.region].access[q]
    let handed (req : Req) (before after : Holding) (c : HubCopy) (data : List Byte) : Prop :=
      s.request? ⟨q, tag⟩ = some { id := ⟨q, tag⟩, req := req } →
      (∀ i : RegionId, s.completing = some i → i = e.region ∧ right.rank < after.needs.rank) →
      exec (.recallAnswer p f) s = .next (({ (s.accepted p).withTable
        ({ e with holdings := (e.holdings.set p before).set q after, copy := c, activity := .idle, waiters := [],
                  prefetched := false } :: s.others l) with
          recalls := s.recallsWithout l p }.answer ⟨q, tag⟩ .done data).recalledInTurn (s.afterGrant l q e.region after))
    (∀ d : LineData, e.holdings[p] = .write → (∀ x : Port, x ≠ p → e.holdings[x] = .none) →
      s.holdingCount q < s.capacity q → f.payload = r.id :: le16 l ++ [2] ++ lineBytes d →
      (r.asked.kind = .invalidate → handed (.acquireWrite l) .none .write (.dirty d) (lineBytes d)) ∧
      (r.asked.kind = .downgrade → s.completing = none ∨ s.regions[e.region].access[p] ≠ .none →
        handed (.acquireRead l) .read .read (.dirty d) (lineBytes d))) ∧
    (e.holdings[p] = .read → e.holdings[q] = .read → (∀ x : Port, x ≠ p → x ≠ q → e.holdings[x] = .none) →
      r.asked.kind = .invalidate → s.sessionState q ≠ .closing → f.payload = r.id :: le16 l ++ [1] →
      handed (.upgrade l) .none .write e.copy [])

/-! ## Links -/

/-- A Ping is answered with a Pong of its tag, the receive number and the send number, whatever its payload and in every
session state and mode; it is numbered nowhere and restarts a running keepalive (R166, R171). -/
def Obligations.PingAnswered : Prop :=
  ∀ (p : Port) (tag : Byte) (payload : List Byte) (s : State), s.receives p = true →
    exec (.ping p tag payload) s = .next { s with
      links := s.links.set p { s.links[p].heard s.keepaliveExpiry with
        tx := s.links[p].tx ++ [linkFrame pongKind tag [s.links[p].recvNum, s.links[p].sendNum]] } }

/-- A damaged frame of the link range is discarded silently; any other, and a good frame out of sequence, is discarded
under the Link Reject rule: one Link Reject with the receive number, unless one is pending. Only the good frame restarts a
running keepalive (R161, R164, R171). -/
def Obligations.FramesRejected : Prop :=
  ∀ (p : Port) (s : State), s.receives p = true →
    (∀ kind : Byte, kind.toNat < 16 → exec (.damagedFrame p kind) s = .next s) ∧
    (∀ kind : Byte, 16 ≤ kind.toNat →
      exec (.damagedFrame p kind) s = .next { s with links := s.links.set p s.links[p].rejecting }) ∧
    (∀ seq : Byte, seq ≠ s.links[p].recvNum →
      exec (.unexpectedSequence p seq) s = .next { s with
        links := s.links.set p (s.links[p].heard s.keepaliveExpiry).rejecting })

/-- A good sequenced frame of a kind no agent sends is accepted and refused by session state, UNKNOWN_KIND in ONLINE,
whatever its tag and payload; a good link frame of kind 0x00 or 0x07 to 0x0F is discarded and restarts a running keepalive
(R188). -/
def Obligations.UnlistedKindsRefused : Prop :=
  ∀ (p : Port) (kind : Byte) (f : RxFrame) (s : State),
    (16 ≤ kind.toNat → isAgentKind kind = false → sequencedCommand p kind f = .unknownKindFrame p kind f) ∧
    (Arrives s p f.seq →
      let refused (st : Status) : Prop := exec (.unknownKindFrame p kind f) s = .next (s.replied p f.tag st [])
      (s.sessionState p = .idle → refused .noSession) ∧ (s.sessionState p = .closing → refused .closing) ∧
      (s.sessionState p = .fenced → refused .fenced) ∧ (s.sessionState p = .online → refused .unknownKind)) ∧
    (kind = 0 ∨ (7 ≤ kind.toNat ∧ kind.toNat ≤ 15) → linkCommand p kind f.tag f.payload = .discardedLinkFrame p kind) ∧
    (s.receives p = true → exec (.discardedLinkFrame p kind) s = .next (s.heard p))

/-- A Replay Request sends the buffered frames from its number on again; at the send number, for a lost frame in IDLE or
FENCED, and with a payload that is not one byte, it changes nothing but a running keepalive (R165, R189; that the last
restarts it is the model's choice, log entry 21). -/
def Obligations.FramesReplayed : Prop :=
  ∀ (p : Port) (payload : List Byte) (s : State), s.receives p = true →
    let l : LinkUnit := s.links[p]
    (∀ (older younger : List Frame) (fr : Frame), payload = [fr.seq] → l.replay = older ++ fr :: younger →
      (∀ x ∈ older, x.seq ≠ fr.seq) →
      exec (.replayRequest p payload) s = .next { s with
        links := s.links.set p { l.heard s.keepaliveExpiry with tx := l.tx ++ fr :: younger } }) ∧
    (∀ n : Byte, payload = [n] → (∀ x ∈ l.replay, x.seq ≠ n) →
      n = l.sendNum ∨ s.sessionState p = .idle ∨ s.sessionState p = .fenced →
      exec (.replayRequest p payload) s = .next (s.heard p)) ∧
    (payload.length ≠ 1 → exec (.replayRequest p payload) s = .next (s.heard p))

/-- A Link Restart in IDLE or FENCED resets the link, which stays UP, and is answered with the answer flag set; in FENCED
the notice in flight follows under number 0, and nothing of the session changes. One with the answer flag set, or without
exactly one byte, is discarded (R157, R158, R167, R189); that it restarts a running keepalive is the model's choice for a
payload that is not one byte (log entry 21). -/
def Obligations.LinkRestarted : Prop :=
  ∀ (p : Port) (payload : List Byte) (s : State), s.receives p = true →
    let answered : LinkUnit := { LinkUnit.reset with up := true, tx := [linkFrame linkRestartKind 0 [1]] }
    (∀ b : Byte, payload = [b] → b.getLsbD 0 = false →
      (s.sessionState p = .idle ∨ (s.sessionState p = .fenced ∧ s.notices[p].inFlight = none) →
        exec (.linkRestart p payload) s = .next { s with links := s.links.set p answered }) ∧
      (∀ n : SentNotice, s.sessionState p = .fenced → s.notices[p].inFlight = some n →
        exec (.linkRestart p payload) s = .next { s with
          links := s.links.set p (answered.sendSeq noticeKind 0 (noticePayload n)) })) ∧
    (payload.length ≠ 1 ∨ (∃ b : Byte, payload = [b] ∧ b.getLsbD 0 = true) →
      exec (.linkRestart p payload) s = .next (s.heard p))

/-- A link that comes up starts with its numbers at 0 and nothing buffered, and its port is IDLE; one that goes down in
IDLE is reset and its port DOWN, and so in FENCED, where the session's values and the notice state go with it; the end of a
frame's transmission takes it from the transmit queue (R158, R159, R163, R176). An event that the link's state rules out
changes nothing, by the model's choice (log entry 4). -/
def Obligations.LinkEvents : Prop :=
  ∀ (p : Port) (s : State), s.resetN = true →
    (s.links[p].up = false → exec (.linkUp p) s = .next { s with
      links := s.links.set p { LinkUnit.reset with up := true }
      sessions := s.sessions.set p Session.idle }) ∧
    (s.links[p].up = true → exec (.linkUp p) s = .next s) ∧
    (s.links[p].up = true → Quiet s → s.sessionState p = .idle → s.outstanding p = [] →
      s.notices[p] = NoticeUnit.reset →
      exec (.linkDown p) s = .next { s with
        links := s.links.set p LinkUnit.reset
        sessions := s.sessions.set p Session.reset }) ∧
    (s.links[p].up = true → Quiet s → s.sessionState p = .fenced → s.outstanding p = [] →
      exec (.linkDown p) s = .next { s with
        links := s.links.set p LinkUnit.reset
        sessions := s.sessions.set p Session.reset
        notices := s.notices.set p NoticeUnit.reset }) ∧
    (s.links[p].up = false → exec (.linkDown p) s = .next s) ∧
    (∀ (fr : Frame) (rest : List Frame), s.links[p].up = true → s.links[p].tx = fr :: rest →
      exec (.frameTransmitted p) s = .next { s with links := s.links.set p { s.links[p] with tx := rest } })

/-! ## Sessions -/

/-- An accepted Hello opens a session: the next session number, the capacity, the keepalive started, and the Welcome; while
STOPPED, HUB_STOPPED follows as notice 0. Another revision is refused REVISION and changes nothing (R157, R169, R170,
R171). -/
def Obligations.HelloOpensSession : Prop :=
  ∀ (p : Port) (f : RxFrame) (s : State) (revision : Byte) (capacity : Nat), Admits s p f .hello → capacity ≤ 512 →
    f.payload = revision :: count16 capacity →
    (revision = 1 → s.mode = .running → exec (.hello p f) s = .next (s.sessionOpened p f.tag capacity)) ∧
    (∀ r : FaultRecord, revision = 1 → s.mode = .stopped → s.stopRecord = some r → s.notices[p] = NoticeUnit.reset →
      exec (.hello p f) s = .next ((s.sessionOpened p f.tag capacity).notified p NoticeUnit.reset
        { kind := .hubStopped, subject := none, data := r.body.kind.code } [])) ∧
    (revision ≠ 1 → exec (.hello p f) s = .next (s.replied p f.tag .revision []))

/-- A Goodbye makes its port CLOSING and recalls every line it holds, INVALIDATE with purpose CLOSE, in ascending order (log
entry 6) and without a second recall of a line and port; with nothing held and nothing else outstanding it completes in the same
step: DONE, the port IDLE, the session's values absent, the keepalive stopped and the notice state reset. Later it completes
once it is all that is outstanding and the port holds nothing; until then, and on a port that is not CLOSING, its completion
step changes nothing (R61, R62, R63, R64, R156, R174, R175). -/
def Obligations.GoodbyeAnswered : Prop :=
  (∀ (p : Port) (f : RxFrame) (s : State), Admits s p f .goodbye → f.payload = [] →
      let closing : State := { s.asked p f.tag .goodbye with
        sessions := s.sessions.set p { s.sessions[p] with state := .closing } }
      (s.holdsNothing p → s.outstanding p = [] →
        exec (.goodbye p f) s = .next { s with
          links := s.links.set p { s.linkReplied p f.tag .done [] with keepalive := none }
          sessions := s.sessions.set p Session.idle
          notices := s.notices.set p NoticeUnit.reset }) ∧
      (s.holdsNothing p → s.outstanding p ≠ [] → exec (.goodbye p f) s = .next closing) ∧
      (¬ s.holdsNothing p → TablesOk s → ∃ lines : List Line, lines.Pairwise (fun a b => a.toNat < b.toNat) ∧
        (∀ l : Line, l ∈ lines ↔ ∃ e ∈ s.table, e.line = l ∧ e.holdings[p] ≠ .none) ∧
        exec (.goodbye p f) s = .next (closing.recalledInTurn
          (lines.map fun l => { line := l, port := p, kind := .invalidate, purpose := .close })))) ∧
  (∀ (p : Port) (s : State), s.resetN = true →
      (∀ tag : Byte, s.sessionState p = .closing → s.holdsNothing p →
        s.outstanding p = [{ id := ⟨p, tag⟩, req := .goodbye }] →
        exec (.goodbyeCompletion p) s = .next { s with
          requests := s.requests.filter fun r => r.id != ⟨p, tag⟩
          links := s.links.set p { s.links[p].sendSeq replyKind tag (replyPayload .done []) with keepalive := none }
          sessions := s.sessions.set p Session.idle
          notices := s.notices.set p NoticeUnit.reset }) ∧
      (s.sessionState p ≠ .closing ∨ ¬ s.holdsNothing p ∨ 2 ≤ (s.outstanding p).length →
        exec (.goodbyeCompletion p) s = .next s))

/-! ## Notices -/

/-- With no notice in flight the notice unit sends the sendable notice of highest priority, the oldest among equals, with its
counter's number; otherwise nothing. A Notice Ack with the number in flight is answered DONE and the next notice is sent
behind the reply; any other is answered NO_NOTICE. A Set Threshold replaces the threshold, is answered DONE, and sends what
it makes sendable behind the reply (R152, R153, R154; that the reply goes first is the model's choice, log entry 6). -/
def Obligations.NoticesDelivered : Prop :=
  (∀ (p : Port) (s : State), s.resetN = true →
      (∀ (before after : List Notice) (n : Notice), s.notices[p].inFlight = none →
        Chosen s.notices[p].threshold s.notices[p].queue before n after →
        exec (.notice p) s = .next (s.notified p s.notices[p] n (before ++ after))) ∧
      (s.notices[p].inFlight ≠ none ∨ (∀ n ∈ s.notices[p].queue, n.sendable s.notices[p].threshold = false) →
        exec (.notice p) s = .next s)) ∧
  (∀ (p : Port) (f : RxFrame) (s : State) (n : Byte), Admits s p f .noticeAck → f.payload = [n] →
      let u : NoticeUnit := { s.notices[p] with inFlight := none }
      (∀ x : SentNotice, s.notices[p].inFlight = some x → x.number = n →
        (∀ (before after : List Notice) (m : Notice), Chosen u.threshold u.queue before m after →
          exec (.noticeAck p f) s = .next ((s.replied p f.tag .done []).notified p u m (before ++ after))) ∧
        ((∀ m ∈ u.queue, m.sendable u.threshold = false) →
          exec (.noticeAck p f) s = .next ((s.replied p f.tag .done []).withNotices p u))) ∧
      ((∀ x : SentNotice, s.notices[p].inFlight = some x → x.number ≠ n) →
        exec (.noticeAck p f) s = .next (s.replied p f.tag .noNotice []))) ∧
  (∀ (p : Port) (f : RxFrame) (s : State) (b : Byte), Admits s p f .setThreshold → f.payload = [b] → b.toNat ≤ 7 →
      let u : NoticeUnit := { s.notices[p] with threshold := b.toNat }
      (∀ (before after : List Notice) (m : Notice), u.inFlight = none → Chosen u.threshold u.queue before m after →
        exec (.setThreshold p f) s = .next ((s.replied p f.tag .done []).notified p u m (before ++ after))) ∧
      (u.inFlight ≠ none ∨ (∀ m ∈ u.queue, m.sendable u.threshold = false) →
        exec (.setThreshold p f) s = .next ((s.replied p f.tag .done []).withNotices p u)))

/-! ## Reports, timers and resets -/

/-- A Region Query is answered with the descriptor and its completing flag, in section 11.3's layout, and changes nothing; an
index above 7, or another length, is BAD_FORMAT (R148, R189). -/
def Obligations.RegionQueryAnswered : Prop :=
  ∀ (p : Port) (f : RxFrame) (s : State), Admits s p f .regionQuery →
    (∀ i : RegionId, f.payload = [count8 i.val] →
      let r : Region := s.regions[i]
      exec (.regionQuery p f) s = .next (s.replied p f.tag .done ([bit r.enabled + 2 * bit (s.completing == some i)] ++
        le16 r.first ++ le32 (BitVec.ofNat 32 r.count) ++ [r.cls.code,
          r.access[0].code ||| (r.access[1].code <<< 2) ||| (r.access[2].code <<< 4) ||| (r.access[3].code <<< 6)]))) ∧
    (f.payload.length ≠ 1 ∨ (∃ b : Byte, f.payload = [b] ∧ 8 ≤ b.toNat) →
      exec (.regionQuery p f) s = .next (s.replied p f.tag .badFormat []))

/-- A Hub Status is answered with 113 bytes and changes nothing: the hub's group first, then the counts of the line table, the
recalls, the journal, the port and the fault unit in 56 bytes, 11 bytes for each port, whose outstanding count includes this
request, and the three timer values (R180, section 11.4). -/
def Obligations.HubStatusReported : Prop :=
  ∀ (p : Port) (f : RxFrame) (s : State), Admits s p f .hubStatus → f.payload = [] →
    ∃ data : List Byte, exec (.hubStatus p f) s = .next (s.replied p f.tag .done data) ∧ data.length = 113 ∧
      data.take 7 = s.mode.code :: le32 s.hubTime ++
        [portByte s.supervisor, match s.completing with
          | some i => count8 i.val
          | none => 0xFF] ∧
      (let entries (f : Entry → Bool) : List Byte := count16 (s.table.countP f)
       let journaled (x : JournalState) : List Byte := count16 (s.journal.countP fun j => j.state == x)
       let recorded (x : RecordState) : List Byte := count16 (s.faultQueue.countP fun r => r.state == x)
       (data.drop 7).take 56 = count16 s.table.length ++
        entries (fun e => e.copy == .empty) ++ entries (fun e => match e.copy with | .clean _ => true | _ => false) ++
        entries (fun e => match e.copy with | .dirty _ => true | _ => false) ++ entries (fun e => e.copy == .poisoned) ++
        entries (fun e => e.activity == .idle) ++ entries (fun e => e.activity == .filling) ++
        entries (fun e => e.activity == .recalling) ++ entries (fun e => e.activity == .evicting) ++
        entries (fun e => e.activity == .faultHeld) ++ entries (fun e => e.prefetched) ++ count16 s.allocQueue.length ++
        count16 s.recalls.length ++ count16 s.recallWait.length ++
        count16 s.journal.length ++ journaled .queued ++ journaled .writing ++ journaled .faulted ++ count16 s.jspace.length ++
        [bit s.highAlarm] ++ count16 s.syncList.length ++
        [match s.job with
          | some j => j.owner.code
          | none => 0xFF] ++ count16 s.fillQueue.length ++ count16 s.directQueue.length ++
        count16 s.faultQueue.length ++ recorded .posted ++ recorded .opened ++ recorded .retrying ++
        [bit s.stopRecord.isSome, match s.stopRecord with
          | some r => r.body.kind.code
          | none => 0xFF]) ∧
      (∀ q : Port, (data.drop (63 + 11 * q.val)).take 11 =
        (s.sessionState q).code :: (match s.sessions[q].capacity with
          | some n => count16 n
          | none => [0xFF, 0xFF]) ++ count16 (s.holdingCount q) ++
        count16 ((s.outstanding q).length + if q = p then 1 else 0) ++ [count8 s.notices[q].threshold] ++
        count16 s.notices[q].queue.length ++ [bit s.notices[q].inFlight.isSome]) ∧
      data.drop 107 = count16 s.timers.recallMs ++ count16 s.timers.keepaliveMs ++ count16 s.timers.storeTenths

/-- Fault List, from the supervisor's port in ONLINE or FENCED and in either mode, is answered DONE with id, kind and state
of each record in queue order, then the stop record with its flag, 0 to 7 items in all; it changes no record. Another port
is refused NOT_PERMITTED, a payload BAD_FORMAT (R125). -/
def Obligations.FaultListed : Prop :=
  ∀ (p : Port) (f : RxFrame) (s : State), Arrives s p f.seq →
    (p ≠ s.supervisor → s.sessionState p = .online →
      exec (.faultList p f) s = .next (s.replied p f.tag .notPermitted [])) ∧
    (p = s.supervisor → s.sessionState p = .online ∨ s.sessionState p = .fenced →
      (f.payload ≠ [] → exec (.faultList p f) s = .next (s.replied p f.tag .badFormat [])) ∧
      (f.payload = [] → (∀ r ∈ s.outstanding p, r.id.tag ≠ f.tag) → (s.outstanding p).length < 8 →
        exec (.faultList p f) s = .next (s.replied p f.tag .done
          (count8 (s.faultQueue.length + s.stopRecord.toList.length) ::
            (s.faultQueue.map fun r => [r.id, r.body.kind.code, r.state.code]).flatten ++
            (s.stopRecord.toList.map fun r => [r.id, r.body.kind.code, r.state.code + 0x80]).flatten)))) ∧
    (FaultUnitOk s → s.faultQueue.length + s.stopRecord.toList.length ≤ 7)

/-- A Fault Read of part 0 reports the record as it stood, of the fault queue or, with the stop flag set, the stop record, and
turns a POSTED one OPEN in its place; of a line part, the lost lines at its positions, changing nothing; of no such record
NO_RECORD, of no such part BAD_FORMAT (R117, R124, R126). -/
def Obligations.FaultReadAnswered : Prop :=
  ∀ (p : Port) (f : RxFrame) (s : State) (id part : Byte), Admits s p f .faultRead → f.payload = [id, part] →
    let reads (data : List Byte) (t : State → State) : Prop :=
      exec (.faultRead p f) s = .next (t (s.replied p f.tag .done data))
    let read (r : FaultRecord) : FaultRecord := { r with state := if r.state = .posted then .opened else r.state }
    let answers (r : FaultRecord) (flag : Byte) (opens : State → State) : Prop :=
      let header : List Byte := [id, r.body.kind.code, r.state.code, flag] ++ le32 r.created
      (part = 0 →
        (∀ l c n, r.body = .fillFault l c n → reads (header ++ le16 l ++ [c.code, count8 n,
          count8 (s.waitingRequests l).length] ++
          ((s.waitingRequests l).map fun q => [portByte q.id.port, q.req.kind.code, q.id.tag]).flatten) opens) ∧
        (∀ l c n q o d, r.body = .drainFault l c n q o d →
          reads (header ++ le16 l ++ [c.code, count8 n] ++ le32 q ++ [o.code] ++ lineBytes d) opens) ∧
        (∀ q c ls, r.body = .holderLost q c ls → reads (header ++ [portByte q, c.code] ++ count16 ls.length ++
          [count8 ((ls.length + 99) / 100)]) opens)) ∧
      (part ≠ 0 →
        (∀ q c ls, r.body = .holderLost q c ls → part.toNat ≤ (ls.length + 99) / 100 →
          let lines : List Line := (ls.drop (100 * (part.toNat - 1))).take 100
          reads (count8 lines.length :: (lines.map le16).flatten) fun t => t) ∧
        ((∀ q c ls, r.body = .holderLost q c ls → (ls.length + 99) / 100 < part.toNat) →
          exec (.faultRead p f) s = .next (s.replied p f.tag .badFormat [])))
    ((∀ r ∈ s.faultQueue, r.id ≠ id) → (∀ r, s.stopRecord = some r → r.id ≠ id) →
      exec (.faultRead p f) s = .next (s.replied p f.tag .noRecord [])) ∧
    (∀ (before after : List FaultRecord) (r : FaultRecord), s.faultQueue = before ++ r :: after → r.id = id →
      (∀ x ∈ before ++ after, x.id ≠ id) → (∀ x, s.stopRecord = some x → x.id ≠ id) →
      answers r 0 fun t => { t with faultQueue := before ++ read r :: after }) ∧
    (∀ r : FaultRecord, s.stopRecord = some r → r.id = id → (∀ x ∈ s.faultQueue, x.id ≠ id) →
      answers r 1 fun t => { t with stopRecord := some (read r) })

/-- A Set Timers with three values in their ranges replaces all three and is answered DONE; with one out of its range, or of
another length, it is BAD_FORMAT and changes none (R181, R189). -/
def Obligations.TimersSet : Prop :=
  ∀ (p : Port) (f : RxFrame) (s : State), Admits s p f .setTimers →
    (∀ r k : BitVec 16, ∀ t : Byte, f.payload = le16 r ++ le16 k ++ [t] →
      let good : Prop := 1 ≤ r.toNat ∧ r.toNat ≤ 1000 ∧ 20 ≤ k.toNat ∧ k.toNat ≤ 5000 ∧ 1 ≤ t.toNat ∧ t.toNat ≤ 100
      (good → exec (.setTimers p f) s = .next { s.replied p f.tag .done [] with
        timers := { recallMs := r.toNat, keepaliveMs := k.toNat, storeTenths := t.toNat } }) ∧
      (¬ good → exec (.setTimers p f) s = .next (s.replied p f.tag .badFormat []))) ∧
    (f.payload.length ≠ 5 → exec (.setTimers p f) s = .next (s.replied p f.tag .badFormat []))

/-- Restart is answered DONE, ends every session with Session End, transmits all that before the links' new numbers, and
leaves every block as power-on reset does, but for the link states, the sessions IDLE where a link is UP, the session
counter, the supervisor and hub time (R163, R168, R184, R185). The waiting commands and the memory's levels are the model's
inputs and stay (log entries 2 and 11). -/
def Obligations.RestartTaken : Prop :=
  ∀ (p : Port) (f : RxFrame) (s : State), Admits s p f .restart → f.payload = [] →
    exec (.restart p f) s = .next { State.reset with
      pending := s.pending
      mrdy := s.mrdy
      merr := s.merr
      supervisor := s.supervisor
      hubTime := s.hubTime
      sessionCounter := s.sessionCounter
      sessions := Vector.ofFn fun q : Port => if s.links[q].up = true then Session.idle else Session.reset
      links := Vector.ofFn fun q : Port => { LinkUnit.reset with
        up := s.links[q].up
        tx := s.links[q].tx ++
          (if q = p then [{ kind := replyKind, tag := f.tag, seq := s.links[p].sendNum, payload := [0] }] else []) ++
          (if s.links[q].up && (s.sessionState q).hasSession then
            [linkFrame sessionEndKind 0 (1 :: le16 (s.sessions[q].number.getD 0))] else []) } }

/-- Power-on reset samples the straps for the supervisor's port and leaves every block as after reset; RESET_N low silences
the outputs; hub time advances by one, modulo 2 to the 32, while RESET_N is high, once every recall deadline and keepalive expiry
that it has reached is taken (R74, R113, R114, R171, R178, R186, R187). The waiting commands and the memory's levels are the
model's inputs and stay (log entries 2 and 11). That hub time stands still while RESET_N is low, and that the rest is kept until
it rises, is the model's reading (log entry 12); that a deadline not yet taken is taken in the step in which hub time would leave
it, recalls first, is the model's choice (log entry 5); and so is the whole power-on reset that the command brings while RESET_N
is high already, when it stands for a low level and its rise in one (log entry 4). -/
def Obligations.ResetEvents : Prop :=
  ∀ s : State,
    (∀ sel1 sel0 : Bool, exec (.powerOnReset sel1 sel0) s = .next { State.reset with
      pending := s.pending
      mrdy := s.mrdy
      merr := s.merr
      supervisor := (if sel1 then 2 else 0) + (if sel0 then 1 else 0) }) ∧
    exec .resetNLow s = .next { s with resetN := false, stopOut := false, bus := Bus.quiet } ∧
    (s.resetN = true →
      (∃ t, Runs (s.recalls.map (fun r => .recallTimeout r.id) ++ (List.finRange 4).map .keepaliveExpired) s t ∧
        exec .hubTimeAdvance s = .next { t with hubTime := t.hubTime + 1 }) ∧
      (s.mode = .stopped ∨ ((∀ r ∈ s.recalls, r.deadline ≠ s.hubTime) ∧
          ∀ p : Port, s.links[p].keepalive ≠ some s.hubTime) →
        ∃ t, exec .hubTimeAdvance s = .next { s with hubTime := t } ∧ t.toNat = (s.hubTime.toNat + 1) % 4294967296)) ∧
    (s.resetN = false → exec .hubTimeAdvance s = .next s)

/-- A Fence of the supervisor's own port is NOT_PERMITTED, of a port that is not ONLINE or CLOSING NOT_ONLINE; an Unfence
likewise NOT_PERMITTED and NOT_FENCED; a payload that is no port number is BAD_FORMAT. An Unfence of a FENCED port is
answered DONE, makes it IDLE with its session's values absent, resets its notice state and sends it Session End with reason
UNFENCED (R156, R168, R173, R182, R183). -/
def Obligations.FencesAnswered : Prop :=
  ∀ (p : Port) (f : RxFrame) (s : State),
    (Admits s p f .fence →
      (∀ q : Port, f.payload = [portByte q] →
        (q = s.supervisor → exec (.fence p f) s = .next (s.replied p f.tag .notPermitted [])) ∧
        (q ≠ s.supervisor → s.sessionState q ≠ .online → s.sessionState q ≠ .closing →
          exec (.fence p f) s = .next (s.replied p f.tag .notOnline []))) ∧
      (f.payload.length ≠ 1 ∨ (∃ b : Byte, f.payload = [b] ∧ 4 ≤ b.toNat) →
        exec (.fence p f) s = .next (s.replied p f.tag .badFormat []))) ∧
    (Admits s p f .unfence →
      (∀ q : Port, f.payload = [portByte q] →
        (q = s.supervisor → exec (.unfence p f) s = .next (s.replied p f.tag .notPermitted [])) ∧
        (q ≠ s.supervisor → s.sessionState q ≠ .fenced →
          exec (.unfence p f) s = .next (s.replied p f.tag .notFenced [])) ∧
        (∀ no : SessionNo, q ≠ s.supervisor → s.sessionState q = .fenced → s.links[q].up = true →
          s.sessions[q].number = some no →
          exec (.unfence p f) s = .next { s with
            links := (s.links.set p (s.linkReplied p f.tag .done [])).set q { s.links[q] with
              keepalive := none, tx := s.links[q].tx ++ [linkFrame sessionEndKind 0 (2 :: le16 no)] }
            sessions := s.sessions.set q Session.idle
            notices := s.notices.set q NoticeUnit.reset })) ∧
      (f.payload.length ≠ 1 ∨ (∃ b : Byte, f.payload = [b] ∧ 4 ≤ b.toNat) →
        exec (.unfence p f) s = .next (s.replied p f.tag .badFormat [])))

/-! ## Fences and lost links -/

/-- Whatever fences an ONLINE or CLOSING port (a recall deadline, its keepalive's expiry, a Replay Request for a frame that
is lost, the supervisor's Fence), the step leaves it FENCED with its capacity and session number, without a keepalive, and
the hub with nothing of it: no holding, no outstanding request in any place, no recall to it. Its outstanding requests are
answered FENCED in the order of admission, their replies one behind the other on its lane. Its holdings are revoked with the
cause: while RUNNING its WRITE lines are POISONED and listed in one HOLDER_LOST record, the stop record if the fault queue is full;
while STOPPED no record appears (R59, R74 to R78, R122, R165, R171, R172, R182). -/
def Obligations.FenceLeavesNothing : Prop :=
  ∀ (p : Port) (s : State) (c : Instr) (cause : Cause), s.resetN = true →
    s.sessionState p = .online ∨ s.sessionState p = .closing → Fences s p c cause →
    ∃ t, exec c s = .next t ∧ t.sessions[p] = { s.sessions[p] with state := .fenced } ∧
      t.links[p].keepalive = none ∧ NothingOf t p ∧
      (s.links[p].up = true → ∃ (n : Byte) (earlier later : List Frame),
        t.links[p].tx = s.links[p].tx ++ earlier ++ fencedReplies n (s.outstanding p) ++ later) ∧
      (InOrder s → s.Revokes t p cause)

/-- While STOPPED no recall deadline and no keepalive expiry is taken; a timeout of a recall that is not open, and an expiry
of a timer that does not run, change nothing (R74, R171; for what cannot occur that is the model's choice, log entry 4). -/
def Obligations.TimersRest : Prop :=
  ∀ (s : State) (p : Port) (id : Byte),
    (s.mode = .stopped ∨ (∀ r ∈ s.recalls, r.id ≠ id) → exec (.recallTimeout id) s = .next s) ∧
    (s.mode = .stopped ∨ s.links[p].keepalive = none → exec (.keepaliveExpired p) s = .next s)

/-- A link that goes down, or is restarted by its agent, ends the session of an ONLINE or CLOSING port: DOWN with its link unit
reset, or IDLE with the link reset, answered and told Session End; either way the notice state is reset and the hub is left with
nothing of the port. Its holdings are revoked with cause LINK_LOST: while RUNNING its WRITE lines are POISONED and listed in one
HOLDER_LOST record, the stop record if the fault queue is full; while STOPPED no record appears (R60, R75 to R78, R122, R156,
R158, R159, R167, R168, R176). -/
def Obligations.LostLinkLeavesNothing : Prop :=
  ∀ (p : Port) (s : State), s.receives p = true → s.sessionState p = .online ∨ s.sessionState p = .closing →
    let ends (c : Instr) (x : Session) (l : LinkUnit) : Prop := ∃ t, exec c s = .next t ∧ t.sessions[p] = x ∧
      t.notices[p] = NoticeUnit.reset ∧ t.links[p] = l ∧ NothingOf t p ∧ (InOrder s → s.Revokes t p .linkLost)
    ends (.linkDown p) Session.reset LinkUnit.reset ∧
    (∀ (b : Byte) (no : SessionNo), b.getLsbD 0 = false → s.sessions[p].number = some no →
      ends (.linkRestart p [b]) Session.idle { LinkUnit.reset with
        up := true
        tx := [linkFrame linkRestartKind 0 [1], linkFrame sessionEndKind 0 (3 :: le16 no)] })

/-- The revocation of an ONLINE port that is not the supervisor's, in a hub where nothing else waits. A WRITE line is POISONED
while RUNNING, and its entry names the new HOLDER_LOST record; a READ holding goes without a trace, and while STOPPED a WRITE
holding too, every hub copy kept. A record that joins the fault queue posts FAULT_POSTED for the supervisor with the number of
POSTED records; one that stops the hub posts HUB_STOPPED for every port. A fence then posts AGENT_FENCED for the supervisor,
with the port and the cause, and on the fenced port every notice gives way to SESSION_FENCED, in flight, with HUB_STOPPED
waiting behind it while STOPPED; a lost or restarted link posts nothing more (R76, R78, R118, R119, R122, R155, R165, R171,
R172, R176). That SESSION_FENCED of a fence that stops the hub comes one number later when HUB_STOPPED could be sent first is
the model's reading (log entry 23). -/
def Obligations.FencePoisonsWrittenLines : Prop :=
  ∀ (p : Port) (s : State), s.resetN = true → InOrder s → Quiet s → s.sessionState p = .online → p ≠ s.supervisor →
    s.outstanding p = [] → (∀ e ∈ s.table, e.activity = .idle ∧ e.waiters = []) →
    let revokes (t : State) (cause : Cause) (told : List Notice) : Prop :=
      s.Revokes t p cause ∧
      t.table = s.table.map (fun e =>
        let lost : Prop := s.mode = .running ∧ e.holdings[p] = .write
        { e with
          holdings := e.holdings.set p .none
          copy := if lost then .poisoned else e.copy
          recordId := if lost then some s.freeRecordId else e.recordId }) ∧
      t.journal = s.journal ∧ t.requests = s.requests ∧
      (∀ q : Port, q ≠ p →
        let count : Byte := BitVec.ofNat 8 (t.faultQueue.countP fun r => r.state == .posted)
        let record : List Notice :=
          if t.mode ≠ s.mode then [{ kind := .hubStopped, subject := none, data := RecordKind.holderLost.code }]
          else if q = s.supervisor ∧ t.faultQueue ≠ s.faultQueue then [{ kind := .faultPosted, subject := none, data := count }]
          else []
        let posted : List Notice := record ++ if q = s.supervisor then told else []
        t.notices[q] = (posted.foldl (fun u n => u.postNotice q n) s).notices[q])
    (∀ (c : Instr) (cause : Cause), Fences s p c cause → ∃ t, exec c s = .next t ∧
      revokes t cause [{ kind := .agentFenced, subject := some p, data := cause.code }] ∧
      let n : Byte := s.notices[p].counter + if t.mode ≠ s.mode ∧ s.notices[p].inFlight = none then 1 else 0
      t.notices[p] = { s.notices[p] with
        queue := t.stopRecord.toList.map fun r => { kind := .hubStopped, subject := none, data := r.body.kind.code }
        inFlight := some { number := n, notice := { kind := .sessionFenced, subject := none, data := cause.code } }
        counter := n + 1 }) ∧
    (s.links[p].up = true → ∀ c : Instr, c = .linkDown p ∨ (∃ b : Byte, b.getLsbD 0 = false ∧ c = .linkRestart p [b]) →
      ∃ t, exec c s = .next t ∧ revokes t .linkLost [])

/-! ## Notices and regions -/

/-- A notice posted for a port is dropped in the session states that do not receive its kind. Otherwise it gives its data to
the waiting notice of its kind and subject, which keeps its place (the union for REGION_CHANGED), or joins the tail; then the
notice unit sends what it can (R149, R150, R151, R152). -/
def Obligations.NoticePosted : Prop :=
  ∀ (p : Port) (s : State) (n : Notice),
    let received : Prop := (s.sessionState p = .online ∧ n.kind ≠ .sessionFenced) ∨
      (s.sessionState p = .closing ∧ n.kind ≠ .sessionFenced ∧ n.kind ≠ .regionChanged) ∨
      (s.sessionState p = .fenced ∧ n.kind ≠ .regionChanged)
    let same (w : Notice) : Prop := w.kind = n.kind ∧ w.subject = n.subject
    (¬ received → s.postNotice p n = s) ∧
    (received →
      (∀ (before after : List Notice) (w : Notice), s.notices[p].queue = before ++ w :: after → same w →
        (∀ x ∈ before ++ after, ¬ same x) →
        s.NoticeTaken (s.postNotice p n) p
          (before ++ { w with data := if n.kind = .regionChanged then w.data ||| n.data else n.data } :: after)) ∧
      ((∀ x ∈ s.notices[p].queue, ¬ same x) →
        s.NoticeTaken (s.postNotice p n) p (s.notices[p].queue ++ [n])))

/-- A Region Set makes its three checks in their order, and a refusal changes nothing. One that is taken replaces the descriptor
and posts REGION_CHANGED for every port; it is answered DONE, unless it lowers a right under a holding: then every such holding
is recalled with purpose REGION, INVALIDATE where the right is NONE, else DOWNGRADE, in ascending order of the lines and the
ports (log entry 6), and the Region Set is completing (R140, R142, R143, R144, R147). While one is completing, the step in which
no holding is in excess and no such recall is outstanding ends it, and answers its request if that is still outstanding (R145,
R146). That the reply and the recall go before REGION_CHANGED is the model's choice (log entry 6). -/
def Obligations.RegionSetAnswered : Prop :=
  (∀ (p : Port) (f : RxFrame) (s : State) (i : RegionId) (flags : Byte) (r : Region), Admits s p f .regionSet →
    let access : Byte := r.access[0].code ||| (r.access[1].code <<< 2) ||| (r.access[2].code <<< 4) ||| (r.access[3].code <<< 6)
    f.payload = [count8 i.val, flags] ++ le16 r.first ++ le32 (BitVec.ofNat 32 r.count) ++ [r.cls.code, access] →
    flags.getLsbD 0 = r.enabled → r.first.toNat + r.count ≤ 65536 → (r.enabled = true → 1 ≤ r.count) →
    let old : Region := s.regions[i]
    let shares : Prop := ∃ j : RegionId, j ≠ i ∧ s.regions[j].enabled = true ∧
      ∃ l : Line, r.contains l = true ∧ s.regions[j].contains l = true
    let accessOnly : Prop := ({ old with access := r.access } : Region) = r
    let taken : State := { s.replied p f.tag .done [] with regions := s.regions.set i r }.postAll (regionNotice i)
    let completing : State := { s.asked p f.tag (.regionSet i) with
      regions := s.regions.set i r
      completing := some i }
    (s.completing ≠ none → exec (.regionSet p f) s = .next (s.replied p f.tag .regionBusy [])) ∧
    (s.completing = none →
      (r.enabled = true → shares → exec (.regionSet p f) s = .next (s.replied p f.tag .overlap [])) ∧
      ((r.enabled = true → ¬ shares) →
        (¬ accessOnly → old.enabled = true → s.InUse old →
          exec (.regionSet p f) s = .next (s.replied p f.tag .regionInUse [])) ∧
        (¬ accessOnly → (old.enabled = true → ¬ s.InUse old) → exec (.regionSet p f) s = .next taken) ∧
        (accessOnly → r.enabled = false ∨ s.NoExcess r → exec (.regionSet p f) s = .next taken) ∧
        (accessOnly → r.enabled = true → TablesOk s → ¬ s.NoExcess r →
          ∃ lines : List Line, lines.Pairwise (fun a b => a.toNat < b.toNat) ∧
            (∀ l : Line, l ∈ lines ↔ r.contains l = true ∧ ∃ e ∈ s.table, e.line = l) ∧
            let beyond (l : Line) : List Port :=
              (List.finRange 4).filter fun q => decide (r.access[q].rank < (s.holding l q).needs.rank)
            exec (.regionSet p f) s = .next ((completing.recalledInTurn (lines.flatMap fun l => (beyond l).map fun q =>
              ⟨l, q, if r.access[q] = .none then .invalidate else .downgrade, .region⟩)).postAll (regionNotice i)))))) ∧
  (∀ (s : State) (i : RegionId), s.resetN = true → (∀ p : Port, s.sessionState p ≠ .closing) → s.completing = some i →
    let ends : Prop := s.NoExcess s.regions[i] ∧ ¬ s.RegionRecalled s.regions[i]
    (∀ (before after : List Request) (id : ReqId) (x : RegionId), ends →
      s.requests = before ++ { id := id, req := .regionSet x } :: after →
      (∀ q ∈ before ++ after, q.req.kind ≠ .regionSet ∧ q.id ≠ id) →
      exec .regionSetCompletion s = .next ({ s with completing := none, requests := before ++ after }.reply id.port id.tag
        .done [])) ∧
    (ends → (∀ q ∈ s.requests, q.req.kind ≠ .regionSet) →
      exec .regionSetCompletion s = .next { s with completing := none }) ∧
    (¬ ends → exec .regionSetCompletion s = .next s))

/-! ## Resolve and Supply Line -/

/-- A Resolve is refused by checks 3 to 8 in their order, and a refusal changes nothing: no record of the fault queue with the
id, RETRYING, POSTED, an action that is not of the record's kind, data without SUPPLY or SUPPLY without data, RETRY at 4
attempts. An unlisted action, or data of another length than 32 bytes, is BAD_FORMAT (R127, R128). -/
def Obligations.ResolveRefused : Prop :=
  ∀ (p : Port) (f : RxFrame) (s : State), Admits s p f .resolve →
    let refused (st : Status) : Prop := exec (resolveCommand p f) s = .next (s.replied p f.tag st [])
    let actions (k : RecordKind) : List Action := match k with
      | .fillFault => [.retry, .supply, .fail]
      | .drainFault => [.retry, .complete, .abandon]
      | .holderLost => [.revert]
    (f.payload.length ≠ 2 → f.payload.length ≠ 34 → refused .badFormat) ∧
    (∀ b : Byte, f.payload[1]? = some b → b = 0 ∨ 7 ≤ b.toNat → refused .badFormat) ∧
    (∀ (id : Byte) (a : Action) (data : List Byte), f.payload = id :: a.code :: data → data.length = 0 ∨ data.length = 32 →
      ((∀ r ∈ s.faultQueue, r.id ≠ id) → refused .noRecord) ∧
      (∀ (before after : List FaultRecord) (r : FaultRecord), Queued s before r after → r.id = id →
        (r.state = .retrying → refused .recordBusy) ∧
        (r.state = .posted → refused .unread) ∧
        (r.state = .opened →
          (a ∉ actions r.body.kind → refused .wrongAction) ∧
          (a ∈ actions r.body.kind →
            ((a = .supply ↔ data = []) → refused .badFormat) ∧
            (a = .retry → data = [] →
              (∀ l c n, r.body = .fillFault l c n → 4 ≤ n → refused .retryLimit) ∧
              (∀ l c n q o d, r.body = .drainFault l c n q o d → 4 ≤ n → refused .retryLimit))))))

/-- On an OPEN FILL_FAULT record: RETRY makes it RETRYING, its entry FILLING, and asks for the FILL again; SUPPLY makes the
data the entry's DIRTY copy, retires the record and serves the waiters; FAIL answers every waiting request STORE_FAULT in list
order, removes the entry and retires the record (R129, R130, R135). That their answers go before the Resolve's own is the model's
choice (log entry 6). -/
def Obligations.FillFaultResolved : Prop :=
  ∀ (p : Port) (f : RxFrame) (s : State) (before after : List FaultRecord) (r : FaultRecord) (l : Line) (c : StoreCause)
    (n : Nat) (e : Entry), Admits s p f .resolve → Quiet s → s.job.isSome = true → Queued s before r after →
    r.state = .opened → r.body = .fillFault l c n → s.entry? l = some e → e.activity = .faultHeld →
    (f.payload = [r.id, 1] → n < 4 → l ∉ s.fillQueue →
      exec (.resolveRetry p f) s = .next { (s.replied p f.tag .done []).withTable
        (s.changed l fun x => { x with activity := .filling }) with
          faultQueue := before ++ { r with state := .retrying } :: after
          fillQueue := s.fillQueue ++ [l] }) ∧
    (∀ d : LineData, f.payload = [r.id, 2] ++ lineBytes d → s.classOf l ≠ some .writeThrough →
      (e.waiters = [] →
        exec (.resolveSupply p f) s = .next { (s.replied p f.tag .done []).withTable
          (s.changed l fun x => { x with copy := .dirty d, activity := .idle, recordId := none }) with
            faultQueue := before ++ after }) ∧
      (∀ (id : ReqId) (first count : Nat), e.waiters = [id] → e.holdings = Vector.replicate 4 .none →
        s.request? id = some { id := id, req := .readWords l first count } →
        exec (.resolveSupply p f) s = .next ((({ (s.accepted p).withTable
          ({ e with copy := .dirty d, activity := .idle, recordId := none, waiters := [], prefetched := false } ::
            s.others l) with faultQueue := before ++ after }.answer id .done (wordBytes d first count)).reply
              p f.tag .done [])))) ∧
    (f.payload = [r.id, 3] →
      exec (.resolveFail p f) s = .next (({ e.waiters.foldl (fun (t : State) id => t.answer id .storeFault []) (s.accepted p) with
        table := s.others l
        faultQueue := before ++ after }).reply p f.tag .done []))

/-- On an OPEN DRAIN_FAULT record: RETRY makes it RETRYING and its FAULTED journal entry WRITING with origin RETRY; COMPLETE
and ABANDON take the entry from the journal unwritten, arm the alarm at 16 entries and retire the record. The Flush that waits on
the entry, and a Sync that covers no other entry still in the journal, is answered, PARTIAL after an ABANDON of an entry it waited
for and else DONE; a Sync that covers another waits on, flagged by an ABANDON of one it covers (R94, R95, R97, R98, R131, R132).
That these answers go before the Resolve's own is the model's choice (log entry 6). -/
def Obligations.DrainFaultResolved : Prop :=
  ∀ (p : Port) (f : RxFrame) (s : State) (before after : List FaultRecord) (r : FaultRecord) (l : Line) (c : StoreCause)
    (n : Nat) (o : Origin) (d : LineData) (older younger : List JournalEntry) (j : JournalEntry),
    Admits s p f .resolve → Quiet s → s.job.isSome = true → Queued s before r after → r.state = .opened →
    r.body = .drainFault l c n j.seq o d → s.journal = older ++ j :: younger → j.state = .faulted →
    (∀ k ∈ older ++ younger, k.seq ≠ j.seq) →
    let dropped (t : State) : State := { t with
      journal := older ++ younger
      highAlarm := s.highAlarm || decide ((older ++ younger).length = 16)
      faultQueue := before ++ after }
    (f.payload = [r.id, 1] → n < 4 →
      exec (.resolveRetry p f) s = .next { s.replied p f.tag .done [] with
        faultQueue := before ++ { r with state := .retrying } :: after
        journal := older ++ { j with state := .writing, origin := .retry } :: younger }) ∧
    (∀ (action : Byte) (c : Instr), (action = 4 ∧ c = .resolveComplete p f) ∨ (action = 5 ∧ c = .resolveAbandon p f) →
      f.payload = [r.id, action] →
      exec c s = .next (((dropped (s.accepted p)).syncsAnswered
        (s.syncList.map fun i => i.without j.seq (action == 5))).reply p f.tag .done []))

/-- On an OPEN HOLDER_LOST record: REVERT removes the entry of every listed line and retires the record; Supply Line makes its
data the line's DIRTY copy, clears the entry's record id, takes the line from the list and answers how many remain, retiring
the record with the last. Supply Line is refused, in this order, for no such record, a POSTED one, one of another kind and a
line not listed (R121, R133, R134, R135). -/
def Obligations.LostLinesResolved : Prop :=
  (∀ (p : Port) (f : RxFrame) (s : State) (before after : List FaultRecord) (r : FaultRecord) (q : Port) (c : Cause)
      (lines : List Line), Admits s p f .resolve → Quiet s → s.job.isSome = true → Queued s before r after →
      r.state = .opened → r.body = .holderLost q c lines → f.payload = [r.id, 6] →
      exec (.resolveRevert p f) s = .next { s.replied p f.tag .done [] with
        table := s.table.filter fun e => decide (e.line ∉ lines)
        faultQueue := before ++ after }) ∧
  (∀ (p : Port) (f : RxFrame) (s : State) (id : Byte) (l : Line) (d : LineData), Admits s p f .supplyLine →
      f.payload = id :: le16 l ++ lineBytes d →
      let refused (st : Status) : Prop := exec (.supplyLine p f) s = .next (s.replied p f.tag st [])
      ((∀ r ∈ s.faultQueue, r.id ≠ id) → refused .noRecord) ∧
      (∀ (before after : List FaultRecord) (r : FaultRecord), Queued s before r after → r.id = id →
        (r.state = .posted → refused .unread) ∧
        (r.state ≠ .posted → r.body.kind ≠ .holderLost → refused .wrongAction) ∧
        (∀ q c lines, r.state ≠ .posted → r.body = .holderLost q c lines →
          (l ∉ lines → refused .notListed) ∧
          (l ∈ lines → Quiet s → s.classOf l ≠ some .writeThrough →
            let left : List Line := lines.filter fun x => decide (x ≠ l)
            exec (.supplyLine p f) s = .next { (s.replied p f.tag .done (count16 left.length)).withTable
              (s.changed l fun x => { x with copy := .dirty d, recordId := none }) with
                faultQueue := before ++ (if left = [] then [] else [{ r with body := .holderLost q c left }]) ++ after }))))

/-! ## The backing store port -/

/-- A Store Read and a Store Write are refused LINE_TRACKED while RUNNING for a line of an enabled TRACKED or WRITE_THROUGH
region. Otherwise, or while STOPPED, they join the DIRECT queue, and with the port idle and nothing else waiting the job
begins at once. No right, holding or poison is looked at (R107, R108, R110, R112). That a Store Write's data is not on MD
while its access waits for MRDY and MERR to be inactive is the model's choice (log entry 10). -/
def Obligations.StoreRequestsTaken : Prop :=
  ∀ (p : Port) (f : RxFrame) (s : State) (l : Line) (i : RegionId) (d : LineData),
    let read : DirectJob := { id := ⟨p, f.tag⟩, op := .storeRead, line := l, enables := 0, data := 0 }
    let write : DirectJob := { id := ⟨p, f.tag⟩, op := .storeWrite, line := l, enables := 0, data := d }
    let passes : Prop := s.mode = .stopped ∨ s.regionOf l = none ∨ (s.regionOf l = some i ∧ s.regions[i].cls = .plain)
    (Admits s p f .storeRead → f.payload = le16 l →
      (s.mode = .running → s.regionOf l = some i → s.regions[i].cls ≠ .plain →
        exec (.storeRead p f) s = .next (s.replied p f.tag .lineTracked [])) ∧
      (passes → Quiet s → s.job.isSome = true →
        exec (.storeRead p f) s = .next { s.asked p f.tag (.storeRead l) with directQueue := s.directQueue ++ [read] }) ∧
      (passes → Quiet s → s.job = none →
        exec (.storeRead p f) s = .next ((s.asked p f.tag (.storeRead l)).directGranted read []))) ∧
    (Admits s p f .storeWrite → f.payload = le16 l ++ lineBytes d →
      (s.mode = .running → s.regionOf l = some i → s.regions[i].cls ≠ .plain →
        exec (.storeWrite p f) s = .next (s.replied p f.tag .lineTracked [])) ∧
      (passes → Quiet s → s.job.isSome = true →
        exec (.storeWrite p f) s = .next { s.asked p f.tag (.storeWrite l d) with
          directQueue := s.directQueue ++ [write] }) ∧
      (passes → Quiet s → s.job = none →
        exec (.storeWrite p f) s = .next ((s.asked p f.tag (.storeWrite l d)).directGranted write [])))

/-- MRDY answers a strobed access that is not its job's last: a read takes the half-word at its index, and the job goes to the
next half-word, or, at the end of the read of a read-modify-write, to the first half-word of the write of the merged line. The
strobe is removed, and the next access waits until MRDY and MERR are inactive; then it is strobed. MRDY or MERR with no strobe
asserted ends nothing; its level is what the next access waits for (R100, R101, R102, R104, R105). That the bus, MD of a write
among it, is undriven while an access waits for its strobe is the model's choice (log entry 10); that the levels are followed
while RESET_N is low too is the model's reading (log entries 11 and 12). -/
def Obligations.HalfWordsTransferred : Prop :=
  ∀ (s : State) (md : HalfWord),
    (∀ j : Job, s.resetN = true → s.job = some j → j.strobed = true →
      let goesOn (k : Job) : Prop := exec (.halfWordAnswered md) s = .next { s with
        mrdy := true
        job := some { k with strobed := false, timeout := s.timers.storeTenths }
        bus := Bus.quiet }
      let taken : LineData := setHalfWord j.buffer j.index md
      (j.index < 15 → j.writing = false → goesOn { j with buffer := taken, index := j.index + 1 }) ∧
      (j.index < 15 → j.writing = true → goesOn { j with index := j.index + 1 }) ∧
      (∀ id orphan, j.index = 15 → j.writing = false → j.owner = .direct .readModifyWrite id orphan →
        goesOn { j with buffer := taken, writing := true, index := 0, data := mergeBytes taken j.data j.enables })) ∧
    (s.resetN = false ∨ (∀ j, s.job = some j → j.strobed = false) →
      (∀ c ∈ [Instr.halfWordAnswered md, .fillComplete md, .drainComplete, .directJobComplete md],
        exec c s = .next { s with mrdy := true }) ∧
      (∀ c ∈ [Instr.fillFailed .storeError, .drainFailed .storeError, .directJobFailed .storeError],
        exec c s = .next { s with merr := true })) ∧
    (∀ j : Job, s.resetN = true → s.job = some j → j.strobed = false → j.index < 16 →
      exec .mrdyMerrInactive s = .next { s with
        mrdy := false
        merr := false
        job := some { j with strobed := true, timeout := s.timers.storeTenths }
        bus := j.strobes }) ∧
    (s.resetN = false ∨ (∀ j, s.job = some j → j.strobed = true) →
      exec .mrdyMerrInactive s = .next { s with mrdy := false, merr := false })

/-- The last access of a job answered with MRDY completes it. A FILL makes the 32 bytes read the CLEAN copy of its entry, which
is IDLE, retires a retry's record and serves the waiters. A DRAIN's entry leaves the journal, arming the alarm at 16 entries,
answering the Flush that waits on it and the Syncs that cover no other entry still there, and retiring a retry's record. A
DIRECT job answers its request DONE, with its words or its line for a read; with its requester fenced meanwhile, nobody (R24,
R56, R57, R91, R97, R98, R106, R111, R135). -/
def Obligations.JobsComplete : Prop :=
  ∀ (s : State) (j : Job) (md : HalfWord), Quiet s → NoJobs s → LastAccess s j →
    let read : LineData := setHalfWord j.buffer 15 md
    (∀ e : Entry, j.owner = .fill → j.writing = false → AllIn s.journal .faulted → s.entry? j.line = some e →
      let filled : Entry → Entry := fun x => { x with copy := .clean read, activity := .idle, recordId := none }
      (e.waiters = [] →
        (e.recordId = none →
          exec (.fillComplete md) s = .next (s.jobDone.withTable (s.changed j.line filled))) ∧
        (∀ before r after, e.recordId = some r.id → Queued s before r after →
          exec (.fillComplete md) s = .next { s.jobDone.withTable (s.changed j.line filled) with
            faultQueue := before ++ after })) ∧
      (∀ id first count, e.recordId = none → e.waiters = [id] → e.holdings = Vector.replicate 4 .none →
        s.request? id = some { id := id, req := .readWords j.line first count } →
        exec (.fillComplete md) s = .next ((s.jobDone.withTable
          ({ filled e with waiters := [], prefetched := false } :: s.others j.line)).answer id .done
            (wordBytes read first count)))) ∧
    (∀ (older younger : List JournalEntry) (k : JournalEntry), j.owner = .drain k.seq → j.writing = true →
      s.journal = older ++ k :: younger → (∀ x ∈ older ++ younger, x.seq ≠ k.seq ∧ x.state = .faulted) →
      let drained : State := { s.jobDone with
        journal := older ++ younger
        highAlarm := s.highAlarm || decide ((older ++ younger).length = 16) }
      let answered : State := drained.syncsAnswered (s.syncList.map fun i => i.without k.seq false)
      (k.origin ≠ .retry → exec .drainComplete s = .next answered) ∧
      (∀ before r after l c n o d, k.origin = .retry → Queued s before r after →
        r.body = .drainFault l c n k.seq o d →
        (∀ x ∈ before ++ after, ∀ l c n o d, x.body ≠ .drainFault l c n k.seq o d) →
        exec .drainComplete s = .next { answered with faultQueue := before ++ after })) ∧
    (∀ (op : DirectOp) (id : ReqId) (q : Req), j.owner = .direct op id false → AllIn s.journal .faulted →
      s.request? id = some { id := id, req := q } →
      let answers (data : List Byte) : Prop := exec (.directJobComplete md) s = .next (s.jobDone.answer id .done data)
      (∀ l first count, op = .read → j.writing = false → q = .readWords l first count →
        answers (wordBytes read first count)) ∧
      (op = .write ∨ op = .readModifyWrite → j.writing = true → answers [bit false]) ∧
      (op = .storeRead → j.writing = false → answers (lineBytes read)) ∧
      (op = .storeWrite → j.writing = true → answers [])) ∧
    (∀ op id, j.owner = .direct op id true → (op = .readModifyWrite → j.writing = true) → AllIn s.journal .faulted →
      exec (.directJobComplete md) s = .next s.jobDone)

/-- MERR, or the store timeout, ends a job at its access. While RUNNING a first FILL without waiters loses its entry; one with
waiters leaves it FAULT_HELD with a new FILL_FAULT record, and a DRAIN its entry FAULTED with a new DRAIN_FAULT record, or, with
the fault queue full, the stop record; a failed retry posts its record again, one attempt more. While STOPPED no record changes.
A DIRECT job's request is answered STORE_FAULT (R25, R58, R92, R93, R101, R106, R111, R118, R119, R120, R122). -/
def Obligations.JobsFail : Prop :=
  ∀ (s : State) (j : Job) (c : StoreCause) (i : Instr), Quiet s → NoJobs s → CanFail s j c →
    let fails (named : Instr) : Prop := i = named ∨ (i = .storeTimeout ∧ c = .storeTimeout)
    (∀ e : Entry, fails (.fillFailed c) → j.owner = .fill → AllIn s.journal .faulted → s.entry? j.line = some e →
      let held (id : Byte) : State := (s.jobFailed c).withTable
        (s.changed j.line fun x => { x with activity := .faultHeld, recordId := some id })
      (s.mode = .stopped → exec i s = .next (s.jobFailed c)) ∧
      (s.mode = .running → e.recordId = none →
        (e.waiters = [] → exec i s = .next ((s.jobFailed c).withTable (s.others j.line))) ∧
        (e.waiters ≠ [] → RecordRoom s →
          exec i s = .next ((held s.recordCounter).recorded (.fillFault j.line c 1))) ∧
        (e.waiters ≠ [] → FaultUnitOk s → s.faultQueue.length = 6 → s.recordCounter ≠ 0 →
          (∀ r ∈ s.faultQueue, r.id ≠ s.recordCounter) →
          exec i s = .next ((held s.recordCounter).hubStops (.fillFault j.line c 1)))) ∧
      (∀ before r after old n, s.mode = .running → e.recordId = some r.id → Queued s before r after →
        r.body = .fillFault j.line old n →
        exec i s = .next (((s.jobFailed c).withTable (s.changed j.line fun x => { x with activity := .faultHeld })).faultPosted
          (before ++ { r with state := .posted, body := .fillFault j.line c (n + 1) } :: after)))) ∧
    (∀ (older younger : List JournalEntry) (k : JournalEntry), fails (.drainFailed c) → j.owner = .drain k.seq →
      s.journal = older ++ k :: younger → (∀ x ∈ older ++ younger, x.seq ≠ k.seq ∧ x.state = .faulted) →
      let faulted : State := { s.jobFailed c with journal := older ++ { k with state := .faulted } :: younger }
      (s.mode = .stopped → exec i s = .next faulted) ∧
      (s.mode = .running → k.origin ≠ .retry → RecordRoom s →
        exec i s = .next (faulted.recorded (.drainFault k.line c 1 k.seq k.origin k.data))) ∧
      (s.mode = .running → k.origin ≠ .retry → FaultUnitOk s → s.faultQueue.length = 6 → s.recordCounter ≠ 0 →
        (∀ r ∈ s.faultQueue, r.id ≠ s.recordCounter) →
        exec i s = .next (faulted.hubStops (.drainFault k.line c 1 k.seq k.origin k.data))) ∧
      (∀ before r after l old n o d, s.mode = .running → k.origin = .retry → Queued s before r after →
        r.body = .drainFault l old n k.seq o d →
        (∀ x ∈ before ++ after, ∀ l c n o d, x.body ≠ .drainFault l c n k.seq o d) →
        exec i s = .next (faulted.faultPosted
          (before ++ { r with state := .posted, body := .drainFault l c (n + 1) k.seq o d } :: after)))) ∧
    (∀ op id, fails (.directJobFailed c) → j.owner = .direct op id false → AllIn s.journal .faulted →
      (∃ q, s.request? id = some q) → exec i s = .next ((s.jobFailed c).answer id .storeFault [])) ∧
    (∀ op id, fails (.directJobFailed c) → j.owner = .direct op id true → AllIn s.journal .faulted →
      exec i s = .next (s.jobFailed c))

/-- With the port idle and the hub RUNNING the arbiter grants the oldest DIRECT job once 8 grants have passed it; else, below
24 journal entries, the oldest FILL, then a DRAIN, then the oldest DIRECT job; at 24 or more, a DRAIN, then the oldest FILL, then
the oldest DIRECT job. While STOPPED it grants the oldest Store Read or Store Write. With a job in flight, or nothing to grant,
nothing changes (R90, R101, R108, R109, R112). That a granted write's data is not on MD while its first access waits for MRDY and
MERR to be inactive is the model's choice (log entry 10). -/
def Obligations.GrantsInOrder : Prop :=
  ∀ s : State, s.resetN = true →
    (s.job ≠ none → exec .grant s = .next s) ∧
    (s.job = none → s.mode = .running →
      let passed : Prop := s.directQueue ≠ [] ∧ 8 ≤ s.passCount
      let fill : Prop := ∀ l ls, s.fillQueue = l :: ls → exec .grant s = .next (s.fillGranted l ls)
      let drain : Prop := ∀ before k after, DrainNext s before k after → (∀ x ∈ before ++ after, x.seq ≠ k.seq) →
        exec .grant s = .next (s.drainGranted before k after)
      let direct : Prop := ∀ d ds, s.directQueue = d :: ds → exec .grant s = .next (s.directGranted d ds)
      (passed → direct) ∧
      (¬ passed → s.journal.length < 24 →
        fill ∧ (s.fillQueue = [] → drain) ∧ (s.fillQueue = [] → s.NoDrain → direct)) ∧
      (¬ passed → 24 ≤ s.journal.length →
        drain ∧ (s.NoDrain → fill) ∧ (s.NoDrain → s.fillQueue = [] → direct)) ∧
      (s.fillQueue = [] → s.NoDrain → s.directQueue = [] → exec .grant s = .next s)) ∧
    (s.job = none → s.mode = .stopped →
      let store (d : DirectJob) : Prop := d.op = .storeRead ∨ d.op = .storeWrite
      (∀ before d after, s.directQueue = before ++ d :: after → store d → (∀ x ∈ before, ¬ store x) →
        exec .grant s = .next (s.directGranted d (before ++ after))) ∧
      ((∀ d ∈ s.directQueue, ¬ store d) → exec .grant s = .next s))

/-! ## The hub's own blocks -/

/-- Steps of the hub's own blocks, with the port busy and nothing else waiting. The head waiter of an IDLE entry is served, and
checked again first. The head of the allocation queue takes a free entry, which a line in the journal fills at once, or that of
the least recent candidate, whose DIRTY data enters the journal with origin EVICT; where no DIRTY candidate can enter a full
journal, that of the least recent CLEAN one, and without one it joins the journal-space queue. With no candidate it makes the
least recent IDLE, held entry EVICTING, waits while one is, or is answered TABLE_FULL when every entry stands for a fault. A
waiting line inserts its DIRTY copy once a slot is free; the items of the sync list whose journal entries have left, Flushes and
Syncs, are answered; the oldest waiting recall is opened (R9, R13, R14, R15, R16, R18, R21, R39, R65, R88, R97, R98). That these
steps are also commands by themselves is the opcode table's; what they do alone is the model's reading of it (log entry 3). -/
def Obligations.BlocksServe : Prop :=
  ∀ s : State, s.resetN = true → s.job.isSome = true → s.completing = none →
    (∀ p : Port, s.sessionState p ≠ .closing) →
    (∀ (l : Line) (e : Entry) (p : Port) (tag : Byte) (first count : Nat), s.allocQueue = [] → s.jspace = [] →
      s.entry? l = some e → e.activity = .idle → e.waiters = [⟨p, tag⟩] →
      s.request? ⟨p, tag⟩ = some { id := ⟨p, tag⟩, req := .readWords l first count } →
      (∀ d : LineData, e.copy.data? = some d → (∀ q : Port, e.holdings[q] ≠ .write) →
        exec (.waiterService l) s = .next ((s.withTable ({ e with waiters := [], prefetched := false } :: s.others l)).answer
          ⟨p, tag⟩ .done (wordBytes d first count))) ∧
      (e.holdings[p] = .write →
        exec (.waiterService l) s = .next ((s.withTable (s.changed l fun x => { x with waiters := x.waiters.tail })).answer
          ⟨p, tag⟩ .ownHolding []))) ∧
    (∀ (l : Line) (i : RegionId) (id : ReqId) (first count : Nat), s.allocQueue = [id] → s.jspace = [] →
      s.request? id = some { id := id, req := .readWords l first count } → s.entry? l = none →
      (Absent s l → s.regionOf l = some i → l ∉ s.fillQueue →
        exec .allocation s = .next { s with
          allocQueue := []
          table := newEntry l i id :: s.table
          fillQueue := s.fillQueue ++ [l] }) ∧
      (∀ j : JournalEntry, s.table.length < 512 → s.regionOf l = some i → s.Newest l j →
        exec .allocation s = .next ({ s with
          allocQueue := []
          table := { newEntry l i id with copy := .clean j.data, activity := .idle, waiters := [] } :: s.table }.answer id .done
            (wordBytes j.data first count))) ∧
      (∀ (before after : List Entry) (v : Entry), TablesOk s → s.table.length = 512 → (∀ k ∈ s.journal, k.line ≠ l) →
        s.regionOf l = some i → l ∉ s.fillQueue → s.table = before ++ v :: after → v.activity = .idle → v.waiters = [] →
        (∀ q : Port, v.holdings[q] = .none) →
        let taken (t : State) : State := { t with
          allocQueue := []
          table := newEntry l i id :: (before ++ after)
          fillQueue := s.fillQueue ++ [l] }
        let shut (x : Entry) : Prop := (∃ d, x.copy = .dirty d) ∧ s.journal.length = 32 ∧
          ∀ k ∈ s.journal, k.line = x.line → k.state ≠ .queued
        (∀ d : LineData, v.copy = .clean d → (∀ x ∈ after, x.candidate = false ∨ shut x) →
          exec .allocation s = .next (taken s)) ∧
        (∀ d : LineData, v.copy = .dirty d → (∀ x ∈ after, x.candidate = false) →
          ((∃ k ∈ s.journal, k.line = v.line ∧ k.state = .queued) →
            exec .allocation s = .next (taken { s with journal := s.journal.map fun k =>
              if k.line == v.line && k.state == .queued then { k with data := d, origin := .evict } else k })) ∧
          (Appends s v.line → exec .allocation s = .next (taken (s.appended v.line d .evict)))) ∧
        (shut v → (∀ x ∈ before ++ after, x.candidate = false ∨ shut x) →
          exec .allocation s = .next { s with jspace := [.allocHead] })) ∧
      (s.table.length = 512 → (∀ x ∈ s.table, x.candidate = false) →
        let held (x : Entry) : Prop := x.activity = .idle ∧ x.waiters = [] ∧ ∃ q : Port, x.holdings[q] ≠ .none
        ((∃ x ∈ s.table, x.activity = .evicting) → exec .allocation s = .next s) ∧
        ((∀ x ∈ s.table, x.activity ≠ .evicting) →
          (∀ (before after : List Entry) (v : Entry), s.table = before ++ v :: after → held v → (∀ x ∈ after, ¬ held x) →
            exec .allocation s = .next ((s.withTable (s.changed v.line fun x => { x with activity := .evicting })).recalledInTurn
              (((List.finRange 4).filter fun q => decide (v.holdings[q] ≠ .none)).map fun q =>
                { line := v.line, port := q, kind := .invalidate, purpose := .evict }))) ∧
          ((∀ x ∈ s.table, ¬ held x) →
            (∃ x ∈ s.table, x.activity ≠ .faultHeld ∧ x.copy ≠ .poisoned) → exec .allocation s = .next s))) ∧
      (s.table.length = 512 → (∀ x ∈ s.table, x.activity = .faultHeld ∨ (x.activity = .idle ∧ x.copy = .poisoned ∧
          ∀ q : Port, x.holdings[q] = .none)) →
        exec .allocation s = .next ({ s with allocQueue := [] }.answer id .tableFull []))) ∧
    (∀ (l : Line) (o : Origin) (e : Entry) (d : LineData), s.allocQueue = [] → s.jspace = [.line l o] →
      s.entry? l = some e →
      e.copy = .dirty d → e.waiters = [] → Appends s l →
      exec .journalSpaceService s = .next ({ s with
        jspace := []
        table := s.changed l fun x => { x with copy := .clean d } }.appended l d o)) ∧
    exec .syncListAnswer s = .next (s.syncsAnswered s.syncList) ∧
    (∀ (w : WaitingRecall) (ws : List WaitingRecall), s.recallWait = w :: ws → s.recalls.length < 16 →
      exec .waitingRecallOpen s = .next ({ s with recallWait := ws }.opened w)) ∧
    ((s.recallWait = [] ∨ 16 ≤ s.recalls.length) → exec .waitingRecallOpen s = .next s)
end

