-- ==== Sys2Proof/Laws/Operands.lean ====
section
/-! SUPPORT. Reading back what the layouts of chapter 11 write: numbers, lines, and the payloads of requests. -/

namespace Sys2Proof.Machine

/-! ## Numbers -/

theorem of16_le16 (v : BitVec 16) : of16 (v.extractLsb' 0 8) (v.extractLsb' 8 8) = v := by
  refine BitVec.eq_of_getLsbD_eq fun i hi => ?_
  rw [of16, BitVec.getLsbD_append, BitVec.getLsbD_extractLsb', BitVec.getLsbD_extractLsb']
  split
  · simp [*]
  · rw [decide_eq_true (by omega : i - 8 < 8), Bool.true_and]
    congr 1
    omega

theorem of32_le32 (v : BitVec 32) :
    of32 (v.extractLsb' 0 8) (v.extractLsb' 8 8) (v.extractLsb' 16 8) (v.extractLsb' 24 8) = v := by
  refine BitVec.eq_of_getLsbD_eq fun i hi => ?_
  show (_ ++ _ ++ _ ++ _ : BitVec (8 + 8 + 8 + 8)).getLsbD i = _
  simp only [BitVec.getLsbD_append, BitVec.getLsbD_extractLsb']
  split
  · simp [*]
  · split
    · rw [decide_eq_true (by omega), Bool.true_and]; congr 1; omega
    · split
      · rw [decide_eq_true (by omega), Bool.true_and]; congr 1; omega
      · rw [decide_eq_true (by omega), Bool.true_and]; congr 1; omega

theorem byte_toNat {n : Nat} (h : n < 256) : (BitVec.ofNat 8 n).toNat = n := by
  rw [BitVec.toNat_ofNat]; exact Nat.mod_eq_of_lt h

/-! ## Bytes of a line -/

theorem getLsbD_byteAt (d : LineData) (i j : Nat) (hj : j < 8) : (byteAt d i).getLsbD j = d.getLsbD (8 * i + j) := by
  simp [byteAt, hj]

theorem byteAt_zero (i : Nat) : byteAt 0 i = 0 := by
  ext j hj
  rw [← BitVec.getLsbD_eq_getElem, getLsbD_byteAt _ _ _ hj]
  simp

/-- Byte i of the line a list of bytes spells is the list's byte i. -/
theorem byteAt_lineOfBytes (bs : List Byte) (i : Nat) (hi : i < 32) : byteAt (lineOfBytes bs) i = bs.getD i 0 := by
  induction bs generalizing i with
  | nil => rw [List.getD_nil]; exact byteAt_zero i
  | cons b bs ih =>
    ext j hj
    rw [← BitVec.getLsbD_eq_getElem, getLsbD_byteAt _ _ _ hj]
    simp only [lineOfBytes, BitVec.getLsbD_or, BitVec.getLsbD_setWidth, BitVec.getLsbD_shiftLeft]
    cases i with
    | zero =>
      have : 8 * 0 + j < 256 := by omega
      have h' : j < 256 := by omega
      simp [h', hj, BitVec.getLsbD_eq_getElem]
    | succ i =>
      have h1 : b.getLsbD (8 * (i + 1) + j) = false := BitVec.getLsbD_of_ge _ _ (by omega)
      have h2 : 8 * (i + 1) + j - 8 = 8 * i + j := by omega
      have h3 : ¬ 8 * (i + 1) + j < 8 := by omega
      have h4 : 8 * (i + 1) + j < 256 := by omega
      rw [h1, h2, ← getLsbD_byteAt _ _ _ hj, ih i (by omega)]
      rw [BitVec.getLsbD_eq_getElem hj]
      simp [h3, h4]

/-- A line is its 32 bytes. -/
theorem line_ext {a b : LineData} (h : ∀ i < 32, byteAt a i = byteAt b i) : a = b := by
  ext k hk
  have := congrArg (fun x => x.getLsbD (k % 8)) (h (k / 8) (by omega))
  simp only [getLsbD_byteAt _ _ _ (Nat.mod_lt k (by decide : 8 > 0)), Nat.div_add_mod] at this
  simpa [BitVec.getLsbD_eq_getElem, hk] using this

theorem lineBytes_length (d : LineData) : (lineBytes d).length = 32 := by simp [lineBytes]

theorem lineOfBytes_lineBytes (d : LineData) : lineOfBytes (lineBytes d) = d := by
  refine line_ext fun i hi => ?_
  rw [byteAt_lineOfBytes _ _ hi]
  simp [lineBytes, hi]

theorem parseData_lineBytes (d : LineData) : parseData (lineBytes d) = some d := by
  simp [parseData, lineBytes_length, lineOfBytes_lineBytes]

/-! ## The merge of Write Words (R43) -/

theorem byteAt_setByte (d : LineData) (i : Nat) (b : Byte) (k : Nat) (hi : i < 32) (hk : k < 32) :
    byteAt (setByte d i b) k = if k = i then b else byteAt d k := by
  ext j hj
  rw [← BitVec.getLsbD_eq_getElem, getLsbD_byteAt _ _ _ hj]
  have hlt : 8 * k + j < 256 := by omega
  simp only [setByte, BitVec.getLsbD_or, BitVec.getLsbD_and, BitVec.getLsbD_not, BitVec.getLsbD_shiftLeft,
    BitVec.getLsbD_setWidth, hlt, decide_true, Bool.true_and]
  have hff : ∀ n, (0xFF : LineData).getLsbD n = decide (n < 8) := by
    intro n
    by_cases hn : n < 8
    · interval_cases n <;> rfl
    · rw [decide_eq_false hn]
      have : (0xFF : LineData) = (0xFF#8).setWidth 256 := by decide
      rw [this, BitVec.getLsbD_setWidth, BitVec.getLsbD_of_ge _ _ (by omega : 8 ≤ n), Bool.and_false]
  rw [hff]
  by_cases h : k = i
  · subst h
    have h1 : ¬ 8 * k + j < 8 * k := by omega
    have h2 : 8 * k + j - 8 * k = j := by omega
    have h3 : j < 256 := by omega
    simp [h1, h2, h3, hj, BitVec.getLsbD_eq_getElem]
  · simp only [if_neg h]
    rw [← BitVec.getLsbD_eq_getElem, getLsbD_byteAt _ _ _ hj]
    rcases Nat.lt_or_gt_of_ne h with hlt' | hgt
    · have h1 : 8 * k + j < 8 * i := by omega
      simp [h1]
    · have h1 : ¬ 8 * k + j < 8 * i := by omega
      have h2 : ¬ 8 * k + j - 8 * i < 8 := by omega
      have h3 : b.getLsbD (8 * k + j - 8 * i) = false := BitVec.getLsbD_of_ge _ _ (by omega)
      simp [h2, h3]

theorem byteAt_merge_aux (new : LineData) (en : Enables) (is : List Nat) (h : ∀ i ∈ is, i < 32) (hd : is.Nodup)
    (old : LineData) (k : Nat) (hk : k < 32) :
    byteAt (is.foldl (fun d i => if en.getLsbD i then setByte d i (byteAt new i) else d) old) k =
      if k ∈ is ∧ en.getLsbD k = true then byteAt new k else byteAt old k := by
  induction is generalizing old with
  | nil => simp
  | cons i is ih =>
    have hi : i < 32 := h i (by simp)
    rw [List.foldl_cons, ih (fun j hj => h j (by simp [hj])) (List.nodup_cons.1 hd).2]
    have hni := (List.nodup_cons.1 hd).1
    by_cases hki : k = i
    · subst hki
      cases he : en.getLsbD k <;> simp [hni, byteAt_setByte _ _ _ _ hk hk]
    · by_cases hm : k ∈ is ∧ en.getLsbD k = true
      · simp [hm]
      · have : ¬ (k ∈ i :: is ∧ en.getLsbD k = true) := by simpa [hki] using hm
        rw [if_neg hm, if_neg this]
        split
        · rw [byteAt_setByte _ _ _ _ hi hk, if_neg hki]
        · rfl

/-- Each byte of the merged line is the new one where it is enabled, else the old one (R43). -/
theorem byteAt_mergeBytes (old new : LineData) (en : Enables) (k : Nat) (hk : k < 32) :
    byteAt (mergeBytes old new en) k = if en.getLsbD k then byteAt new k else byteAt old k := by
  unfold mergeBytes
  rw [byteAt_merge_aux new en _ (fun i hi => List.mem_range.1 hi) (List.nodup_range) old k hk]
  simp [hk]

/-- The merge looks at enabled bytes only. -/
theorem mergeBytes_congr (old : LineData) {a b : LineData} {en : Enables}
    (h : ∀ i < 32, en.getLsbD i = true → byteAt a i = byteAt b i) : mergeBytes old a en = mergeBytes old b en := by
  refine line_ext fun i hi => ?_
  rw [byteAt_mergeBytes _ _ _ _ hi, byteAt_mergeBytes _ _ _ _ hi]
  split
  · exact h i hi ‹_›
  · rfl

/-- A full-line merge is the new data. -/
theorem mergeBytes_full (old new : LineData) : mergeBytes old new (BitVec.allOnes 32) = new := by
  refine line_ext fun i hi => ?_
  rw [byteAt_mergeBytes _ _ _ _ hi, BitVec.getLsbD_allOnes, decide_eq_true hi, if_pos rfl]

/-! ## Half-words (R100) -/

theorem halfWordAt_setHalfWord (d : LineData) (i : Nat) (v : HalfWord) (k : Nat) (hk : k < 16) :
    halfWordAt (setHalfWord d i v) k = if k = i then v else halfWordAt d k := by
  ext j hj
  rw [← BitVec.getLsbD_eq_getElem]
  have hlt : 16 * k + j < 256 := by omega
  have hff : ∀ n, (0xFFFF : LineData).getLsbD n = decide (n < 16) := by
    intro n
    by_cases hn : n < 16
    · interval_cases n <;> rfl
    · rw [decide_eq_false hn]
      have : (0xFFFF : LineData) = (0xFFFF#16).setWidth 256 := by decide
      rw [this, BitVec.getLsbD_setWidth, BitVec.getLsbD_of_ge _ _ (by omega : 16 ≤ n), Bool.and_false]
  simp only [halfWordAt, setHalfWord, BitVec.getLsbD_extractLsb', hj, decide_true, Bool.true_and, BitVec.getLsbD_or,
    BitVec.getLsbD_and, BitVec.getLsbD_not, BitVec.getLsbD_shiftLeft, BitVec.getLsbD_setWidth, hlt, hff]
  by_cases h : k = i
  · subst h
    have h1 : ¬ 16 * k + j < 16 * k := by omega
    have h2 : 16 * k + j - 16 * k = j := by omega
    have h3 : j < 256 := by omega
    simp [h1, h2, h3, hj, BitVec.getLsbD_eq_getElem]
  · simp only [if_neg h]
    rw [← BitVec.getLsbD_eq_getElem, BitVec.getLsbD_extractLsb']
    rcases Nat.lt_or_gt_of_ne h with hlt' | hgt
    · have h1 : 16 * k + j < 16 * i := by omega
      simp [h1, hj]
    · have h1 : ¬ 16 * k + j < 16 * i := by omega
      have h2 : ¬ 16 * k + j - 16 * i < 16 := by omega
      have h3 : v.getLsbD (16 * k + j - 16 * i) = false := BitVec.getLsbD_of_ge _ _ (by omega)
      simp [h2, h3, hj]

/-! ## Payloads (section 11.3) -/

theorem parseLine_le16 (l : Line) : parseLine (le16 l) = some l := by simp [parseLine, le16, of16_le16]

theorem parseReadWords_bytes (l : Line) {first count : Nat} (hf : first ≤ 7) (hc : 1 ≤ count) (hs : first + count ≤ 8) :
    parseReadWords (le16 l ++ [count8 first, count8 count]) = some (l, first, count) := by
  have h1 : (count8 first).toNat = first := byte_toNat (by omega)
  have h2 : (count8 count).toNat = count := byte_toNat (by omega)
  have h3 : count ≤ 8 := by omega
  simp [parseReadWords, le16, of16_le16, h1, h2, wordRange, hf, hc, hs, h3]

theorem wordBytes_length (d : LineData) (first count : Nat) : (wordBytes d first count).length = 4 * count := by
  simp [wordBytes]

/-- The data field of Write Words stands at its bytes of the line (section 11.3). -/
theorem byteAt_wordsField (d : LineData) {first count : Nat} (i : Nat) (hi : i < 32) (h : 4 * first ≤ i)
    (h' : i < 4 * (first + count)) :
    byteAt (lineOfBytes (List.replicate (4 * first) 0 ++ wordBytes d first count)) i = byteAt d i := by
  rw [byteAt_lineOfBytes _ _ hi, List.getD_eq_getElem?_getD, List.getElem?_append_right (by simpa using h)]
  have h2 : i - 4 * first < 4 * count := by omega
  have h3 : 4 * first + (i - 4 * first) = i := by omega
  simp [wordBytes, h2, h3]

theorem parseWriteWords_bytes (l : Line) (d : LineData) {first count : Nat} {en : Enables} (hf : first ≤ 7)
    (hc : 1 ≤ count) (hs : first + count ≤ 8) (he : en ≠ 0) (hi : enablesInside en first count = true) :
    parseWriteWords (le16 l ++ [count8 first, count8 count] ++ le32 en ++ wordBytes d first count) =
      some { line := l, first := first, count := count, enables := en,
             data := lineOfBytes (List.replicate (4 * first) 0 ++ wordBytes d first count) } := by
  have h1 : (count8 first).toNat = first := byte_toNat (by omega)
  have h2 : (count8 count).toNat = count := byte_toNat (by omega)
  have h3 : count ≤ 8 := by omega
  simp [parseWriteWords, le16, le32, of16_le16, of32_le32, h1, h2, wordRange, hf, hc, hs, h3, hi, wordBytes_length]
  exact he

/-- The merge of a parsed Write Words is that of the line it was cut from. -/
theorem mergeBytes_wordsField (old d : LineData) {first count : Nat} {en : Enables}
    (hi : enablesInside en first count = true) :
    mergeBytes old (lineOfBytes (List.replicate (4 * first) 0 ++ wordBytes d first count)) en = mergeBytes old d en := by
  refine mergeBytes_congr old fun i hlt he => ?_
  have h := List.all_eq_true.1 hi i (List.mem_range.2 hlt)
  simp only [he, Bool.not_true, Bool.false_or, Bool.and_eq_true, decide_eq_true_eq] at h
  exact byteAt_wordsField d i hlt h.1 h.2

theorem parseRelease_line (l : Line) : parseRelease (le16 l) = some (l, none) := by simp [parseRelease, le16, of16_le16]

theorem lineBytes_cons (d : LineData) : ∃ b bs, lineBytes d = b :: bs := by
  cases h : lineBytes d with
  | nil => have := lineBytes_length d; rw [h] at this; cases this
  | cons b bs => exact ⟨b, bs, rfl⟩

theorem parseRelease_data (l : Line) (d : LineData) : parseRelease (le16 l ++ lineBytes d) = some (l, some d) := by
  obtain ⟨b, bs, h⟩ := lineBytes_cons d
  have := parseData_lineBytes d
  rw [h] at this ⊢
  simp [parseRelease, le16, of16_le16, this]

theorem parseHello_bytes {n : Nat} (r : Byte) (h : n ≤ 512) : parseHello (r :: count16 n) = some (r, n) := by
  have hn : (BitVec.ofNat 16 n).toNat = n := by rw [BitVec.toNat_ofNat]; exact Nat.mod_eq_of_lt (by omega)
  simp [parseHello, count16, le16, of16_le16, hn, Config.maxCapacity, h]

theorem parseThreshold_byte {n : Nat} (h : n ≤ 7) : parseThreshold [count8 n] = some n := by
  simp [parseThreshold, count8, byte_toNat (by omega : n < 256), h]

theorem parsePort_byte (p : Port) : parsePort [portByte p] = some p := by
  revert p; decide

theorem regionOfByte_byte (i : RegionId) : regionOfByte (count8 i.val) = some i := by
  revert i; decide

theorem parseRegion_byte (i : RegionId) : parseRegion [count8 i.val] = some i := by
  revert i; decide

theorem parseStoreWrite_bytes (l : Line) (d : LineData) : parseStoreWrite (le16 l ++ lineBytes d) = some (l, d) := by
  simp [parseStoreWrite, le16, of16_le16, parseData_lineBytes]

theorem parseSupplyLine_bytes (id : Byte) (l : Line) (d : LineData) :
    parseSupplyLine (id :: (le16 l ++ lineBytes d)) = some (id, l, d) := by
  simp [parseSupplyLine, le16, of16_le16, parseData_lineBytes]

theorem parseTimers_bytes {t : Timers} (hr : 1 ≤ t.recallMs ∧ t.recallMs ≤ 1000)
    (hk : 20 ≤ t.keepaliveMs ∧ t.keepaliveMs ≤ 5000) (hs : 1 ≤ t.storeTenths ∧ t.storeTenths ≤ 100) :
    parseTimers (count16 t.recallMs ++ count16 t.keepaliveMs ++ [count8 t.storeTenths]) = some t := by
  have h1 : (BitVec.ofNat 16 t.recallMs).toNat = t.recallMs := by
    rw [BitVec.toNat_ofNat]; exact Nat.mod_eq_of_lt (by omega)
  have h2 : (BitVec.ofNat 16 t.keepaliveMs).toNat = t.keepaliveMs := by
    rw [BitVec.toNat_ofNat]; exact Nat.mod_eq_of_lt (by omega)
  have h3 : (count8 t.storeTenths).toNat = t.storeTenths := byte_toNat (by omega)
  simp [parseTimers, count16, le16, of16_le16, h1, h2, h3, hr, hk, hs]

end Sys2Proof.Machine
end

