-- ==== Sys2Proof/Laws/Fresh.lean ====
section
/-! SUPPORT. The numbers that recalls, journal entries and fault records take: in use by no other, and the first such from
the counter on. -/

namespace Sys2Proof.Machine

/-! ## Not in use (R64, R81, R115) -/

/-- A free value is found among as many distinct candidates as there are values in use, and one more. -/
theorem firstFree_fresh {α : Type} [DecidableEq α] (used : List α) (next : α → α) (n : Nat) (v : α)
    (hd : ∀ i j, i < j → j ≤ n → next^[i] v ≠ next^[j] v) (hl : used.length ≤ n) : firstFree used next n v ∉ used := by
  have key : ∀ (n : Nat) (v : α), firstFree used next n v ∈ used → ∀ i ≤ n, next^[i] v ∈ used := by
    intro n
    induction n with
    | zero => intro v h i hi; cases Nat.le_zero.1 hi; exact h
    | succ n ih =>
      intro v h i hi
      unfold firstFree at h
      split at h
      · rename_i hv
        cases i with
        | zero => exact hv
        | succ i => exact ih _ h i (Nat.le_of_succ_le_succ hi)
      · contradiction
  intro h
  have hnd : ((List.range (n + 1)).map fun i => next^[i] v).Nodup := by
    refine (List.nodup_map_iff_inj_on List.nodup_range).2 fun i hi j hj e => ?_
    simp only [List.mem_range] at hi hj
    rcases Nat.lt_trichotomy i j with h | h | h
    · exact absurd e (hd i j h (by omega))
    · exact h
    · exact absurd e.symm (hd j i h (by omega))
  have hs : ((List.range (n + 1)).map fun i => next^[i] v) ⊆ used := by
    intro x hx
    simp only [List.mem_map, List.mem_range] at hx
    obtain ⟨i, hi, rfl⟩ := hx
    exact key n v h i (by omega)
  have := (hnd.subperm hs).length_le
  simp at this
  omega

/-- Counting up to M and then on from b, no value returns before P = M + 1 - b steps. -/
theorem count_ne {w : Nat} (next : BitVec w → BitVec w) (M b P : Nat) (hP : P + b = M + 1)
    (hM : ∀ x : BitVec w, x.toNat ≤ M) (hn : ∀ x : BitVec w, (next x).toNat = if x.toNat = M then b else x.toNat + 1)
    (v : BitVec w) (i j : Nat) (hij : i < j) (hj : j < P) : next^[i] v ≠ next^[j] v := by
  have closed : ∀ (d : Nat) (y : BitVec w), d < P →
      (next^[d] y).toNat = if y.toNat + d ≤ M then y.toNat + d else y.toNat + d - P := by
    intro d
    induction d with
    | zero => intro y _; simp [hM y]
    | succ d ih =>
      intro y hd
      rw [Function.iterate_succ_apply', hn, ih y (by omega)]
      have := hM y
      split <;> split <;> split <;> omega
  obtain ⟨d, rfl⟩ : ∃ d, j = d + i := ⟨j - i, by omega⟩
  intro e
  rw [Function.iterate_add_apply] at e
  have hc := closed d (next^[i] v) (by omega)
  rw [← e] at hc
  have := hM (next^[i] v)
  split at hc <;> omega

theorem nextRecallId_toNat (x : Byte) : (x + 1).toNat = if x.toNat = 255 then 0 else x.toNat + 1 := by
  have := x.isLt
  rw [BitVec.toNat_add]
  split <;> simp <;> omega

theorem nextSeq_toNat (x : Seq) : (nextSeq x).toNat = if x.toNat = 4294967295 then 1 else x.toNat + 1 := by
  have := x.isLt
  unfold nextSeq
  have h : x + 1 = 0 ↔ x.toNat = 4294967295 := by
    constructor
    · intro h; have := congrArg BitVec.toNat h; simp [BitVec.toNat_add] at this; omega
    · intro h; apply BitVec.eq_of_toNat_eq; simp [BitVec.toNat_add, h]
  by_cases hx : x.toNat = 4294967295
  · rw [if_pos (h.2 hx), if_pos hx]; rfl
  · rw [if_neg fun e => hx (h.1 e), if_neg hx, BitVec.toNat_add]; simp; omega

theorem nextRecordId_toNat (x : Byte) : (nextRecordId x).toNat = if x.toNat = 255 then 1 else x.toNat + 1 := by
  have := x.isLt
  unfold nextRecordId
  by_cases hx : x = 255
  · subst hx; rfl
  · have : x.toNat ≠ 255 := fun e => hx (BitVec.eq_of_toNat_eq e)
    rw [if_neg hx, if_neg this, BitVec.toNat_add]; simp; omega

variable (s : State)

/-- The id of a new recall is that of no open one (R64). -/
theorem newRecallId_fresh (h : s.recalls.length < Config.recallTableSize) : ∀ r ∈ s.recalls, r.id ≠ s.newRecallId := by
  have hf : s.newRecallId ∉ s.recalls.map (·.id) := by
    refine firstFree_fresh _ _ _ _ (fun i j hij hj => ?_) ?_
    · refine count_ne _ 255 0 256 rfl (fun x => ?_) nextRecallId_toNat _ i j hij ?_
      · have := x.isLt; omega
      · simp only [Config.recallTableSize] at hj; omega
    · simp only [List.length_map]; simp only [Config.recallTableSize] at h ⊢; omega
  exact fun r hr e => hf (List.mem_map.2 ⟨r, hr, e⟩)

/-- The sequence number of a new entry is that of no entry (R81). -/
theorem newSeq_fresh (h : s.slotFree = true) : s.newSeq ∉ s.journal.map (·.seq) := by
  have hf : s.newSeq ∉ 0 :: s.journal.map (·.seq) := by
    refine firstFree_fresh _ _ _ _ (fun i j hij hj => ?_) ?_
    · refine count_ne _ 4294967295 1 4294967295 rfl (fun x => ?_) nextSeq_toNat _ i j hij ?_
      · have := x.isLt; omega
      · simp only [Config.journalSize] at hj; omega
    · simp [State.slotFree] at h; simp; omega
  exact fun h => hf (List.mem_cons_of_mem _ h)

/-- The id of a new record is not 0, and that of no record (R115). -/
theorem newRecordId_notUsed (h : s.faultQueue.length ≤ Config.faultQueueSize) : s.newRecordId ∉ 0 :: s.recordIds := by
  refine firstFree_fresh _ _ _ _ (fun i j hij hj => ?_) ?_
  · refine count_ne _ 255 1 255 rfl (fun x => ?_) nextRecordId_toNat _ i j hij (by omega)
    have := x.isLt; omega
  · have : s.stopRecord.toList.length ≤ 1 := by cases s.stopRecord <;> simp
    simp only [Config.faultQueueSize] at h
    simp [State.recordIds]; omega

/-! ## The first not in use (R64, R115) -/

/-- The first of a counted row that has a property. -/
theorem find?_counted {α : Type} (f : Nat → α) (P : α → Bool) {n k : Nat} (hk : k < n) (hp : P (f k) = true)
    (hn : ∀ j < k, P (f j) = false) : ((List.range n).map f).find? P = some (f k) := by
  rw [List.find?_eq_some_iff_getElem]
  exact ⟨hp, k, by simpa using hk, by simp, fun j hj => by simp [hn j hj]⟩

/-- What `firstFree` answers is the first on its way that is not in use. -/
theorem firstFree_first {α : Type} [DecidableEq α] (used : List α) (next : α → α) (n : Nat) (v : α)
    (h : firstFree used next n v ∉ used) :
    ∃ k ≤ n, firstFree used next n v = next^[k] v ∧ ∀ j < k, next^[j] v ∈ used := by
  induction n generalizing v with
  | zero => exact ⟨0, Nat.le_refl _, rfl, fun j hj => absurd hj (Nat.not_lt_zero _)⟩
  | succ n ih =>
    unfold firstFree at h ⊢
    split at h
    · rename_i hv
      rw [if_pos hv]
      obtain ⟨k, hk, he, hj⟩ := ih _ h
      refine ⟨k + 1, by omega, he, fun j hlt => ?_⟩
      cases j with
      | zero => exact hv
      | succ j => exact hj j (by omega)
    · rename_i hv
      rw [if_neg hv]
      exact ⟨0, Nat.zero_le _, rfl, fun j hj => absurd hj (Nat.not_lt_zero _)⟩

theorem count_up (v : Byte) (k : Nat) : (· + 1)^[k] v = v + BitVec.ofNat 8 k := by
  induction k with
  | zero => simp
  | succ k ih => rw [Function.iterate_succ_apply', ih, BitVec.ofNat_add, ← BitVec.add_assoc]; rfl

/-- The id a new recall takes is the first from the counter on that no open recall has (R64). -/
theorem newRecallId_free (h : s.recalls.length < Config.recallTableSize) : s.newRecallId = s.freeRecallId := by
  have hf : s.newRecallId ∉ s.recalls.map (·.id) := fun hm => by
    obtain ⟨r, hr, e⟩ := List.mem_map.1 hm
    exact newRecallId_fresh s h r hr e
  obtain ⟨k, hk, he, hj⟩ := firstFree_first _ _ _ _ hf
  have he' : s.newRecallId = s.recallCounter + BitVec.ofNat 8 k := he.trans (count_up _ _)
  rw [State.freeRecallId, find?_counted _ _ (k := k) (by simp only [Config.recallTableSize] at hk; omega), Option.getD_some, he']
  · rw [← he', List.all_eq_true]
    exact fun r hr => by simpa using newRecallId_fresh s h r hr
  · intro j hlt
    have := hj j hlt
    rw [count_up] at this
    obtain ⟨r, hr, e⟩ := List.mem_map.1 this
    exact List.all_eq_false.2 ⟨r, hr, by simp [e]⟩

/-- Counting on from record id to record id is counting up with 0 left out (R115). -/
theorem firstFree_records (used : List Byte) (n : Nat) (v : Byte) (h0 : 0 ∈ used)
    (h : firstFree used nextRecordId n v ∉ used) :
    ∃ k ≤ 2 * n, firstFree used nextRecordId n v = v + BitVec.ofNat 8 k ∧ ∀ j < k, v + BitVec.ofNat 8 j ∈ used := by
  induction n generalizing v with
  | zero => exact ⟨0, Nat.le_refl _, by simp [firstFree], fun j hj => absurd hj (Nat.not_lt_zero _)⟩
  | succ n ih =>
    unfold firstFree at h ⊢
    split at h
    · rename_i hv
      rw [if_pos hv]
      obtain ⟨k, hk, he, hj⟩ := ih _ h
      by_cases hx : v = 255
      · subst hx
        have hn : nextRecordId 255 = 1 := by decide
        rw [hn] at he hj ⊢
        have hs : ∀ i : Nat, (255 : Byte) + BitVec.ofNat 8 (i + 2) = 1 + BitVec.ofNat 8 i := fun i => by
          rw [BitVec.ofNat_add, BitVec.add_comm (BitVec.ofNat 8 i), ← BitVec.add_assoc]; rfl
        refine ⟨k + 2, by omega, by rw [he, hs], fun j hlt => ?_⟩
        match j with
        | 0 => exact hv
        | 1 => exact h0
        | j + 2 => rw [hs]; exact hj j (by omega)
      · have hn : nextRecordId v = v + 1 := by rw [nextRecordId, if_neg hx]
        rw [hn] at he hj ⊢
        have hs : ∀ i : Nat, v + BitVec.ofNat 8 (i + 1) = v + 1 + BitVec.ofNat 8 i := fun i => by
          rw [BitVec.ofNat_add, BitVec.add_comm (BitVec.ofNat 8 i), ← BitVec.add_assoc]; rfl
        refine ⟨k + 1, by omega, by rw [he, hs], fun j hlt => ?_⟩
        cases j with
        | zero => simpa using hv
        | succ j => rw [hs]; exact hj j (by omega)
    · rename_i hv
      rw [if_neg hv]
      exact ⟨0, Nat.zero_le _, by simp, fun j hj => absurd hj (Nat.not_lt_zero _)⟩

/-- The id a new record takes is the first from the counter on, 0 left out, that no record has (R115). -/
theorem newRecordId_free (h : s.faultQueue.length ≤ Config.faultQueueSize) : s.newRecordId = s.freeRecordId := by
  have hf := newRecordId_notUsed s h
  obtain ⟨k, hk, he, hj⟩ := firstFree_records _ _ _ (List.mem_cons_self ..) hf
  have hu : ∀ n : Byte, (n != 0 && s.faultRecords.all fun r => r.id != n) = true ↔ n ∉ 0 :: s.recordIds := fun n => by
    simp only [State.recordIds, State.faultRecords, ← List.map_append, Bool.and_eq_true, bne_iff_ne, List.all_eq_true,
      List.mem_cons, List.mem_map, not_or, not_exists, not_and]
  have he' : s.newRecordId = s.recordCounter + BitVec.ofNat 8 k := he
  rw [State.freeRecordId, find?_counted _ _ (k := k) (by omega), Option.getD_some, he']
  · rw [hu, ← he']; exact hf
  · intro j hlt
    rw [Bool.eq_false_iff]
    exact fun e => (hu _).1 e (hj j hlt)

end Sys2Proof.Machine
end

