-- ==== Sys2Proof/Laws/State.lean ====
section
/-! SUPPORT. One lemma per field and per named update of State. -/

namespace Sys2Proof.Machine

section SetLink
variable (s : State) (p : Port) (l : LinkUnit)
@[simp] theorem State.setLink_pending : (s.setLink p l).pending = s.pending := rfl
@[simp] theorem State.setLink_resetN : (s.setLink p l).resetN = s.resetN := rfl
@[simp] theorem State.setLink_stopOut : (s.setLink p l).stopOut = s.stopOut := rfl
@[simp] theorem State.setLink_bus : (s.setLink p l).bus = s.bus := rfl
@[simp] theorem State.setLink_mrdy : (s.setLink p l).mrdy = s.mrdy := rfl
@[simp] theorem State.setLink_merr : (s.setLink p l).merr = s.merr := rfl
@[simp] theorem State.setLink_supervisor : (s.setLink p l).supervisor = s.supervisor := rfl
@[simp] theorem State.setLink_hubTime : (s.setLink p l).hubTime = s.hubTime := rfl
@[simp] theorem State.setLink_timers : (s.setLink p l).timers = s.timers := rfl
@[simp] theorem State.setLink_sessions : (s.setLink p l).sessions = s.sessions := rfl
@[simp] theorem State.setLink_sessionCounter : (s.setLink p l).sessionCounter = s.sessionCounter := rfl
@[simp] theorem State.setLink_notices : (s.setLink p l).notices = s.notices := rfl
@[simp] theorem State.setLink_requests : (s.setLink p l).requests = s.requests := rfl
@[simp] theorem State.setLink_allocQueue : (s.setLink p l).allocQueue = s.allocQueue := rfl
@[simp] theorem State.setLink_syncList : (s.setLink p l).syncList = s.syncList := rfl
@[simp] theorem State.setLink_table : (s.setLink p l).table = s.table := rfl
@[simp] theorem State.setLink_recalls : (s.setLink p l).recalls = s.recalls := rfl
@[simp] theorem State.setLink_recallWait : (s.setLink p l).recallWait = s.recallWait := rfl
@[simp] theorem State.setLink_recallCounter : (s.setLink p l).recallCounter = s.recallCounter := rfl
@[simp] theorem State.setLink_journal : (s.setLink p l).journal = s.journal := rfl
@[simp] theorem State.setLink_seqCounter : (s.setLink p l).seqCounter = s.seqCounter := rfl
@[simp] theorem State.setLink_jspace : (s.setLink p l).jspace = s.jspace := rfl
@[simp] theorem State.setLink_highAlarm : (s.setLink p l).highAlarm = s.highAlarm := rfl
@[simp] theorem State.setLink_job : (s.setLink p l).job = s.job := rfl
@[simp] theorem State.setLink_fillQueue : (s.setLink p l).fillQueue = s.fillQueue := rfl
@[simp] theorem State.setLink_directQueue : (s.setLink p l).directQueue = s.directQueue := rfl
@[simp] theorem State.setLink_passCount : (s.setLink p l).passCount = s.passCount := rfl
@[simp] theorem State.setLink_faultQueue : (s.setLink p l).faultQueue = s.faultQueue := rfl
@[simp] theorem State.setLink_stopRecord : (s.setLink p l).stopRecord = s.stopRecord := rfl
@[simp] theorem State.setLink_recordCounter : (s.setLink p l).recordCounter = s.recordCounter := rfl
@[simp] theorem State.setLink_mode : (s.setLink p l).mode = s.mode := rfl
@[simp] theorem State.setLink_regions : (s.setLink p l).regions = s.regions := rfl
@[simp] theorem State.setLink_completing : (s.setLink p l).completing = s.completing := rfl
@[simp] theorem State.setLink_links : (s.setLink p l).links = s.links.set p l := rfl
end SetLink

section SetSession
variable (s : State) (p : Port) (x : Session)
@[simp] theorem State.setSession_pending : (s.setSession p x).pending = s.pending := rfl
@[simp] theorem State.setSession_resetN : (s.setSession p x).resetN = s.resetN := rfl
@[simp] theorem State.setSession_stopOut : (s.setSession p x).stopOut = s.stopOut := rfl
@[simp] theorem State.setSession_bus : (s.setSession p x).bus = s.bus := rfl
@[simp] theorem State.setSession_mrdy : (s.setSession p x).mrdy = s.mrdy := rfl
@[simp] theorem State.setSession_merr : (s.setSession p x).merr = s.merr := rfl
@[simp] theorem State.setSession_supervisor : (s.setSession p x).supervisor = s.supervisor := rfl
@[simp] theorem State.setSession_hubTime : (s.setSession p x).hubTime = s.hubTime := rfl
@[simp] theorem State.setSession_timers : (s.setSession p x).timers = s.timers := rfl
@[simp] theorem State.setSession_links : (s.setSession p x).links = s.links := rfl
@[simp] theorem State.setSession_sessionCounter : (s.setSession p x).sessionCounter = s.sessionCounter := rfl
@[simp] theorem State.setSession_notices : (s.setSession p x).notices = s.notices := rfl
@[simp] theorem State.setSession_requests : (s.setSession p x).requests = s.requests := rfl
@[simp] theorem State.setSession_allocQueue : (s.setSession p x).allocQueue = s.allocQueue := rfl
@[simp] theorem State.setSession_syncList : (s.setSession p x).syncList = s.syncList := rfl
@[simp] theorem State.setSession_table : (s.setSession p x).table = s.table := rfl
@[simp] theorem State.setSession_recalls : (s.setSession p x).recalls = s.recalls := rfl
@[simp] theorem State.setSession_recallWait : (s.setSession p x).recallWait = s.recallWait := rfl
@[simp] theorem State.setSession_recallCounter : (s.setSession p x).recallCounter = s.recallCounter := rfl
@[simp] theorem State.setSession_journal : (s.setSession p x).journal = s.journal := rfl
@[simp] theorem State.setSession_seqCounter : (s.setSession p x).seqCounter = s.seqCounter := rfl
@[simp] theorem State.setSession_jspace : (s.setSession p x).jspace = s.jspace := rfl
@[simp] theorem State.setSession_highAlarm : (s.setSession p x).highAlarm = s.highAlarm := rfl
@[simp] theorem State.setSession_job : (s.setSession p x).job = s.job := rfl
@[simp] theorem State.setSession_fillQueue : (s.setSession p x).fillQueue = s.fillQueue := rfl
@[simp] theorem State.setSession_directQueue : (s.setSession p x).directQueue = s.directQueue := rfl
@[simp] theorem State.setSession_passCount : (s.setSession p x).passCount = s.passCount := rfl
@[simp] theorem State.setSession_faultQueue : (s.setSession p x).faultQueue = s.faultQueue := rfl
@[simp] theorem State.setSession_stopRecord : (s.setSession p x).stopRecord = s.stopRecord := rfl
@[simp] theorem State.setSession_recordCounter : (s.setSession p x).recordCounter = s.recordCounter := rfl
@[simp] theorem State.setSession_mode : (s.setSession p x).mode = s.mode := rfl
@[simp] theorem State.setSession_regions : (s.setSession p x).regions = s.regions := rfl
@[simp] theorem State.setSession_completing : (s.setSession p x).completing = s.completing := rfl
@[simp] theorem State.setSession_sessions : (s.setSession p x).sessions = s.sessions.set p x := rfl
end SetSession

section SetNotices
variable (s : State) (p : Port) (n : NoticeUnit)
@[simp] theorem State.setNotices_pending : (s.setNotices p n).pending = s.pending := rfl
@[simp] theorem State.setNotices_resetN : (s.setNotices p n).resetN = s.resetN := rfl
@[simp] theorem State.setNotices_stopOut : (s.setNotices p n).stopOut = s.stopOut := rfl
@[simp] theorem State.setNotices_bus : (s.setNotices p n).bus = s.bus := rfl
@[simp] theorem State.setNotices_mrdy : (s.setNotices p n).mrdy = s.mrdy := rfl
@[simp] theorem State.setNotices_merr : (s.setNotices p n).merr = s.merr := rfl
@[simp] theorem State.setNotices_supervisor : (s.setNotices p n).supervisor = s.supervisor := rfl
@[simp] theorem State.setNotices_hubTime : (s.setNotices p n).hubTime = s.hubTime := rfl
@[simp] theorem State.setNotices_timers : (s.setNotices p n).timers = s.timers := rfl
@[simp] theorem State.setNotices_links : (s.setNotices p n).links = s.links := rfl
@[simp] theorem State.setNotices_sessions : (s.setNotices p n).sessions = s.sessions := rfl
@[simp] theorem State.setNotices_sessionCounter : (s.setNotices p n).sessionCounter = s.sessionCounter := rfl
@[simp] theorem State.setNotices_requests : (s.setNotices p n).requests = s.requests := rfl
@[simp] theorem State.setNotices_allocQueue : (s.setNotices p n).allocQueue = s.allocQueue := rfl
@[simp] theorem State.setNotices_syncList : (s.setNotices p n).syncList = s.syncList := rfl
@[simp] theorem State.setNotices_table : (s.setNotices p n).table = s.table := rfl
@[simp] theorem State.setNotices_recalls : (s.setNotices p n).recalls = s.recalls := rfl
@[simp] theorem State.setNotices_recallWait : (s.setNotices p n).recallWait = s.recallWait := rfl
@[simp] theorem State.setNotices_recallCounter : (s.setNotices p n).recallCounter = s.recallCounter := rfl
@[simp] theorem State.setNotices_journal : (s.setNotices p n).journal = s.journal := rfl
@[simp] theorem State.setNotices_seqCounter : (s.setNotices p n).seqCounter = s.seqCounter := rfl
@[simp] theorem State.setNotices_jspace : (s.setNotices p n).jspace = s.jspace := rfl
@[simp] theorem State.setNotices_highAlarm : (s.setNotices p n).highAlarm = s.highAlarm := rfl
@[simp] theorem State.setNotices_job : (s.setNotices p n).job = s.job := rfl
@[simp] theorem State.setNotices_fillQueue : (s.setNotices p n).fillQueue = s.fillQueue := rfl
@[simp] theorem State.setNotices_directQueue : (s.setNotices p n).directQueue = s.directQueue := rfl
@[simp] theorem State.setNotices_passCount : (s.setNotices p n).passCount = s.passCount := rfl
@[simp] theorem State.setNotices_faultQueue : (s.setNotices p n).faultQueue = s.faultQueue := rfl
@[simp] theorem State.setNotices_stopRecord : (s.setNotices p n).stopRecord = s.stopRecord := rfl
@[simp] theorem State.setNotices_recordCounter : (s.setNotices p n).recordCounter = s.recordCounter := rfl
@[simp] theorem State.setNotices_mode : (s.setNotices p n).mode = s.mode := rfl
@[simp] theorem State.setNotices_regions : (s.setNotices p n).regions = s.regions := rfl
@[simp] theorem State.setNotices_completing : (s.setNotices p n).completing = s.completing := rfl
@[simp] theorem State.setNotices_notices : (s.setNotices p n).notices = s.notices.set p n := rfl
end SetNotices

section UpdateEntry
variable (s : State) (l : Line) (f : Entry → Entry)
@[simp] theorem State.updateEntry_pending : (s.updateEntry l f).pending = s.pending := rfl
@[simp] theorem State.updateEntry_resetN : (s.updateEntry l f).resetN = s.resetN := rfl
@[simp] theorem State.updateEntry_stopOut : (s.updateEntry l f).stopOut = s.stopOut := rfl
@[simp] theorem State.updateEntry_bus : (s.updateEntry l f).bus = s.bus := rfl
@[simp] theorem State.updateEntry_mrdy : (s.updateEntry l f).mrdy = s.mrdy := rfl
@[simp] theorem State.updateEntry_merr : (s.updateEntry l f).merr = s.merr := rfl
@[simp] theorem State.updateEntry_supervisor : (s.updateEntry l f).supervisor = s.supervisor := rfl
@[simp] theorem State.updateEntry_hubTime : (s.updateEntry l f).hubTime = s.hubTime := rfl
@[simp] theorem State.updateEntry_timers : (s.updateEntry l f).timers = s.timers := rfl
@[simp] theorem State.updateEntry_links : (s.updateEntry l f).links = s.links := rfl
@[simp] theorem State.updateEntry_sessions : (s.updateEntry l f).sessions = s.sessions := rfl
@[simp] theorem State.updateEntry_sessionCounter : (s.updateEntry l f).sessionCounter = s.sessionCounter := rfl
@[simp] theorem State.updateEntry_notices : (s.updateEntry l f).notices = s.notices := rfl
@[simp] theorem State.updateEntry_requests : (s.updateEntry l f).requests = s.requests := rfl
@[simp] theorem State.updateEntry_allocQueue : (s.updateEntry l f).allocQueue = s.allocQueue := rfl
@[simp] theorem State.updateEntry_syncList : (s.updateEntry l f).syncList = s.syncList := rfl
@[simp] theorem State.updateEntry_recalls : (s.updateEntry l f).recalls = s.recalls := rfl
@[simp] theorem State.updateEntry_recallWait : (s.updateEntry l f).recallWait = s.recallWait := rfl
@[simp] theorem State.updateEntry_recallCounter : (s.updateEntry l f).recallCounter = s.recallCounter := rfl
@[simp] theorem State.updateEntry_journal : (s.updateEntry l f).journal = s.journal := rfl
@[simp] theorem State.updateEntry_seqCounter : (s.updateEntry l f).seqCounter = s.seqCounter := rfl
@[simp] theorem State.updateEntry_jspace : (s.updateEntry l f).jspace = s.jspace := rfl
@[simp] theorem State.updateEntry_highAlarm : (s.updateEntry l f).highAlarm = s.highAlarm := rfl
@[simp] theorem State.updateEntry_job : (s.updateEntry l f).job = s.job := rfl
@[simp] theorem State.updateEntry_fillQueue : (s.updateEntry l f).fillQueue = s.fillQueue := rfl
@[simp] theorem State.updateEntry_directQueue : (s.updateEntry l f).directQueue = s.directQueue := rfl
@[simp] theorem State.updateEntry_passCount : (s.updateEntry l f).passCount = s.passCount := rfl
@[simp] theorem State.updateEntry_faultQueue : (s.updateEntry l f).faultQueue = s.faultQueue := rfl
@[simp] theorem State.updateEntry_stopRecord : (s.updateEntry l f).stopRecord = s.stopRecord := rfl
@[simp] theorem State.updateEntry_recordCounter : (s.updateEntry l f).recordCounter = s.recordCounter := rfl
@[simp] theorem State.updateEntry_mode : (s.updateEntry l f).mode = s.mode := rfl
@[simp] theorem State.updateEntry_regions : (s.updateEntry l f).regions = s.regions := rfl
@[simp] theorem State.updateEntry_completing : (s.updateEntry l f).completing = s.completing := rfl
@[simp] theorem State.updateEntry_table :
    (s.updateEntry l f).table = s.table.map fun e => if e.line == l then f e else e := rfl
end UpdateEntry

section WithTable
variable (s : State) (t : List Entry)
@[simp] theorem State.withTable_pending : (s.withTable t).pending = s.pending := rfl
@[simp] theorem State.withTable_resetN : (s.withTable t).resetN = s.resetN := rfl
@[simp] theorem State.withTable_stopOut : (s.withTable t).stopOut = s.stopOut := rfl
@[simp] theorem State.withTable_bus : (s.withTable t).bus = s.bus := rfl
@[simp] theorem State.withTable_mrdy : (s.withTable t).mrdy = s.mrdy := rfl
@[simp] theorem State.withTable_merr : (s.withTable t).merr = s.merr := rfl
@[simp] theorem State.withTable_supervisor : (s.withTable t).supervisor = s.supervisor := rfl
@[simp] theorem State.withTable_hubTime : (s.withTable t).hubTime = s.hubTime := rfl
@[simp] theorem State.withTable_timers : (s.withTable t).timers = s.timers := rfl
@[simp] theorem State.withTable_links : (s.withTable t).links = s.links := rfl
@[simp] theorem State.withTable_sessions : (s.withTable t).sessions = s.sessions := rfl
@[simp] theorem State.withTable_sessionCounter : (s.withTable t).sessionCounter = s.sessionCounter := rfl
@[simp] theorem State.withTable_notices : (s.withTable t).notices = s.notices := rfl
@[simp] theorem State.withTable_requests : (s.withTable t).requests = s.requests := rfl
@[simp] theorem State.withTable_allocQueue : (s.withTable t).allocQueue = s.allocQueue := rfl
@[simp] theorem State.withTable_syncList : (s.withTable t).syncList = s.syncList := rfl
@[simp] theorem State.withTable_table : (s.withTable t).table = t := rfl
@[simp] theorem State.withTable_recalls : (s.withTable t).recalls = s.recalls := rfl
@[simp] theorem State.withTable_recallWait : (s.withTable t).recallWait = s.recallWait := rfl
@[simp] theorem State.withTable_recallCounter : (s.withTable t).recallCounter = s.recallCounter := rfl
@[simp] theorem State.withTable_journal : (s.withTable t).journal = s.journal := rfl
@[simp] theorem State.withTable_seqCounter : (s.withTable t).seqCounter = s.seqCounter := rfl
@[simp] theorem State.withTable_jspace : (s.withTable t).jspace = s.jspace := rfl
@[simp] theorem State.withTable_highAlarm : (s.withTable t).highAlarm = s.highAlarm := rfl
@[simp] theorem State.withTable_job : (s.withTable t).job = s.job := rfl
@[simp] theorem State.withTable_fillQueue : (s.withTable t).fillQueue = s.fillQueue := rfl
@[simp] theorem State.withTable_directQueue : (s.withTable t).directQueue = s.directQueue := rfl
@[simp] theorem State.withTable_passCount : (s.withTable t).passCount = s.passCount := rfl
@[simp] theorem State.withTable_faultQueue : (s.withTable t).faultQueue = s.faultQueue := rfl
@[simp] theorem State.withTable_stopRecord : (s.withTable t).stopRecord = s.stopRecord := rfl
@[simp] theorem State.withTable_recordCounter : (s.withTable t).recordCounter = s.recordCounter := rfl
@[simp] theorem State.withTable_mode : (s.withTable t).mode = s.mode := rfl
@[simp] theorem State.withTable_regions : (s.withTable t).regions = s.regions := rfl
@[simp] theorem State.withTable_completing : (s.withTable t).completing = s.completing := rfl
end WithTable

section Accepted
variable (s : State) (p : Port)
@[simp] theorem State.accepted_pending : (s.accepted p).pending = s.pending := rfl
@[simp] theorem State.accepted_resetN : (s.accepted p).resetN = s.resetN := rfl
@[simp] theorem State.accepted_stopOut : (s.accepted p).stopOut = s.stopOut := rfl
@[simp] theorem State.accepted_bus : (s.accepted p).bus = s.bus := rfl
@[simp] theorem State.accepted_mrdy : (s.accepted p).mrdy = s.mrdy := rfl
@[simp] theorem State.accepted_merr : (s.accepted p).merr = s.merr := rfl
@[simp] theorem State.accepted_supervisor : (s.accepted p).supervisor = s.supervisor := rfl
@[simp] theorem State.accepted_hubTime : (s.accepted p).hubTime = s.hubTime := rfl
@[simp] theorem State.accepted_timers : (s.accepted p).timers = s.timers := rfl
@[simp] theorem State.accepted_sessions : (s.accepted p).sessions = s.sessions := rfl
@[simp] theorem State.accepted_sessionCounter : (s.accepted p).sessionCounter = s.sessionCounter := rfl
@[simp] theorem State.accepted_notices : (s.accepted p).notices = s.notices := rfl
@[simp] theorem State.accepted_requests : (s.accepted p).requests = s.requests := rfl
@[simp] theorem State.accepted_allocQueue : (s.accepted p).allocQueue = s.allocQueue := rfl
@[simp] theorem State.accepted_syncList : (s.accepted p).syncList = s.syncList := rfl
@[simp] theorem State.accepted_table : (s.accepted p).table = s.table := rfl
@[simp] theorem State.accepted_recalls : (s.accepted p).recalls = s.recalls := rfl
@[simp] theorem State.accepted_recallWait : (s.accepted p).recallWait = s.recallWait := rfl
@[simp] theorem State.accepted_recallCounter : (s.accepted p).recallCounter = s.recallCounter := rfl
@[simp] theorem State.accepted_journal : (s.accepted p).journal = s.journal := rfl
@[simp] theorem State.accepted_seqCounter : (s.accepted p).seqCounter = s.seqCounter := rfl
@[simp] theorem State.accepted_jspace : (s.accepted p).jspace = s.jspace := rfl
@[simp] theorem State.accepted_highAlarm : (s.accepted p).highAlarm = s.highAlarm := rfl
@[simp] theorem State.accepted_job : (s.accepted p).job = s.job := rfl
@[simp] theorem State.accepted_fillQueue : (s.accepted p).fillQueue = s.fillQueue := rfl
@[simp] theorem State.accepted_directQueue : (s.accepted p).directQueue = s.directQueue := rfl
@[simp] theorem State.accepted_passCount : (s.accepted p).passCount = s.passCount := rfl
@[simp] theorem State.accepted_faultQueue : (s.accepted p).faultQueue = s.faultQueue := rfl
@[simp] theorem State.accepted_stopRecord : (s.accepted p).stopRecord = s.stopRecord := rfl
@[simp] theorem State.accepted_recordCounter : (s.accepted p).recordCounter = s.recordCounter := rfl
@[simp] theorem State.accepted_mode : (s.accepted p).mode = s.mode := rfl
@[simp] theorem State.accepted_regions : (s.accepted p).regions = s.regions := rfl
@[simp] theorem State.accepted_completing : (s.accepted p).completing = s.completing := rfl
end Accepted

section Replied
variable (s : State) (p : Port) (tag : Byte) (st : Status) (d : List Byte)
@[simp] theorem State.replied_pending : (s.replied p tag st d).pending = s.pending := rfl
@[simp] theorem State.replied_resetN : (s.replied p tag st d).resetN = s.resetN := rfl
@[simp] theorem State.replied_stopOut : (s.replied p tag st d).stopOut = s.stopOut := rfl
@[simp] theorem State.replied_bus : (s.replied p tag st d).bus = s.bus := rfl
@[simp] theorem State.replied_mrdy : (s.replied p tag st d).mrdy = s.mrdy := rfl
@[simp] theorem State.replied_merr : (s.replied p tag st d).merr = s.merr := rfl
@[simp] theorem State.replied_supervisor : (s.replied p tag st d).supervisor = s.supervisor := rfl
@[simp] theorem State.replied_hubTime : (s.replied p tag st d).hubTime = s.hubTime := rfl
@[simp] theorem State.replied_timers : (s.replied p tag st d).timers = s.timers := rfl
@[simp] theorem State.replied_sessions : (s.replied p tag st d).sessions = s.sessions := rfl
@[simp] theorem State.replied_sessionCounter : (s.replied p tag st d).sessionCounter = s.sessionCounter := rfl
@[simp] theorem State.replied_notices : (s.replied p tag st d).notices = s.notices := rfl
@[simp] theorem State.replied_requests : (s.replied p tag st d).requests = s.requests := rfl
@[simp] theorem State.replied_allocQueue : (s.replied p tag st d).allocQueue = s.allocQueue := rfl
@[simp] theorem State.replied_syncList : (s.replied p tag st d).syncList = s.syncList := rfl
@[simp] theorem State.replied_table : (s.replied p tag st d).table = s.table := rfl
@[simp] theorem State.replied_recalls : (s.replied p tag st d).recalls = s.recalls := rfl
@[simp] theorem State.replied_recallWait : (s.replied p tag st d).recallWait = s.recallWait := rfl
@[simp] theorem State.replied_recallCounter : (s.replied p tag st d).recallCounter = s.recallCounter := rfl
@[simp] theorem State.replied_journal : (s.replied p tag st d).journal = s.journal := rfl
@[simp] theorem State.replied_seqCounter : (s.replied p tag st d).seqCounter = s.seqCounter := rfl
@[simp] theorem State.replied_jspace : (s.replied p tag st d).jspace = s.jspace := rfl
@[simp] theorem State.replied_highAlarm : (s.replied p tag st d).highAlarm = s.highAlarm := rfl
@[simp] theorem State.replied_job : (s.replied p tag st d).job = s.job := rfl
@[simp] theorem State.replied_fillQueue : (s.replied p tag st d).fillQueue = s.fillQueue := rfl
@[simp] theorem State.replied_directQueue : (s.replied p tag st d).directQueue = s.directQueue := rfl
@[simp] theorem State.replied_passCount : (s.replied p tag st d).passCount = s.passCount := rfl
@[simp] theorem State.replied_faultQueue : (s.replied p tag st d).faultQueue = s.faultQueue := rfl
@[simp] theorem State.replied_stopRecord : (s.replied p tag st d).stopRecord = s.stopRecord := rfl
@[simp] theorem State.replied_recordCounter : (s.replied p tag st d).recordCounter = s.recordCounter := rfl
@[simp] theorem State.replied_mode : (s.replied p tag st d).mode = s.mode := rfl
@[simp] theorem State.replied_regions : (s.replied p tag st d).regions = s.regions := rfl
@[simp] theorem State.replied_completing : (s.replied p tag st d).completing = s.completing := rfl
end Replied

section Reply
variable (s : State) (p : Port) (tag : Byte) (st : Status) (d : List Byte)
@[simp] theorem State.reply_pending : (s.reply p tag st d).pending = s.pending := rfl
@[simp] theorem State.reply_resetN : (s.reply p tag st d).resetN = s.resetN := rfl
@[simp] theorem State.reply_stopOut : (s.reply p tag st d).stopOut = s.stopOut := rfl
@[simp] theorem State.reply_bus : (s.reply p tag st d).bus = s.bus := rfl
@[simp] theorem State.reply_mrdy : (s.reply p tag st d).mrdy = s.mrdy := rfl
@[simp] theorem State.reply_merr : (s.reply p tag st d).merr = s.merr := rfl
@[simp] theorem State.reply_supervisor : (s.reply p tag st d).supervisor = s.supervisor := rfl
@[simp] theorem State.reply_hubTime : (s.reply p tag st d).hubTime = s.hubTime := rfl
@[simp] theorem State.reply_timers : (s.reply p tag st d).timers = s.timers := rfl
@[simp] theorem State.reply_sessions : (s.reply p tag st d).sessions = s.sessions := rfl
@[simp] theorem State.reply_sessionCounter : (s.reply p tag st d).sessionCounter = s.sessionCounter := rfl
@[simp] theorem State.reply_notices : (s.reply p tag st d).notices = s.notices := rfl
@[simp] theorem State.reply_requests : (s.reply p tag st d).requests = s.requests := rfl
@[simp] theorem State.reply_allocQueue : (s.reply p tag st d).allocQueue = s.allocQueue := rfl
@[simp] theorem State.reply_syncList : (s.reply p tag st d).syncList = s.syncList := rfl
@[simp] theorem State.reply_table : (s.reply p tag st d).table = s.table := rfl
@[simp] theorem State.reply_recalls : (s.reply p tag st d).recalls = s.recalls := rfl
@[simp] theorem State.reply_recallWait : (s.reply p tag st d).recallWait = s.recallWait := rfl
@[simp] theorem State.reply_recallCounter : (s.reply p tag st d).recallCounter = s.recallCounter := rfl
@[simp] theorem State.reply_journal : (s.reply p tag st d).journal = s.journal := rfl
@[simp] theorem State.reply_seqCounter : (s.reply p tag st d).seqCounter = s.seqCounter := rfl
@[simp] theorem State.reply_jspace : (s.reply p tag st d).jspace = s.jspace := rfl
@[simp] theorem State.reply_highAlarm : (s.reply p tag st d).highAlarm = s.highAlarm := rfl
@[simp] theorem State.reply_job : (s.reply p tag st d).job = s.job := rfl
@[simp] theorem State.reply_fillQueue : (s.reply p tag st d).fillQueue = s.fillQueue := rfl
@[simp] theorem State.reply_directQueue : (s.reply p tag st d).directQueue = s.directQueue := rfl
@[simp] theorem State.reply_passCount : (s.reply p tag st d).passCount = s.passCount := rfl
@[simp] theorem State.reply_faultQueue : (s.reply p tag st d).faultQueue = s.faultQueue := rfl
@[simp] theorem State.reply_stopRecord : (s.reply p tag st d).stopRecord = s.stopRecord := rfl
@[simp] theorem State.reply_recordCounter : (s.reply p tag st d).recordCounter = s.recordCounter := rfl
@[simp] theorem State.reply_mode : (s.reply p tag st d).mode = s.mode := rfl
@[simp] theorem State.reply_regions : (s.reply p tag st d).regions = s.regions := rfl
@[simp] theorem State.reply_completing : (s.reply p tag st d).completing = s.completing := rfl
end Reply

section Asked
variable (s : State) (p : Port) (tag : Byte) (q : Req)
@[simp] theorem State.asked_pending : (s.asked p tag q).pending = s.pending := rfl
@[simp] theorem State.asked_resetN : (s.asked p tag q).resetN = s.resetN := rfl
@[simp] theorem State.asked_stopOut : (s.asked p tag q).stopOut = s.stopOut := rfl
@[simp] theorem State.asked_bus : (s.asked p tag q).bus = s.bus := rfl
@[simp] theorem State.asked_mrdy : (s.asked p tag q).mrdy = s.mrdy := rfl
@[simp] theorem State.asked_merr : (s.asked p tag q).merr = s.merr := rfl
@[simp] theorem State.asked_supervisor : (s.asked p tag q).supervisor = s.supervisor := rfl
@[simp] theorem State.asked_hubTime : (s.asked p tag q).hubTime = s.hubTime := rfl
@[simp] theorem State.asked_timers : (s.asked p tag q).timers = s.timers := rfl
@[simp] theorem State.asked_sessions : (s.asked p tag q).sessions = s.sessions := rfl
@[simp] theorem State.asked_sessionCounter : (s.asked p tag q).sessionCounter = s.sessionCounter := rfl
@[simp] theorem State.asked_notices : (s.asked p tag q).notices = s.notices := rfl
@[simp] theorem State.asked_allocQueue : (s.asked p tag q).allocQueue = s.allocQueue := rfl
@[simp] theorem State.asked_syncList : (s.asked p tag q).syncList = s.syncList := rfl
@[simp] theorem State.asked_table : (s.asked p tag q).table = s.table := rfl
@[simp] theorem State.asked_recalls : (s.asked p tag q).recalls = s.recalls := rfl
@[simp] theorem State.asked_recallWait : (s.asked p tag q).recallWait = s.recallWait := rfl
@[simp] theorem State.asked_recallCounter : (s.asked p tag q).recallCounter = s.recallCounter := rfl
@[simp] theorem State.asked_journal : (s.asked p tag q).journal = s.journal := rfl
@[simp] theorem State.asked_seqCounter : (s.asked p tag q).seqCounter = s.seqCounter := rfl
@[simp] theorem State.asked_jspace : (s.asked p tag q).jspace = s.jspace := rfl
@[simp] theorem State.asked_highAlarm : (s.asked p tag q).highAlarm = s.highAlarm := rfl
@[simp] theorem State.asked_job : (s.asked p tag q).job = s.job := rfl
@[simp] theorem State.asked_fillQueue : (s.asked p tag q).fillQueue = s.fillQueue := rfl
@[simp] theorem State.asked_directQueue : (s.asked p tag q).directQueue = s.directQueue := rfl
@[simp] theorem State.asked_passCount : (s.asked p tag q).passCount = s.passCount := rfl
@[simp] theorem State.asked_faultQueue : (s.asked p tag q).faultQueue = s.faultQueue := rfl
@[simp] theorem State.asked_stopRecord : (s.asked p tag q).stopRecord = s.stopRecord := rfl
@[simp] theorem State.asked_recordCounter : (s.asked p tag q).recordCounter = s.recordCounter := rfl
@[simp] theorem State.asked_mode : (s.asked p tag q).mode = s.mode := rfl
@[simp] theorem State.asked_regions : (s.asked p tag q).regions = s.regions := rfl
@[simp] theorem State.asked_completing : (s.asked p tag q).completing = s.completing := rfl
end Asked

section AdmitReq
variable (s : State) (id : ReqId) (q : Req)
@[simp] theorem State.admitReq_pending : (s.admitReq id q).pending = s.pending := rfl
@[simp] theorem State.admitReq_resetN : (s.admitReq id q).resetN = s.resetN := rfl
@[simp] theorem State.admitReq_stopOut : (s.admitReq id q).stopOut = s.stopOut := rfl
@[simp] theorem State.admitReq_bus : (s.admitReq id q).bus = s.bus := rfl
@[simp] theorem State.admitReq_mrdy : (s.admitReq id q).mrdy = s.mrdy := rfl
@[simp] theorem State.admitReq_merr : (s.admitReq id q).merr = s.merr := rfl
@[simp] theorem State.admitReq_supervisor : (s.admitReq id q).supervisor = s.supervisor := rfl
@[simp] theorem State.admitReq_hubTime : (s.admitReq id q).hubTime = s.hubTime := rfl
@[simp] theorem State.admitReq_timers : (s.admitReq id q).timers = s.timers := rfl
@[simp] theorem State.admitReq_links : (s.admitReq id q).links = s.links := rfl
@[simp] theorem State.admitReq_sessions : (s.admitReq id q).sessions = s.sessions := rfl
@[simp] theorem State.admitReq_sessionCounter : (s.admitReq id q).sessionCounter = s.sessionCounter := rfl
@[simp] theorem State.admitReq_notices : (s.admitReq id q).notices = s.notices := rfl
@[simp] theorem State.admitReq_allocQueue : (s.admitReq id q).allocQueue = s.allocQueue := rfl
@[simp] theorem State.admitReq_syncList : (s.admitReq id q).syncList = s.syncList := rfl
@[simp] theorem State.admitReq_table : (s.admitReq id q).table = s.table := rfl
@[simp] theorem State.admitReq_recalls : (s.admitReq id q).recalls = s.recalls := rfl
@[simp] theorem State.admitReq_recallWait : (s.admitReq id q).recallWait = s.recallWait := rfl
@[simp] theorem State.admitReq_recallCounter : (s.admitReq id q).recallCounter = s.recallCounter := rfl
@[simp] theorem State.admitReq_journal : (s.admitReq id q).journal = s.journal := rfl
@[simp] theorem State.admitReq_seqCounter : (s.admitReq id q).seqCounter = s.seqCounter := rfl
@[simp] theorem State.admitReq_jspace : (s.admitReq id q).jspace = s.jspace := rfl
@[simp] theorem State.admitReq_highAlarm : (s.admitReq id q).highAlarm = s.highAlarm := rfl
@[simp] theorem State.admitReq_job : (s.admitReq id q).job = s.job := rfl
@[simp] theorem State.admitReq_fillQueue : (s.admitReq id q).fillQueue = s.fillQueue := rfl
@[simp] theorem State.admitReq_directQueue : (s.admitReq id q).directQueue = s.directQueue := rfl
@[simp] theorem State.admitReq_passCount : (s.admitReq id q).passCount = s.passCount := rfl
@[simp] theorem State.admitReq_faultQueue : (s.admitReq id q).faultQueue = s.faultQueue := rfl
@[simp] theorem State.admitReq_stopRecord : (s.admitReq id q).stopRecord = s.stopRecord := rfl
@[simp] theorem State.admitReq_recordCounter : (s.admitReq id q).recordCounter = s.recordCounter := rfl
@[simp] theorem State.admitReq_mode : (s.admitReq id q).mode = s.mode := rfl
@[simp] theorem State.admitReq_regions : (s.admitReq id q).regions = s.regions := rfl
@[simp] theorem State.admitReq_completing : (s.admitReq id q).completing = s.completing := rfl
end AdmitReq

section PostNotice
variable (s : State) (p : Port) (n : Notice)

/-- A notice posted changes the port's notice state and its link, and no more (R150, R152). -/
theorem State.postNotice_eq : s.postNotice p n =
    { s with notices := (s.postNotice p n).notices, links := (s.postNotice p n).links } := by
  unfold State.postNotice State.deliverNotice
  split
  · split <;> rfl
  · rfl

/-- What posting a notice does depends on the sessions, the notice states and the links alone. -/
theorem State.postNotice_congr {t : State} (hs : t.sessions = s.sessions) (hn : t.notices = s.notices)
    (hl : t.links = s.links) : t.postNotice p n =
    { t with notices := (s.postNotice p n).notices, links := (s.postNotice p n).links } := by
  have hr : t.sessionState p = s.sessionState p := by unfold State.sessionState; rw [hs]
  have hu : (t.setNotices p (t.notices[p].enqueue n)).notices[p] = (s.setNotices p (s.notices[p].enqueue n)).notices[p] := by
    simp only [State.setNotices, hn]
  unfold State.postNotice
  rw [hr]
  by_cases h : n.kind.receivedIn (s.sessionState p) = true
  · rw [if_pos h, if_pos h]
    unfold State.deliverNotice
    rw [hu]
    cases (s.setNotices p (s.notices[p].enqueue n)).notices[p].next <;>
      simp only [State.setNotices, State.sendNotice, State.sendSeq, State.setLink, hn, hl]
  · rw [if_neg h, if_neg h, ← hn, ← hl]

@[simp] theorem State.postNotice_pending : (s.postNotice p n).pending = s.pending := by rw [State.postNotice_eq]
@[simp] theorem State.postNotice_resetN : (s.postNotice p n).resetN = s.resetN := by rw [State.postNotice_eq]
@[simp] theorem State.postNotice_stopOut : (s.postNotice p n).stopOut = s.stopOut := by rw [State.postNotice_eq]
@[simp] theorem State.postNotice_bus : (s.postNotice p n).bus = s.bus := by rw [State.postNotice_eq]
@[simp] theorem State.postNotice_mrdy : (s.postNotice p n).mrdy = s.mrdy := by rw [State.postNotice_eq]
@[simp] theorem State.postNotice_merr : (s.postNotice p n).merr = s.merr := by rw [State.postNotice_eq]
@[simp] theorem State.postNotice_supervisor : (s.postNotice p n).supervisor = s.supervisor := by rw [State.postNotice_eq]
@[simp] theorem State.postNotice_hubTime : (s.postNotice p n).hubTime = s.hubTime := by rw [State.postNotice_eq]
@[simp] theorem State.postNotice_timers : (s.postNotice p n).timers = s.timers := by rw [State.postNotice_eq]
@[simp] theorem State.postNotice_sessions : (s.postNotice p n).sessions = s.sessions := by rw [State.postNotice_eq]
@[simp] theorem State.postNotice_sessionCounter : (s.postNotice p n).sessionCounter = s.sessionCounter := by rw [State.postNotice_eq]
@[simp] theorem State.postNotice_requests : (s.postNotice p n).requests = s.requests := by rw [State.postNotice_eq]
@[simp] theorem State.postNotice_allocQueue : (s.postNotice p n).allocQueue = s.allocQueue := by rw [State.postNotice_eq]
@[simp] theorem State.postNotice_syncList : (s.postNotice p n).syncList = s.syncList := by rw [State.postNotice_eq]
@[simp] theorem State.postNotice_table : (s.postNotice p n).table = s.table := by rw [State.postNotice_eq]
@[simp] theorem State.postNotice_recalls : (s.postNotice p n).recalls = s.recalls := by rw [State.postNotice_eq]
@[simp] theorem State.postNotice_recallWait : (s.postNotice p n).recallWait = s.recallWait := by rw [State.postNotice_eq]
@[simp] theorem State.postNotice_recallCounter : (s.postNotice p n).recallCounter = s.recallCounter := by rw [State.postNotice_eq]
@[simp] theorem State.postNotice_seqCounter : (s.postNotice p n).seqCounter = s.seqCounter := by rw [State.postNotice_eq]
@[simp] theorem State.postNotice_jspace : (s.postNotice p n).jspace = s.jspace := by rw [State.postNotice_eq]
@[simp] theorem State.postNotice_highAlarm : (s.postNotice p n).highAlarm = s.highAlarm := by rw [State.postNotice_eq]
@[simp] theorem State.postNotice_job : (s.postNotice p n).job = s.job := by rw [State.postNotice_eq]
@[simp] theorem State.postNotice_fillQueue : (s.postNotice p n).fillQueue = s.fillQueue := by rw [State.postNotice_eq]
@[simp] theorem State.postNotice_directQueue : (s.postNotice p n).directQueue = s.directQueue := by rw [State.postNotice_eq]
@[simp] theorem State.postNotice_passCount : (s.postNotice p n).passCount = s.passCount := by rw [State.postNotice_eq]
@[simp] theorem State.postNotice_faultQueue : (s.postNotice p n).faultQueue = s.faultQueue := by rw [State.postNotice_eq]
@[simp] theorem State.postNotice_stopRecord : (s.postNotice p n).stopRecord = s.stopRecord := by rw [State.postNotice_eq]
@[simp] theorem State.postNotice_recordCounter : (s.postNotice p n).recordCounter = s.recordCounter := by rw [State.postNotice_eq]
@[simp] theorem State.postNotice_mode : (s.postNotice p n).mode = s.mode := by rw [State.postNotice_eq]
@[simp] theorem State.postNotice_regions : (s.postNotice p n).regions = s.regions := by rw [State.postNotice_eq]
@[simp] theorem State.postNotice_completing : (s.postNotice p n).completing = s.completing := by rw [State.postNotice_eq]
@[simp] theorem State.postNotice_journal : (s.postNotice p n).journal = s.journal := by rw [State.postNotice_eq]
end PostNotice

section Appended
variable (s : State) (l : Line) (d : LineData) (o : Origin)
@[simp] theorem State.appended_pending : (s.appended l d o).pending = s.pending := by unfold State.appended; split <;> simp
@[simp] theorem State.appended_resetN : (s.appended l d o).resetN = s.resetN := by unfold State.appended; split <;> simp
@[simp] theorem State.appended_stopOut : (s.appended l d o).stopOut = s.stopOut := by unfold State.appended; split <;> simp
@[simp] theorem State.appended_bus : (s.appended l d o).bus = s.bus := by unfold State.appended; split <;> simp
@[simp] theorem State.appended_mrdy : (s.appended l d o).mrdy = s.mrdy := by unfold State.appended; split <;> simp
@[simp] theorem State.appended_merr : (s.appended l d o).merr = s.merr := by unfold State.appended; split <;> simp
@[simp] theorem State.appended_supervisor : (s.appended l d o).supervisor = s.supervisor := by unfold State.appended; split <;> simp
@[simp] theorem State.appended_hubTime : (s.appended l d o).hubTime = s.hubTime := by unfold State.appended; split <;> simp
@[simp] theorem State.appended_timers : (s.appended l d o).timers = s.timers := by unfold State.appended; split <;> simp
@[simp] theorem State.appended_sessions : (s.appended l d o).sessions = s.sessions := by unfold State.appended; split <;> simp
@[simp] theorem State.appended_sessionCounter : (s.appended l d o).sessionCounter = s.sessionCounter := by unfold State.appended; split <;> simp
@[simp] theorem State.appended_requests : (s.appended l d o).requests = s.requests := by unfold State.appended; split <;> simp
@[simp] theorem State.appended_allocQueue : (s.appended l d o).allocQueue = s.allocQueue := by unfold State.appended; split <;> simp
@[simp] theorem State.appended_syncList : (s.appended l d o).syncList = s.syncList := by unfold State.appended; split <;> simp
@[simp] theorem State.appended_table : (s.appended l d o).table = s.table := by unfold State.appended; split <;> simp
@[simp] theorem State.appended_recalls : (s.appended l d o).recalls = s.recalls := by unfold State.appended; split <;> simp
@[simp] theorem State.appended_recallWait : (s.appended l d o).recallWait = s.recallWait := by unfold State.appended; split <;> simp
@[simp] theorem State.appended_recallCounter : (s.appended l d o).recallCounter = s.recallCounter := by unfold State.appended; split <;> simp
@[simp] theorem State.appended_jspace : (s.appended l d o).jspace = s.jspace := by unfold State.appended; split <;> simp
@[simp] theorem State.appended_job : (s.appended l d o).job = s.job := by unfold State.appended; split <;> simp
@[simp] theorem State.appended_fillQueue : (s.appended l d o).fillQueue = s.fillQueue := by unfold State.appended; split <;> simp
@[simp] theorem State.appended_directQueue : (s.appended l d o).directQueue = s.directQueue := by unfold State.appended; split <;> simp
@[simp] theorem State.appended_passCount : (s.appended l d o).passCount = s.passCount := by unfold State.appended; split <;> simp
@[simp] theorem State.appended_faultQueue : (s.appended l d o).faultQueue = s.faultQueue := by unfold State.appended; split <;> simp
@[simp] theorem State.appended_stopRecord : (s.appended l d o).stopRecord = s.stopRecord := by unfold State.appended; split <;> simp
@[simp] theorem State.appended_recordCounter : (s.appended l d o).recordCounter = s.recordCounter := by unfold State.appended; split <;> simp
@[simp] theorem State.appended_mode : (s.appended l d o).mode = s.mode := by unfold State.appended; split <;> simp
@[simp] theorem State.appended_regions : (s.appended l d o).regions = s.regions := by unfold State.appended; split <;> simp
@[simp] theorem State.appended_completing : (s.appended l d o).completing = s.completing := by unfold State.appended; split <;> simp
@[simp] theorem State.appended_journal : (s.appended l d o).journal =
    s.journal ++ [{ line := l, data := d, seq := s.seqCounter, origin := o, state := .queued }] := by
  unfold State.appended; split <;> simp
@[simp] theorem State.appended_seqCounter : (s.appended l d o).seqCounter = nextSeq s.seqCounter := by
  unfold State.appended; split <;> simp
end Appended

section MergeJournal
variable (s : State) (l : Line) (d : LineData) (o : Origin)
@[simp] theorem State.mergeJournal_pending : (s.mergeJournal l d o).pending = s.pending := rfl
@[simp] theorem State.mergeJournal_resetN : (s.mergeJournal l d o).resetN = s.resetN := rfl
@[simp] theorem State.mergeJournal_stopOut : (s.mergeJournal l d o).stopOut = s.stopOut := rfl
@[simp] theorem State.mergeJournal_bus : (s.mergeJournal l d o).bus = s.bus := rfl
@[simp] theorem State.mergeJournal_mrdy : (s.mergeJournal l d o).mrdy = s.mrdy := rfl
@[simp] theorem State.mergeJournal_merr : (s.mergeJournal l d o).merr = s.merr := rfl
@[simp] theorem State.mergeJournal_supervisor : (s.mergeJournal l d o).supervisor = s.supervisor := rfl
@[simp] theorem State.mergeJournal_hubTime : (s.mergeJournal l d o).hubTime = s.hubTime := rfl
@[simp] theorem State.mergeJournal_timers : (s.mergeJournal l d o).timers = s.timers := rfl
@[simp] theorem State.mergeJournal_links : (s.mergeJournal l d o).links = s.links := rfl
@[simp] theorem State.mergeJournal_sessions : (s.mergeJournal l d o).sessions = s.sessions := rfl
@[simp] theorem State.mergeJournal_sessionCounter : (s.mergeJournal l d o).sessionCounter = s.sessionCounter := rfl
@[simp] theorem State.mergeJournal_notices : (s.mergeJournal l d o).notices = s.notices := rfl
@[simp] theorem State.mergeJournal_requests : (s.mergeJournal l d o).requests = s.requests := rfl
@[simp] theorem State.mergeJournal_allocQueue : (s.mergeJournal l d o).allocQueue = s.allocQueue := rfl
@[simp] theorem State.mergeJournal_syncList : (s.mergeJournal l d o).syncList = s.syncList := rfl
@[simp] theorem State.mergeJournal_table : (s.mergeJournal l d o).table = s.table := rfl
@[simp] theorem State.mergeJournal_recalls : (s.mergeJournal l d o).recalls = s.recalls := rfl
@[simp] theorem State.mergeJournal_recallWait : (s.mergeJournal l d o).recallWait = s.recallWait := rfl
@[simp] theorem State.mergeJournal_recallCounter : (s.mergeJournal l d o).recallCounter = s.recallCounter := rfl
@[simp] theorem State.mergeJournal_seqCounter : (s.mergeJournal l d o).seqCounter = s.seqCounter := rfl
@[simp] theorem State.mergeJournal_jspace : (s.mergeJournal l d o).jspace = s.jspace := rfl
@[simp] theorem State.mergeJournal_highAlarm : (s.mergeJournal l d o).highAlarm = s.highAlarm := rfl
@[simp] theorem State.mergeJournal_job : (s.mergeJournal l d o).job = s.job := rfl
@[simp] theorem State.mergeJournal_fillQueue : (s.mergeJournal l d o).fillQueue = s.fillQueue := rfl
@[simp] theorem State.mergeJournal_directQueue : (s.mergeJournal l d o).directQueue = s.directQueue := rfl
@[simp] theorem State.mergeJournal_passCount : (s.mergeJournal l d o).passCount = s.passCount := rfl
@[simp] theorem State.mergeJournal_faultQueue : (s.mergeJournal l d o).faultQueue = s.faultQueue := rfl
@[simp] theorem State.mergeJournal_stopRecord : (s.mergeJournal l d o).stopRecord = s.stopRecord := rfl
@[simp] theorem State.mergeJournal_recordCounter : (s.mergeJournal l d o).recordCounter = s.recordCounter := rfl
@[simp] theorem State.mergeJournal_mode : (s.mergeJournal l d o).mode = s.mode := rfl
@[simp] theorem State.mergeJournal_regions : (s.mergeJournal l d o).regions = s.regions := rfl
@[simp] theorem State.mergeJournal_completing : (s.mergeJournal l d o).completing = s.completing := rfl
end MergeJournal

section SetHolding
variable (s : State) (l : Line) (p : Port) (h : Holding)
@[simp] theorem State.setHolding_pending : (s.setHolding l p h).pending = s.pending := rfl
@[simp] theorem State.setHolding_resetN : (s.setHolding l p h).resetN = s.resetN := rfl
@[simp] theorem State.setHolding_stopOut : (s.setHolding l p h).stopOut = s.stopOut := rfl
@[simp] theorem State.setHolding_bus : (s.setHolding l p h).bus = s.bus := rfl
@[simp] theorem State.setHolding_mrdy : (s.setHolding l p h).mrdy = s.mrdy := rfl
@[simp] theorem State.setHolding_merr : (s.setHolding l p h).merr = s.merr := rfl
@[simp] theorem State.setHolding_supervisor : (s.setHolding l p h).supervisor = s.supervisor := rfl
@[simp] theorem State.setHolding_hubTime : (s.setHolding l p h).hubTime = s.hubTime := rfl
@[simp] theorem State.setHolding_timers : (s.setHolding l p h).timers = s.timers := rfl
@[simp] theorem State.setHolding_links : (s.setHolding l p h).links = s.links := rfl
@[simp] theorem State.setHolding_sessions : (s.setHolding l p h).sessions = s.sessions := rfl
@[simp] theorem State.setHolding_sessionCounter : (s.setHolding l p h).sessionCounter = s.sessionCounter := rfl
@[simp] theorem State.setHolding_notices : (s.setHolding l p h).notices = s.notices := rfl
@[simp] theorem State.setHolding_requests : (s.setHolding l p h).requests = s.requests := rfl
@[simp] theorem State.setHolding_allocQueue : (s.setHolding l p h).allocQueue = s.allocQueue := rfl
@[simp] theorem State.setHolding_syncList : (s.setHolding l p h).syncList = s.syncList := rfl
@[simp] theorem State.setHolding_recalls : (s.setHolding l p h).recalls = s.recalls := rfl
@[simp] theorem State.setHolding_recallWait : (s.setHolding l p h).recallWait = s.recallWait := rfl
@[simp] theorem State.setHolding_recallCounter : (s.setHolding l p h).recallCounter = s.recallCounter := rfl
@[simp] theorem State.setHolding_journal : (s.setHolding l p h).journal = s.journal := rfl
@[simp] theorem State.setHolding_seqCounter : (s.setHolding l p h).seqCounter = s.seqCounter := rfl
@[simp] theorem State.setHolding_jspace : (s.setHolding l p h).jspace = s.jspace := rfl
@[simp] theorem State.setHolding_highAlarm : (s.setHolding l p h).highAlarm = s.highAlarm := rfl
@[simp] theorem State.setHolding_job : (s.setHolding l p h).job = s.job := rfl
@[simp] theorem State.setHolding_fillQueue : (s.setHolding l p h).fillQueue = s.fillQueue := rfl
@[simp] theorem State.setHolding_directQueue : (s.setHolding l p h).directQueue = s.directQueue := rfl
@[simp] theorem State.setHolding_passCount : (s.setHolding l p h).passCount = s.passCount := rfl
@[simp] theorem State.setHolding_faultQueue : (s.setHolding l p h).faultQueue = s.faultQueue := rfl
@[simp] theorem State.setHolding_stopRecord : (s.setHolding l p h).stopRecord = s.stopRecord := rfl
@[simp] theorem State.setHolding_recordCounter : (s.setHolding l p h).recordCounter = s.recordCounter := rfl
@[simp] theorem State.setHolding_mode : (s.setHolding l p h).mode = s.mode := rfl
@[simp] theorem State.setHolding_regions : (s.setHolding l p h).regions = s.regions := rfl
@[simp] theorem State.setHolding_completing : (s.setHolding l p h).completing = s.completing := rfl
end SetHolding

section SetCopy
variable (s : State) (l : Line) (c : HubCopy)
@[simp] theorem State.setCopy_pending : (s.setCopy l c).pending = s.pending := rfl
@[simp] theorem State.setCopy_resetN : (s.setCopy l c).resetN = s.resetN := rfl
@[simp] theorem State.setCopy_stopOut : (s.setCopy l c).stopOut = s.stopOut := rfl
@[simp] theorem State.setCopy_bus : (s.setCopy l c).bus = s.bus := rfl
@[simp] theorem State.setCopy_mrdy : (s.setCopy l c).mrdy = s.mrdy := rfl
@[simp] theorem State.setCopy_merr : (s.setCopy l c).merr = s.merr := rfl
@[simp] theorem State.setCopy_supervisor : (s.setCopy l c).supervisor = s.supervisor := rfl
@[simp] theorem State.setCopy_hubTime : (s.setCopy l c).hubTime = s.hubTime := rfl
@[simp] theorem State.setCopy_timers : (s.setCopy l c).timers = s.timers := rfl
@[simp] theorem State.setCopy_links : (s.setCopy l c).links = s.links := rfl
@[simp] theorem State.setCopy_sessions : (s.setCopy l c).sessions = s.sessions := rfl
@[simp] theorem State.setCopy_sessionCounter : (s.setCopy l c).sessionCounter = s.sessionCounter := rfl
@[simp] theorem State.setCopy_notices : (s.setCopy l c).notices = s.notices := rfl
@[simp] theorem State.setCopy_requests : (s.setCopy l c).requests = s.requests := rfl
@[simp] theorem State.setCopy_allocQueue : (s.setCopy l c).allocQueue = s.allocQueue := rfl
@[simp] theorem State.setCopy_syncList : (s.setCopy l c).syncList = s.syncList := rfl
@[simp] theorem State.setCopy_recalls : (s.setCopy l c).recalls = s.recalls := rfl
@[simp] theorem State.setCopy_recallWait : (s.setCopy l c).recallWait = s.recallWait := rfl
@[simp] theorem State.setCopy_recallCounter : (s.setCopy l c).recallCounter = s.recallCounter := rfl
@[simp] theorem State.setCopy_journal : (s.setCopy l c).journal = s.journal := rfl
@[simp] theorem State.setCopy_seqCounter : (s.setCopy l c).seqCounter = s.seqCounter := rfl
@[simp] theorem State.setCopy_jspace : (s.setCopy l c).jspace = s.jspace := rfl
@[simp] theorem State.setCopy_highAlarm : (s.setCopy l c).highAlarm = s.highAlarm := rfl
@[simp] theorem State.setCopy_job : (s.setCopy l c).job = s.job := rfl
@[simp] theorem State.setCopy_fillQueue : (s.setCopy l c).fillQueue = s.fillQueue := rfl
@[simp] theorem State.setCopy_directQueue : (s.setCopy l c).directQueue = s.directQueue := rfl
@[simp] theorem State.setCopy_passCount : (s.setCopy l c).passCount = s.passCount := rfl
@[simp] theorem State.setCopy_faultQueue : (s.setCopy l c).faultQueue = s.faultQueue := rfl
@[simp] theorem State.setCopy_stopRecord : (s.setCopy l c).stopRecord = s.stopRecord := rfl
@[simp] theorem State.setCopy_recordCounter : (s.setCopy l c).recordCounter = s.recordCounter := rfl
@[simp] theorem State.setCopy_mode : (s.setCopy l c).mode = s.mode := rfl
@[simp] theorem State.setCopy_regions : (s.setCopy l c).regions = s.regions := rfl
@[simp] theorem State.setCopy_completing : (s.setCopy l c).completing = s.completing := rfl
end SetCopy

section SetActivity
variable (s : State) (l : Line) (a : Activity)
@[simp] theorem State.setActivity_pending : (s.setActivity l a).pending = s.pending := rfl
@[simp] theorem State.setActivity_resetN : (s.setActivity l a).resetN = s.resetN := rfl
@[simp] theorem State.setActivity_stopOut : (s.setActivity l a).stopOut = s.stopOut := rfl
@[simp] theorem State.setActivity_bus : (s.setActivity l a).bus = s.bus := rfl
@[simp] theorem State.setActivity_mrdy : (s.setActivity l a).mrdy = s.mrdy := rfl
@[simp] theorem State.setActivity_merr : (s.setActivity l a).merr = s.merr := rfl
@[simp] theorem State.setActivity_supervisor : (s.setActivity l a).supervisor = s.supervisor := rfl
@[simp] theorem State.setActivity_hubTime : (s.setActivity l a).hubTime = s.hubTime := rfl
@[simp] theorem State.setActivity_timers : (s.setActivity l a).timers = s.timers := rfl
@[simp] theorem State.setActivity_links : (s.setActivity l a).links = s.links := rfl
@[simp] theorem State.setActivity_sessions : (s.setActivity l a).sessions = s.sessions := rfl
@[simp] theorem State.setActivity_sessionCounter : (s.setActivity l a).sessionCounter = s.sessionCounter := rfl
@[simp] theorem State.setActivity_notices : (s.setActivity l a).notices = s.notices := rfl
@[simp] theorem State.setActivity_requests : (s.setActivity l a).requests = s.requests := rfl
@[simp] theorem State.setActivity_allocQueue : (s.setActivity l a).allocQueue = s.allocQueue := rfl
@[simp] theorem State.setActivity_syncList : (s.setActivity l a).syncList = s.syncList := rfl
@[simp] theorem State.setActivity_recalls : (s.setActivity l a).recalls = s.recalls := rfl
@[simp] theorem State.setActivity_recallWait : (s.setActivity l a).recallWait = s.recallWait := rfl
@[simp] theorem State.setActivity_recallCounter : (s.setActivity l a).recallCounter = s.recallCounter := rfl
@[simp] theorem State.setActivity_journal : (s.setActivity l a).journal = s.journal := rfl
@[simp] theorem State.setActivity_seqCounter : (s.setActivity l a).seqCounter = s.seqCounter := rfl
@[simp] theorem State.setActivity_jspace : (s.setActivity l a).jspace = s.jspace := rfl
@[simp] theorem State.setActivity_highAlarm : (s.setActivity l a).highAlarm = s.highAlarm := rfl
@[simp] theorem State.setActivity_job : (s.setActivity l a).job = s.job := rfl
@[simp] theorem State.setActivity_fillQueue : (s.setActivity l a).fillQueue = s.fillQueue := rfl
@[simp] theorem State.setActivity_directQueue : (s.setActivity l a).directQueue = s.directQueue := rfl
@[simp] theorem State.setActivity_passCount : (s.setActivity l a).passCount = s.passCount := rfl
@[simp] theorem State.setActivity_faultQueue : (s.setActivity l a).faultQueue = s.faultQueue := rfl
@[simp] theorem State.setActivity_stopRecord : (s.setActivity l a).stopRecord = s.stopRecord := rfl
@[simp] theorem State.setActivity_recordCounter : (s.setActivity l a).recordCounter = s.recordCounter := rfl
@[simp] theorem State.setActivity_mode : (s.setActivity l a).mode = s.mode := rfl
@[simp] theorem State.setActivity_regions : (s.setActivity l a).regions = s.regions := rfl
@[simp] theorem State.setActivity_completing : (s.setActivity l a).completing = s.completing := rfl
end SetActivity

section JoinWaiters
variable (s : State) (l : Line) (r : ReqId)
@[simp] theorem State.joinWaiters_pending : (s.joinWaiters l r).pending = s.pending := rfl
@[simp] theorem State.joinWaiters_resetN : (s.joinWaiters l r).resetN = s.resetN := rfl
@[simp] theorem State.joinWaiters_stopOut : (s.joinWaiters l r).stopOut = s.stopOut := rfl
@[simp] theorem State.joinWaiters_bus : (s.joinWaiters l r).bus = s.bus := rfl
@[simp] theorem State.joinWaiters_mrdy : (s.joinWaiters l r).mrdy = s.mrdy := rfl
@[simp] theorem State.joinWaiters_merr : (s.joinWaiters l r).merr = s.merr := rfl
@[simp] theorem State.joinWaiters_supervisor : (s.joinWaiters l r).supervisor = s.supervisor := rfl
@[simp] theorem State.joinWaiters_hubTime : (s.joinWaiters l r).hubTime = s.hubTime := rfl
@[simp] theorem State.joinWaiters_timers : (s.joinWaiters l r).timers = s.timers := rfl
@[simp] theorem State.joinWaiters_links : (s.joinWaiters l r).links = s.links := rfl
@[simp] theorem State.joinWaiters_sessions : (s.joinWaiters l r).sessions = s.sessions := rfl
@[simp] theorem State.joinWaiters_sessionCounter : (s.joinWaiters l r).sessionCounter = s.sessionCounter := rfl
@[simp] theorem State.joinWaiters_notices : (s.joinWaiters l r).notices = s.notices := rfl
@[simp] theorem State.joinWaiters_requests : (s.joinWaiters l r).requests = s.requests := rfl
@[simp] theorem State.joinWaiters_allocQueue : (s.joinWaiters l r).allocQueue = s.allocQueue := rfl
@[simp] theorem State.joinWaiters_syncList : (s.joinWaiters l r).syncList = s.syncList := rfl
@[simp] theorem State.joinWaiters_recalls : (s.joinWaiters l r).recalls = s.recalls := rfl
@[simp] theorem State.joinWaiters_recallWait : (s.joinWaiters l r).recallWait = s.recallWait := rfl
@[simp] theorem State.joinWaiters_recallCounter : (s.joinWaiters l r).recallCounter = s.recallCounter := rfl
@[simp] theorem State.joinWaiters_journal : (s.joinWaiters l r).journal = s.journal := rfl
@[simp] theorem State.joinWaiters_seqCounter : (s.joinWaiters l r).seqCounter = s.seqCounter := rfl
@[simp] theorem State.joinWaiters_jspace : (s.joinWaiters l r).jspace = s.jspace := rfl
@[simp] theorem State.joinWaiters_highAlarm : (s.joinWaiters l r).highAlarm = s.highAlarm := rfl
@[simp] theorem State.joinWaiters_job : (s.joinWaiters l r).job = s.job := rfl
@[simp] theorem State.joinWaiters_fillQueue : (s.joinWaiters l r).fillQueue = s.fillQueue := rfl
@[simp] theorem State.joinWaiters_directQueue : (s.joinWaiters l r).directQueue = s.directQueue := rfl
@[simp] theorem State.joinWaiters_passCount : (s.joinWaiters l r).passCount = s.passCount := rfl
@[simp] theorem State.joinWaiters_faultQueue : (s.joinWaiters l r).faultQueue = s.faultQueue := rfl
@[simp] theorem State.joinWaiters_stopRecord : (s.joinWaiters l r).stopRecord = s.stopRecord := rfl
@[simp] theorem State.joinWaiters_recordCounter : (s.joinWaiters l r).recordCounter = s.recordCounter := rfl
@[simp] theorem State.joinWaiters_mode : (s.joinWaiters l r).mode = s.mode := rfl
@[simp] theorem State.joinWaiters_regions : (s.joinWaiters l r).regions = s.regions := rfl
@[simp] theorem State.joinWaiters_completing : (s.joinWaiters l r).completing = s.completing := rfl
end JoinWaiters

end Sys2Proof.Machine
end

