-- ==== Sys2Proof/Laws/Keeps.lean ====
section
/-! SUPPORT. What every shared operation keeps: the registers it has no business with, the laws of `InOrder`, and the
STOPPED mode. One lemma per operation; `Keeps` composes. -/

namespace Sys2Proof.Machine

/-- From `s` to `t` no register outside the data path changed, STOPPED was not left and no record appeared in it, every
law that held holds (that of the tables on a condition), no request became outstanding, what stood in a transmit queue
stands at its front (on a condition), and the fault unit is as it was (on a condition). -/
structure KeepsIf (c d f : Prop) (s t : State) : Prop where
  pending        : t.pending = s.pending
  resetN         : t.resetN = s.resetN
  mrdy           : t.mrdy = s.mrdy
  merr           : t.merr = s.merr
  supervisor     : t.supervisor = s.supervisor
  hubTime        : t.hubTime = s.hubTime
  timers         : t.timers = s.timers
  sessionCounter : t.sessionCounter = s.sessionCounter
  regions        : t.regions = s.regions
  stopped        : s.mode = .stopped → t.mode = .stopped
  records        : s.mode = .stopped → (t.faultQueue.map (·.id)).Sublist (s.faultQueue.map (·.id))
  stopId         : s.mode = .stopped → t.stopRecord.map (·.id) = s.stopRecord.map (·.id)
  faults         : FaultUnitOk s → FaultUnitOk t
  tables         : c → TablesOk s → TablesOk t
  linkUp         : ∀ p : Port, t.links[p].up = s.links[p].up
  replays        : ReplayOk s → ReplayOk t
  requests       : t.requests.Sublist s.requests
  lanes          : d → ∀ p : Port, s.links[p].tx <+: t.links[p].tx
  unit           : f → t.faultQueue = s.faultQueue ∧ t.stopRecord = s.stopRecord ∧ t.mode = s.mode

/-- `KeepsIf` without conditions. -/
abbrev Keeps (s t : State) : Prop := KeepsIf True True True s t

/-- `Keeps`, but that the fault unit may change. -/
abbrev KeepsMost (s t : State) : Prop := KeepsIf True True False s t

/-- `Keeps`, but that the fault unit may change, and a transmit queue may lose frames. -/
abbrev KeepsRest (s t : State) : Prop := KeepsIf True False False s t

/-- One operation after another, the condition of the first or the second. -/
theorem KeepsIf.trans {c d f : Prop} {s t u : State} (a : KeepsIf c d f s t) (b : KeepsIf c d f t u) : KeepsIf c d f s u where
  pending := b.pending.trans a.pending
  resetN := b.resetN.trans a.resetN
  mrdy := b.mrdy.trans a.mrdy
  merr := b.merr.trans a.merr
  supervisor := b.supervisor.trans a.supervisor
  hubTime := b.hubTime.trans a.hubTime
  timers := b.timers.trans a.timers
  sessionCounter := b.sessionCounter.trans a.sessionCounter
  regions := b.regions.trans a.regions
  stopped h := b.stopped (a.stopped h)
  records h := (b.records (a.stopped h)).trans (a.records h)
  stopId h := (b.stopId (a.stopped h)).trans (a.stopId h)
  faults h := b.faults (a.faults h)
  tables hc h := b.tables hc (a.tables hc h)
  linkUp p := (b.linkUp p).trans (a.linkUp p)
  replays h := b.replays (a.replays h)
  requests := b.requests.trans a.requests
  lanes h p := (a.lanes h p).trans (b.lanes h p)
  unit h := ⟨(b.unit h).1.trans (a.unit h).1, (b.unit h).2.1.trans (a.unit h).2.1, (b.unit h).2.2.trans (a.unit h).2.2⟩

/-- A condition may be replaced by any from which the tables' law still follows. -/
theorem KeepsIf.recondition {c c' d f : Prop} {s t : State} (a : KeepsIf c d f s t) (h : c' → TablesOk s → TablesOk t) :
    KeepsIf c' d f s t :=
  { a with tables := h }

/-- Without the fault unit. -/
theorem KeepsIf.most {c d f : Prop} {s t : State} (a : KeepsIf c d f s t) : KeepsIf c d False s t := { a with unit := nofun }

/-- Without the fault unit and the transmit queues. -/
theorem KeepsIf.rest {c d f : Prop} {s t : State} (a : KeepsIf c d f s t) : KeepsIf c False False s t :=
  { a with lanes := nofun, unit := nofun }

theorem KeepsMost.trans {s t u : State} (a : KeepsMost s t) (b : KeepsMost t u) : KeepsMost s u := KeepsIf.trans a b

/-- What holds without conditions holds on any. -/
theorem KeepsIf.any {c d f : Prop} {s t : State} (a : KeepsIf True True True s t) : KeepsIf c d f s t :=
  { a with tables := fun _ => a.tables trivial, lanes := fun _ => a.lanes trivial, unit := fun _ => a.unit trivial }

namespace Keeps

@[refl] theorem refl (s : State) : Keeps s s := by
  constructor <;> first | rfl | exact id | exact fun _ => id | exact fun _ => rfl | exact fun _ => List.Sublist.refl _ | exact fun _ _ => List.prefix_refl _ | exact fun _ => ⟨rfl, rfl, rfl⟩

theorem trans {s t u : State} (a : Keeps s t) (b : Keeps t u) : Keeps s u := KeepsIf.trans a b

/-- The fields that no law of `Keeps` speaks of. -/
theorem plain (s : State) {bus sessions notices allocQueue syncList recallWait recallCounter seqCounter jspace highAlarm
    job fillQueue directQueue passCount recordCounter completing} :
    Keeps s { s with bus := bus, sessions := sessions, notices := notices, allocQueue := allocQueue, syncList := syncList,
                     recallWait := recallWait, recallCounter := recallCounter, seqCounter := seqCounter, jspace := jspace,
                     highAlarm := highAlarm, job := job, fillQueue := fillQueue, directQueue := directQueue,
                     passCount := passCount, recordCounter := recordCounter, completing := completing } := by
  constructor <;> try first | rfl | exact id | exact fun _ => rfl | exact fun _ => List.Sublist.refl _ | exact fun _ _ => List.prefix_refl _ | exact fun _ => ⟨rfl, rfl, rfl⟩
  · rintro ⟨a, b, c, d⟩; exact ⟨a, b, c, d⟩
  · rintro - ⟨a, b, c, d⟩; exact ⟨a, b, c, d⟩

theorem requests_sub (s : State) {rs : List Request} (h : rs.Sublist s.requests) : Keeps s { s with requests := rs } := by
  constructor <;> try first | rfl | exact id | exact h | exact fun _ => rfl | exact fun _ => List.Sublist.refl _ | exact fun _ _ => List.prefix_refl _ | exact fun _ => ⟨rfl, rfl, rfl⟩
  · rintro ⟨a, b, c, d⟩; exact ⟨a, b, c, d⟩
  · rintro - ⟨a, b, c, d⟩; exact ⟨a, b, c, d⟩

theorem table_of (s : State) {tb : List Entry} (hl : tb.length ≤ s.table.length)
    (hn : (s.table.map Entry.line).Nodup → (tb.map Entry.line).Nodup) : Keeps s { s with table := tb } := by
  constructor <;> try first | rfl | exact id | exact fun _ => rfl | exact fun _ => List.Sublist.refl _ | exact fun _ _ => List.prefix_refl _ | exact fun _ => ⟨rfl, rfl, rfl⟩
  · rintro ⟨a, b, c, d⟩; exact ⟨a, b, c, d⟩
  · rintro - ⟨a, b, c, d⟩; exact ⟨hl.trans a, hn b, c, d⟩

theorem recalls_of (s : State) {rs : List Recall} (hl : s.recalls.length ≤ Config.recallTableSize →
    rs.length ≤ Config.recallTableSize) : Keeps s { s with recalls := rs } := by
  constructor <;> try first | rfl | exact id | exact fun _ => rfl | exact fun _ => List.Sublist.refl _ | exact fun _ _ => List.prefix_refl _ | exact fun _ => ⟨rfl, rfl, rfl⟩
  · rintro ⟨a, b, c, d⟩; exact ⟨a, b, c, d⟩
  · rintro - ⟨a, b, c, d⟩; exact ⟨a, b, hl c, d⟩

theorem journal_of (s : State) {js : List JournalEntry} (hl : s.journal.length ≤ Config.journalSize →
    js.length ≤ Config.journalSize) : Keeps s { s with journal := js } := by
  constructor <;> try first | rfl | exact id | exact fun _ => rfl | exact fun _ => List.Sublist.refl _ | exact fun _ _ => List.prefix_refl _ | exact fun _ => ⟨rfl, rfl, rfl⟩
  · rintro ⟨a, b, c, d⟩; exact ⟨a, b, c, d⟩
  · rintro - ⟨a, b, c, d⟩; exact ⟨a, b, c, hl d⟩

theorem faultQueue_of (s : State) {q : List FaultRecord} (hl : q.length ≤ s.faultQueue.length)
    (hi : (q.map (·.id)).Sublist (s.faultQueue.map (·.id))) : KeepsMost s { s with faultQueue := q } := by
  constructor <;> try first | rfl | exact id | exact fun _ => hi | exact fun _ => rfl | exact fun _ => List.Sublist.refl _ | exact fun _ _ => List.prefix_refl _ | exact (False.elim ·)
  · rintro ⟨a, b, c, d⟩; exact ⟨hl.trans a, b, c, d⟩
  · rintro - ⟨a, b, c, d⟩; exact ⟨a, b, c, d⟩

theorem stopRecord_of (s : State) {r : Option FaultRecord} (hi : r.map (·.id) = s.stopRecord.map (·.id)) :
    KeepsMost s { s with stopRecord := r } := by
  have hs : r.isSome = s.stopRecord.isSome := by
    rw [← Option.isSome_map (f := FaultRecord.id), hi, Option.isSome_map]
  constructor <;> try first | rfl | exact id | exact fun _ => hi | exact fun _ => rfl | exact fun _ => List.Sublist.refl _ | exact fun _ _ => List.prefix_refl _ | exact (False.elim ·)
  · rintro ⟨a, b, c, d⟩; exact ⟨a, hs ▸ b, c, d⟩
  · rintro - ⟨a, b, c, d⟩; exact ⟨a, b, c, d⟩

theorem links_if {d : Prop} (s : State) (p : Port) (l : LinkUnit) (hu : l.up = s.links[p].up)
    (hr : s.links[p].replay.length ≤ Config.replayDepth → l.replay.length ≤ Config.replayDepth)
    (ht : d → s.links[p].tx <+: l.tx) : KeepsIf True d True s (s.setLink p l) := by
  constructor <;> try first | rfl | exact id | exact fun _ => rfl | exact fun _ => List.Sublist.refl _ | exact fun _ _ => List.prefix_refl _ | exact fun _ => ⟨rfl, rfl, rfl⟩
  · rintro ⟨a, b, c, d⟩; exact ⟨a, b, c, d⟩
  · rintro - ⟨a, b, c, d⟩; exact ⟨a, b, c, d⟩
  · intro q
    by_cases h : p = q
    · subst h; simpa using hu
    · have : p.val ≠ q.val := fun e => h (Fin.ext e)
      simp [this]
  · intro ho q
    by_cases h : p = q
    · subst h; simpa using hr (ho p)
    · have : p.val ≠ q.val := fun e => h (Fin.ext e)
      simpa [Vector.getElem_set, this] using ho q
  · intro hd q
    by_cases h : p = q
    · subst h; simpa using ht hd
    · have : p.val ≠ q.val := fun e => h (Fin.ext e)
      simp [this]

theorem links_of (s : State) (p : Port) (l : LinkUnit) (hu : l.up = s.links[p].up)
    (hr : s.links[p].replay.length ≤ Config.replayDepth → l.replay.length ≤ Config.replayDepth)
    (ht : s.links[p].tx <+: l.tx) : Keeps s (s.setLink p l) := links_if s p l hu hr fun _ => ht

/-- An operation repeated over a list keeps what it keeps each time. -/
theorem foldl {α : Type} {f : State → α → State} (h : ∀ s a, Keeps s (f s a)) (as : List α) (s : State) :
    Keeps s (as.foldl f s) := by
  induction as generalizing s with
  | nil => exact refl s
  | cons a as ih => exact (h s a).trans (ih _)

end Keeps

/-- The same for what may change the fault unit. -/
theorem KeepsMost.foldl {α : Type} {f : State → α → State} (h : ∀ s a, KeepsMost s (f s a)) (as : List α) (s : State) :
    KeepsMost s (as.foldl f s) := by
  induction as generalizing s with
  | nil => exact (Keeps.refl s).most
  | cons a as ih => exact (h s a).trans (ih _)

end Sys2Proof.Machine
end

