-- ==== Sys2Proof/Laws/KeepsOps.lean ====
section
/-! SUPPORT. `Keeps` for the operations over links, notices, records, recalls, the journal and the port. -/

namespace Sys2Proof.Machine

variable (s : State) (p : Port) (l : Line)

/-! ## Links and replies -/

theorem sendLink_keeps (kind tag : Byte) (payload : List Byte) : Keeps s (s.sendLink p kind tag payload) := by
  apply Keeps.links_of <;> unfold LinkUnit.sendLink <;> split <;> simp

theorem replay_bound (fs : List Frame) (f : Frame) (n : Nat) :
    ((fs ++ [f]).drop (fs.length + 1 - n)).length ≤ n := by simp; omega

theorem sendSeq_keeps (kind tag : Byte) (payload : List Byte) : Keeps s (s.sendSeq p kind tag payload) := by
  apply Keeps.links_of
  · unfold LinkUnit.sendSeq; split <;> simp_all
  · intro h
    unfold LinkUnit.sendSeq
    split
    · exact replay_bound _ _ _
    · exact h
  · unfold LinkUnit.sendSeq
    split
    · exact List.prefix_append _ _
    · exact List.prefix_refl _

theorem reply_keeps (tag : Byte) (st : Status) (data : List Byte) : Keeps s (s.reply p tag st data) :=
  sendSeq_keeps ..

theorem sendSessionEnd_keeps (r : EndReason) (no : SessionNo) : Keeps s (s.sendSessionEnd p r no) := sendLink_keeps ..

theorem restartKeepalive_keeps : Keeps s (s.restartKeepalive p) := by
  unfold State.restartKeepalive
  split
  · exact Keeps.links_of _ _ _ rfl id (List.prefix_refl _)
  · exact Keeps.refl s

theorem acceptSeq_keeps : Keeps s (s.acceptSeq p) := Keeps.links_of _ _ _ rfl id (List.prefix_refl _)

theorem rejectSeq_keeps : Keeps s (s.rejectSeq p) := by
  unfold State.rejectSeq
  split
  · exact Keeps.refl s
  · exact (sendLink_keeps ..).trans (Keeps.links_of _ _ _ rfl id (List.prefix_refl _))

theorem onGoodFrame_keeps {d f : Prop} {take : State → State} (h : ∀ t, KeepsIf True d f t (take t)) :
    KeepsIf True d f s (s.onGoodFrame p take) := by
  unfold State.onGoodFrame
  split
  · exact (restartKeepalive_keeps ..).any.trans (h _)
  · exact (Keeps.refl s).any

theorem onSequenced_keeps (seq : Byte) {take : State → State} (h : ∀ t, Keeps t (take t)) :
    Keeps s (s.onSequenced p seq take) := by
  refine onGoodFrame_keeps _ _ fun t => ?_
  split
  · exact (acceptSeq_keeps ..).trans (h _)
  · exact rejectSeq_keeps ..

theorem answer_keeps (id : ReqId) (st : Status) (data : List Byte) : Keeps s (s.answer id st data) :=
  (Keeps.requests_sub s List.filter_sublist).trans (reply_keeps ..)

/-! ## Notices -/

theorem setNotices_keeps (n : NoticeUnit) : Keeps s (s.setNotices p n) := Keeps.plain s

theorem setSession_keeps (x : Session) : Keeps s (s.setSession p x) := Keeps.plain s

theorem sendNotice_keeps (n : SentNotice) : Keeps s (s.sendNotice p n) := sendSeq_keeps ..

theorem deliverNotice_keeps : Keeps s (s.deliverNotice p) := by
  unfold State.deliverNotice
  split
  · exact (setNotices_keeps ..).trans (sendNotice_keeps ..)
  · exact Keeps.refl s

theorem postNotice_keeps (n : Notice) : Keeps s (s.postNotice p n) := by
  unfold State.postNotice
  split
  · exact (setNotices_keeps ..).trans (deliverNotice_keeps ..)
  · exact Keeps.refl s

theorem postAll_keeps (n : Notice) : Keeps s (s.postAll n) := Keeps.foldl (fun t q => postNotice_keeps t q n) _ _

/-! ## Fault records -/

theorem postFaultPosted_keeps : Keeps s s.postFaultPosted := postNotice_keeps ..

theorem updateRecord_keeps (id : Byte) (f : FaultRecord → FaultRecord) (hf : ∀ r, (f r).id = r.id) :
    KeepsMost s (s.updateRecord id f) := by
  apply Keeps.faultQueue_of
  · simp
  · rw [List.map_map]
    refine (List.map_congr_left fun r _ => ?_) ▸ List.Sublist.refl _
    simp only [Function.comp]; split <;> simp [hf]

theorem repostRecord_keeps (id : Byte) (c : StoreCause) : KeepsMost s (s.repostRecord id c) :=
  (updateRecord_keeps s id (fun r => { r with state := .posted, body := r.body.failAgain c }) fun _ => rfl).trans
    (postFaultPosted_keeps _).most

theorem retireRecord_keeps (id : Byte) : KeepsMost s (s.retireRecord id) :=
  Keeps.faultQueue_of s (List.length_filter_le ..) (List.filter_sublist.map _)

/-- A record appears only while RUNNING (R118), and the hub stops in the step that fills the stop record slot (R122). -/
theorem createRecord_keeps (body : RecordBody) (h : s.mode = .running) : KeepsMost s (s.createRecord body) := by
  have hne : s.mode ≠ .stopped := by rw [h]; decide
  unfold State.createRecord
  dsimp only
  split
  · rename_i hq
    refine KeepsMost.trans ?_ (postFaultPosted_keeps _).most
    constructor <;> try first | rfl | exact id | exact (False.elim ·) | exact fun e => absurd e hne | exact fun _ => rfl | exact fun _ _ => List.prefix_refl _
    · rintro ⟨a, b, c, d⟩
      refine ⟨?_, b, c, d⟩
      simp only [Config.faultQueueSize] at hq ⊢
      simp; omega
    · rintro - ⟨a, b, c, d⟩; exact ⟨a, b, c, d⟩
  · refine KeepsMost.trans ?_ (postAll_keeps _ _).most
    constructor <;> try first | rfl | exact id | exact (False.elim ·) | exact fun e => absurd e hne | exact fun _ => rfl | exact fun _ _ => List.prefix_refl _
    · rintro ⟨a, b, c, d⟩; exact ⟨a, by simp, fun _ => rfl, fun _ _ => rfl⟩
    · rintro - ⟨a, b, c, d⟩; exact ⟨a, b, c, d⟩

/-! ## Recalls -/

theorem openRecall_keeps (w : WaitingRecall) (h : s.recalls.length < Config.recallTableSize) :
    Keeps s (s.openRecall w) := by
  unfold State.openRecall
  dsimp only
  refine Keeps.trans ?_ (sendSeq_keeps ..)
  refine (Keeps.recalls_of s (rs := s.recalls ++ [_]) fun _ => ?_).trans (Keeps.plain { s with recalls := _ })
  simp; omega

theorem askRecall_keeps (w : WaitingRecall) : Keeps s (s.askRecall w) := by
  unfold State.askRecall
  split
  · exact Keeps.refl s
  · split
    · exact openRecall_keeps _ _ ‹_›
    · exact Keeps.plain s

theorem askRecalls_keeps (ws : List WaitingRecall) : Keeps s (s.askRecalls ws) := Keeps.foldl askRecall_keeps _ _

theorem openWaiting_keeps : Keeps s s.openWaiting := by
  unfold State.openWaiting
  split
  · split
    · exact Keeps.refl s
    · refine Keeps.trans ?_ (openRecall_keeps _ _ ‹_›)
      exact Keeps.plain s
  · exact Keeps.refl s

theorem openAllWaiting_keeps (n : Nat) : Keeps s (s.openAllWaiting n) := by
  induction n generalizing s with
  | zero => exact Keeps.refl s
  | succ n ih => exact (openWaiting_keeps s).trans (ih _)

theorem removeRecall_keeps : Keeps s (s.removeRecall l p) :=
  Keeps.trans ((Keeps.recalls_of s fun h => (List.length_filter_le ..).trans h).trans (Keeps.plain _))
    (openWaiting_keeps _)

/-! ## The journal and the line table's entries -/

theorem raiseHighWater_keeps : Keeps s s.raiseHighWater := by
  unfold State.raiseHighWater
  split
  · refine Keeps.trans ?_ (postNotice_keeps ..)
    exact Keeps.plain s
  · exact Keeps.refl s

theorem appendJournal_keeps (d : LineData) (o : Origin) (h : s.slotFree = true) : Keeps s (s.appendJournal l d o) := by
  unfold State.appendJournal
  dsimp only
  refine Keeps.trans ?_ (raiseHighWater_keeps _)
  refine (Keeps.journal_of s (js := s.journal ++ [_]) fun _ => ?_).trans (Keeps.plain { s with journal := _ })
  simp [State.slotFree] at h
  simp; omega

theorem mergeJournal_keeps (d : LineData) (o : Origin) : Keeps s (s.mergeJournal l d o) :=
  Keeps.journal_of s fun h => by simpa using h

theorem insertJournal_keeps (d : LineData) (o : Origin) (h : s.canInsert l = true) : Keeps s (s.insertJournal l d o) := by
  unfold State.insertJournal
  split
  · exact mergeJournal_keeps ..
  · rename_i hq
    refine appendJournal_keeps _ _ _ _ ?_
    simpa [State.canInsert, hq] using h

theorem updateEntry_keeps (f : Entry → Entry) (hf : ∀ e, (f e).line = e.line) : Keeps s (s.updateEntry l f) := by
  refine Keeps.table_of s (by simp) fun h => ?_
  have : (s.table.map fun e => if e.line == l then f e else e).map Entry.line = s.table.map Entry.line := by
    rw [List.map_map]; refine List.map_congr_left fun e _ => ?_
    simp only [Function.comp]; split <;> simp [hf]
  rwa [this]

theorem setCopy_keeps (c : HubCopy) : Keeps s (s.setCopy l c) := updateEntry_keeps _ _ _ fun _ => rfl
theorem setActivity_keeps (a : Activity) : Keeps s (s.setActivity l a) := updateEntry_keeps _ _ _ fun _ => rfl
theorem setHolding_keeps (h : Holding) : Keeps s (s.setHolding l p h) := updateEntry_keeps _ _ _ fun _ => rfl
theorem joinWaiters_keeps (r : ReqId) : Keeps s (s.joinWaiters l r) := updateEntry_keeps _ _ _ fun _ => rfl
theorem dropHead_keeps : Keeps s (s.dropHead l) := updateEntry_keeps _ _ _ fun _ => rfl

theorem removeEntry_keeps : Keeps s (s.removeEntry l) :=
  (Keeps.table_of s (List.length_filter_le ..) fun h => h.sublist (List.filter_sublist.map _)).trans (Keeps.plain _)

theorem leaveSpace_keeps : Keeps s (s.leaveSpace l) := Keeps.plain s

theorem joinSpace_keeps (o : Origin) : Keeps s (s.joinSpace l o) := by
  unfold State.joinSpace
  split
  · exact Keeps.refl s
  · exact Keeps.plain s

theorem insertCopy_keeps (d : LineData) (o : Origin) (h : s.canInsert l = true) : Keeps s (s.insertCopy l d o) :=
  ((insertJournal_keeps s l d o h).trans (setCopy_keeps ..)).trans (leaveSpace_keeps ..)

theorem makeDirty_keeps (d : LineData) (o : Origin) : Keeps s (s.makeDirty l d o) := by
  unfold State.makeDirty
  dsimp only
  split
  · split
    · exact (setCopy_keeps ..).trans (insertCopy_keeps _ _ _ _ ‹_›)
    · exact (setCopy_keeps ..).trans (joinSpace_keeps ..)
  · exact setCopy_keeps ..

theorem joinSync_keeps (i : SyncItem) : Keeps s (s.joinSync i) := Keeps.plain s

theorem waitFlush_keeps (id : ReqId) (q : Seq) : Keeps s (s.waitFlush id q) := Keeps.plain s

theorem examineSync_keeps : Keeps s s.examineSync := by
  unfold State.examineSync
  refine Keeps.trans ?_ (Keeps.foldl (fun t i => answer_keeps t _ _ _) _ _)
  exact Keeps.plain s

theorem removeJournal_keeps (q : Seq) (ab : Bool) : Keeps s (s.removeJournal q ab) := by
  unfold State.removeJournal
  dsimp only
  refine Keeps.trans ?_ (Keeps.plain _)
  refine Keeps.trans ?_ (examineSync_keeps _)
  exact (Keeps.journal_of s fun h => (List.length_filter_le ..).trans h).trans (Keeps.plain _)

/-! ## The backing store port -/

theorem beginAccess_keeps (j : Job) : Keeps s (s.beginAccess j) := by
  unfold State.beginAccess
  split <;> exact Keeps.plain s

theorem endJob_keeps : Keeps s s.endJob := Keeps.plain s

theorem countPass_keeps : Keeps s s.countPass := by
  unfold State.countPass
  split
  · exact Keeps.refl s
  · exact Keeps.plain s

theorem clearPass_keeps : Keeps s s.clearPass := by
  unfold State.clearPass
  split
  · exact Keeps.plain s
  · exact Keeps.refl s

theorem grantFill_keeps : Keeps s (s.grantFill l) := by
  unfold State.grantFill
  refine Keeps.trans ?_ (beginAccess_keeps ..)
  refine Keeps.trans ?_ (countPass_keeps _)
  exact Keeps.plain s

theorem grantDrain_keeps (j : JournalEntry) : Keeps s (s.grantDrain j) := by
  unfold State.grantDrain
  refine Keeps.trans ?_ (beginAccess_keeps ..)
  refine Keeps.trans ?_ (countPass_keeps _)
  exact Keeps.journal_of s fun h => by simpa using h

theorem grantDirect_keeps (d : DirectJob) : Keeps s (s.grantDirect d) := by
  unfold State.grantDirect
  refine Keeps.trans ?_ (beginAccess_keeps ..)
  exact Keeps.plain s

theorem arbitrate_keeps : Keeps s s.arbitrate := by
  unfold State.arbitrate
  split
  · exact Keeps.refl s
  · split
    · exact Keeps.refl s
    · exact grantFill_keeps ..
    · exact grantDrain_keeps ..
    · exact grantDirect_keeps ..

theorem handDirect_keeps (d : DirectJob) : Keeps s (s.handDirect d) := Keeps.plain s

theorem askFill_keeps : Keeps s (s.askFill l) := by
  unfold State.askFill
  split
  · exact Keeps.refl s
  · exact Keeps.plain s

end Sys2Proof.Machine
end

