-- ==== Sys2Proof/Laws/KeepsService.lean ====
section
/-! SUPPORT. `Keeps` for the service of waiters, allocation, the end of a step, and revocation. -/

namespace Sys2Proof.Machine

variable (s : State) (p : Port) (l : Line)

/-! ## Membership in the line table -/

theorem entry?_some {s : State} {l : Line} {e : Entry} (h : s.entry? l = some e) : e ∈ s.table ∧ e.line = l := by
  refine ⟨List.mem_of_find?_eq_some h, ?_⟩
  simpa using List.find?_some h

theorem entry?_none {s : State} {l : Line} : s.entry? l = none ↔ ∀ e ∈ s.table, e.line ≠ l := by
  simp [State.entry?, List.find?_eq_none]

/-! ## Service -/

theorem touch_keeps : Keeps s (s.touch l) := by
  unfold State.touch
  split
  · rename_i e he
    obtain ⟨hm, hl⟩ := entry?_some he
    refine Keeps.table_of s ?_ fun hn => ?_
    · have : (s.table.filter fun x => x.line != l).length < s.table.length :=
        List.length_filter_lt_length_iff_exists.2 ⟨e, hm, by simp [hl]⟩
      simpa using this
    · simp only [List.map_cons, List.nodup_cons]
      refine ⟨?_, hn.sublist (List.filter_sublist.map _)⟩
      simp [hl]
  · exact Keeps.refl s

theorem serveDone_keeps (id : ReqId) (data : List Byte) : Keeps s (s.serveDone l id data) :=
  ((dropHead_keeps ..).trans (touch_keeps ..)).trans (answer_keeps ..)

theorem watchGrant_keeps : Keeps s (s.watchGrant l p) := by
  unfold State.watchGrant
  split
  · exact Keeps.refl s
  · dsimp only
    split
    · split
      · exact (askRecall_keeps ..).trans (askRecall_keeps ..)
      · exact askRecall_keeps ..
    · split
      · exact askRecall_keeps ..
      · exact Keeps.refl s

theorem dropOwnRead_keeps : Keeps s (s.dropOwnRead l p) := by
  unfold State.dropOwnRead
  dsimp only
  split
  · exact (setHolding_keeps ..).trans (removeRecall_keeps ..)
  · exact setHolding_keeps ..

theorem serveFlush_keeps (e : Entry) (id : ReqId) : Keeps s (s.serveFlush l e id).1 := by
  unfold State.serveFlush
  split
  · split
    · dsimp only
      split
      · exact ((insertCopy_keeps _ _ _ _ ‹_›).trans (dropHead_keeps ..)).trans (waitFlush_keeps ..)
      · exact insertCopy_keeps _ _ _ _ ‹_›
    · exact joinSpace_keeps ..
  · split
    · exact (dropHead_keeps ..).trans (waitFlush_keeps ..)
    · exact (dropHead_keeps ..).trans (answer_keeps ..)

theorem serveReq_keeps (e : Entry) (q : Request) : Keeps s (s.serveReq l e q).1 := by
  unfold State.serveReq
  dsimp only
  split
  · exact serveDone_keeps ..
  · refine Keeps.trans ?_ (serveDone_keeps ..)
    refine Keeps.trans ?_ (makeDirty_keeps ..)
    split
    · exact dropOwnRead_keeps ..
    · exact Keeps.refl s
  · exact ((setHolding_keeps ..).trans (serveDone_keeps ..)).trans (watchGrant_keeps ..)
  · exact ((setHolding_keeps ..).trans (serveDone_keeps ..)).trans (watchGrant_keeps ..)
  · exact ((setHolding_keeps ..).trans (serveDone_keeps ..)).trans (watchGrant_keeps ..)
  · exact serveFlush_keeps ..
  · exact Keeps.refl s

theorem serveHead_keeps : Keeps s (s.serveHead l).1 := by
  unfold State.serveHead
  split
  · exact Keeps.refl s
  · split
    · exact Keeps.refl s
    · split
      · exact Keeps.refl s
      · split
        · exact dropHead_keeps ..
        · split
          · exact (dropHead_keeps ..).trans (answer_keeps ..)
          · split
            · exact serveReq_keeps ..
            · exact (setActivity_keeps ..).trans (askRecalls_keeps ..)

theorem serviceLoop_keeps (n : Nat) : Keeps s (State.serviceLoop l n s) := by
  induction n generalizing s with
  | zero => exact Keeps.refl s
  | succ n ih =>
    have h := serveHead_keeps s l
    unfold State.serviceLoop
    split <;> rename_i t he <;> rw [he] at h
    · exact h.trans (ih t)
    · exact h

theorem service_keeps : Keeps s (s.service l) := by
  unfold State.service
  split
  · exact serviceLoop_keeps ..
  · exact Keeps.refl s

/-! ## The closing of a recall -/

theorem askEvict_keeps (e : Entry) : Keeps s (s.askEvict l e) := askRecalls_keeps ..

theorem finishEviction_keeps (e : Entry) : Keeps s (s.finishEviction l e) := by
  unfold State.finishEviction
  split
  · exact (setActivity_keeps ..).trans (service_keeps ..)
  · split
    · exact setActivity_keeps ..
    · split
      · exact askEvict_keeps ..
      · exact setActivity_keeps ..

theorem tellLineTable_keeps : Keeps s (s.tellLineTable l) := by
  unfold State.tellLineTable
  split
  · exact Keeps.refl s
  · split
    · exact Keeps.refl s
    · split
      · exact (setActivity_keeps ..).trans (service_keeps ..)
      · exact finishEviction_keeps ..
      · exact Keeps.refl s

theorem tellRegionTable_keeps : Keeps s (s.tellRegionTable l p) := by
  unfold State.tellRegionTable
  split
  · split
    · split
      · exact askRecall_keeps ..
      · exact Keeps.refl s
    · exact Keeps.refl s
  · exact Keeps.refl s

theorem tellSession_keeps : Keeps s (s.tellSession l p) := by
  unfold State.tellSession
  split
  · exact askRecall_keeps ..
  · exact Keeps.refl s

theorem closeRecall_keeps : Keeps s (s.closeRecall l p) :=
  (((removeRecall_keeps s p l).trans (tellLineTable_keeps ..)).trans (tellRegionTable_keeps ..)).trans (tellSession_keeps ..)

/-! ## Allocation -/

/-- A new entry keeps the table in order when a place is free and the line is absent (R1). -/
theorem placeEntry_keeps (e : Entry) (ha : s.entry? e.line = none) :
    KeepsIf (s.table.length < Config.tableSize) True True s (s.placeEntry e) := by
  have hno : e.line ∉ s.table.map Entry.line := by
    simpa using entry?_none.1 ha
  unfold State.placeEntry
  constructor <;> try first | rfl | exact id | exact fun _ => rfl | exact fun _ => List.Sublist.refl _ | exact fun _ _ => List.prefix_refl _ | exact fun _ => ⟨rfl, rfl, rfl⟩
  · rintro ⟨a, b, c, d⟩; exact ⟨a, b, c, d⟩
  · rintro hl ⟨a, b, c, d⟩
    refine ⟨?_, ?_, c, d⟩
    · dsimp only; split <;> simp <;> omega
    · dsimp only
      split
      · simpa [List.nodup_append, b] using fun x hx => entry?_none.1 ha x hx
      · simpa [b] using entry?_none.1 ha

theorem createEntry_keeps (w : Option Request) (ha : s.entry? l = none) :
    KeepsIf (s.table.length < Config.tableSize) True True s (s.createEntry l w) := by
  unfold State.createEntry
  dsimp only
  split
  · exact ((placeEntry_keeps _ _ ha).trans (makeDirty_keeps ..).any).trans (service_keeps ..).any
  · split
    · exact (placeEntry_keeps _ _ ha).trans (service_keeps ..).any
    · exact (placeEntry_keeps _ _ ha).trans (askFill_keeps ..).any

/-- A victim that may be taken is an entry of the table whose data, if DIRTY, can enter the journal (R14, R15). -/
theorem victim_take {s : State} {e : Entry} (h : s.victim = .take e) :
    e ∈ s.table ∧ e.candidate = true ∧ (e.copy.isClean = true ∨ s.canInsert e.line = true) := by
  unfold State.victim at h
  dsimp only at h
  split at h
  · cases h
  · rename_i c cs hc
    have hmem : c ∈ s.table.reverse.filter Entry.candidate := by rw [hc]; simp
    split at h
    · rename_i hk
      cases h
      simp only [List.mem_filter, List.mem_reverse] at hmem
      exact ⟨hmem.1, hmem.2, by simpa using hk⟩
    · split at h
      · rename_i d hd
        cases h
        have hm := List.mem_of_find?_eq_some hd
        simp only [List.mem_filter, List.mem_reverse] at hm
        exact ⟨hm.1, hm.2, .inl (by simpa using List.find?_some hd)⟩
      · cases h

theorem removeVictim_keeps {e : Entry} (h : s.victim = .take e) : Keeps s (s.removeVictim e) := by
  obtain ⟨-, -, h⟩ := victim_take h
  unfold State.removeVictim
  split
  · rename_i d hd
    rcases h with h | h
    · simp [hd, HubCopy.isClean] at h
    · exact (insertJournal_keeps _ _ _ _ h).trans (removeEntry_keeps ..)
  · exact removeEntry_keeps ..

theorem setLink_table (q : Port) (k : LinkUnit) : (s.setLink q k).table = s.table := rfl

theorem postNotice_table (n : Notice) : (s.postNotice p n).table = s.table := by
  unfold State.postNotice State.deliverNotice
  split
  · split <;> rfl
  · rfl

theorem insertJournal_table (d : LineData) (o : Origin) : (s.insertJournal l d o).table = s.table := by
  unfold State.insertJournal State.mergeJournal State.appendJournal State.raiseHighWater
  split
  · rfl
  · dsimp only
    split
    · rw [postNotice_table]
    · rfl

theorem removeVictim_table (e : Entry) : (s.removeVictim e).table = s.table.filter fun x => x.line != e.line := by
  unfold State.removeVictim
  split
  · simp [State.removeEntry, insertJournal_table]
  · rfl

/-- A table that lost an entry has a place free, and a line absent before is absent still. -/
theorem removeVictim_room {e : Entry} (h : s.victim = .take e) (hs : s.table.length ≤ Config.tableSize) :
    (s.removeVictim e).table.length < Config.tableSize := by
  rw [removeVictim_table]
  exact (List.length_filter_lt_length_iff_exists.2 ⟨e, (victim_take h).1, by simp⟩).trans_le hs

theorem removeVictim_absent (e : Entry) (h : s.entry? l = none) : (s.removeVictim e).entry? l = none := by
  rw [entry?_none] at h ⊢
  rw [removeVictim_table]
  exact fun x hx => h x (List.mem_filter.1 hx).1

/-- The entry that replaces a victim: the place it takes is the one the victim left. -/
theorem replaceVictim_keeps {e : Entry} (w : Option Request) (h : s.victim = .take e) (ha : s.entry? l = none) :
    Keeps s ((s.removeVictim e).createEntry l w) :=
  ((removeVictim_keeps s h).any.trans (createEntry_keeps _ _ _ (removeVictim_absent _ _ _ ha))).recondition
    fun _ ok => (createEntry_keeps _ _ _ (removeVictim_absent _ _ _ ha)).tables (removeVictim_room s h ok.entries)
      ((removeVictim_keeps s h).tables trivial ok)

theorem takePlace_keeps (w : Option Request) (hl : s.table.length < Config.tableSize) (ha : s.entry? l = none) :
    Keeps s (s.createEntry l w) :=
  (createEntry_keeps _ _ _ ha).recondition fun _ => (createEntry_keeps _ _ _ ha).tables hl

/-! ## The allocation queue and the journal-space queue -/

theorem popAlloc_keeps : Keeps s s.popAlloc := Keeps.plain s

theorem joinSpaceHead_keeps : Keeps s s.joinSpaceHead := by
  unfold State.joinSpaceHead
  split
  · exact Keeps.refl s
  · exact Keeps.plain s

theorem evict_keeps (e : Entry) : Keeps s (s.evict e) := (setActivity_keeps ..).trans (askEvict_keeps ..)

theorem popAlloc_victim : s.popAlloc.victim = s.victim := rfl

theorem examineAlloc_keeps : Keeps s s.examineAlloc.1 := by
  unfold State.examineAlloc
  split
  · exact Keeps.refl s
  · split
    · exact popAlloc_keeps s
    · split
      · exact popAlloc_keeps s
      · split
        · exact ((popAlloc_keeps s).trans (joinWaiters_keeps ..)).trans (service_keeps ..)
        · rename_i hne
          have ha : s.popAlloc.entry? _ = none := Option.not_isSome_iff_eq_none.1 hne
          split
          · exact (popAlloc_keeps s).trans (takePlace_keeps _ _ _ ‹_› ha)
          · split
            · rename_i hv
              exact (popAlloc_keeps s).trans (replaceVictim_keeps _ _ _ (e := _) hv ha)
            · exact joinSpaceHead_keeps s
            · split
              · exact Keeps.refl s
              · split
                · exact evict_keeps ..
                · split
                  · exact (popAlloc_keeps s).trans (answer_keeps ..)
                  · exact Keeps.refl s

theorem allocLoop_keeps (n : Nat) : Keeps s (State.allocLoop n s) := by
  induction n generalizing s with
  | zero => exact Keeps.refl s
  | succ n ih =>
    have h := examineAlloc_keeps s
    unfold State.allocLoop
    split <;> rename_i t he <;> rw [he] at h
    · exact h.trans (ih t)
    · exact h

theorem serveAlloc_keeps : Keeps s s.serveAlloc := allocLoop_keeps ..

theorem enterLine_keeps (id : ReqId) : Keeps s (s.enterLine l id) := by
  unfold State.enterLine
  split
  · exact (joinWaiters_keeps ..).trans (service_keeps ..)
  · exact Keeps.plain s

theorem serveSpaceLine_keeps (o : Origin) (h : s.slotFree = true) : Keeps s (s.serveSpaceLine l o) := by
  unfold State.serveSpaceLine
  split
  · split
    · dsimp only
      have hc : s.canInsert l = true := by simp [State.canInsert, h]
      split
      · exact (insertCopy_keeps _ _ _ _ hc).trans (service_keeps ..)
      · exact insertCopy_keeps _ _ _ _ hc
    · exact Keeps.refl s
  · exact Keeps.refl s

theorem spaceLoop_keeps (n : Nat) : Keeps s (State.spaceLoop n s) := by
  induction n generalizing s with
  | zero => exact Keeps.refl s
  | succ n ih =>
    unfold State.spaceLoop
    split
    · rename_i hf
      split
      · exact Keeps.refl s
      · rename_i rest _
        refine Keeps.trans ?_ (ih _)
        have hf' : ({ s with jspace := rest } : State).slotFree = true := hf
        exact (Keeps.plain s).trans (serveSpaceLine_keeps _ _ _ hf')
      · refine Keeps.trans ?_ (ih _)
        refine Keeps.trans ?_ (serveAlloc_keeps _)
        exact Keeps.plain s
    · exact Keeps.refl s

theorem serveSpace_keeps : Keeps s s.serveSpace := spaceLoop_keeps ..

theorem rouseHead_keeps (before : State) : Keeps s (s.rouseHead before) := by
  unfold State.rouseHead
  split
  · exact serveAlloc_keeps s
  · exact Keeps.refl s

/-- What a Prefetch that takes an entry keeps (R19). -/
theorem prefetchEntry_keeps {t : State} (h : s.prefetchEntry l = some t) (ha : s.entry? l = none) : Keeps s t := by
  unfold State.prefetchEntry at h
  split at h
  · cases h
  · split at h
    · cases h; exact takePlace_keeps _ _ _ ‹_› ha
    · split at h
      · cases h; exact replaceVictim_keeps _ _ _ ‹_› ha
      · cases h

/-! ## The end of a step -/

theorem completeRegionSet_keeps : Keeps s s.completeRegionSet := by
  unfold State.completeRegionSet
  split
  · exact Keeps.refl s
  · split
    · dsimp only
      split
      · refine Keeps.trans ?_ (answer_keeps ..)
        exact Keeps.plain s
      · exact Keeps.plain s
    · exact Keeps.refl s

theorem closeSession_keeps : Keeps s (s.closeSession p) :=
  ((setSession_keeps ..).trans (setNotices_keeps ..)).trans (Keeps.links_of _ _ _ rfl id (List.prefix_refl _))

theorem completeGoodbye_keeps : Keeps s (s.completeGoodbye p) := by
  unfold State.completeGoodbye
  split
  · split
    · split
      · exact (answer_keeps ..).trans (closeSession_keeps ..)
      · exact Keeps.refl s
    · exact Keeps.refl s
  · exact Keeps.refl s

theorem complete_keeps : Keeps s s.complete := (completeRegionSet_keeps s).trans (Keeps.foldl completeGoodbye_keeps _ _)

/-- The end of a step keeps what `Keeps` says. -/
theorem settle_keeps (before : State) : Keeps s (s.settle before) :=
  (((serveSpace_keeps s).trans (rouseHead_keeps _ before)).trans (arbitrate_keeps _)).trans (complete_keeps _)

/-! ## Revocation and fences -/

theorem mapTable_keeps (f : Entry → Entry) (hf : ∀ e, (f e).line = e.line) : Keeps s { s with table := s.table.map f } := by
  refine Keeps.table_of s (by simp) fun h => ?_
  have : (s.table.map f).map Entry.line = s.table.map Entry.line := by
    rw [List.map_map]; exact List.map_congr_left fun e _ => hf e
  rwa [this]

theorem dropHoldings_keeps : Keeps s (s.dropHoldings p) := mapTable_keeps _ _ fun _ => rfl

theorem markPoisoned_keeps (ls : List Line) (id : Byte) : Keeps s (s.markPoisoned ls id) :=
  (mapTable_keeps s (fun e => if ls.contains e.line then { e with recordId := some id } else e)
    fun e => by split <;> rfl).trans (Keeps.plain _)

theorem revokeHoldings_keeps (c : Cause) : KeepsMost s (s.revokeHoldings p c) := by
  by_cases hm : s.mode = .running
  · simp only [State.revokeHoldings, hm, if_true]
    split
    · exact (dropHoldings_keeps ..).most
    · exact ((dropHoldings_keeps s p).most.trans (markPoisoned_keeps ..).most).trans (createRecord_keeps _ _ hm)
  · simp only [State.revokeHoldings, hm, if_false, if_true]
    exact (dropHoldings_keeps ..).most

theorem closeRecallsTo_keeps : Keeps s (s.closeRecallsTo p) :=
  Keeps.trans ((Keeps.recalls_of s fun h => (List.length_filter_le ..).trans h).trans (Keeps.plain _))
    (openAllWaiting_keeps _ _)

theorem leavePlaces_keeps : Keeps s (s.leavePlaces p) := by
  unfold State.leavePlaces
  refine Keeps.trans ?_ (clearPass_keeps _)
  exact (mapTable_keeps s (fun e => { e with waiters := e.waiters.filter fun r => r.port != p }) fun _ => rfl).trans
    (Keeps.plain _)

theorem answerFenced_keeps : Keeps s (s.answerFenced p) := Keeps.foldl (fun t (r : Request) => answer_keeps t r.id _ _) _ _

theorem discardRequests_keeps : Keeps s (s.discardRequests p) := Keeps.requests_sub s List.filter_sublist

theorem resumeEntry_keeps : Keeps s (s.resumeEntry l) := by
  unfold State.resumeEntry
  split
  · split
    · exact service_keeps ..
    · exact tellLineTable_keeps ..
  · exact Keeps.refl s

theorem resumeEntries_keeps : Keeps s s.resumeEntries := Keeps.foldl resumeEntry_keeps _ _

/-- After the holdings, revocation leaves the fault unit alone. -/
theorem revoke_after (c : Cause) (fenced : Bool) : Keeps (s.revokeHoldings p c) (s.revoke p c fenced) := by
  unfold State.revoke
  dsimp only
  refine Keeps.trans ?_ (resumeEntries_keeps _)
  have h := (closeRecallsTo_keeps (s.revokeHoldings p c) p).trans (leavePlaces_keeps _ p)
  split
  · exact h.trans (answerFenced_keeps ..)
  · exact h.trans (discardRequests_keeps ..)

theorem revoke_keeps (c : Cause) (fenced : Bool) : KeepsMost s (s.revoke p c fenced) :=
  (revokeHoldings_keeps s p c).trans (revoke_after s p c fenced).most

theorem fenceNotices_keeps (c : Cause) : Keeps s (s.fenceNotices p c) :=
  (setNotices_keeps ..).trans (deliverNotice_keeps ..)

/-- The state in which a fence revokes: the port FENCED, its keepalive stopped (R172). -/
def State.fencing (s : State) (p : Port) : State :=
  (s.setSession p { s.sessions[p] with state := .fenced }).setLink p { s.links[p] with keepalive := none }

theorem fencing_keeps : Keeps s (s.fencing p) :=
  (setSession_keeps s p _).trans (Keeps.links_of _ p _ rfl id (List.prefix_refl _))

/-- After the revocation, a fence leaves the fault unit alone. -/
theorem fencePort_after (c : Cause) (h : (s.sessionState p).isOpen = true) :
    Keeps ((s.fencing p).revoke p c true) (s.fencePort p c) := by
  unfold State.fencePort
  rw [if_pos h]
  change Keeps ((s.fencing p).revoke p c true) (ite _ (((s.fencing p).revoke p c true).fenceNotices p c) _)
  have k := fenceNotices_keeps ((s.fencing p).revoke p c true) p c
  split
  · exact k
  · exact k.trans (postNotice_keeps ..)

theorem fencePort_keeps (c : Cause) : KeepsMost s (s.fencePort p c) := by
  by_cases h : (s.sessionState p).isOpen = true
  · exact ((fencing_keeps s p).most.trans (revoke_keeps _ p c true)).trans (fencePort_after s p c h).most
  · rw [State.fencePort, if_neg h]
    exact (Keeps.refl s).most

/-- What ends with a session, before its port is left in its new state: its holdings are revoked, its requests discarded
(R176). -/
def State.endingSession (s : State) (p : Port) : State :=
  if (s.sessionState p).isOpen then s.revoke p .linkLost false else s.discardRequests p

/-- After that, the end of a session leaves the fault unit alone. -/
theorem endSession_after (next : SessionState) : Keeps (s.endingSession p) (s.endSession p next) :=
  ((setSession_keeps (s.endingSession p) p _).trans (setNotices_keeps ..)).trans
    (Keeps.links_of _ _ _ rfl id (List.prefix_refl _))

theorem endSession_keeps (next : SessionState) : KeepsMost s (s.endSession p next) := by
  refine KeepsMost.trans ?_ (endSession_after s p next).most
  unfold State.endingSession
  split
  · exact revoke_keeps ..
  · exact (discardRequests_keeps ..).most

end Sys2Proof.Machine
end

