-- ==== Sys2Proof/Laws/Arrive.lean ====
section
/-! SUPPORT. The link layer and admission in one lemma each: what a frame does before its request is taken. -/

namespace Sys2Proof.Machine

variable {s : State} {p : Port} {f : RxFrame} {k : Kind}

theorem links_set_self (s : State) (p : Port) : s.links.set p s.links[p] = s.links := by
  ext q; simp only [Vector.getElem_set]; split <;> simp_all

/-- A frame of a later step of one port replaces the link unit an earlier one left. -/
theorem setLink_setLink (s : State) (p : Port) (a b : LinkUnit) : (s.setLink p a).setLink p b = s.setLink p b := by
  simp [State.setLink]

/-! ## Replies and link frames -/

theorem reply_eq (s : State) (p : Port) (tag : Byte) (st : Status) (d : List Byte) :
    s.reply p tag st d =
      { s with links := s.links.set p (s.links[p].sendSeq replyKind tag (replyPayload st d)) } := rfl

/-- A reply behind an accepted frame is the one change `State.replied` names. -/
theorem accepted_reply (s : State) (p : Port) (tag : Byte) (st : Status) (d : List Byte) :
    (s.accepted p).reply p tag st d = s.replied p tag st d := by
  simp [State.accepted, reply_eq, State.replied, State.linkReplied]

/-! ## Acceptance (R164, R171) -/

theorem restartKeepalive_eq (s : State) (p : Port) :
    s.restartKeepalive p =
      s.setLink p { s.links[p] with keepalive := s.links[p].keepalive.map fun _ => s.keepaliveExpiry } := by
  unfold State.restartKeepalive
  split
  · rename_i h; rw [h]; rfl
  · rename_i h
    rw [h]
    have : ({ s.links[p] with keepalive := none } : LinkUnit) = s.links[p] := by
      conv_rhs => rw [← show ({ s.links[p] with keepalive := s.links[p].keepalive } : LinkUnit) = s.links[p] from rfl]
      rw [h]
    rw [Option.map_none, this, State.setLink, links_set_self]

theorem accept_eq (s : State) (p : Port) : (s.restartKeepalive p).acceptSeq p = s.accepted p := by
  rw [restartKeepalive_eq]
  simp [State.acceptSeq, State.accepted, LinkUnit.accepted, State.setLink]

/-- An arriving frame with the receive number is accepted, and taken (R164). -/
theorem onSequenced_arrives {seq : Byte} (h : Arrives s p seq) (take : State → State) :
    s.onSequenced p seq take = take (s.accepted p) := by
  have hr : (s.restartKeepalive p).links[p].recvNum = seq := by
    rw [restartKeepalive_eq]; simpa using h.seq
  simp only [State.onSequenced, State.onGoodFrame, State.receives, h.resetN, h.up, Bool.and_self, if_true, hr, accept_eq]

/-- A good sequenced frame with another number is discarded under the Link Reject rule (R164). -/
theorem onSequenced_other {seq : Byte} (hr : s.receives p = true) (hn : s.links[p].recvNum ≠ seq) (take : State → State) :
    s.onSequenced p seq take = (s.restartKeepalive p).rejectSeq p := by
  have : (s.restartKeepalive p).links[p].recvNum ≠ seq := by rw [restartKeepalive_eq]; simpa using hn
  simp only [State.onSequenced, State.onGoodFrame, hr, if_true, this, if_false]

/-! ## Admission (R33) -/

theorem admission_accepted (g : Bool) (tag : Byte) : (s.accepted p).admission p k tag g = s.admission p k tag g := rfl

/-- Checks 1, 2, 4 and 5 passed leave check 3, the format (R33). -/
theorem admission_mayAsk {tag : Byte} (h : MayAsk s p k tag) (g : Bool) :
    s.admission p k tag g = if g then none else some .badFormat := by
  have ht : (s.outstanding p).any (fun r => r.id.tag == tag) = false := by
    simpa using fun r hr => h.tagFree r hr
  have hp : (k.supervisorOnly && p != s.supervisor) = false := by
    cases hk : k.supervisorOnly
    · rfl
    · simp [h.permitted hk]
  have hm : (s.mode == .stopped && !k.inStopped) = false := by
    rcases h.mode with hm | hm <;> simp [hm]
  have hr : ¬ Config.outstandingLimit ≤ (s.outstanding p).length := Nat.not_le.2 h.room
  unfold State.admission
  rw [h.session]
  cases g <;> simp [hp, ht, hm, hr]

/-- An admitted request with a good operand is taken (R33, R38). -/
theorem onRequest_admits {α : Type} {operand : State → Option α} {a : α} (h : Admits s p f k)
    (ho : operand (s.accepted p) = some a) (take : State → α → State) :
    s.onRequest p f k operand take = take (s.accepted p) a := by
  unfold State.onRequest
  rw [onSequenced_arrives h.arrives]
  simp only [ho, admission_accepted, admission_mayAsk h.may, Option.isSome_some, if_true]

/-- A request refused at admission is answered with the status alone and changes nothing else (R33). -/
theorem onRequest_refused {α : Type} {operand : State → Option α} {st : Status} (h : Arrives s p f.seq)
    (ha : s.admission p k f.tag (operand (s.accepted p)).isSome = some st) (take : State → α → State) :
    s.onRequest p f k operand take = s.replied p f.tag st [] := by
  unfold State.onRequest
  rw [onSequenced_arrives h]
  simp only [admission_accepted, ha, accepted_reply]

/-- A payload that is no operand of its kind is refused BAD_FORMAT (R33, R189). -/
theorem onRequest_badFormat {α : Type} {operand : State → Option α} (h : Admits s p f k)
    (ho : operand (s.accepted p) = none) (take : State → α → State) :
    s.onRequest p f k operand take = s.replied p f.tag .badFormat [] :=
  onRequest_refused h.arrives (by rw [ho, admission_mayAsk h.may]; rfl) take

/-! ## The requests of a port whose tag is free (R31, R32) -/

/-- No outstanding request has the name of a request that may be asked. -/
theorem fresh_name {tag : Byte} (h : MayAsk s p k tag) : ∀ r ∈ s.requests, r.id ≠ ⟨p, tag⟩ := by
  intro r hr he
  refine h.tagFree r ?_ (by rw [he])
  simp [State.outstanding, hr, he]

/-- A request admitted and answered in one step leaves the outstanding requests as they were (R32). -/
theorem requests_filter_fresh {tag : Byte} (h : MayAsk s p k tag) (q : Req) :
    (s.requests ++ [({ id := ⟨p, tag⟩, req := q } : Request)]).filter (fun r => r.id != ⟨p, tag⟩) = s.requests := by
  have : s.requests.filter (fun r => r.id != ⟨p, tag⟩) = s.requests :=
    List.filter_eq_self.2 fun r hr => by simpa using fresh_name h r hr
  rw [List.filter_append, this]
  simp

/-- The admitted request is found by its name (R31). -/
theorem request?_fresh {tag : Byte} (h : MayAsk s p k tag) (q : Req) :
    (s.requests ++ [({ id := ⟨p, tag⟩, req := q } : Request)]).find? (fun r => r.id == ⟨p, tag⟩) =
      some { id := ⟨p, tag⟩, req := q } := by
  have : s.requests.find? (fun r => r.id == ⟨p, tag⟩) = none := by
    simpa [List.find?_eq_none] using fresh_name h
  rw [List.find?_append, this]
  simp

end Sys2Proof.Machine
end

