-- ==== Sys2Proof/Laws/Quiet.lean ====
section
/-! SUPPORT. In a quiet state the end of a step changes nothing. -/

namespace Sys2Proof.Machine

variable {s : State}

theorem serveAlloc_nil (h : s.allocQueue = []) : s.serveAlloc = s := by
  simp [State.serveAlloc, h, State.allocLoop, State.examineAlloc]

theorem serveSpace_nil (hs : s.jspace = []) : s.serveSpace = s := by
  simp [State.serveSpace, hs, State.spaceLoop]

theorem rouseHead_nil (before : State) (h : s.allocQueue = []) : s.rouseHead before = s := by
  simp [State.rouseHead, serveAlloc_nil h]

/-- A request that finds the allocation queue empty becomes its head, which R13 has examined. -/
theorem headRoused_first {before : State} {id : ReqId} (hb : before.allocQueue = []) (h : s.allocQueue = [id]) :
    State.headRoused before s = true := by
  simp [State.headRoused, hb, h]

/-- Nothing is granted while a job is in flight or nothing waits (R108). -/
theorem arbitrate_settled (h : s.portSettled) : s.arbitrate = s := by
  rcases h with h | ⟨hf, hd, hr⟩
  · simp [State.arbitrate, h]
  · have : s.arbiterChoice = none := by
      unfold State.arbiterChoice State.oldestFill State.oldestDirect State.drainGrant
      cases s.mode <;> simp [hf, hd, hr]
    unfold State.arbitrate
    split
    · rfl
    · simp [this]

theorem completeGoodbye_notClosing {p : Port} (h : s.sessionState p ≠ .closing) : s.completeGoodbye p = s := by
  simp [State.completeGoodbye, h]

/-- Nothing completes without a completing Region Set and a CLOSING port (R145, R175). -/
theorem complete_settled (hc : s.completing = none) (hs : ∀ p : Port, s.sessionState p ≠ .closing) : s.complete = s := by
  have h : ∀ ps : List Port, ps.foldl State.completeGoodbye s = s := by
    intro ps
    induction ps with
    | nil => rfl
    | cons p ps ih => rw [List.foldl_cons, completeGoodbye_notClosing (hs p), ih]
  simp [State.complete, State.completeRegionSet, hc, h]

/-- The end of a step in which only journal space and allocation have work. -/
theorem settle_served {before u : State} (h : s.serveSpace.rouseHead before = u) (hp : u.portSettled)
    (hc : u.completing = none) (hs : ∀ p : Port, u.sessionState p ≠ .closing) : s.settle before = u := by
  rw [State.settle, h, arbitrate_settled hp, complete_settled hc hs]

/-- In a quiet state the end of a step changes nothing. -/
theorem settle_quiet {before : State} (h : Quiet s) : s.settle before = s := by
  rw [State.settle, serveSpace_nil h.space, rouseHead_nil _ h.alloc, arbitrate_settled h.port,
    complete_settled h.region h.sessions]

/-- In an idle state whose Region Set cannot complete, and whose CLOSING ports hold lines, the end of a step changes nothing. -/
theorem settle_idle {before : State} (h : Idle s) (hr : s.completeRegionSet = s)
    (hc : ∀ p : Port, s.sessionState p = .closing → s.holdingCount p ≠ 0) : s.settle before = s := by
  have hg : ∀ ps : List Port, ps.foldl State.completeGoodbye s = s := by
    intro ps
    induction ps with
    | nil => rfl
    | cons p ps ih =>
      have : s.completeGoodbye p = s := if_neg fun ⟨a, b⟩ => hc p a b
      rw [List.foldl_cons, this, ih]
  rw [State.settle, serveSpace_nil h.space, rouseHead_nil _ h.alloc, arbitrate_settled h.port, State.complete, hr, hg]

/-- With a job in flight a state stays quiet while nothing else waits that did not wait before. -/
theorem Quiet.busy {t : State} (h : Quiet s) (hb : t.job.isSome = true) (ha : t.allocQueue = s.allocQueue)
    (hj : t.jspace = s.jspace) (hc : t.completing = s.completing) (hs : t.sessions = s.sessions) : Quiet t :=
  ⟨ha.trans h.alloc, hj.trans h.space, hc.trans h.region,
    fun p => by have := h.sessions p; unfold State.sessionState at *; rwa [hs], .inl hb⟩

end Sys2Proof.Machine
end

