-- ==== Sys2Proof/Laws/Serve.lean ====
section
/-! SUPPORT. The service of a request on an entry that nobody waits for, in one lemma per operation. -/

namespace Sys2Proof.Machine

variable {s : State} {p : Port} {l : Line} {e : Entry}

/-! ## Quiet states -/

/-- A state is quiet when it agrees with a quiet one in what waits. -/
theorem Quiet.congr {t : State} (h : Quiet s) (ha : t.allocQueue = s.allocQueue) (hs : t.jspace = s.jspace)
    (hc : t.completing = s.completing) (hx : t.sessions = s.sessions) (hj : t.job = s.job)
    (hf : t.fillQueue = s.fillQueue) (hd : t.directQueue = s.directQueue) (ho : t.journal = s.journal)
    (hm : t.mode = s.mode) : Quiet t where
  alloc := ha.trans h.alloc
  space := hs.trans h.space
  region := hc.trans h.region
  sessions q := by have := h.sessions q; unfold State.sessionState at *; rw [hx]; exact this
  port := by
    have hr : t.drainRequested = s.drainRequested := by
      have h1 : t.retryWaiting = s.retryWaiting := by funext j; simp only [State.retryWaiting, State.draining?, hj]
      have h2 : t.eligible = s.eligible := by funext j; simp only [State.eligible, ho]
      simp only [State.drainRequested, State.drainChoice, hm, ho, h1, h2]
    unfold State.portSettled
    rw [hj, hf, hd, hr]
    exact h.port

/-! ## Entries -/

theorem updateEntry_entry? (f : Entry → Entry) (hf : ∀ x, (f x).line = x.line) (h : s.entry? l = some e) :
    (s.updateEntry l f).entry? l = some (f e) := by
  have hl : e.line = l := (entry?_some h).2
  have hc : ((fun x : Entry => x.line == l) ∘ fun x : Entry => if x.line == l then f x else x) =
      fun x : Entry => x.line == l := by
    funext x; simp only [Function.comp]; split <;> simp [hf]
  have h' : s.table.find? (fun x => x.line == l) = some e := h
  simp only [State.entry?, State.updateEntry, List.find?_map, hc, h', Option.map_some]
  simp [hl]

theorem updateEntry_others (f : Entry → Entry) (hf : ∀ x, (f x).line = x.line) :
    (s.updateEntry l f).others l = s.others l := by
  simp only [State.others, State.updateEntry, List.filter_map]
  have hc : ((fun x : Entry => x.line != l) ∘ fun x : Entry => if x.line == l then f x else x) =
      fun x : Entry => x.line != l := by
    funext x; simp only [Function.comp]; split <;> simp [hf]
  rw [hc]
  conv_rhs => rw [← List.map_id (s.table.filter fun x => x.line != l)]
  refine List.map_congr_left fun x hx => ?_
  have : x.line ≠ l := by simpa using (List.mem_filter.1 hx).2
  simp [this]

theorem touch_eq (h : s.entry? l = some e) :
    s.touch l = s.withTable ({ e with prefetched := false } :: s.others l) := by
  simp [State.touch, h, State.others, State.withTable]

theorem updateEntry_touch (f : Entry → Entry) (hf : ∀ x, (f x).line = x.line) (h : s.entry? l = some e) :
    (s.updateEntry l f).touch l = s.withTable ({ f e with prefetched := false } :: s.others l) := by
  rw [touch_eq (updateEntry_entry? f hf h), updateEntry_others f hf]
  rfl

theorem updateEntry_updateEntry (f g : Entry → Entry) (hf : ∀ x, (f x).line = x.line) :
    (s.updateEntry l f).updateEntry l g = s.updateEntry l (fun x => g (f x)) := by
  simp only [State.updateEntry, List.map_map]
  congr 1
  refine List.map_congr_left fun x _ => ?_
  simp only [Function.comp]
  by_cases h : x.line = l <;> simp [h, hf]

theorem updateEntry_id : s.updateEntry l id = s := by
  simp [State.updateEntry]

/-! ## The checks do not see an entry's waiters -/

theorem holding_joinWaiters (r : ReqId) : (s.joinWaiters l r).holding l p = s.holding l p := by
  unfold State.holding
  cases h : s.entry? l with
  | none =>
    have hn : (s.joinWaiters l r).entry? l = none := by
      rw [entry?_none] at h ⊢
      simp only [State.joinWaiters, State.updateEntry, List.mem_map]
      rintro _ ⟨x, hx, rfl⟩
      have := h x hx
      split <;> simpa
    rw [hn]
  | some e =>
    have : (s.joinWaiters l r).entry? l = some { e with waiters := e.waiters ++ [r] } :=
      updateEntry_entry? (fun x => { x with waiters := x.waiters ++ [r] }) (fun _ => rfl) h
    rw [this]

theorem holdingCount_joinWaiters (r : ReqId) : (s.joinWaiters l r).holdingCount p = s.holdingCount p := by
  simp only [State.holdingCount, State.joinWaiters, State.updateEntry, List.countP_map]
  congr 1
  funext x
  simp only [Function.comp]
  split <;> rfl

theorem checkLine_joinWaiters (r : ReqId) (k : Kind) (h : s.entry? l = some e) :
    (s.joinWaiters l r).checkLine p k l = s.checkLine p k l := by
  have : (s.joinWaiters l r).entry? l = some { e with waiters := e.waiters ++ [r] } :=
    updateEntry_entry? (fun x => { x with waiters := x.waiters ++ [r] }) (fun _ => rfl) h
  simp only [State.checkLine, State.checkHolding, State.checkPoison, holding_joinWaiters, holdingCount_joinWaiters, this,
    h]
  rfl

/-! ## A request alone on its entry (R8, R9) -/

/-- The only waiter of an IDLE entry that passes its checks and needs no recall is served (R9). -/
theorem service_alone {id : ReqId} {q : Req} (h : s.entry? l = some e) (hi : e.activity = .idle)
    (hw : e.waiters = [id]) (hq : s.request? id = some { id := id, req := q })
    (hc : s.checkLine id.port q.kind l = none) (hr : recallsNeeded e id.port q.kind = []) :
    s.service l = (s.serveReq l e { id := id, req := q }).1 := by
  have hh : s.serveHead l = s.serveReq l e { id := id, req := q } := by
    simp only [State.serveHead, h, hi, hw, hq, hc, hr, ne_eq, not_true_eq_false, if_false]
  simp only [State.service, h, hw, List.length_cons, List.length_nil, Nat.zero_add, State.serviceLoop, hh]
  split <;> simp_all

/-- The only waiter of an IDLE entry that passes its checks and needs recalls makes the entry RECALLING (R10). -/
theorem service_recalls {id : ReqId} {q : Req} {x : Port × RecallKind} {xs : List (Port × RecallKind)}
    (h : s.entry? l = some e) (hi : e.activity = .idle) (hw : e.waiters = [id])
    (hq : s.request? id = some { id := id, req := q }) (hc : s.checkLine id.port q.kind l = none)
    (hr : recallsNeeded e id.port q.kind = x :: xs) :
    s.service l = (s.setActivity l .recalling).askRecalls (recallsFor l .request (x :: xs)) := by
  have hh : s.serveHead l = ((s.setActivity l .recalling).askRecalls (recallsFor l .request (x :: xs)), false) := by
    simp only [State.serveHead, h, hi, hw, hq, hc, hr, ne_eq, not_true_eq_false, if_false]
  simp only [State.service, h, hw, List.length_cons, List.length_nil, Nat.zero_add, State.serviceLoop, hh]

theorem openRecall_opened (w : WaitingRecall) (h : s.recalls.length < Config.recallTableSize) : s.openRecall w = s.opened w := by
  unfold State.openRecall State.opened
  rw [newRecallId_free s h]
  rfl

/-- A recall asked for, whatever is outstanding (R63, R64). -/
theorem askRecall_eq (w : WaitingRecall) : s.askRecall w = s.recalled w := by
  have ho : s.recallOutstanding w.line w.port = s.outstandingRecalls.any fun x => x.line == w.line && x.port == w.port := by
    simp only [State.recallOutstanding, State.outstandingRecalls, List.any_append, List.any_map]
    rfl
  unfold State.askRecall State.recalled
  rw [ho]
  split
  · rfl
  · split
    · rename_i h
      rw [if_pos (show s.recalls.length < 16 from h), openRecall_opened w h]
    · rename_i h
      rw [if_neg (show ¬ s.recalls.length < 16 from h)]

theorem askRecalls_eq (ws : List WaitingRecall) : s.askRecalls ws = s.recalledInTurn ws := by
  unfold State.askRecalls State.recalledInTurn
  rw [show State.askRecall = State.recalled from funext fun t => funext fun w => askRecall_eq w]

/-- A request that meets an IDLE entry without waiters, passes its checks and needs no recall is served at once. -/
theorem enterLine_alone {id : ReqId} {q : Req} (h : s.entry? l = some e) (hi : e.activity = .idle)
    (hw : e.waiters = []) (hq : s.request? id = some { id := id, req := q })
    (hc : s.checkLine id.port q.kind l = none) (hr : recallsNeeded e id.port q.kind = []) :
    s.enterLine l id =
      ((s.joinWaiters l id).serveReq l { e with waiters := [id] } { id := id, req := q }).1 := by
  have he : (s.joinWaiters l id).entry? l = some { e with waiters := [id] } := by
    have := updateEntry_entry? (fun x => { x with waiters := x.waiters ++ [id] }) (fun _ => rfl) h
    rw [hw] at this
    exact this
  simp only [State.enterLine, h, Option.isSome_some, if_true]
  exact service_alone he hi rfl hq ((checkLine_joinWaiters id q.kind h).trans hc) hr

/-- The end of a service that answers with data: the entry at the most-recent end, the request gone (R9). -/
theorem serveDone_eq (id : ReqId) (data : List Byte) (h : s.entry? l = some e) :
    s.serveDone l id data =
      (s.withTable ({ e with waiters := e.waiters.tail, prefetched := false } :: s.others l)).answer id .done data := by
  unfold State.serveDone State.dropHead
  rw [updateEntry_touch (fun x => { x with waiters := x.waiters.tail }) (fun _ => rfl) h]

/-! ## Admission of a line's request (R35 to R38) -/

theorem checkRegion_mayUse {need : Access} {i : RegionId} (h : MayUse s p l need i) (g : Bool) :
    s.checkRegion p l need g = .ok s.regions[i].cls := by
  unfold State.checkRegion
  rw [h.region]
  have h1 : ¬ s.regions[i].access[p].rank < need.rank := Nat.not_lt.2 h.right
  have h2 : (s.regions[i].cls == .plain) = false := by simpa using h.cached
  simp only [h1, h2, if_false, Bool.false_and, Bool.false_eq_true]

theorem checkData_mayUse {need : Access} {i : RegionId} {k : Kind} (h : MayUse s p l need i) (g : Bool)
    (hc : s.checkLine p k l = none) : s.checkData p k l need g = .ok s.regions[i].cls := by
  unfold State.checkData
  rw [checkRegion_mayUse h]
  simp only [h.cached, if_false, hc]

/-- A request on a TRACKED or WRITE_THROUGH line that passes its checks is admitted and needs the entry (R38). -/
theorem takeLineRequest_cached {need : Access} {i : RegionId} {id : ReqId} {q : Req} (dj : Option DirectJob)
    (h : MayUse s id.port l need i) (hc : s.checkLine id.port q.kind l = none) :
    s.takeLineRequest id q l need dj = ((s.admitReq id q).enterLine l id).settle s := by
  unfold State.takeLineRequest
  rw [checkData_mayUse h _ hc]
  have := h.cached
  cases hcls : s.regions[i].cls <;> simp_all

/-- The check of holdings and poison on a present line whose copy has data (R36, R37). -/
theorem checkLine_present {k : Kind} {d : LineData} (h : s.entry? l = some e) (hd : e.copy.data? = some d) :
    s.checkLine p k l = holdingCheck k e.holdings[p] (s.holdingCount p) (s.capacity p) := by
  have hp : e.poisoned = false := by
    unfold Entry.poisoned
    cases hc : e.copy <;> simp_all [HubCopy.data?]
  simp [State.checkLine, State.checkHolding, State.checkPoison, State.holding, h, hp]

theorem recallsNeeded_readers {k : Kind} (hk : k = .readWords ∨ k = .acquireRead ∨ k = .flush)
    (h : ∀ q : Port, e.holdings[q] ≠ .write) : recallsNeeded e p k = [] := by
  have : ports.filter (fun q => q != p && e.holdings[q] == .write) = [] :=
    List.filter_eq_nil_iff.2 fun q _ => by simp [-Fin.getElem_fin, h q]
  rcases hk with rfl | rfl | rfl <;> simp only [recallsNeeded, this, List.map_nil]

theorem recallsNeeded_writers {k : Kind} (hk : k = .writeWords ∨ k = .acquireWrite ∨ k = .upgrade)
    (h : ∀ q : Port, q ≠ p → e.holdings[q] = .none) : recallsNeeded e p k = [] := by
  have : ports.filter (fun q => q != p && e.holdings[q] != .none) = [] := by
    refine List.filter_eq_nil_iff.2 fun q _ => ?_
    by_cases hq : q = p
    · simp [hq]
    · simp [-Fin.getElem_fin, h q hq]
  rcases hk with rfl | rfl | rfl <;> simp only [recallsNeeded, this, List.map_nil]

/-! ## The state once a request is admitted -/

theorem asked_request? {k : Kind} {tag : Byte} (h : MayAsk s p k tag) (q : Req) :
    (s.asked p tag q).request? ⟨p, tag⟩ = some { id := ⟨p, tag⟩, req := q } := request?_fresh h q

/-- A request answered in the step of its admission leaves the reply as the change of the links and nothing in the
outstanding requests (R31, R32). -/
theorem answer_asked {k : Kind} {tag : Byte} {t : State} {q : Req} (h : MayAsk s p k tag)
    (hl : t.links = s.links.set p (s.links[p].accepted s.keepaliveExpiry))
    (hr : t.requests = s.requests ++ [({ id := ⟨p, tag⟩, req := q } : Request)]) (st : Status) (data : List Byte) :
    t.answer ⟨p, tag⟩ st data =
      { t with links := (s.replied p tag st data).links, requests := s.requests } := by
  unfold State.answer
  rw [reply_eq]
  simp only [hr, hl, requests_filter_fresh h q, State.replied, State.linkReplied]
  simp

/-- A data request may be asked only in ONLINE (R34). -/
theorem online_of_checkSession {k : Kind} (h : s.checkSession p k = none) (hk : k.anySession = false)
    (hf : k.supervisorFenced = false) (hh : k ≠ .hello) : s.sessionState p = .online := by
  unfold State.checkSession at h
  split at h <;> simp_all

/-! ## Grants (R145, R174) -/

/-- A holding is in excess when it needs more than the right; the recall leaves what the right allows (R140, R144). -/
theorem excessRecall_eq (a : Access) (h : Holding) :
    excessRecall a h = if a.rank < h.needs.rank then some (if a = .none then .invalidate else .downgrade) else none := by
  cases a <;> cases h <;> rfl

/-- A recall once asked for is outstanding (R63). -/
theorem recalled_outstanding (w : WaitingRecall) : (s.recalled w).recallOutstanding w.line w.port = true := by
  unfold State.recalled
  split
  · rename_i h
    obtain ⟨x, hx, h⟩ := List.any_eq_true.1 h
    rcases List.mem_append.1 hx with hx | hx
    · obtain ⟨r, hr, rfl⟩ := List.mem_map.1 hx
      exact Bool.or_eq_true_iff.2 (.inl (List.any_eq_true.2 ⟨r, hr, h⟩))
    · exact Bool.or_eq_true_iff.2 (.inr (List.any_eq_true.2 ⟨x, hx, h⟩))
  · split
    · refine Bool.or_eq_true_iff.2 (.inl (List.any_eq_true.2
        ⟨⟨s.freeRecallId, w, s.hubTime + BitVec.ofNat 32 s.timers.recallMs⟩, ?_, by simp⟩))
      exact List.mem_append_right s.recalls (List.mem_singleton.2 rfl)
    · exact Bool.or_eq_true_iff.2 (.inr (List.any_eq_true.2 ⟨w, by simp, by simp⟩))

/-- A second recall of the same line from the same port is not asked (R63). -/
theorem askRecall_again (w : WaitingRecall) (k : RecallKind) (u : Purpose) :
    (s.recalled w).askRecall { line := w.line, port := w.port, kind := k, purpose := u } = s.recalled w := by
  unfold State.askRecall
  rw [recalled_outstanding, if_pos rfl]

/-- What follows a grant (R145, R174). -/
theorem watchGrant_eq {h : Holding} (he : s.entry? l = some e) (hh : e.holdings[p] = h) :
    s.watchGrant l p = s.recalledInTurn (s.afterGrant l p e.region h) := by
  unfold State.watchGrant State.afterGrant
  rw [he]
  dsimp only
  rw [hh, excessRecall_eq]
  by_cases hx : (s.regions[e.region].access[p]).rank < h.needs.rank
  · simp only [hx, if_true]
    generalize (if s.regions[e.region].access[p] = .none then RecallKind.invalidate else .downgrade) = k
    rw [askRecall_eq]
    show (if (s.recalled ⟨l, p, k, .region⟩).sessionState p = .closing then _ else _) = s.recalled ⟨l, p, k, .region⟩
    split
    · exact askRecall_again ⟨l, p, k, .region⟩ ..
    · rfl
  · simp only [hx, if_false]
    split
    · rw [askRecall_eq]; rfl
    · rfl

/-- A grant within the port's right, in ONLINE, is followed by no recall. -/
theorem watchGrant_within (h : s.entry? l = some e)
    (hx : excessRecall s.regions[e.region].access[p] e.holdings[p] = none) (hs : s.sessionState p ≠ .closing) :
    s.watchGrant l p = s := by
  simp only [State.watchGrant, h, hx, hs, if_false]

theorem excessRecall_read {a : Access} (h : Access.rank .read ≤ a.rank) : excessRecall a .read = none := by
  cases a <;> simp_all [Access.rank, excessRecall]

theorem excessRecall_full {a : Access} (h : Access.rank .full ≤ a.rank) (x : Holding) : excessRecall a x = none := by
  cases a <;> cases x <;> simp_all [Access.rank, excessRecall]

/-! ## A request served in the step of its admission -/

theorem asked_joined {tag : Byte} {q : Req} (h : s.entry? l = some e) (hw : e.waiters = []) :
    ((s.asked p tag q).joinWaiters l ⟨p, tag⟩).entry? l = some { e with waiters := [⟨p, tag⟩] } := by
  have := updateEntry_entry? (s := s.asked p tag q) (fun x => { x with waiters := x.waiters ++ [⟨p, tag⟩] })
    (fun _ => rfl) h
  rw [hw] at this
  exact this

theorem joinWaiters_others (r : ReqId) : (s.joinWaiters l r).others l = s.others l :=
  updateEntry_others (fun x => { x with waiters := x.waiters ++ [r] }) fun _ => rfl

/-- An admitted request on an entry that serves it: what is left is its own service and the end of the step. -/
theorem takeLineRequest_serves {f : RxFrame} {k : Kind} {q : Req} {need : Access} {dj : Option DirectJob} {d : LineData}
    (ha : Admits s p f k) (hv : Serves s p l need e d) (hk : q.kind = k)
    (hc : holdingCheck k e.holdings[p] (s.holdingCount p) (s.capacity p) = none) (hr : recallsNeeded e p k = []) :
    (s.accepted p).takeLineRequest ⟨p, f.tag⟩ q l need dj =
      (((s.asked p f.tag q).joinWaiters l ⟨p, f.tag⟩).serveReq l { e with waiters := [⟨p, f.tag⟩] }
        ⟨⟨p, f.tag⟩, q⟩).1.settle (s.accepted p) := by
  subst hk
  have hcl : (s.accepted p).checkLine p q.kind l = none :=
    (checkLine_present (s := s.accepted p) hv.present hv.data).trans hc
  have hm : MayUse (s.accepted p) p l need e.region := ⟨hv.use.region, hv.use.cached, hv.use.right⟩
  rw [takeLineRequest_cached dj hm hcl, enterLine_alone (s := (s.accepted p).admitReq ⟨p, f.tag⟩ q) hv.present hv.idle
    hv.noWaiters (asked_request? ha.may q) hcl hr]
  rfl

/-- The end of a service that first changed the entry: what is left of the request is the entry and the reply. -/
theorem serveDone_asked {tag : Byte} {q : Req} {k : Kind} (g : Entry → Entry) (hg : ∀ x, (g x).line = x.line)
    (hm : MayAsk s p k tag) (h : s.entry? l = some e) (hw : e.waiters = []) (data : List Byte) :
    (((s.asked p tag q).joinWaiters l ⟨p, tag⟩).updateEntry l g).serveDone l ⟨p, tag⟩ data =
      (s.replied p tag .done data).withTable ({ g { e with waiters := [⟨p, tag⟩] } with
        waiters := (g { e with waiters := [⟨p, tag⟩] }).waiters.tail, prefetched := false } :: s.others l) := by
  rw [serveDone_eq _ _ (updateEntry_entry? g hg (asked_joined (q := q) h hw))]
  have ho : (((s.asked p tag q).joinWaiters l ⟨p, tag⟩).updateEntry l g).others l = s.others l := by
    rw [updateEntry_others g hg, joinWaiters_others]; rfl
  rw [ho, answer_asked hm (q := q) rfl rfl]
  rfl

theorem HubCopy.data_of {c : HubCopy} {d : LineData} (h : c.data? = some d) : c.data = d := by simp [HubCopy.data, h]

/-! ## Copies that become DIRTY (R86, R139) -/

theorem classOf_mayUse {need : Access} {i : RegionId} (h : MayUse s p l need i) : s.classOf l = some s.regions[i].cls := by
  simp [State.classOf, h.region]

/-- Outside a WRITE_THROUGH region a copy that becomes DIRTY is owed to nobody. -/
theorem makeDirty_tracked (d : LineData) (o : Origin) (h : s.classOf l ≠ some .writeThrough) :
    s.makeDirty l d o = s.setCopy l (.dirty d) := by
  simp [State.makeDirty, h]

/-- The same for an arriving frame (R38). -/
theorem takeLineRequest_asked {need : Access} {i : RegionId} {tag : Byte} {q : Req} (dj : Option DirectJob)
    (h : MayUse s p l need i) (hc : s.checkLine p q.kind l = none) :
    (s.accepted p).takeLineRequest ⟨p, tag⟩ q l need dj = ((s.asked p tag q).enterLine l ⟨p, tag⟩).settle (s.accepted p) :=
  takeLineRequest_cached (s := s.accepted p) (id := ⟨p, tag⟩) (i := i) dj ⟨h.region, h.cached, h.right⟩ hc

/-! ## A request that takes a free entry (R12, R13, R20 to R23) -/

theorem newest?_none (h : ∀ j ∈ s.journal, j.line ≠ l) : s.newest? l = none := by
  simpa [State.newest?, List.find?_eq_none] using h

/-- The only request of the allocation queue takes a free entry at once (R12, R13). -/
theorem serveAlloc_takesFree {t : State} {id : ReqId} {q : Req} (hp : t.popAlloc = s) (ha : t.allocQueue = [id])
    (hq : t.request? id = some { id := id, req := q }) (hl : q.line? = some l)
    (he : t.entry? l = none) (hr : t.table.length < Config.tableSize)
    (hn : (s.createEntry l (some { id := id, req := q })).allocQueue = []) :
    t.serveAlloc = s.createEntry l (some { id := id, req := q }) := by
  have hx : t.examineAlloc = (s.createEntry l (some { id := id, req := q }), true) := by
    simp only [State.examineAlloc, ha, hq, hl, he, Option.isSome_none, Bool.false_eq_true, if_false, hr, if_true, hp]
  have hy : (s.createEntry l (some { id := id, req := q })).examineAlloc =
      (s.createEntry l (some { id := id, req := q }), false) := by
    simp only [State.examineAlloc, hn]
  simp only [State.serveAlloc, ha, List.length_nil, List.length_cons, Nat.zero_add, State.allocLoop, hx, hy]

/-- A request joins an empty allocation queue, and takes it when it leaves: nothing else changed (R12). -/
theorem popAlloc_enterLine {id : ReqId} (ha : s.allocQueue = []) (hj : s.jspace = []) :
    ({ s with allocQueue := s.allocQueue ++ [id] } : State).popAlloc = s := by
  cases s
  simp only [State.popAlloc] at *
  subst ha hj
  rfl

theorem enterLine_absent {id : ReqId} (he : s.entry? l = none) :
    s.enterLine l id = { s with allocQueue := s.allocQueue ++ [id] } := by
  simp only [State.enterLine, he, Option.isSome_none, Bool.false_eq_true, if_false]

/-- A new entry that neither the request's data nor the journal fills is FILLING, with a FILL asked (R20, R23). -/
theorem createEntry_fills {i : RegionId} {w : Request} (ha : Absent s l) (hi : s.regionOf l = some i)
    (hf : w.fullLine? = none) (hq : l ∉ s.fillQueue) :
    s.createEntry l (some w) =
      { s with table := newEntry l i w.id :: s.table, fillQueue := s.fillQueue ++ [l] } := by
  simp [State.createEntry, hf, newest?_none ha.journal, State.placeEntry, State.freshEntry, hi, State.askFill, hq,
    newEntry]

end Sys2Proof.Machine
end

