-- ==== Sys2Proof/Laws/Requests.lean ====
section
/-! SUPPORT. What becomes of an admitted data request in a quiet hub: a fill, a recall, a place in a queue. -/

namespace Sys2Proof.Machine

variable {s : State} {p q : Port} {l : Line} {e : Entry}

/-! ## Lines that are absent -/

theorem others_absent (h : s.entry? l = none) : s.others l = s.table := by
  rw [entry?_none] at h
  exact List.filter_eq_self.2 fun e he => by simpa using h e he

theorem checkLine_absent {k : Kind} (h : s.entry? l = none) :
    s.checkLine p k l = holdingCheck k .none (s.holdingCount p) (s.capacity p) := by
  simp [State.checkLine, State.checkHolding, State.checkPoison, State.holding, h]

/-- An admitted request on an absent line takes a free entry in the step of its admission (R12, R20). -/
theorem enterLine_createEntry {k : Kind} {tag : Byte} {r : Req} (hq : Quiet s) (he : s.entry? l = none)
    (hr : s.table.length < Config.tableSize) (hm : MayAsk s p k tag) (hl : r.line? = some l)
    (hn : ((s.asked p tag r).createEntry l (some ⟨⟨p, tag⟩, r⟩)).allocQueue = []) :
    ((s.asked p tag r).enterLine l ⟨p, tag⟩).serveSpace.rouseHead (s.accepted p) =
      (s.asked p tag r).createEntry l (some ⟨⟨p, tag⟩, r⟩) := by
  have he' : (s.asked p tag r).entry? l = none := he
  have hone : ((s.asked p tag r).enterLine l ⟨p, tag⟩).allocQueue = [⟨p, tag⟩] := by
    rw [enterLine_absent he']; exact congrArg (· ++ [_]) hq.alloc
  have hsp : ((s.asked p tag r).enterLine l ⟨p, tag⟩).jspace = [] := by rw [enterLine_absent he']; exact hq.space
  rw [serveSpace_nil hsp, State.rouseHead, if_pos (headRoused_first (before := s.accepted p) hq.alloc hone)]
  refine serveAlloc_takesFree ?_ hone ?_ hl ?_ ?_ hn <;> rw [enterLine_absent he']
  · exact popAlloc_enterLine hq.alloc hq.space
  · exact asked_request? hm r
  · exact he
  · exact hr

/-- With the port busy the new entry is FILLING, and its FILL waits (R20, R23, R107). -/
theorem takeLineRequest_fills {f : RxFrame} {k : Kind} {r : Req} {i : RegionId} {need : Access}
    {dj : Option DirectJob} (hq : Quiet s) (hb : s.job.isSome = true) (ha : Absent s l) (hfq : l ∉ s.fillQueue)
    (had : Admits s p f k) (hk : r.kind = k) (hu : MayUse s p l need i) (hl : r.line? = some l)
    (hc : s.checkLine p k l = none) (hfl : Request.fullLine? ⟨⟨p, f.tag⟩, r⟩ = none) :
    (s.accepted p).takeLineRequest ⟨p, f.tag⟩ r l need dj =
      { s.asked p f.tag r with table := newEntry l i ⟨p, f.tag⟩ :: s.table, fillQueue := s.fillQueue ++ [l] } := by
  subst hk
  rw [takeLineRequest_asked dj hu hc]
  have hcr := createEntry_fills (s := s.asked p f.tag r) (w := ⟨⟨p, f.tag⟩, r⟩) (i := i) ⟨ha.absent, ha.room, ha.journal⟩
    hu.region hfl hfq
  have hs := enterLine_createEntry (r := r) hq ha.absent ha.room had.may hl (by rw [hcr]; exact hq.alloc)
  exact settle_served (hs.trans hcr) (.inl hb) hq.region hq.sessions

/-! ## Lines with holders in the way -/

theorem mem_ports (q : Port) : q ∈ ports := by revert q; decide

/-- A reading kind needs a DOWNGRADE of every other port that holds WRITE (R42, R45, R52). -/
theorem recallsNeeded_reads {k : Kind} (hk : k = .readWords ∨ k = .acquireRead ∨ k = .flush) : recallsNeeded e p k =
    ((List.finRange 4).filter fun q => decide (q ≠ p ∧ e.holdings[q] = .write)).map fun q => (q, .downgrade) := by
  have : ports.filter (fun q => q != p && e.holdings[q] == .write) =
      (List.finRange 4).filter fun q => decide (q ≠ p ∧ e.holdings[q] = .write) :=
    List.filter_congr fun q _ => by rw [Bool.eq_iff_iff]; simp [-Fin.getElem_fin]
  rcases hk with rfl | rfl | rfl <;> simp only [recallsNeeded, this]

/-- A writing kind needs an INVALIDATE of every other holder (R44, R46, R47). -/
theorem recallsNeeded_writes {k : Kind} (hk : k = .writeWords ∨ k = .acquireWrite ∨ k = .upgrade) : recallsNeeded e p k =
    ((List.finRange 4).filter fun q => decide (q ≠ p ∧ e.holdings[q] ≠ .none)).map fun q => (q, .invalidate) := by
  have : ports.filter (fun q => q != p && e.holdings[q] != .none) =
      (List.finRange 4).filter fun q => decide (q ≠ p ∧ e.holdings[q] ≠ .none) :=
    List.filter_congr fun q _ => by rw [Bool.eq_iff_iff]; simp [-Fin.getElem_fin]
  rcases hk with rfl | rfl | rfl <;> simp only [recallsNeeded, this]

/-- Recalls asked for change the recalls, their counter, the wait queue and the links, and no more. -/
theorem recalledInTurn_frame (t : State) (ws : List WaitingRecall) : ∃ rs n wait ls, t.recalledInTurn ws =
    { t with recalls := rs, recallCounter := n, recallWait := wait, links := ls } := by
  induction ws generalizing t with
  | nil => exact ⟨_, _, _, _, rfl⟩
  | cons w ws ih =>
    have h : ∃ rs n wait ls, t.recalled w = { t with recalls := rs, recallCounter := n, recallWait := wait, links := ls } := by
      unfold State.recalled
      split
      · exact ⟨_, _, _, _, rfl⟩
      · split <;> exact ⟨_, _, _, _, rfl⟩
    obtain ⟨rs, n, wait, ls, e⟩ := h
    obtain ⟨rs', n', wait', ls', e'⟩ := ih (t.recalled w)
    refine ⟨rs', n', wait', ls', ?_⟩
    show (t.recalled w).recalledInTurn ws = _
    rw [e', e]

/-- Nothing that a hub is quiet by depends on recalls. -/
theorem Quiet.recalledInTurn (h : Quiet s) (ws : List WaitingRecall) : Quiet (s.recalledInTurn ws) := by
  obtain ⟨_, _, _, _, e⟩ := recalledInTurn_frame s ws
  rw [e]
  exact h.congr rfl rfl rfl rfl rfl rfl rfl rfl rfl

/-- An admitted request that needs recalls makes its entry RECALLING, and they are asked for (R10, R63). -/
theorem enterLine_recalls {f : RxFrame} {k : Kind} {r : Req} {need : Access} {d : LineData} {rk : RecallKind} {qs : List Port}
    (hq : Quiet s) (hv : Serves s p l need e d) (ha : Admits s p f k) (hk : r.kind = k)
    (hc : holdingCheck k e.holdings[p] (s.holdingCount p) (s.capacity p) = none)
    (hr : recallsNeeded e p k = qs.map fun q => (q, rk)) (hqs : qs ≠ []) :
    ((s.asked p f.tag r).enterLine l ⟨p, f.tag⟩).settle (s.accepted p) =
      ((s.asked p f.tag r).withTable (s.table.map fun x =>
        if x.line == l then { x with activity := .recalling, waiters := x.waiters ++ [⟨p, f.tag⟩] } else x)).recalledInTurn
        (qs.map fun q => { line := l, port := q, kind := rk, purpose := .request }) := by
  subst hk
  have he : (s.asked p f.tag r).entry? l = some e := hv.present
  have hen : (s.asked p f.tag r).enterLine l ⟨p, f.tag⟩ =
      ((s.asked p f.tag r).joinWaiters l ⟨p, f.tag⟩).service l := by
    simp only [State.enterLine, he, Option.isSome_some, if_true]
  have hcl : ((s.asked p f.tag r).joinWaiters l ⟨p, f.tag⟩).checkLine p r.kind l = none := by
    rw [checkLine_joinWaiters _ _ he]
    exact (checkLine_present he hv.data).trans hc
  obtain ⟨q, qs, rfl⟩ := List.exists_cons_of_ne_nil hqs
  have hsv := service_recalls (asked_joined (p := p) (tag := f.tag) (q := r) hv.present hv.noWaiters) hv.idle rfl
    (asked_request? ha.may r) hcl hr
  set t := (s.asked p f.tag r).withTable (s.table.map fun x =>
    if x.line == l then { x with activity := .recalling, waiters := x.waiters ++ [⟨p, f.tag⟩] } else x) with ht
  have h1 : ((s.asked p f.tag r).joinWaiters l ⟨p, f.tag⟩).setActivity l .recalling = t := by
    rw [State.setActivity, State.joinWaiters,
      updateEntry_updateEntry (fun x => { x with waiters := x.waiters ++ [_] }) _ fun _ => rfl]
    rfl
  have h2 : recallsFor l .request ((q :: qs).map fun q => (q, rk)) =
      (q :: qs).map fun q => { line := l, port := q, kind := rk, purpose := .request } := by
    simp [recallsFor]
  rw [hen, hsv, h1]
  show (t.askRecalls (recallsFor l .request ((q :: qs).map fun q => (q, rk)))).settle _ = _
  rw [h2, askRecalls_eq]
  exact settle_quiet (Quiet.recalledInTurn (s := t) (hq.congr rfl rfl rfl rfl rfl rfl rfl rfl rfl) _)

/-! ## Flush on a present line (R51) -/

theorem takeFlush_present {tag : Byte} {i : RegionId} (h : MayUse s p l .read i) (he : s.entry? l = some e)
    (hc : s.checkLine p .flush l = none) :
    (s.accepted p).takeFlush ⟨p, tag⟩ l = ((s.asked p tag (.flush l)).enterLine l ⟨p, tag⟩).settle (s.accepted p) := by
  have hcd : (s.accepted p).checkData p .flush l .read true = .ok s.regions[i].cls :=
    checkData_mayUse (s := s.accepted p) (i := i) ⟨h.region, h.cached, h.right⟩ true hc
  have hp : ((s.accepted p).entry? l).isSome = true := by
    have : (s.accepted p).entry? l = some e := he
    rw [this]; rfl
  unfold State.takeFlush
  simp only [hcd, hp, if_true]
  split
  · rename_i h1; cases h1
  · rename_i h1; exact absurd (Except.ok.inj h1) h.cached
  · rfl

end Sys2Proof.Machine
end

