-- ==== Sys2Proof/Laws/Answers.lean ====
section
/-! SUPPORT. Releases, recall answers and journal insertions in a quiet hub. -/

namespace Sys2Proof.Machine

variable {s : State} {p q : Port} {l : Line} {e : Entry}

/-! ## Payloads -/

theorem parseRecallAnswer_clean (id : Byte) (l : Line) :
    parseRecallAnswer (id :: le16 l ++ [1]) = some { id := id, line := l, outcome := .clean } := by
  simp [parseRecallAnswer, le16, of16_le16]

theorem parseRecallAnswer_notHeld (id : Byte) (l : Line) :
    parseRecallAnswer (id :: le16 l ++ [3]) = some { id := id, line := l, outcome := .notHeld } := by
  simp [parseRecallAnswer, le16, of16_le16]

theorem parseRecallAnswer_data (id : Byte) (l : Line) (d : LineData) :
    parseRecallAnswer (id :: le16 l ++ [2] ++ lineBytes d) = some { id := id, line := l, outcome := .data d } := by
  simp [parseRecallAnswer, le16, of16_le16, parseData_lineBytes]

/-! ## Entries changed in place -/

theorem updateEntry_eq (f : Entry → Entry) : s.updateEntry l f = s.withTable (s.changed l f) := rfl

/-- A change that leaves the one entry of its line as it is changes nothing. -/
theorem changed_same {f : Entry → Entry} (h : s.entry? l = some e) (hn : (s.table.map Entry.line).Nodup) (hf : f e = e) :
    s.changed l f = s.table := by
  obtain ⟨hm, hl⟩ := entry?_some h
  conv_rhs => rw [← List.map_id s.table]
  refine List.map_congr_left fun x hx => ?_
  split
  · rename_i hxl
    have : x = e := List.inj_on_of_nodup_map hn hx hm (by rw [hl]; simpa using hxl)
    subst this
    exact hf
  · rfl

/-- Two changes with the same effect on the one entry of a line. -/
theorem changed_congr {f g : Entry → Entry} (h : s.entry? l = some e) (hn : (s.table.map Entry.line).Nodup)
    (hf : f e = g e) : s.changed l f = s.changed l g := by
  obtain ⟨hm, hl⟩ := entry?_some h
  refine List.map_congr_left fun x hx => ?_
  split
  · rename_i hxl
    have : x = e := List.inj_on_of_nodup_map hn hx hm (by rw [hl]; simpa using hxl)
    subst this
    exact hf
  · rfl

theorem holdingCount_updateEntry (f : Entry → Entry) (hf : ∀ x, (f x).holdings[q] = x.holdings[q]) :
    (s.updateEntry l f).holdingCount q = s.holdingCount q := by
  simp only [State.holdingCount, State.updateEntry, List.countP_map]
  congr 1
  funext x
  simp only [Function.comp]
  split
  · rw [hf]
  · rfl

theorem setHolding_setCopy (h : Holding) (c : HubCopy) :
    (s.setHolding l p h).setCopy l c =
      s.withTable (s.changed l fun x => { x with holdings := x.holdings.set p h, copy := c }) :=
  updateEntry_updateEntry (fun x => { x with holdings := x.holdings.set p h }) _ fun _ => rfl

theorem changed_changed (f g : Entry → Entry) (hf : ∀ x, (f x).line = x.line) :
    (s.withTable (s.changed l f)).changed l g = s.changed l fun x => g (f x) :=
  congrArg State.table (updateEntry_updateEntry (s := s) f g hf)

/-- A reply behind an accepted frame, whatever else the request changed. -/
theorem reply_behind {t : State} (h : t.links = (s.accepted p).links) (tag : Byte) (st : Status) (d : List Byte) :
    t.reply p tag st d = { t with links := (s.replied p tag st d).links } := by
  rw [reply_eq, h, ← accepted_reply]
  rfl

theorem holding_of (h : s.entry? l = some e) (p : Port) : s.holding l p = e.holdings[p] := by
  simp [State.holding, h]

/-! ## Recalls (R62, R70) -/

theorem recallOutstanding_congr {t : State} (hr : t.recalls = s.recalls) (hw : t.recallWait = s.recallWait) :
    t.recallOutstanding l p = s.recallOutstanding l p := by
  simp only [State.recallOutstanding, hr, hw]

theorem openWaiting_nil (h : s.recallWait = []) : s.openWaiting = s := by
  unfold State.openWaiting
  rw [h]
  split <;> rfl

theorem removeRecall_eq (h : s.recallWait = []) :
    s.removeRecall l p = { s with recalls := s.recallsWithout l p } := by
  unfold State.removeRecall
  rw [openWaiting_nil (by simp [h])]
  simp [State.recallsWithout, h]

/-- With the only recall of its line gone, no recall of the line is outstanding (R62). -/
theorem onlyRecall_gone {r : Recall} (h : OnlyRecall s l p r) :
    ({ s with recalls := s.recallsWithout l p } : State).lineRecalled l = false := by
  simp only [State.lineRecalled, State.recallsWithout, h.unsent, List.any_nil, Bool.or_false, List.any_eq_false]
  intro x hx
  obtain ⟨hm, hf⟩ := List.mem_filter.1 hx
  intro hl
  have hl' : x.asked.line = l := by simpa using hl
  have := h.only x hm hl'
  subst this
  simp [h.line, h.port] at hf

theorem onlyRecall_outstanding {r : Recall} (h : OnlyRecall s l p r) : s.recallOutstanding l p = true := by
  simp only [State.recallOutstanding, Bool.or_eq_true, List.any_eq_true]
  exact .inl ⟨r, h.isOpen, by simp [h.line, h.port]⟩

theorem OnlyRecall.congr {t : State} {r : Recall} (h : OnlyRecall s l p r) (hr : t.recalls = s.recalls)
    (hw : t.recallWait = s.recallWait) : OnlyRecall t l p r :=
  ⟨hr ▸ h.isOpen, h.line, h.port, by rw [hr]; exact h.only, hw.trans h.unsent⟩

/-- The open recall an answer with the right id matches (R67). -/
theorem matchRecall_only {r : Recall} (h : OnlyRecall s l p r) (o : AnswerOutcome) :
    s.matchRecall p { id := r.id, line := l, outcome := o } = some r := by
  unfold State.matchRecall
  have : s.recalls.find? (fun x => x.id == r.id && x.asked.line == l && x.asked.port == p) = some r := by
    cases hf : s.recalls.find? (fun x => x.id == r.id && x.asked.line == l && x.asked.port == p) with
    | none =>
      have := List.find?_eq_none.1 hf r h.isOpen
      simp [h.line, h.port] at this
    | some x =>
      have hp := List.find?_some hf
      simp only [Bool.and_eq_true, beq_iff_eq] at hp
      rw [h.only x (List.mem_of_find?_eq_some hf) hp.1.2]
  exact this

/-- The closing of the only recall of a RECALLING entry without waiters, in a quiet hub (R70). -/
theorem closeRecall_recalling {r : Recall} (h : OnlyRecall s l p r) (he : s.entry? l = some e)
    (ha : e.activity = .recalling) (hw : e.waiters = []) (hc : s.completing = none) (hs : s.sessionState p ≠ .closing) :
    s.closeRecall l p =
      { (s.withTable (s.changed l fun x => { x with activity := .idle })) with recalls := s.recallsWithout l p } := by
  have h1 := removeRecall_eq (l := l) (p := p) h.unsent
  have h2 := onlyRecall_gone h
  set t : State := { s with recalls := s.recallsWithout l p } with ht
  have het : t.entry? l = some e := he
  have h3 : t.tellLineTable l = t.setActivity l .idle := by
    have hes : (t.setActivity l .idle).entry? l = some { e with activity := .idle } :=
      updateEntry_entry? (fun x => { x with activity := .idle }) (fun _ => rfl) het
    have hsv : (t.setActivity l .idle).service l = t.setActivity l .idle := by
      simp only [State.service, hes, hw, List.length_nil, State.serviceLoop]
    simp only [State.tellLineTable, h2, Bool.false_eq_true, if_false, het, ha, hsv]
  have h4 : ((t.setActivity l .idle).tellRegionTable l p) = t.setActivity l .idle := by
    have : (t.setActivity l .idle).completing = none := hc
    simp only [State.tellRegionTable, this]
  have h5 : (t.setActivity l .idle).tellSession l p = t.setActivity l .idle := by
    have : ¬ (t.setActivity l .idle).sessionState p = .closing := hs
    simp only [State.tellSession, this, false_and, if_false]
  rw [State.closeRecall, h1, h3, h4, h5]
  rfl

/-- The same with the end of its step. -/
theorem closeRecall_settle {before : State} {r : Recall} (h : OnlyRecall s l p r) (he : s.entry? l = some e)
    (ha : e.activity = .recalling) (hw : e.waiters = []) (hq : Quiet s) :
    (s.closeRecall l p).settle before =
      { (s.withTable (s.changed l fun x => { x with activity := .idle })) with recalls := s.recallsWithout l p } := by
  rw [closeRecall_recalling h he ha hw hq.region (hq.sessions p)]
  exact settle_quiet (hq.congr rfl rfl rfl rfl rfl rfl rfl rfl rfl)

theorem Quiet.updateEntry (h : Quiet s) (f : Entry → Entry) : Quiet (s.updateEntry l f) :=
  h.congr rfl rfl rfl rfl rfl rfl rfl rfl rfl

theorem Quiet.accepted (h : Quiet s) : Quiet (s.accepted p) := h.congr rfl rfl rfl rfl rfl rfl rfl rfl rfl

theorem Quiet.reply (h : Quiet s) (tag : Byte) (st : Status) (d : List Byte) : Quiet (s.reply p tag st d) :=
  h.congr rfl rfl rfl rfl rfl rfl rfl rfl rfl

theorem Quiet.replied (h : Quiet s) (tag : Byte) (st : Status) (d : List Byte) : Quiet (s.replied p tag st d) :=
  h.congr rfl rfl rfl rfl rfl rfl rfl rfl rfl

/-- A request answered in the step of its admission that changed nothing else leaves its reply alone. -/
theorem answer_askedAlone {k : Kind} {tag : Byte} {r : Req} (h : MayAsk s p k tag) (st : Status) (d : List Byte) :
    (s.asked p tag r).answer ⟨p, tag⟩ st d = s.replied p tag st d := by
  rw [answer_asked h rfl rfl]
  rfl

/-! ## A line handed over (R9, R46, R70) -/

/-- The Acquire or Upgrade that waits alone on an IDLE entry is granted its holding and answered, and what must follow the grant is
asked behind the reply (R9, R45 to R47, R145, R174). -/
theorem service_grants {tag : Byte} {r : Req} {h : Holding} {data : List Byte} (he : s.entry? l = some e) (hi : e.activity = .idle)
    (hw : e.waiters = [⟨q, tag⟩]) (hrq : s.request? ⟨q, tag⟩ = some { id := ⟨q, tag⟩, req := r })
    (hcl : s.checkLine q r.kind l = none) (hrn : recallsNeeded e q r.kind = [])
    (hsr : s.serveReq l e ⟨⟨q, tag⟩, r⟩ =
      (((s.setHolding l q h).serveDone l ⟨q, tag⟩ data).watchGrant l q, true)) :
    s.service l =
      ((s.withTable ({ e with holdings := e.holdings.set q h, waiters := [], prefetched := false } :: s.others l)).answer
        ⟨q, tag⟩ .done data).recalledInTurn (s.afterGrant l q e.region h) := by
  have he' : (s.setHolding l q h).entry? l = some { e with holdings := e.holdings.set q h } :=
    updateEntry_entry? (fun x => { x with holdings := x.holdings.set q h }) (fun _ => rfl) he
  have ho : (s.setHolding l q h).others l = s.others l :=
    updateEntry_others (fun x => { x with holdings := x.holdings.set q h }) fun _ => rfl
  have hsd := serveDone_eq (s := s.setHolding l q h) ⟨q, tag⟩ data he'
  rw [ho] at hsd
  rw [service_alone he hi hw hrq hcl hrn, hsr]
  show ((s.setHolding l q h).serveDone l ⟨q, tag⟩ data).watchGrant l q = _
  rw [hsd, hw]
  refine watchGrant_eq (e := { e with holdings := e.holdings.set q h, waiters := [], prefetched := false }) ?_ (by simp)
  show List.find? _ (_ :: _) = _
  simp [(entry?_some he).2]

/-- A recall that is the only one of its line closes: the line table, the region table and session control are told (R70). -/
theorem closeRecall_eq {r : Recall} (h : OnlyRecall s l p r) :
    s.closeRecall l p =
      ((({ s with recalls := s.recallsWithout l p } : State).tellLineTable l).tellRegionTable l p).tellSession l p := by
  have h1 : s.removeRecall l p = { s with recalls := s.recallsWithout l p } := removeRecall_eq h.unsent
  generalize ({ s with recalls := s.recallsWithout l p } : State) = t at h1 ⊢
  rw [State.closeRecall, h1]

/-! ## The journal (R81 to R85, R98) -/

theorem Appends.congr {t : State} (h : Appends s l) (hj : t.journal = s.journal) (hc : t.seqCounter = s.seqCounter) :
    Appends t l :=
  ⟨hj ▸ h.room, hj ▸ h.queued, hc ▸ h.counter, by rw [hj, hc]; exact h.fresh⟩

theorem newSeq_counter (h : Appends s l) : s.newSeq = s.seqCounter := by
  have : s.seqCounter ∉ (0 : Seq) :: s.journal.map (·.seq) := by
    simp only [List.mem_cons, not_or, List.mem_map, not_exists, not_and]
    exact ⟨h.counter, fun j hj => h.fresh j hj⟩
  rw [State.newSeq, firstFree, if_neg this]

theorem hasQueued_appends (h : Appends s l) : s.hasQueued l = false := by
  simp only [State.hasQueued, List.any_eq_false, Bool.and_eq_true, beq_iff_eq, not_and]
  exact h.queued

/-- A new entry, with what it brings about at the high water mark (R85, R98). -/
theorem insertJournal_appends (h : Appends s l) (d : LineData) (o : Origin) :
    s.insertJournal l d o = s.appended l d o := by
  unfold State.insertJournal
  rw [hasQueued_appends h]
  unfold State.appendJournal State.raiseHighWater State.appended
  simp only [Bool.false_eq_true, if_false, newSeq_counter h, List.length_append, List.length_cons, List.length_nil]
  by_cases hw : s.journal.length = 23 ∧ s.highAlarm = true
  · rw [if_pos hw, if_pos (by simp [hw.1, hw.2, Config.highWater]), hw.1]
    rfl
  · rw [if_neg hw, if_neg]
    intro e
    simp only [Bool.and_eq_true, beq_iff_eq, Config.highWater] at e
    exact hw ⟨by omega, e.1⟩

/-- What a new entry brings about depends on the journal, its counter and alarm, and on what its notice depends on. -/
theorem appended_congr {t : State} (d : LineData) (o : Origin) (hj : t.journal = s.journal) (hc : t.seqCounter = s.seqCounter)
    (ha : t.highAlarm = s.highAlarm) (hp : t.supervisor = s.supervisor) (hs : t.sessions = s.sessions)
    (hn : t.notices = s.notices) (hl : t.links = s.links) : t.appended l d o =
    { t with journal := (s.appended l d o).journal, seqCounter := (s.appended l d o).seqCounter,
             highAlarm := (s.appended l d o).highAlarm, notices := (s.appended l d o).notices,
             links := (s.appended l d o).links } := by
  unfold State.appended
  rw [hj, ha]
  split
  · dsimp only
    rw [hc, hp]
    generalize ({ kind := .journalHigh, subject := none, data := 24 } : Notice) = n
    generalize hu : ({ s with
      journal := s.journal ++ [{ line := l, data := d, seq := s.seqCounter, origin := o, state := .queued }]
      seqCounter := nextSeq s.seqCounter
      highAlarm := false } : State) = u
    rw [State.postNotice_congr (s := u) _ _ (by rw [← hu]; exact hs) (by rw [← hu]; exact hn) (by rw [← hu]; exact hl)]
    simp only [State.postNotice_journal, State.postNotice_seqCounter, State.postNotice_highAlarm]
    rw [← hu]
  · dsimp only
    rw [hc, ← hn, ← hl, ← ha]

theorem canInsert_appends (h : Appends s l) : s.canInsert l = true := by
  simp [State.canInsert, State.slotFree, h.room]

theorem leaveSpace_nil (h : s.jspace = []) : s.leaveSpace l = s := by
  cases s
  simp only [State.leaveSpace] at *
  subst h
  rfl

/-- The DIRTY copy of a line enters the journal as a new entry (R83, R85). -/
theorem insertCopy_appends (h : Appends s l) (hj : s.jspace = []) (d : LineData) (o : Origin) :
    s.insertCopy l d o = (s.appended l d o).withTable (s.changed l fun x => { x with copy := .clean d }) := by
  unfold State.insertCopy
  rw [insertJournal_appends h, leaveSpace_nil (by simpa using hj)]
  simp only [State.setCopy, updateEntry_eq, State.changed, State.appended_table]

/-- The DIRTY copy of a line merges into its QUEUED entry (R83, R84). -/
theorem insertCopy_merges (h : s.hasQueued l = true) (hj : s.jspace = []) (d : LineData) (o : Origin) :
    s.insertCopy l d o = (s.mergeJournal l d o).withTable (s.changed l fun x => { x with copy := .clean d }) := by
  unfold State.insertCopy State.insertJournal
  rw [if_pos h]
  exact leaveSpace_nil hj

theorem setCopy_setCopy (a b : HubCopy) (t : State) (ht : t.table = s.changed l fun x => { x with copy := a }) :
    (t.changed l fun x => { x with copy := b }) = s.changed l fun x => { x with copy := b } := by
  have := changed_changed (s := s) (l := l) (fun x => { x with copy := a }) (fun x => { x with copy := b }) fun _ => rfl
  rw [← this]
  simp only [State.changed, ht, State.withTable]

/-- A copy owed to the journal that merges into the line's QUEUED entry (R84, R86). -/
theorem makeDirty_merges (hc : s.classOf l = some .writeThrough) (h : s.hasQueued l = true) (hj : s.jspace = [])
    (d : LineData) (o : Origin) :
    s.makeDirty l d o = (s.mergeJournal l d o).withTable (s.changed l fun x => { x with copy := .clean d }) := by
  have hq : (s.setCopy l (.dirty d)).hasQueued l = true := h
  have hi : (s.setCopy l (.dirty d)).canInsert l = true := by simp [State.canInsert, hq]
  unfold State.makeDirty
  simp only [hc, if_true, hi]
  rw [insertCopy_merges hq hj, setCopy_setCopy (.dirty d) (.clean d) _ rfl]
  rfl

/-- A copy owed to the journal that takes a new entry (R85, R86). -/
theorem makeDirty_appends (hc : s.classOf l = some .writeThrough) (h : Appends s l) (hj : s.jspace = [])
    (d : LineData) (o : Origin) :
    s.makeDirty l d o = (s.appended l d o).withTable (s.changed l fun x => { x with copy := .clean d }) := by
  have hq : Appends (s.setCopy l (.dirty d)) l := ⟨h.room, h.queued, h.counter, h.fresh⟩
  unfold State.makeDirty
  simp only [hc, if_true, canInsert_appends hq]
  rw [insertCopy_appends hq hj, appended_congr (t := s.setCopy l (.dirty d)) (s := s) d o rfl rfl rfl rfl rfl rfl rfl,
    setCopy_setCopy (.dirty d) (.clean d) _ rfl]
  conv_rhs => rw [appended_congr (t := s) (s := s) d o rfl rfl rfl rfl rfl rfl rfl]
  rfl

theorem newest?_of {j : JournalEntry} (h : s.Newest l j) : s.newest? l = some j := by
  obtain ⟨older, younger, hj, hl, hy⟩ := h
  have hn : (younger.reverse.find? fun k => k.line == l) = none := by
    simpa [List.find?_eq_none] using hy
  simp [State.newest?, hj, List.find?_append, hn, hl]

end Sys2Proof.Machine
end

