-- ==== Sys2Proof/Laws/Gone.lean ====
section
/-! SUPPORT. A hub that keeps nothing of a port goes on keeping nothing of it, whatever its own blocks do (R59, R60, R77). -/

namespace Sys2Proof.Machine

/-- What an operation of the hub's own blocks leaves alone for a port of which it keeps nothing. -/
structure Leaves (p : Port) (s t : State) : Prop where
  nothing : NothingOf s p → NothingOf t p
  session : s.sessionState p ≠ .closing → t.sessions[p] = s.sessions[p]
  keepalive : s.sessionState p ≠ .closing → t.links[p].keepalive = s.links[p].keepalive
  notices   : (s.sessionState p).hasSession = false → t.notices[p] = s.notices[p]
  link      : (s.sessionState p).hasSession = false → t.links[p] = s.links[p]

namespace Leaves

variable {p : Port} {s t u : State}

theorem refl : Leaves p s s := ⟨id, fun _ => rfl, fun _ => rfl, fun _ => rfl, fun _ => rfl⟩

theorem trans (a : Leaves p s t) (b : NothingOf t p → Leaves p t u) (hs : NothingOf s p) : Leaves p s u := by
  have hb := b (a.nothing hs)
  have hc : s.sessionState p ≠ .closing → t.sessionState p ≠ .closing := fun h => by
    unfold State.sessionState at *; rw [a.session h]; exact h
  have hn : (s.sessionState p).hasSession = false → (t.sessionState p).hasSession = false := fun h => by
    have hne : s.sessionState p ≠ .closing := fun e => by rw [e] at h; cases h
    unfold State.sessionState at *; rw [a.session hne]; exact h
  exact ⟨fun h => hb.nothing (a.nothing h), fun h => (hb.session (hc h)).trans (a.session h),
    fun h => (hb.keepalive (hc h)).trans (a.keepalive h), fun h => (hb.notices (hn h)).trans (a.notices h),
    fun h => (hb.link (hn h)).trans (a.link h)⟩

end Leaves

/-- An operation that touches none of what `NothingOf` speaks of. -/
structure Aside (p : Port) (s t : State) : Prop where
  table       : t.table = s.table
  recalls     : t.recalls = s.recalls
  recallWait  : t.recallWait = s.recallWait
  requests    : t.requests.Sublist s.requests
  allocQueue  : t.allocQueue = s.allocQueue
  syncList    : t.syncList = s.syncList
  directQueue : t.directQueue = s.directQueue
  sessions    : t.sessions = s.sessions
  keepalive   : t.links[p].keepalive = s.links[p].keepalive
  notices     : (s.sessionState p).hasSession = false → t.notices[p] = s.notices[p]
  link        : (s.sessionState p).hasSession = false → t.links[p] = s.links[p]

variable {p : Port} {s t u : State}

theorem Aside.leaves (a : Aside p s t) : Leaves p s t where
  nothing h :=
    ⟨by rw [a.table]; exact h.holdings, by rw [a.table]; exact h.waiters, by rw [a.recalls]; exact h.recalls,
     by rw [a.recallWait]; exact h.unsent, fun r hr => h.requests r (a.requests.subset hr),
     by rw [a.allocQueue]; exact h.alloc, by rw [a.syncList]; exact h.sync, by rw [a.directQueue]; exact h.direct⟩
  session _ := by rw [a.sessions]
  keepalive _ := a.keepalive
  notices := a.notices
  link := a.link

theorem Aside.refl : Aside p s s := ⟨rfl, rfl, rfl, List.Sublist.refl _, rfl, rfl, rfl, rfl, rfl, fun _ => rfl, fun _ => rfl⟩

theorem Aside.trans (a : Aside p s t) (b : Aside p t u) : Aside p s u :=
  ⟨b.table.trans a.table, b.recalls.trans a.recalls, b.recallWait.trans a.recallWait, b.requests.trans a.requests,
   b.allocQueue.trans a.allocQueue, b.syncList.trans a.syncList, b.directQueue.trans a.directQueue,
   b.sessions.trans a.sessions, b.keepalive.trans a.keepalive,
   fun h => (b.notices (by unfold State.sessionState at *; rw [a.sessions]; exact h)).trans (a.notices h),
   fun h => (b.link (by unfold State.sessionState at *; rw [a.sessions]; exact h)).trans (a.link h)⟩

/-! ## Operations aside -/

theorem setLink_aside {q : Port} (l : LinkUnit) (h : l.keepalive = s.links[q].keepalive)
    (hs : q = p → (s.sessionState p).hasSession = true) : Aside p s (s.setLink q l) := by
  have hk : (s.setLink q l).links[p].keepalive = s.links[p].keepalive ∧
      ((s.sessionState p).hasSession = false → (s.setLink q l).links[p] = s.links[p]) := by
    by_cases hq : q = p
    · subst hq; exact ⟨by simpa using h, fun h' => by rw [hs rfl] at h'; cases h'⟩
    · have : q.val ≠ p.val := fun e => hq (Fin.ext e)
      simp [this]
  exact ⟨rfl, rfl, rfl, List.Sublist.refl _, rfl, rfl, rfl, rfl, hk.1, fun _ => rfl, hk.2⟩

theorem sendSeq_aside {q : Port} (k tag : Byte) (pl : List Byte) (hs : q = p → (s.sessionState p).hasSession = true) :
    Aside p s (s.sendSeq q k tag pl) :=
  setLink_aside _ (by unfold LinkUnit.sendSeq; split <;> rfl) hs

theorem answer_aside {id : ReqId} (st : Status) (d : List Byte)
    (hs : id.port = p → (s.sessionState p).hasSession = true) : Aside p s (s.answer id st d) := by
  refine Aside.trans (t := { s with requests := s.requests.filter fun r => r.id != id }) ?_ (sendSeq_aside _ _ _ hs)
  exact ⟨rfl, rfl, rfl, List.filter_sublist, rfl, rfl, rfl, rfl, rfl, fun _ => rfl, fun _ => rfl⟩

theorem answer_leaves {id : ReqId} (st : Status) (d : List Byte) (h : id.port ≠ p) : Leaves p s (s.answer id st d) :=
  (answer_aside st d fun e => absurd e h).leaves

theorem setNotices_aside {q : Port} (n : NoticeUnit) (h : q = p → (s.sessionState p).hasSession = true) :
    Aside p s (s.setNotices q n) := by
  refine ⟨rfl, rfl, rfl, List.Sublist.refl _, rfl, rfl, rfl, rfl, rfl, fun hs => ?_, fun _ => rfl⟩
  by_cases hq : q = p
  · rw [h hq] at hs; cases hs
  · have : q.val ≠ p.val := fun e => hq (Fin.ext e)
    simp [State.setNotices, this]

theorem deliverNotice_aside {q : Port} (h : q = p → (s.sessionState p).hasSession = true) :
    Aside p s (s.deliverNotice q) := by
  unfold State.deliverNotice
  split
  · exact (setNotices_aside _ h).trans (sendSeq_aside _ _ _ h)
  · exact Aside.refl

/-- A notice is received in a session only (R149). -/
theorem receivedIn_session {k : NoticeKind} {x : SessionState} (h : k.receivedIn x = true) : x.hasSession = true := by
  cases k <;> cases x <;> first | rfl | cases h

theorem postNotice_aside (q : Port) (n : Notice) : Aside p s (s.postNotice q n) := by
  unfold State.postNotice
  split
  · rename_i h
    have hp : q = p → (s.sessionState p).hasSession = true := fun e => e ▸ receivedIn_session h
    exact (setNotices_aside _ hp).trans (deliverNotice_aside hp)
  · exact Aside.refl

theorem foldl_aside {α : Type} {f : State → α → State} (h : ∀ s a, Aside p s (f s a)) (as : List α) :
    Aside p s (as.foldl f s) := by
  induction as generalizing s with
  | nil => exact Aside.refl
  | cons a as ih => exact (h s a).trans ih

theorem postAll_aside (n : Notice) : Aside p s (s.postAll n) := foldl_aside (fun s q => postNotice_aside (s := s) q n) _

theorem createRecord_aside (b : RecordBody) : Aside p s (s.createRecord b) := by
  unfold State.createRecord
  dsimp only
  split
  · refine Aside.trans (t := { s with recordCounter := nextRecordId s.newRecordId, faultQueue := _ }) ?_ (postNotice_aside ..)
    exact ⟨rfl, rfl, rfl, List.Sublist.refl _, rfl, rfl, rfl, rfl, rfl, fun _ => rfl, fun _ => rfl⟩
  · refine Aside.trans (t := { s with recordCounter := nextRecordId s.newRecordId, stopRecord := _, mode := .stopped, stopOut := true }) ?_ (postAll_aside _)
    exact ⟨rfl, rfl, rfl, List.Sublist.refl _, rfl, rfl, rfl, rfl, rfl, fun _ => rfl, fun _ => rfl⟩

theorem raiseHighWater_aside : Aside p s s.raiseHighWater := by
  unfold State.raiseHighWater
  split
  · refine Aside.trans (t := { s with highAlarm := false }) ?_ (postNotice_aside ..)
    exact ⟨rfl, rfl, rfl, List.Sublist.refl _, rfl, rfl, rfl, rfl, rfl, fun _ => rfl, fun _ => rfl⟩
  · exact Aside.refl

theorem insertJournal_aside (l : Line) (d : LineData) (o : Origin) : Aside p s (s.insertJournal l d o) := by
  unfold State.insertJournal
  split
  · exact ⟨rfl, rfl, rfl, List.Sublist.refl _, rfl, rfl, rfl, rfl, rfl, fun _ => rfl, fun _ => rfl⟩
  · unfold State.appendJournal
    refine Aside.trans ?_ raiseHighWater_aside
    exact ⟨rfl, rfl, rfl, List.Sublist.refl _, rfl, rfl, rfl, rfl, rfl, fun _ => rfl, fun _ => rfl⟩

theorem leaveSpace_aside (l : Line) : Aside p s (s.leaveSpace l) :=
  ⟨rfl, rfl, rfl, List.Sublist.refl _, rfl, rfl, rfl, rfl, rfl, fun _ => rfl, fun _ => rfl⟩

theorem joinSpace_aside (l : Line) (o : Origin) : Aside p s (s.joinSpace l o) := by
  unfold State.joinSpace
  split
  · exact Aside.refl
  · exact ⟨rfl, rfl, rfl, List.Sublist.refl _, rfl, rfl, rfl, rfl, rfl, fun _ => rfl, fun _ => rfl⟩

theorem beginAccess_aside (j : Job) : Aside p s (s.beginAccess j) := by
  unfold State.beginAccess
  split <;> exact ⟨rfl, rfl, rfl, List.Sublist.refl _, rfl, rfl, rfl, rfl, rfl, fun _ => rfl, fun _ => rfl⟩

theorem countPass_aside : Aside p s s.countPass := by
  unfold State.countPass
  split
  · exact Aside.refl
  · exact ⟨rfl, rfl, rfl, List.Sublist.refl _, rfl, rfl, rfl, rfl, rfl, fun _ => rfl, fun _ => rfl⟩

theorem clearPass_aside : Aside p s s.clearPass := by
  unfold State.clearPass
  split
  · exact ⟨rfl, rfl, rfl, List.Sublist.refl _, rfl, rfl, rfl, rfl, rfl, fun _ => rfl, fun _ => rfl⟩
  · exact Aside.refl

theorem askFill_aside (l : Line) : Aside p s (s.askFill l) := by
  unfold State.askFill
  split
  · exact Aside.refl
  · exact ⟨rfl, rfl, rfl, List.Sublist.refl _, rfl, rfl, rfl, rfl, rfl, fun _ => rfl, fun _ => rfl⟩

/-! ## Entries -/

/-- Another table in which the port holds nothing and waits nowhere. -/
theorem table_leaves {tb : List Entry} {js : List SpaceWaiter}
    (h : ∀ e ∈ tb, (∃ x ∈ s.table, e.holdings[p] = x.holdings[p] ∧ ∀ w ∈ e.waiters, w ∈ x.waiters) ∨
      (e.holdings[p] = .none ∧ ∀ w ∈ e.waiters, w.port ≠ p)) :
    Leaves p s { s with table := tb, jspace := js } where
  nothing hs := by
    refine { hs with holdings := fun e he => ?_, waiters := fun e he w hw => ?_ }
    · rcases h e he with ⟨x, hx, h1, _⟩ | ⟨h1, _⟩
      · rw [h1]; exact hs.holdings x hx
      · exact h1
    · rcases h e he with ⟨x, hx, _, h2⟩ | ⟨_, h2⟩
      · exact hs.waiters x hx w (h2 w hw)
      · exact h2 w hw
  session _ := rfl
  keepalive _ := rfl
  notices _ := rfl
  link _ := rfl

theorem updateEntry_leaves (l : Line) (f : Entry → Entry)
    (h : ∀ x, ((f x).holdings[p] = x.holdings[p] ∧ ∀ w ∈ (f x).waiters, w ∈ x.waiters)) :
    Leaves p s (s.updateEntry l f) := by
  refine table_leaves (js := s.jspace) fun e he => .inl ?_
  obtain ⟨x, hx, rfl⟩ := List.mem_map.1 he
  refine ⟨x, hx, ?_⟩
  split
  · exact h x
  · exact ⟨rfl, fun w hw => hw⟩

theorem setHolding_leaves (l : Line) {q : Port} (h : Holding) (hq : q ≠ p) : Leaves p s (s.setHolding l q h) := by
  have hv : q.val ≠ p.val := fun e => hq (Fin.ext e)
  exact updateEntry_leaves l _ fun x => ⟨by simp [hv], fun w hw => hw⟩

theorem setCopy_leaves (l : Line) (c : HubCopy) : Leaves p s (s.setCopy l c) :=
  updateEntry_leaves l _ fun _ => ⟨rfl, fun _ hw => hw⟩

theorem setActivity_leaves (l : Line) (a : Activity) : Leaves p s (s.setActivity l a) :=
  updateEntry_leaves l _ fun _ => ⟨rfl, fun _ hw => hw⟩

theorem dropHead_leaves (l : Line) : Leaves p s (s.dropHead l) :=
  updateEntry_leaves l _ fun _ => ⟨rfl, fun _ hw => List.mem_of_mem_tail hw⟩

theorem joinWaiters_leaves (l : Line) {r : ReqId} (hr : r.port ≠ p) : Leaves p s (s.joinWaiters l r) where
  nothing hs := by
    refine { hs with holdings := fun e he => ?_, waiters := fun e he w hw => ?_ }
    · obtain ⟨x, hx, rfl⟩ := List.mem_map.1 he
      have := hs.holdings x hx
      split <;> exact this
    · obtain ⟨x, hx, rfl⟩ := List.mem_map.1 he
      split at hw
      · rcases List.mem_append.1 hw with hw | hw
        · exact hs.waiters x hx w hw
        · rw [List.mem_singleton.1 hw]; exact hr
      · exact hs.waiters x hx w hw
  session _ := rfl
  keepalive _ := rfl
  notices _ := rfl
  link _ := rfl

theorem touch_leaves (l : Line) : Leaves p s (s.touch l) := by
  unfold State.touch
  split
  · rename_i e he
    refine table_leaves (js := s.jspace) fun x hx => .inl ?_
    rcases List.mem_cons.1 hx with rfl | hx
    · exact ⟨e, (entry?_some he).1, rfl, fun w hw => hw⟩
    · exact ⟨x, (List.mem_filter.1 hx).1, rfl, fun w hw => hw⟩
  · exact Leaves.refl

theorem removeEntry_leaves (l : Line) : Leaves p s (s.removeEntry l) :=
  table_leaves fun x hx => .inl ⟨x, (List.mem_filter.1 hx).1, rfl, fun _ hw => hw⟩

theorem placeEntry_leaves (e : Entry) (hh : e.holdings[p] = .none) (hw : ∀ w ∈ e.waiters, w.port ≠ p) :
    Leaves p s (s.placeEntry e) := by
  refine table_leaves (js := s.jspace) fun x hx => ?_
  split at hx
  · rcases List.mem_append.1 hx with hx | hx
    · exact .inl ⟨x, hx, rfl, fun w hw => hw⟩
    · rw [List.mem_singleton.1 hx]; exact .inr ⟨hh, hw⟩
  · rcases List.mem_cons.1 hx with rfl | hx
    · exact .inr ⟨hh, hw⟩
    · exact .inl ⟨x, hx, rfl, fun w hw => hw⟩

/-! ## Copies and recalls -/

theorem insertCopy_leaves (l : Line) (d : LineData) (o : Origin) (hs : NothingOf s p) : Leaves p s (s.insertCopy l d o) :=
  (((insertJournal_aside l d o).leaves).trans (fun _ => setCopy_leaves ..) hs).trans
    (fun _ => (leaveSpace_aside l).leaves) hs

theorem makeDirty_leaves (l : Line) (d : LineData) (o : Origin) (hs : NothingOf s p) : Leaves p s (s.makeDirty l d o) := by
  unfold State.makeDirty
  dsimp only
  split
  · split
    · exact (setCopy_leaves ..).trans (insertCopy_leaves l d o) hs
    · exact (setCopy_leaves ..).trans (fun _ => (joinSpace_aside l o).leaves) hs
  · exact setCopy_leaves ..

theorem recalls_leaves {rs : List Recall} {ws : List WaitingRecall} {c : Byte}
    (hr : ∀ r ∈ rs, r ∈ s.recalls ∨ r.asked.port ≠ p) (hw : ∀ w ∈ ws, w ∈ s.recallWait ∨ w.port ≠ p) :
    Leaves p s { s with recalls := rs, recallWait := ws, recallCounter := c } where
  nothing hs := { hs with
    recalls := fun r h => (hr r h).elim (hs.recalls r) id
    unsent := fun w h => (hw w h).elim (hs.unsent w) id }
  session _ := rfl
  keepalive _ := rfl
  notices _ := rfl
  link _ := rfl

theorem openRecall_leaves {w : WaitingRecall} (hw : w.port ≠ p) (hs : NothingOf s p) : Leaves p s (s.openRecall w) := by
  unfold State.openRecall
  refine Leaves.trans (t := { s with recalls := _, recallWait := s.recallWait, recallCounter := _ }) ?_
    (fun _ => (sendSeq_aside _ _ _ fun e => absurd e hw).leaves) hs
  refine recalls_leaves (fun r hr => ?_) fun _ h => .inl h
  rcases List.mem_append.1 hr with hr | hr
  · exact .inl hr
  · rw [List.mem_singleton.1 hr]; exact .inr hw

theorem askRecall_leaves {w : WaitingRecall} (hw : w.port ≠ p) (hs : NothingOf s p) : Leaves p s (s.askRecall w) := by
  unfold State.askRecall
  split
  · exact Leaves.refl
  · split
    · exact openRecall_leaves hw hs
    · refine recalls_leaves (c := s.recallCounter) (fun r hr => .inl hr) fun v hv => ?_
      rcases List.mem_append.1 hv with hv | hv
      · exact .inl hv
      · rw [List.mem_singleton.1 hv]; exact .inr hw

theorem foldl_leaves {α : Type} {f : State → α → State} (P : α → Prop)
    (h : ∀ s a, P a → NothingOf s p → Leaves p s (f s a)) (as : List α) (ha : ∀ a ∈ as, P a) (hs : NothingOf s p) :
    Leaves p s (as.foldl f s) := by
  induction as generalizing s with
  | nil => exact Leaves.refl
  | cons a as ih =>
    exact (h s a (ha a (List.mem_cons_self ..)) hs).trans
      (fun ht => ih (fun b hb => ha b (List.mem_cons_of_mem _ hb)) ht) hs

theorem askRecalls_leaves {ws : List WaitingRecall} (hw : ∀ w ∈ ws, w.port ≠ p) (hs : NothingOf s p) :
    Leaves p s (s.askRecalls ws) :=
  foldl_leaves (fun w => w.port ≠ p) (fun _ _ h h' => askRecall_leaves h h') ws hw hs

theorem openWaiting_leaves (hs : NothingOf s p) : Leaves p s s.openWaiting := by
  unfold State.openWaiting
  split
  · split
    · exact Leaves.refl
    · rename_i w ws hw
      refine Leaves.trans (t := { s with recallWait := ws }) ?_ (openRecall_leaves (hs.unsent w (by simp [hw]))) hs
      exact recalls_leaves (rs := s.recalls) (c := s.recallCounter) (fun r hr => .inl hr) fun v hv => .inl (by simp [hw, hv])
  · exact Leaves.refl

theorem openAllWaiting_leaves (n : Nat) (hs : NothingOf s p) : Leaves p s (s.openAllWaiting n) := by
  induction n generalizing s with
  | zero => exact Leaves.refl
  | succ n ih => exact (openWaiting_leaves hs).trans (fun ht => ih ht) hs

theorem removeRecall_leaves (l : Line) (q : Port) (hs : NothingOf s p) : Leaves p s (s.removeRecall l q) := by
  unfold State.removeRecall
  refine Leaves.trans (t := { s with recalls := _, recallWait := _ }) ?_ openWaiting_leaves hs
  exact recalls_leaves (c := s.recallCounter) (fun r hr => .inl (List.mem_filter.1 hr).1)
    fun w hw => .inl (List.mem_filter.1 hw).1

/-! ## Service -/

theorem serveDone_leaves (l : Line) {id : ReqId} (data : List Byte) (hid : id.port ≠ p) (hs : NothingOf s p) :
    Leaves p s (s.serveDone l id data) :=
  ((dropHead_leaves l).trans (fun _ => touch_leaves l) hs).trans (fun _ => answer_leaves _ _ hid) hs

theorem watchGrant_leaves (l : Line) {q : Port} (hq : q ≠ p) (hs : NothingOf s p) : Leaves p s (s.watchGrant l q) := by
  unfold State.watchGrant
  split
  · exact Leaves.refl
  · dsimp only
    split
    · split
      · exact (askRecall_leaves hq hs).trans (askRecall_leaves hq) hs
      · exact askRecall_leaves hq hs
    · split
      · exact askRecall_leaves hq hs
      · exact Leaves.refl

theorem dropOwnRead_leaves (l : Line) {q : Port} (hq : q ≠ p) (hs : NothingOf s p) : Leaves p s (s.dropOwnRead l q) := by
  unfold State.dropOwnRead
  dsimp only
  split
  · exact (setHolding_leaves l .none hq).trans (removeRecall_leaves l q) hs
  · exact setHolding_leaves l .none hq

theorem waitFlush_leaves {id : ReqId} (q : Seq) (hid : id.port ≠ p) : Leaves p s (s.waitFlush id q) where
  nothing hs := by
    refine { hs with sync := fun i hi => ?_ }
    rcases List.mem_append.1 hi with hi | hi
    · exact hs.sync i hi
    · rw [List.mem_singleton.1 hi]; exact hid
  session _ := rfl
  keepalive _ := rfl
  notices _ := rfl
  link _ := rfl

theorem serveFlush_leaves (l : Line) (e : Entry) {id : ReqId} (hid : id.port ≠ p) (hs : NothingOf s p) :
    Leaves p s (s.serveFlush l e id).1 := by
  unfold State.serveFlush
  split
  · split
    · dsimp only
      split
      · exact ((insertCopy_leaves l _ _ hs).trans (fun _ => dropHead_leaves l) hs).trans (fun _ => waitFlush_leaves _ hid) hs
      · exact insertCopy_leaves l _ _ hs
    · exact (joinSpace_aside ..).leaves
  · split
    · exact (dropHead_leaves l).trans (fun _ => waitFlush_leaves _ hid) hs
    · exact (dropHead_leaves l).trans (fun _ => answer_leaves _ _ hid) hs

theorem serveReq_leaves (l : Line) (e : Entry) (q : Request) (hq : q.id.port ≠ p) (hs : NothingOf s p) :
    Leaves p s (s.serveReq l e q).1 := by
  unfold State.serveReq
  dsimp only
  split
  · exact serveDone_leaves l _ hq hs
  · dsimp only
    split
    · exact ((dropOwnRead_leaves l hq hs).trans (makeDirty_leaves l _ _) hs).trans (serveDone_leaves l _ hq) hs
    · exact (makeDirty_leaves l _ _ hs).trans (serveDone_leaves l _ hq) hs
  · exact ((setHolding_leaves l _ hq).trans (serveDone_leaves l _ hq) hs).trans (watchGrant_leaves l hq) hs
  · exact ((setHolding_leaves l _ hq).trans (serveDone_leaves l _ hq) hs).trans (watchGrant_leaves l hq) hs
  · exact ((setHolding_leaves l _ hq).trans (serveDone_leaves l _ hq) hs).trans (watchGrant_leaves l hq) hs
  · exact serveFlush_leaves l e hq hs
  · exact Leaves.refl

/-- The recalls a service needs go to holders (R42 to R47, R52). -/
theorem recallsNeeded_holder {e : Entry} {q : Port} {k : Kind} {x : Port × RecallKind} (h : x ∈ recallsNeeded e q k) :
    e.holdings[x.1] ≠ .none := by
  have h1 : ∀ r : RecallKind, x ∈ (ports.filter fun y => y != q && e.holdings[y] == .write).map (fun y => (y, r)) →
      e.holdings[x.1] ≠ .none := by
    intro r h
    obtain ⟨y, hy, rfl⟩ := List.mem_map.1 h
    have := (List.mem_filter.1 hy).2
    simp only [Bool.and_eq_true, beq_iff_eq] at this
    simp only [this.2]; decide
  have h2 : ∀ r : RecallKind, x ∈ (ports.filter fun y => y != q && e.holdings[y] != .none).map (fun y => (y, r)) →
      e.holdings[x.1] ≠ .none := by
    intro r h
    obtain ⟨y, hy, rfl⟩ := List.mem_map.1 h
    have := (List.mem_filter.1 hy).2
    simp only [Bool.and_eq_true, bne_iff_ne] at this
    exact this.2
  unfold recallsNeeded at h
  split at h
  all_goals first | exact h1 _ h | exact h2 _ h | exact absurd h (by simp)

theorem recallsFor_ports {l : Line} {u : Purpose} {xs : List (Port × RecallKind)} (h : ∀ x ∈ xs, x.1 ≠ p) :
    ∀ w ∈ recallsFor l u xs, w.port ≠ p := by
  intro w hw
  obtain ⟨x, hx, rfl⟩ := List.mem_map.1 hw
  exact h x hx

theorem request?_port {id : ReqId} {q : Request} (h : s.request? id = some q) (hs : NothingOf s p) : q.id.port ≠ p :=
  hs.requests q (List.mem_of_find?_eq_some h)

theorem request?_own {id : ReqId} {q : Request} (h : s.request? id = some q) : q.id = id := by
  simpa using List.find?_some h

theorem serveHead_leaves (l : Line) (hs : NothingOf s p) : Leaves p s (s.serveHead l).1 := by
  unfold State.serveHead
  split
  · exact Leaves.refl
  · rename_i e he
    split
    · exact Leaves.refl
    · split
      · exact Leaves.refl
      · split
        · exact dropHead_leaves l
        · rename_i q hq
          split
          · exact (dropHead_leaves l).trans (fun _ => answer_leaves _ _ (request?_own hq ▸ request?_port hq hs)) hs
          · split
            · exact serveReq_leaves l e q (request?_port hq hs) hs
            · rename_i id _ _ _ _ _ hn
              refine (setActivity_leaves l .recalling).trans (askRecalls_leaves (recallsFor_ports fun x hx => ?_)) hs
              have := recallsNeeded_holder hx
              intro hp
              subst hp
              exact this (hs.holdings e (entry?_some he).1)

theorem serviceLoop_leaves (l : Line) (n : Nat) (hs : NothingOf s p) : Leaves p s (State.serviceLoop l n s) := by
  induction n generalizing s with
  | zero => exact Leaves.refl
  | succ n ih =>
    have h := serveHead_leaves l hs
    unfold State.serviceLoop
    split
    · rename_i t ht; rw [ht] at h; exact h.trans (fun h' => ih h') hs
    · rename_i t ht; rw [ht] at h; exact h

theorem service_leaves (l : Line) (hs : NothingOf s p) : Leaves p s (s.service l) := by
  unfold State.service
  split
  · exact serviceLoop_leaves l _ hs
  · exact Leaves.refl

theorem askEvict_leaves (l : Line) {e : Entry} (he : e.holdings[p] = .none) (hs : NothingOf s p) :
    Leaves p s (s.askEvict l e) := by
  refine askRecalls_leaves (recallsFor_ports fun x hx => ?_) hs
  obtain ⟨y, hy, rfl⟩ := List.mem_map.1 hx
  have := (List.mem_filter.1 hy).2
  simp only [bne_iff_ne] at this
  intro hp
  dsimp only at hp
  subst hp
  exact this he

theorem finishEviction_leaves (l : Line) {e : Entry} (he : e.holdings[p] = .none) (hs : NothingOf s p) :
    Leaves p s (s.finishEviction l e) := by
  unfold State.finishEviction
  split
  · exact (setActivity_leaves l .idle).trans (service_leaves l) hs
  · split
    · exact setActivity_leaves l .idle
    · split
      · exact askEvict_leaves l he hs
      · exact setActivity_leaves l .idle

theorem tellLineTable_leaves (l : Line) (hs : NothingOf s p) : Leaves p s (s.tellLineTable l) := by
  unfold State.tellLineTable
  split
  · exact Leaves.refl
  · split
    · exact Leaves.refl
    · rename_i e he
      split
      · exact (setActivity_leaves l .idle).trans (service_leaves l) hs
      · exact finishEviction_leaves l (hs.holdings e (entry?_some he).1) hs
      · exact Leaves.refl

/-! ## Allocation and journal space -/

theorem createEntry_leaves (l : Line) (w : Option Request) (hw : ∀ q ∈ w, q.id.port ≠ p) (hs : NothingOf s p) :
    Leaves p s (s.createEntry l w) := by
  have hh : ∀ e : Entry, e.holdings = Vector.replicate 4 .none → e.holdings[p] = .none := by
    intro e h; rw [h]; simp
  have hwt : ∀ x ∈ w.toList.map (·.id), x.port ≠ p := by
    intro x hx
    obtain ⟨q, hq, rfl⟩ := List.mem_map.1 hx
    exact hw q (Option.mem_toList.1 hq)
  unfold State.createEntry
  dsimp only
  split
  · exact ((placeEntry_leaves _ (hh _ rfl) hwt).trans (makeDirty_leaves l _ _) hs).trans (service_leaves l) hs
  · split
    · exact (placeEntry_leaves _ (hh _ rfl) hwt).trans (service_leaves l) hs
    · exact (placeEntry_leaves _ (hh _ rfl) hwt).trans (fun _ => (askFill_aside l).leaves) hs

theorem removeVictim_leaves (e : Entry) (hs : NothingOf s p) : Leaves p s (s.removeVictim e) := by
  unfold State.removeVictim
  split
  · exact ((insertJournal_aside ..).leaves).trans (fun _ => removeEntry_leaves _) hs
  · exact removeEntry_leaves _

theorem popAlloc_leaves : Leaves p s s.popAlloc where
  nothing hs := { hs with alloc := fun r hr => hs.alloc r (List.mem_of_mem_tail hr) }
  session _ := rfl
  keepalive _ := rfl
  notices _ := rfl
  link _ := rfl

theorem joinSpaceHead_leaves : Leaves p s s.joinSpaceHead := by
  unfold State.joinSpaceHead
  split
  · exact Leaves.refl
  · exact (Aside.leaves ⟨rfl, rfl, rfl, List.Sublist.refl _, rfl, rfl, rfl, rfl, rfl, fun _ => rfl, fun _ => rfl⟩)

theorem evict_leaves {e : Entry} (he : e.holdings[p] = .none) (hs : NothingOf s p) : Leaves p s (s.evict e) :=
  (setActivity_leaves ..).trans (askEvict_leaves e.line he) hs

theorem examineAlloc_leaves (hs : NothingOf s p) : Leaves p s s.examineAlloc.1 := by
  unfold State.examineAlloc
  split
  · exact Leaves.refl
  · rename_i id _ hid
    have hidp : id.port ≠ p := hs.alloc id (by simp [hid])
    split
    · exact popAlloc_leaves
    · rename_i q hq
      have hw : ∀ x ∈ some q, x.id.port ≠ p := fun x hx => by
        rw [← Option.some.inj hx]; exact request?_port hq hs
      split
      · exact popAlloc_leaves
      · rename_i l _
        split
        · exact (popAlloc_leaves.trans (fun _ => joinWaiters_leaves l hidp) hs).trans (service_leaves l) hs
        · split
          · exact popAlloc_leaves.trans (createEntry_leaves l _ hw) hs
          · split
            · exact (popAlloc_leaves.trans (removeVictim_leaves _) hs).trans (createEntry_leaves l _ hw) hs
            · exact joinSpaceHead_leaves
            · split
              · exact Leaves.refl
              · split
                · rename_i e he
                  exact evict_leaves (hs.holdings e (List.mem_reverse.1 (List.mem_of_find?_eq_some he))) hs
                · split
                  · exact popAlloc_leaves.trans (fun _ => answer_leaves _ _ hidp) hs
                  · exact Leaves.refl

theorem allocLoop_leaves (n : Nat) (hs : NothingOf s p) : Leaves p s (State.allocLoop n s) := by
  induction n generalizing s with
  | zero => exact Leaves.refl
  | succ n ih =>
    have h := examineAlloc_leaves hs
    unfold State.allocLoop
    split
    · rename_i t ht; rw [ht] at h; exact h.trans (fun h' => ih h') hs
    · rename_i t ht; rw [ht] at h; exact h

theorem serveAlloc_leaves (hs : NothingOf s p) : Leaves p s s.serveAlloc := allocLoop_leaves _ hs

theorem serveSpaceLine_leaves (l : Line) (o : Origin) (hs : NothingOf s p) : Leaves p s (s.serveSpaceLine l o) := by
  unfold State.serveSpaceLine
  split
  · split
    · dsimp only
      split
      · exact (insertCopy_leaves l _ o hs).trans (service_leaves l) hs
      · exact insertCopy_leaves l _ o hs
    · exact Leaves.refl
  · exact Leaves.refl

theorem jspace_leaves (js : List SpaceWaiter) : Leaves p s { s with jspace := js } :=
  Aside.leaves ⟨rfl, rfl, rfl, List.Sublist.refl _, rfl, rfl, rfl, rfl, rfl, fun _ => rfl, fun _ => rfl⟩

theorem spaceLoop_leaves (n : Nat) (hs : NothingOf s p) : Leaves p s (State.spaceLoop n s) := by
  induction n generalizing s with
  | zero => exact Leaves.refl
  | succ n ih =>
    unfold State.spaceLoop
    split
    · split
      · exact Leaves.refl
      · exact ((jspace_leaves _).trans (serveSpaceLine_leaves _ _) hs).trans (fun h => ih h) hs
      · exact ((jspace_leaves _).trans serveAlloc_leaves hs).trans (fun h => ih h) hs
    · exact Leaves.refl

theorem serveSpace_leaves (hs : NothingOf s p) : Leaves p s s.serveSpace := spaceLoop_leaves _ hs

theorem rouseHead_leaves (before : State) (hs : NothingOf s p) : Leaves p s (s.rouseHead before) := by
  unfold State.rouseHead
  split
  · exact serveAlloc_leaves hs
  · exact Leaves.refl

/-! ## The end of a step -/

theorem direct_leaves {ds : List DirectJob} {n : Nat} (h : ∀ d ∈ ds, d ∈ s.directQueue) :
    Leaves p s { s with directQueue := ds, passCount := n } where
  nothing hs := { hs with direct := fun d hd => hs.direct d (h d hd) }
  session _ := rfl
  keepalive _ := rfl
  notices _ := rfl
  link _ := rfl

theorem arbitrate_leaves (hs : NothingOf s p) : Leaves p s s.arbitrate := by
  unfold State.arbitrate
  split
  · exact Leaves.refl
  · split
    · exact Leaves.refl
    · unfold State.grantFill
      refine Leaves.trans (t := { s with fillQueue := s.fillQueue.tail }) ?_
        (fun _ => (countPass_aside.trans (beginAccess_aside _)).leaves) hs
      exact Aside.leaves ⟨rfl, rfl, rfl, List.Sublist.refl _, rfl, rfl, rfl, rfl, rfl, fun _ => rfl, fun _ => rfl⟩
    · unfold State.grantDrain
      refine Leaves.trans (t := { s with journal := _ }) ?_
        (fun _ => (countPass_aside.trans (beginAccess_aside _)).leaves) hs
      exact Aside.leaves ⟨rfl, rfl, rfl, List.Sublist.refl _, rfl, rfl, rfl, rfl, rfl, fun _ => rfl, fun _ => rfl⟩
    · unfold State.grantDirect
      refine Leaves.trans ?_ (fun _ => (beginAccess_aside _).leaves) hs
      exact direct_leaves fun d hd => List.mem_of_mem_erase hd

theorem completeRegionSet_leaves (hs : NothingOf s p) : Leaves p s s.completeRegionSet := by
  unfold State.completeRegionSet
  split
  · exact Leaves.refl
  · split
    · dsimp only
      have h0 : Leaves p s { s with completing := none } :=
        Aside.leaves ⟨rfl, rfl, rfl, List.Sublist.refl _, rfl, rfl, rfl, rfl, rfl, fun _ => rfl, fun _ => rfl⟩
      split
      · rename_i q hq
        have hm : q ∈ s.requests := List.mem_of_find?_eq_some hq
        exact h0.trans (fun _ => answer_leaves _ _ (hs.requests q hm)) hs
      · exact h0
    · exact Leaves.refl

theorem completeGoodbye_leaves (q : Port) (hs : NothingOf s p) : Leaves p s (s.completeGoodbye q) := by
  unfold State.completeGoodbye
  split
  · rename_i hc
    split
    · split
      · rename_i r hr _
        have hm : r ∈ s.requests ∧ r.id.port = q := by
          have : r ∈ s.outstanding q := by rw [hr]; simp
          have := List.mem_filter.1 this
          exact ⟨this.1, by simpa using this.2⟩
        have hp := hs.requests r hm.1
        have hv : q.val ≠ p.val := fun e => hp (hm.2.trans (Fin.ext e))
        have h := answer_leaves (s := s) .done [] hp
        refine ⟨fun h' => { h.nothing h' with }, fun h' => ?_, fun h' => ?_, fun h' => ?_, fun h' => ?_⟩
        · rw [← h.session h']; simp [State.closeSession, hv]
        · rw [← h.keepalive h']; simp [State.closeSession, hv]
        · rw [← h.notices h']; simp [State.closeSession, State.setNotices, hv]
        · rw [← h.link h']; simp [State.closeSession, hv]
      · exact Leaves.refl
    · exact Leaves.refl
  · exact Leaves.refl

theorem complete_leaves (hs : NothingOf s p) : Leaves p s s.complete :=
  (completeRegionSet_leaves hs).trans
    (foldl_leaves (fun _ => True) (fun _ q _ h => completeGoodbye_leaves q h) ports fun _ _ => trivial) hs

theorem settle_leaves (before : State) (hs : NothingOf s p) : Leaves p s (s.settle before) :=
  (((serveSpace_leaves hs).trans (rouseHead_leaves before) hs).trans arbitrate_leaves hs).trans complete_leaves hs

theorem resumeEntries_leaves (hs : NothingOf s p) : Leaves p s s.resumeEntries := by
  refine foldl_leaves (fun _ => True) (fun t l _ ht => ?_) _ (fun _ _ => trivial) hs
  unfold State.resumeEntry
  split
  · split
    · exact service_leaves l ht
    · exact tellLineTable_leaves l ht
  · exact Leaves.refl

/-! ## Revocation (R59, R60, R75 to R78) -/

/-- What the first steps of a revocation keep: the session records and the port's keepalive. -/
structure Stays (p : Port) (s t : State) : Prop where
  sessions  : t.sessions = s.sessions
  keepalive : t.links[p].keepalive = s.links[p].keepalive

theorem Stays.trans (a : Stays p s t) (b : Stays p t u) : Stays p s u :=
  ⟨b.sessions.trans a.sessions, b.keepalive.trans a.keepalive⟩

theorem Aside.stays (a : Aside p s t) : Stays p s t := ⟨a.sessions, a.keepalive⟩

theorem dropHoldings_none : ∀ e ∈ (s.dropHoldings p).table, e.holdings[p] = .none := by
  intro e he
  obtain ⟨x, _, rfl⟩ := List.mem_map.1 he
  simp

theorem markPoisoned_none {ls : List Line} {id : Byte} (h : ∀ e ∈ s.table, e.holdings[p] = .none) :
    ∀ e ∈ (s.markPoisoned ls id).table, e.holdings[p] = .none := by
  intro e he
  obtain ⟨x, hx, rfl⟩ := List.mem_map.1 he
  have := h x hx
  split <;> exact this

theorem revokeHoldings_none (c : Cause) : ∀ e ∈ (s.revokeHoldings p c).table, e.holdings[p] = .none := by
  unfold State.revokeHoldings
  dsimp only
  generalize (if s.mode = HubMode.running then s.writtenBy p else []) = lost
  split
  · exact dropHoldings_none
  · rw [(createRecord_aside (p := p) _).table]
    exact markPoisoned_none dropHoldings_none

theorem revokeHoldings_stays (c : Cause) : Stays p s (s.revokeHoldings p c) := by
  unfold State.revokeHoldings
  dsimp only
  generalize (if s.mode = HubMode.running then s.writtenBy p else []) = lost
  split
  · exact ⟨rfl, rfl⟩
  · exact Stays.trans (t := (s.dropHoldings p).markPoisoned lost (s.dropHoldings p).newRecordId) ⟨rfl, rfl⟩
      (createRecord_aside _).stays

/-- No recall to the port is outstanding. -/
def Unasked (p : Port) (s : State) : Prop :=
  (∀ r ∈ s.recalls, r.asked.port ≠ p) ∧ ∀ w ∈ s.recallWait, w.port ≠ p

theorem openRecall_stays {w : WaitingRecall} (hw : w.port ≠ p) : Stays p s (s.openRecall w) := by
  unfold State.openRecall
  refine Stays.trans ?_ (sendSeq_aside _ _ _ fun e => absurd e hw).stays
  exact ⟨rfl, rfl⟩

theorem openWaiting_unasked (h : Unasked p s) :
    Unasked p s.openWaiting ∧ s.openWaiting.table = s.table ∧ Stays p s s.openWaiting := by
  unfold State.openWaiting
  split
  · split
    · exact ⟨h, rfl, rfl, rfl⟩
    · rename_i w ws hw
      refine ⟨⟨fun r hr => ?_, fun v hv => h.2 v (by rw [hw]; exact List.mem_cons_of_mem _ hv)⟩, rfl, ?_⟩
      · rcases List.mem_append.1 hr with hr | hr
        · exact h.1 r hr
        · rw [List.mem_singleton.1 hr]; exact h.2 w (by simp [hw])
      · exact Stays.trans (t := { s with recallWait := ws }) ⟨rfl, rfl⟩ (openRecall_stays (h.2 w (by simp [hw])))
  · exact ⟨h, rfl, rfl, rfl⟩

theorem openAllWaiting_unasked (n : Nat) (h : Unasked p s) :
    Unasked p (s.openAllWaiting n) ∧ (s.openAllWaiting n).table = s.table ∧ Stays p s (s.openAllWaiting n) := by
  induction n generalizing s with
  | zero => exact ⟨h, rfl, rfl, rfl⟩
  | succ n ih =>
    obtain ⟨h1, h2, h3⟩ := openWaiting_unasked h
    obtain ⟨g1, g2, g3⟩ := ih h1
    exact ⟨g1, g2.trans h2, h3.trans g3⟩

theorem closeRecallsTo_unasked :
    Unasked p (s.closeRecallsTo p) ∧ (s.closeRecallsTo p).table = s.table ∧ Stays p s (s.closeRecallsTo p) := by
  unfold State.closeRecallsTo
  have h : Unasked p ({ s with
      recalls := s.recalls.filter fun r => r.asked.port != p
      recallWait := s.recallWait.filter fun w => w.port != p } : State) :=
    ⟨fun r hr => by simpa using (List.mem_filter.1 hr).2, fun w hw => by simpa using (List.mem_filter.1 hw).2⟩
  obtain ⟨a, b, c⟩ := openAllWaiting_unasked Config.recallTableSize h
  exact ⟨a, b, c.sessions, c.keepalive⟩

/-- The state once a port's requests have left their places, before the pass count is looked at (R59, R109). -/
def State.unplaced (s : State) (p : Port) : State :=
  { s with
    jspace := s.leaveFlushSpace p
    table := s.table.map fun e => { e with waiters := e.waiters.filter fun r => r.port != p }
    allocQueue := s.allocQueue.filter fun r => r.port != p
    syncList := s.syncList.filter fun i => i.id.port != p
    directQueue := s.directQueue.filter fun d => d.id.port != p
    job := s.job.map (Job.abandonBy p) }

theorem leavePlaces_aside : Aside p (s.unplaced p) (s.leavePlaces p) := clearPass_aside

theorem unplaced_stays : Stays p s (s.unplaced p) := ⟨rfl, rfl⟩

theorem answers_leave (hf : (s.sessionState p).hasSession = true) (rs : List Request) :
    Aside p s (rs.foldl (fun t r => t.answer r.id .fenced []) s) ∧
      ∀ x ∈ (rs.foldl (fun t r => t.answer r.id .fenced []) s).requests, x ∈ s.requests ∧ ∀ r ∈ rs, x.id ≠ r.id := by
  induction rs generalizing s with
  | nil => exact ⟨Aside.refl, fun x hx => ⟨hx, nofun⟩⟩
  | cons r rs ih =>
    obtain ⟨h1, h2⟩ := ih (s := s.answer r.id .fenced []) hf
    refine ⟨(answer_aside _ _ fun _ => hf).trans h1, fun x hx => ?_⟩
    obtain ⟨h3, h4⟩ := h2 x hx
    obtain ⟨h5, h6⟩ := List.mem_filter.1 h3
    exact ⟨h5, List.forall_mem_cons.2 ⟨by simpa using h6, h4⟩⟩

theorem answerFenced_leaves (hf : (s.sessionState p).hasSession = true) :
    Aside p s (s.answerFenced p) ∧ ∀ x ∈ (s.answerFenced p).requests, x.id.port ≠ p := by
  obtain ⟨h1, h2⟩ := answers_leave hf (s.outstanding p)
  refine ⟨h1, fun x hx hp => ?_⟩
  obtain ⟨h3, h4⟩ := h2 x hx
  exact h4 x (List.mem_filter.2 ⟨h3, by simpa using hp⟩) rfl

/-- A port that holds nothing and is not asked for anything, once its requests have left their places and the
outstanding set. -/
theorem leavePlaces_nothing (h : ∀ e ∈ s.table, e.holdings[p] = .none) (hu : Unasked p s)
    (a : Aside p (s.leavePlaces p) t) (hr : ∀ r ∈ t.requests, r.id.port ≠ p) : NothingOf t p := by
  have b : Aside p (s.unplaced p) t := leavePlaces_aside.trans a
  refine ⟨?_, ?_, ?_, ?_, hr, ?_, ?_, ?_⟩
  · rw [b.table]
    intro e he
    obtain ⟨x, hx, rfl⟩ := List.mem_map.1 he
    exact h x hx
  · rw [b.table]
    intro e he y hy
    obtain ⟨x, hx, rfl⟩ := List.mem_map.1 he
    simpa using (List.mem_filter.1 hy).2
  · rw [b.recalls]; exact hu.1
  · rw [b.recallWait]; exact hu.2
  · rw [b.allocQueue]; intro r hr; simpa using (List.mem_filter.1 hr).2
  · rw [b.syncList]; intro r hr; simpa using (List.mem_filter.1 hr).2
  · rw [b.directQueue]; intro r hr; simpa using (List.mem_filter.1 hr).2

theorem leavePlaces_stays : Stays p s (s.leavePlaces p) := unplaced_stays.trans leavePlaces_aside.stays

theorem discardRequests_aside : Aside p s (s.discardRequests p) :=
  ⟨rfl, rfl, rfl, List.filter_sublist, rfl, rfl, rfl, rfl, rfl, fun _ => rfl, fun _ => rfl⟩

/-- A revocation leaves the hub with nothing of the port (R77). -/
theorem revoke_nothing (c : Cause) (fenced : Bool) (hf : fenced = true → (s.sessionState p).hasSession = true) :
    ∃ t, Stays p s t ∧ NothingOf t p ∧ s.revoke p c fenced = t.resumeEntries := by
  have h1 := revokeHoldings_none (p := p) (s := s) c
  have h2 := revokeHoldings_stays (p := p) (s := s) c
  unfold State.revoke
  dsimp only
  generalize s.revokeHoldings p c = v at *
  obtain ⟨g1, g2, g3⟩ := closeRecallsTo_unasked (p := p) (s := v)
  rw [← g2] at h1
  have h3 := h2.trans g3
  generalize v.closeRecallsTo p = w at *
  have h4 := h3.trans leavePlaces_stays
  cases fenced with
  | true =>
    obtain ⟨a, hr⟩ := answerFenced_leaves (p := p) (s := w.leavePlaces p)
      (by unfold State.sessionState; rw [h4.sessions]; exact hf rfl)
    exact ⟨_, h4.trans a.stays, leavePlaces_nothing h1 g1 a hr, rfl⟩
  | false =>
    refine ⟨_, h4.trans discardRequests_aside.stays,
      leavePlaces_nothing h1 g1 discardRequests_aside fun r hr => ?_, rfl⟩
    simpa using (List.mem_filter.1 hr).2

/-- A fence of an ONLINE or CLOSING port: FENCED, no keepalive, and nothing of the port left (R172). -/
theorem fencePort_gone (c : Cause) (h : (s.sessionState p).isOpen = true) :
    (s.fencePort p c).sessions[p] = { s.sessions[p] with state := .fenced } ∧
      (s.fencePort p c).links[p].keepalive = none ∧ NothingOf (s.fencePort p c) p := by
  unfold State.fencePort
  rw [if_pos h]
  dsimp only
  set a := (s.setSession p { s.sessions[p] with state := .fenced }).setLink p { s.links[p] with keepalive := none } with ha
  obtain ⟨t, ht, hn, hr⟩ := revoke_nothing (p := p) (s := a) c true
    fun _ => by simp [ha, State.sessionState, State.setSession, SessionState.hasSession]
  rw [hr]
  have has : a.sessions[p] = { s.sessions[p] with state := .fenced } := by simp [ha, State.setSession]
  have hak : a.links[p].keepalive = none := by simp [ha, State.setLink]
  have hts : t.sessionState p = .fenced := by unfold State.sessionState; rw [ht.sessions, has]
  have hl := resumeEntries_leaves hn
  have hnc : t.sessionState p ≠ .closing := by rw [hts]; decide
  have h1 : t.resumeEntries.sessions[p] = { s.sessions[p] with state := .fenced } := by
    rw [hl.session hnc, ht.sessions, has]
  have h2 : t.resumeEntries.links[p].keepalive = none := by rw [hl.keepalive hnc, ht.keepalive, hak]
  have h3 := hl.nothing hn
  have hfs : (t.resumeEntries.sessionState p).hasSession = true := by unfold State.sessionState; rw [h1]; rfl
  have b : Aside p t.resumeEntries (t.resumeEntries.fenceNotices p c) := by
    unfold State.fenceNotices
    dsimp only
    exact (setNotices_aside _ fun _ => hfs).trans (deliverNotice_aside fun _ => hfs)
  have fin : ∀ v, Aside p t.resumeEntries v → v.sessions[p] = { s.sessions[p] with state := .fenced } ∧
      v.links[p].keepalive = none ∧ NothingOf v p := fun v hv =>
    ⟨by rw [hv.sessions, h1], by rw [hv.keepalive, h2], hv.leaves.nothing h3⟩
  split
  · exact fin _ b
  · exact fin _ (b.trans (postNotice_aside ..))

/-- What a fence leaves, the end of the step leaves as well. -/
theorem fencePort_settled (before : State) (c : Cause) (h : (s.sessionState p).isOpen = true) :
    ((s.fencePort p c).settle before).sessions[p] = { s.sessions[p] with state := .fenced } ∧
      ((s.fencePort p c).settle before).links[p].keepalive = none ∧ NothingOf ((s.fencePort p c).settle before) p := by
  obtain ⟨h1, h2, h3⟩ := fencePort_gone c h
  have hl := settle_leaves before h3
  have hc : (s.fencePort p c).sessionState p ≠ .closing := by
    unfold State.sessionState; rw [h1]; nofun
  exact ⟨(hl.session hc).trans h1, (hl.keepalive hc).trans h2, hl.nothing h3⟩

/-- The end of a session by the loss of its link leaves nothing of the port (R176). -/
theorem endSession_gone {next : SessionState} (h : (s.sessionState p).isOpen = true) :
    (s.endSession p next).sessions[p] = { state := next, capacity := none, number := none } ∧
      (s.endSession p next).notices[p] = NoticeUnit.reset ∧ (s.endSession p next).links[p].keepalive = none ∧
      NothingOf (s.endSession p next) p := by
  unfold State.endSession
  dsimp only
  rw [if_pos h]
  obtain ⟨t, -, hn, hr⟩ := revoke_nothing (p := p) (s := s) .linkLost false nofun
  have h3 := (resumeEntries_leaves hn).nothing hn
  rw [hr]
  refine ⟨by simp [State.setLink, State.setSession, State.setNotices],
    by simp [State.setLink, State.setSession, State.setNotices], by simp [State.setLink], { h3 with }⟩

/-! ## The FENCED replies of a fence (R59, R172) -/

theorem postNotice_requests (q : Port) (n : Notice) : (s.postNotice q n).requests = s.requests := by
  unfold State.postNotice State.deliverNotice
  split
  · split <;> rfl
  · rfl

theorem postAll_requests (n : Notice) : (s.postAll n).requests = s.requests := by
  have h : ∀ (qs : List Port) (t : State), (qs.foldl (fun t q => t.postNotice q n) t).requests = t.requests := by
    intro qs
    induction qs with
    | nil => exact fun _ => rfl
    | cons q qs ih => exact fun t => (ih _).trans (postNotice_requests q n)
  exact h ports s

theorem createRecord_requests (body : RecordBody) : (s.createRecord body).requests = s.requests := by
  unfold State.createRecord
  dsimp only
  split
  · exact postNotice_requests ..
  · exact postAll_requests ..

theorem revokeHoldings_requests (c : Cause) : (s.revokeHoldings p c).requests = s.requests := by
  unfold State.revokeHoldings
  dsimp only
  generalize (if s.mode = HubMode.running then s.writtenBy p else []) = lost
  split
  · rfl
  · exact createRecord_requests _

theorem openAllWaiting_requests (n : Nat) : (s.openAllWaiting n).requests = s.requests := by
  induction n generalizing s with
  | zero => rfl
  | succ n ih =>
    refine ih.trans ?_
    unfold State.openWaiting
    split
    · split <;> rfl
    · rfl

theorem leavePlaces_requests : (s.leavePlaces p).requests = s.requests := by
  unfold State.leavePlaces State.clearPass
  dsimp only
  split <;> rfl

/-- The FENCED replies to requests of one port stand one behind the other on its lane. -/
theorem answers_lane (rs : List Request) (hr : ∀ r ∈ rs, r.id.port = p) (hu : s.links[p].up = true) :
    (rs.foldl (fun t r => t.answer r.id .fenced []) s).links[p].tx =
      s.links[p].tx ++ fencedReplies s.links[p].sendNum rs := by
  induction rs generalizing s with
  | nil => simp [fencedReplies]
  | cons r rs ih =>
    have hp := hr r (by simp)
    have hl : (s.answer r.id .fenced []).links[p] = s.links[p].sendSeq replyKind r.id.tag (replyPayload .fenced []) := by
      unfold State.answer State.reply
      rw [hp]
      simp [State.sendSeq, State.setLink]
    have hs : (s.links[p].sendSeq replyKind r.id.tag (replyPayload .fenced [])).up = true ∧
        (s.links[p].sendSeq replyKind r.id.tag (replyPayload .fenced [])).sendNum = s.links[p].sendNum + 1 ∧
        (s.links[p].sendSeq replyKind r.id.tag (replyPayload .fenced [])).tx =
          s.links[p].tx ++ [Frame.mk replyKind r.id.tag s.links[p].sendNum (replyPayload .fenced [])] := by
      unfold LinkUnit.sendSeq
      rw [if_pos hu]
      exact ⟨hu, rfl, rfl⟩
    rw [List.foldl_cons, ih (fun x hx => hr x (by simp [hx])) (by rw [hl]; exact hs.1), hl, hs.2.1, hs.2.2]
    simp [fencedReplies, replyPayload]

/-- A fence puts the FENCED replies to what the port has outstanding on its lane, one behind the other (R59, R172). -/
theorem fencePort_lane (before : State) (c : Cause) (h : (s.sessionState p).isOpen = true) (hu : s.links[p].up = true) :
    ∃ (n : Byte) (earlier later : List Frame), ((s.fencePort p c).settle before).links[p].tx =
      s.links[p].tx ++ earlier ++ fencedReplies n (s.outstanding p) ++ later := by
  set a := (s.setSession p { s.sessions[p] with state := .fenced }).setLink p { s.links[p] with keepalive := none } with ha
  set v := ((a.revokeHoldings p c).closeRecallsTo p).leavePlaces p with hv
  have h1 : KeepsMost s v := ((((setSession_keeps s p { s.sessions[p] with state := .fenced }).trans
    (Keeps.links_of _ p { s.links[p] with keepalive := none } rfl id (List.prefix_refl _))).most.trans
    (revokeHoldings_keeps a p c)).trans (closeRecallsTo_keeps _ p).most).trans (leavePlaces_keeps _ p).most
  have hr : v.requests = s.requests := by
    have h3 : ((a.revokeHoldings p c).closeRecallsTo p).requests = (a.revokeHoldings p c).requests :=
      (openAllWaiting_requests Config.recallTableSize).trans rfl
    rw [hv, leavePlaces_requests, h3, revokeHoldings_requests]
    rfl
  have ho : v.outstanding p = s.outstanding p := by unfold State.outstanding; rw [hr]
  have h2 : Keeps (v.answerFenced p) ((s.fencePort p c).settle before) := by
    have hf : s.fencePort p c = (let u := ((v.answerFenced p).resumeEntries).fenceNotices p c
        if p = u.supervisor then u
        else u.postNotice u.supervisor { kind := .agentFenced, subject := some p, data := c.code }) := by
      unfold State.fencePort
      rw [if_pos h]
      rfl
    rw [hf]
    have h4 := (resumeEntries_keeps (v.answerFenced p)).trans (fenceNotices_keeps _ p c)
    dsimp only
    split
    · exact h4.trans (settle_keeps _ _)
    · exact (h4.trans (postNotice_keeps ..)).trans (settle_keeps _ _)
  obtain ⟨earlier, he⟩ := h1.lanes trivial p
  obtain ⟨later, hl⟩ := h2.lanes trivial p
  refine ⟨v.links[p].sendNum, earlier, later, ?_⟩
  have h5 : (v.answerFenced p).links[p].tx = v.links[p].tx ++ fencedReplies v.links[p].sendNum (v.outstanding p) :=
    answers_lane (v.outstanding p) (fun r hr => by simpa using (List.mem_filter.1 hr).2) (by rw [h1.linkUp]; exact hu)
  rw [← hl, h5, ← he, ho]

end Sys2Proof.Machine
end

