-- ==== Sys2Proof/Laws/KeepsCommands.lean ====
section
/-! SUPPORT. `Keeps` for what admitted requests and events do: the bodies of the meanings. -/

namespace Sys2Proof.Machine

variable (s : State) (p : Port) (l : Line)

/-! ## Data requests and answers -/

/-- The end of a Release: an outstanding recall closes, and the step ends (R71). -/
theorem closeAndSettle_keeps (before : State) : Keeps s ((if s.recallOutstanding l p then s.closeRecall l p else s).settle before) := by
  split
  · exact (closeRecall_keeps ..).trans (settle_keeps _ _)
  · exact settle_keeps ..

theorem takeRelease_keeps (tag : Byte) (d : Option LineData) : Keeps s (s.takeRelease p tag l d) := by
  unfold State.takeRelease
  split
  · exact reply_keeps ..
  · cases d with
    | none => exact ((setHolding_keeps ..).trans (reply_keeps ..)).trans (closeAndSettle_keeps ..)
    | some d =>
      exact (((setHolding_keeps ..).trans (makeDirty_keeps ..)).trans (reply_keeps ..)).trans (closeAndSettle_keeps ..)

theorem takePrefetch_keeps (tag : Byte) : Keeps s (s.takePrefetch p tag l) := by
  unfold State.takePrefetch
  split
  · exact reply_keeps ..
  · split
    · exact reply_keeps ..
    · rename_i hne
      split
      · exact ((prefetchEntry_keeps _ _ ‹_› (Option.not_isSome_iff_eq_none.1 hne)).trans (reply_keeps ..)).trans
          (settle_keeps _ _)
      · exact reply_keeps ..

theorem takeAnswer_keeps (a : AnswerOperand) : Keeps s (s.takeAnswer p a) := by
  unfold State.takeAnswer
  split
  · exact Keeps.refl s
  · dsimp only
    refine Keeps.trans ?_ (settle_keeps _ _)
    refine Keeps.trans ?_ (closeRecall_keeps ..)
    split
    · exact (setHolding_keeps ..).trans (makeDirty_keeps ..)
    · exact setHolding_keeps ..

theorem onAnswer_keeps (f : RxFrame) : Keeps s (s.onAnswer p f) := by
  unfold State.onAnswer
  split
  · split
    · exact takeAnswer_keeps ..
    · exact reply_keeps ..
  · split
    · exact takeAnswer_keeps ..
    · exact reply_keeps ..
  · exact reply_keeps ..
  · exact reply_keeps ..
  · exact Keeps.refl s

theorem takeDeadline_keeps (id : Byte) : KeepsMost s (s.takeDeadline id) := by
  unfold State.takeDeadline
  split
  · exact (Keeps.refl s).most
  · split
    · exact (fencePort_keeps ..).trans (settle_keeps _ _).most
    · exact (Keeps.refl s).most

/-! ## Sessions, notices, supervisor requests -/

theorem takeNoticeAck_keeps (tag n : Byte) : Keeps s (s.takeNoticeAck p tag n) := by
  unfold State.takeNoticeAck
  split
  · split
    · exact ((setNotices_keeps ..).trans (reply_keeps ..)).trans (deliverNotice_keeps ..)
    · exact reply_keeps ..
  · exact reply_keeps ..

theorem takeThreshold_keeps (tag : Byte) (n : Nat) : Keeps s (s.takeThreshold p tag n) :=
  ((setNotices_keeps ..).trans (reply_keeps ..)).trans (deliverNotice_keeps ..)

theorem takeFence_keeps (tag : Byte) (q : Port) : KeepsMost s (s.takeFence p tag q) := by
  unfold State.takeFence
  split
  · exact (reply_keeps ..).most
  · split
    · exact ((reply_keeps ..).most.trans (fencePort_keeps ..)).trans (settle_keeps _ _).most
    · exact (reply_keeps ..).most

theorem takeUnfence_keeps (tag : Byte) (q : Port) : Keeps s (s.takeUnfence p tag q) := by
  unfold State.takeUnfence
  split
  · exact reply_keeps ..
  · split
    · exact ((reply_keeps ..).trans (closeSession_keeps ..)).trans (sendSessionEnd_keeps ..)
    · exact reply_keeps ..

/-! ## Fault requests -/

theorem openRecord_keeps (id : Byte) : KeepsMost s (s.openRecord id) := by
  have hid : ∀ r : FaultRecord, r.opened.id = r.id := fun r => by unfold FaultRecord.opened; split <;> rfl
  refine (updateRecord_keeps s id FaultRecord.opened hid).trans (Keeps.stopRecord_of (s.updateRecord id FaultRecord.opened) ?_)
  show (s.stopRecord.map fun r => if r.id = id then r.opened else r).map (·.id) = s.stopRecord.map (·.id)
  cases s.stopRecord with
  | none => rfl
  | some r => simp only [Option.map_some]; split <;> simp [hid]

theorem takeFaultRead_keeps (tag id : Byte) (part : Nat) : KeepsMost s (s.takeFaultRead p tag id part) := by
  unfold State.takeFaultRead
  split
  · exact (reply_keeps ..).most
  · split
    · exact (reply_keeps ..).most.trans (openRecord_keeps ..)
    · split <;> exact (reply_keeps ..).most

theorem takeResolve_keeps (a : Action) (tag id : Byte) (d : Option LineData)
    {effect : State → FaultRecord → Option LineData → State} (h : ∀ t r x, KeepsMost t (effect t r x)) :
    KeepsMost s (s.takeResolve a p tag id d effect) := by
  unfold State.takeResolve
  split
  · exact (reply_keeps ..).most
  · split
    · exact (reply_keeps ..).most
    · exact ((h ..).trans (reply_keeps ..).most).trans (settle_keeps _ _).most

theorem retryRecord_keeps (r : FaultRecord) (d : Option LineData) : KeepsMost s (s.retryRecord r d) := by
  have h := updateRecord_keeps s r.id (fun x => { x with state := .retrying }) fun _ => rfl
  unfold State.retryRecord
  dsimp only
  split
  · exact (h.trans (setActivity_keeps ..).most).trans (askFill_keeps ..).most
  · exact h.trans (Keeps.journal_of _ fun hl => by simpa using hl).most
  · exact (Keeps.refl s).most

theorem supplyRecord_keeps (r : FaultRecord) (d : Option LineData) : KeepsMost s (s.supplyRecord r d) := by
  unfold State.supplyRecord
  split
  · exact (((updateEntry_keeps s _ (fun e => { e with activity := .idle, recordId := none }) fun _ => rfl).most.trans
      (makeDirty_keeps ..).most).trans (retireRecord_keeps ..)).trans (service_keeps ..).most
  · exact (Keeps.refl s).most

theorem failRecord_keeps (r : FaultRecord) (d : Option LineData) : KeepsMost s (s.failRecord r d) := by
  unfold State.failRecord
  split
  · exact ((Keeps.foldl (fun t (id : ReqId) => answer_keeps t id .storeFault []) _ s).most.trans (removeEntry_keeps ..).most).trans
      (retireRecord_keeps ..)
  · exact (Keeps.refl s).most

theorem dropRecord_keeps (ab : Bool) (r : FaultRecord) (d : Option LineData) : KeepsMost s (s.dropRecord ab r d) := by
  unfold State.dropRecord
  split
  · exact (removeJournal_keeps ..).most.trans (retireRecord_keeps ..)
  · exact (Keeps.refl s).most

theorem revertRecord_keeps (r : FaultRecord) (d : Option LineData) : KeepsMost s (s.revertRecord r d) := by
  unfold State.revertRecord
  split
  · exact (Keeps.foldl removeEntry_keeps _ s).most.trans (retireRecord_keeps ..)
  · exact (Keeps.refl s).most

theorem dropLine_id (r : FaultRecord) : ({ r with body := r.body.dropLine l } : FaultRecord).id = r.id := rfl

theorem supplyLine_keeps (r : FaultRecord) (d : LineData) : KeepsMost s (s.supplyLine r l d) := by
  unfold State.supplyLine
  dsimp only
  have h := (updateEntry_keeps s l (fun e => { e with recordId := none }) fun _ => rfl).most.trans (makeDirty_keeps _ l d .supply).most
  split
  · exact h.trans (retireRecord_keeps ..)
  · exact h.trans (updateRecord_keeps _ _ _ fun _ => rfl)

theorem takeSupplyLine_keeps (tag id : Byte) (d : LineData) : KeepsMost s (s.takeSupplyLine p tag id l d) := by
  unfold State.takeSupplyLine
  split
  · exact (reply_keeps ..).most
  · split
    · exact (reply_keeps ..).most
    · exact ((supplyLine_keeps ..).trans (reply_keeps ..).most).trans (settle_keeps _ _).most

/-! ## The outcomes of jobs -/

theorem fillDone_keeps (d : LineData) : KeepsMost s (s.fillDone l d) := by
  unfold State.fillDone
  split
  · exact (Keeps.refl s).most
  · rename_i e _
    dsimp only
    refine KeepsMost.trans ?_ (service_keeps ..).most
    have h := (updateEntry_keeps s l (fun x => { x with copy := .clean d, activity := .idle, recordId := none })
      fun _ => rfl).most
    split
    · exact h.trans (retireRecord_keeps ..)
    · exact h

theorem fillLost_keeps (c : StoreCause) : KeepsMost s (s.fillLost l c) := by
  unfold State.fillLost
  split
  · exact (Keeps.refl s).most
  · exact (Keeps.refl s).most
  · rename_i hm _
    split
    · exact (setActivity_keeps ..).most.trans (repostRecord_keeps ..)
    · split
      · exact (removeEntry_keeps ..).most
      · exact (updateEntry_keeps s l (fun x => { x with activity := .faultHeld, recordId := some s.newRecordId })
          fun _ => rfl).most.trans (createRecord_keeps _ _ hm)

theorem drainDone_keeps (q : Seq) : KeepsMost s (s.drainDone q) := by
  unfold State.drainDone
  dsimp only
  split
  · exact (removeJournal_keeps ..).most.trans (retireRecord_keeps ..)
  · exact (removeJournal_keeps ..).most

theorem drainLost_keeps (q : Seq) (c : StoreCause) : KeepsMost s (s.drainLost q c) := by
  unfold State.drainLost
  dsimp only
  have h : KeepsMost s { s with journal := s.journal.map fun j => if j.seq == q then { j with state := .faulted } else j } :=
    (Keeps.journal_of s fun hl => by simpa using hl).most
  split
  · exact h
  · exact h
  · rename_i hm _
    split
    · split
      · exact h.trans (repostRecord_keeps ..)
      · exact h
    · exact h.trans (createRecord_keeps _ _ hm)

theorem directDone_keeps (op : DirectOp) (id : ReqId) (o : Bool) (d : LineData) : Keeps s (s.directDone op id o d) := by
  unfold State.directDone
  split
  · exact Keeps.refl s
  · split
    · exact answer_keeps ..
    · exact Keeps.refl s

theorem directLost_keeps (id : ReqId) (o : Bool) : Keeps s (s.directLost id o) := by
  unfold State.directLost
  split
  · exact Keeps.refl s
  · split
    · exact answer_keeps ..
    · exact Keeps.refl s

theorem completeJob_keeps (j : Job) : KeepsMost s (s.completeJob j) := by
  unfold State.completeJob
  split
  · exact fillDone_keeps ..
  · exact drainDone_keeps ..
  · exact (directDone_keeps ..).most

theorem failJob_keeps (j : Job) (c : StoreCause) : KeepsMost s (s.failJob j c) := by
  unfold State.failJob
  split
  · exact fillLost_keeps ..
  · exact drainLost_keeps ..
  · exact (directLost_keeps ..).most

/-! ## Link frames and events -/

theorem sendPong_keeps (tag : Byte) : Keeps s (s.sendPong p tag) := sendLink_keeps ..

theorem takeReplay_keeps (n : Byte) : KeepsMost s (s.takeReplay p n) := by
  unfold State.takeReplay
  split
  · exact KeepsIf.most (d := True) (f := True) (Keeps.links_of _ _ _ rfl id (List.prefix_append _ _))
  · split
    · exact (Keeps.refl s).most
    · split
      · exact (fencePort_keeps ..).trans (settle_keeps _ _).most
      · exact (Keeps.refl s).most

theorem restartLink_keeps : KeepsRest s (s.setLink p s.links[p].restarted) :=
  KeepsIf.rest (d := False) (f := True)
    (Keeps.links_if _ _ _ rfl (fun _ => by simp [LinkUnit.restarted, LinkUnit.reset]) (False.elim ·))

theorem takeLinkRestart_keeps : KeepsRest s (s.takeLinkRestart p) := by
  unfold State.takeLinkRestart
  dsimp only
  split
  · refine KeepsIf.trans ?_ (settle_keeps _ _).rest
    refine KeepsIf.trans ?_ (sendSessionEnd_keeps ..).rest
    refine KeepsIf.trans ?_ (sendLink_keeps ..).rest
    exact (endSession_keeps ..).rest.trans (restartLink_keeps ..)
  · have h : KeepsRest s ((s.setLink p s.links[p].restarted).answerLinkRestart p) :=
      (restartLink_keeps ..).trans (sendLink_keeps ..).rest
    split
    · refine h.trans (KeepsIf.rest (d := True) (f := True) ?_)
      unfold State.resendNotice
      split
      · exact sendNotice_keeps ..
      · exact Keeps.refl _
    · exact h

theorem takeExpiry_keeps : KeepsMost s (s.takeExpiry p) := by
  unfold State.takeExpiry
  split
  · split
    · exact (fencePort_keeps ..).trans (settle_keeps _ _).most
    · exact (Keeps.refl s).most
  · exact (Keeps.refl s).most

end Sys2Proof.Machine
end

