-- ==== Sys2Proof/Laws/View.lean ====
section
/-! SUPPORT. What the laws of coherence see of a state, and the operations that change nothing of it. -/

namespace Sys2Proof.Machine

/-- The fields of an entry that the laws of coherence speak of. -/
structure Core where
  copy     : HubCopy
  holdings : Vector Holding 4
  activity : Activity
  recordId : Option Byte

def Entry.core (e : Entry) : Core := ⟨e.copy, e.holdings, e.activity, e.recordId⟩

/-- What the laws of coherence see of a state, but for the recalls that are outstanding. -/
structure View where
  core      : Line → Option Core
  recallIds : List Byte
  journal   : List JournalEntry
  fillJobs  : List Line
  draining  : Option Seq
  queue     : List FaultRecord
  stop      : Option FaultRecord
  mode      : HubMode

def View.records (v : View) : List FaultRecord := v.queue ++ v.stop.toList

def State.view (s : State) : View where
  core l := (s.entry? l).map Entry.core
  recallIds := s.recalls.map (·.id)
  journal := s.journal
  fillJobs := s.fillJobs
  draining := s.draining?
  queue := s.faultQueue
  stop := s.stopRecord
  mode := s.mode

/-- The view with another core for a line, or none. -/
def View.put (v : View) (l : Line) (c : Option Core) : View := { v with core := fun x => if x = l then c else v.core x }

/-- From `s` to `t` nothing changed that the laws of coherence see. -/
structure Same (s t : State) : Prop where
  view : t.view = s.view
  out  : t.outstandingRecalls = s.outstandingRecalls

namespace Same
variable {s t u : State}

@[refl] theorem refl (s : State) : Same s s := ⟨rfl, rfl⟩
theorem trans (a : Same s t) (b : Same t u) : Same s u := ⟨b.view.trans a.view, b.out.trans a.out⟩

theorem foldl {α : Type} {f : State → α → State} (h : ∀ s a, Same s (f s a)) (as : List α) (s : State) :
    Same s (as.foldl f s) := by
  induction as generalizing s with
  | nil => exact refl s
  | cons a as ih => exact (h s a).trans (ih _)

/-- The fields the laws do not see. -/
theorem plain (s : State) {bus links sessions notices requests allocQueue syncList jspace highAlarm directQueue passCount
    completing recallCounter seqCounter recordCounter stopOut mrdy merr pending timers regions resetN supervisor
    hubTime sessionCounter} :
    Same s { s with pending := pending, bus := bus, links := links, sessions := sessions, notices := notices,
                    requests := requests, allocQueue := allocQueue, syncList := syncList, jspace := jspace,
                    highAlarm := highAlarm, directQueue := directQueue, passCount := passCount, completing := completing,
                    recallCounter := recallCounter, seqCounter := seqCounter, recordCounter := recordCounter,
                    stopOut := stopOut, mrdy := mrdy, merr := merr, timers := timers, regions := regions,
                    resetN := resetN, supervisor := supervisor, hubTime := hubTime, sessionCounter := sessionCounter } :=
  ⟨rfl, rfl⟩

end Same

variable (s : State) (p : Port) (l : Line)

/-! ## Links, notices, requests -/

theorem setLink_same (k : LinkUnit) : Same s (s.setLink p k) := ⟨rfl, rfl⟩
theorem setSession_same (x : Session) : Same s (s.setSession p x) := ⟨rfl, rfl⟩
theorem setNotices_same (n : NoticeUnit) : Same s (s.setNotices p n) := ⟨rfl, rfl⟩
theorem sendSeq_same (k tag : Byte) (d : List Byte) : Same s (s.sendSeq p k tag d) := ⟨rfl, rfl⟩
theorem sendLink_same (k tag : Byte) (d : List Byte) : Same s (s.sendLink p k tag d) := ⟨rfl, rfl⟩
theorem reply_same (tag : Byte) (st : Status) (d : List Byte) : Same s (s.reply p tag st d) := ⟨rfl, rfl⟩
theorem sendNotice_same (n : SentNotice) : Same s (s.sendNotice p n) := ⟨rfl, rfl⟩
theorem acceptSeq_same : Same s (s.acceptSeq p) := ⟨rfl, rfl⟩
theorem admitReq_same (id : ReqId) (q : Req) : Same s (s.admitReq id q) := ⟨rfl, rfl⟩
theorem answer_same (id : ReqId) (st : Status) (d : List Byte) : Same s (s.answer id st d) := ⟨rfl, rfl⟩
theorem discardRequests_same : Same s (s.discardRequests p) := ⟨rfl, rfl⟩
theorem joinSync_same (i : SyncItem) : Same s (s.joinSync i) := ⟨rfl, rfl⟩
theorem waitFlush_same (id : ReqId) (q : Seq) : Same s (s.waitFlush id q) := ⟨rfl, rfl⟩
theorem popAlloc_same : Same s s.popAlloc := ⟨rfl, rfl⟩
theorem handDirect_same (d : DirectJob) : Same s (s.handDirect d) := ⟨rfl, rfl⟩
theorem leaveSpace_same : Same s (s.leaveSpace l) := ⟨rfl, rfl⟩
theorem closeSession_same : Same s (s.closeSession p) := ⟨rfl, rfl⟩

theorem restartKeepalive_same : Same s (s.restartKeepalive p) := by
  unfold State.restartKeepalive; split <;> exact ⟨rfl, rfl⟩

theorem rejectSeq_same : Same s (s.rejectSeq p) := by
  unfold State.rejectSeq; split <;> exact ⟨rfl, rfl⟩

theorem deliverNotice_same : Same s (s.deliverNotice p) := by
  unfold State.deliverNotice; split <;> exact ⟨rfl, rfl⟩

theorem postNotice_same (n : Notice) : Same s (s.postNotice p n) := by
  unfold State.postNotice
  split
  · exact (setNotices_same ..).trans (deliverNotice_same ..)
  · exact Same.refl s

theorem postAll_same (n : Notice) : Same s (s.postAll n) := Same.foldl (fun t q => postNotice_same t q n) _ _

theorem postFaultPosted_same : Same s s.postFaultPosted := postNotice_same ..

theorem joinSpace_same (o : Origin) : Same s (s.joinSpace l o) := by
  unfold State.joinSpace; split <;> exact ⟨rfl, rfl⟩

theorem joinSpaceHead_same : Same s s.joinSpaceHead := by
  unfold State.joinSpaceHead; split <;> exact ⟨rfl, rfl⟩

theorem raiseHighWater_same : Same s s.raiseHighWater := by
  unfold State.raiseHighWater
  split
  · exact (Same.plain s).trans (postNotice_same ..)
  · exact Same.refl s

theorem examineSync_same : Same s s.examineSync := by
  unfold State.examineSync
  exact (Same.plain s).trans (Same.foldl (fun t i => answer_same t _ _ _) _ _)

theorem countPass_same : Same s s.countPass := by
  unfold State.countPass; split <;> exact ⟨rfl, rfl⟩

theorem clearPass_same : Same s s.clearPass := by
  unfold State.clearPass; split <;> exact ⟨rfl, rfl⟩

theorem completeRegionSet_same : Same s s.completeRegionSet := by
  unfold State.completeRegionSet
  split
  · exact Same.refl s
  · split
    · dsimp only
      split <;> exact ⟨rfl, rfl⟩
    · exact Same.refl s

theorem completeGoodbye_same : Same s (s.completeGoodbye p) := by
  unfold State.completeGoodbye
  split
  · split
    · split
      · exact (answer_same ..).trans (closeSession_same ..)
      · exact Same.refl s
    · exact Same.refl s
  · exact Same.refl s

theorem complete_same : Same s s.complete := (completeRegionSet_same s).trans (Same.foldl completeGoodbye_same _ _)

theorem fenceNotices_same (c : Cause) : Same s (s.fenceNotices p c) := (setNotices_same ..).trans (deliverNotice_same ..)

theorem answerFenced_same : Same s (s.answerFenced p) := Same.foldl (fun t (r : Request) => answer_same t r.id _ _) _ _

/-! ## Entries -/

theorem updateEntry_core (f : Entry → Entry) (hf : ∀ e, (f e).line = e.line) (x : Line) :
    (s.updateEntry l f).view.core x = if x = l then (s.entry? l).map fun e => (f e).core else s.view.core x := by
  have h : (s.updateEntry l f).entry? x = (s.entry? x).map fun e => if e.line == l then f e else e := by
    simp only [State.entry?, State.updateEntry, List.find?_map]
    congr 1
    refine List.find?_congr fun e _ => ?_
    simp only [Function.comp]
    split <;> simp [hf]
  show ((s.updateEntry l f).entry? x).map Entry.core = _
  rw [h]
  split
  · subst x
    cases he : s.entry? l with
    | none => rfl
    | some e => simp [(entry?_some he).2]
  · rename_i hx
    show _ = (s.entry? x).map Entry.core
    cases he : s.entry? x with
    | none => rfl
    | some e => simp [(entry?_some he).2, hx]

/-- An update of an entry puts the core it makes. -/
theorem updateEntry_view (f : Entry → Entry) (hf : ∀ e, (f e).line = e.line) {e : Entry} (h : s.entry? l = some e) :
    (s.updateEntry l f).view = s.view.put l (some (f e).core) := by
  refine View.mk.injEq .. |>.mpr ⟨funext fun x => ?_, rfl, rfl, rfl, rfl, rfl, rfl, rfl⟩
  exact (updateEntry_core s l f hf x).trans (by rw [h]; rfl)

/-- An update of a line that is absent changes nothing. -/
theorem updateEntry_absent (f : Entry → Entry) (h : s.entry? l = none) : s.updateEntry l f = s := by
  have : s.table.map (fun e => if e.line == l then f e else e) = s.table := by
    conv_rhs => rw [← List.map_id s.table]
    refine List.map_congr_left fun e he => ?_
    simp [entry?_none.1 h e he]
  rw [State.updateEntry, this]

/-- An update that leaves the core alone. -/
theorem updateEntry_same (f : Entry → Entry) (hf : ∀ e, (f e).line = e.line) (hc : ∀ e, (f e).core = e.core) :
    Same s (s.updateEntry l f) := by
  refine ⟨View.mk.injEq .. |>.mpr ⟨funext fun x => ?_, rfl, rfl, rfl, rfl, rfl, rfl, rfl⟩, rfl⟩
  refine (updateEntry_core s l f hf x).trans ?_
  split
  · rename_i hx; subst hx; exact congrArg (fun g => (s.entry? x).map g) (funext hc)
  · rfl

theorem joinWaiters_same (r : ReqId) : Same s (s.joinWaiters l r) := updateEntry_same _ _ _ (fun _ => rfl) fun _ => rfl
theorem dropHead_same : Same s (s.dropHead l) := updateEntry_same _ _ _ (fun _ => rfl) fun _ => rfl

theorem touch_same : Same s (s.touch l) := by
  unfold State.touch
  split
  · rename_i e he
    refine ⟨View.mk.injEq .. |>.mpr ⟨funext fun x => ?_, rfl, rfl, rfl, rfl, rfl, rfl, rfl⟩, rfl⟩
    have hl := (entry?_some he).2
    by_cases hx : x = l
    · subst hx
      simp [State.entry?, hl, -Entry.mk.injEq]
      rw [State.entry?] at he
      exact ⟨e, he, rfl⟩
    · have : (l == x) = false := by simpa using fun h => hx h.symm
      simp only [State.entry?, List.find?_cons, hl, this, List.find?_filter]
      congr 1
      refine List.find?_congr fun e _ => ?_
      by_cases h : e.line = x
      · simp [h, hx]
      · simp [h]
  · exact Same.refl s

theorem removeEntry_view : (s.removeEntry l).view = s.view.put l none := by
  refine View.mk.injEq .. |>.mpr ⟨funext fun x => ?_, rfl, rfl, rfl, rfl, rfl, rfl, rfl⟩
  simp only [State.removeEntry, State.entry?, List.find?_filter]
  split
  · rename_i hx
    subst hx
    have : s.table.find? (fun e => e.line != x && e.line == x) = none := by simp [List.find?_eq_none]
    simp
  · rename_i hx
    have : s.table.find? (fun e => decide ((e.line != l) = true ∧ (e.line == x) = true)) = s.table.find? (fun e => e.line == x) := by
      refine List.find?_congr fun e _ => ?_
      by_cases h : e.line = x
      · simp [h, hx]
      · simp [h]
    exact congrArg (Option.map Entry.core) this

theorem placeEntry_view (e : Entry) (ha : s.entry? e.line = none) :
    (s.placeEntry e).view = s.view.put e.line (some e.core) := by
  refine View.mk.injEq .. |>.mpr ⟨funext fun x => ?_, rfl, rfl, rfl, rfl, rfl, rfl, rfl⟩
  simp only [State.placeEntry, State.entry?]
  split
  · rw [List.find?_append]
    by_cases hx : x = e.line
    · subst hx
      rw [State.entry?] at ha
      simp [ha]
    · have : (e.line == x) = false := by simpa using fun h => hx h.symm
      simp [this, hx, State.view, State.entry?]
  · by_cases hx : x = e.line
    · subst hx; simp
    · have : (e.line == x) = false := by simpa using fun h => hx h.symm
      simp [this, hx, State.view, State.entry?]

/-- A map over the table that keeps the lines maps the entry of each line. -/
theorem mapTable_entry? (f : Entry → Entry) (hf : ∀ e, (f e).line = e.line) (x : Line) :
    ({ s with table := s.table.map f } : State).entry? x = (s.entry? x).map f := by
  simp only [State.entry?, List.find?_map]
  congr 1
  exact List.find?_congr fun e _ => by simp [hf]

end Sys2Proof.Machine
end

