-- ==== Sys2Proof/Laws/Lawful.lean ====
section
/-! SUPPORT. The laws of coherence over a view, and what each change of a view keeps of them. -/

namespace Sys2Proof.Machine

/-- The laws of one core (R2, R3, R4). -/
structure Core.Ok (c : Core) : Prop where
  alone : ∀ p q : Port, c.holdings[p] = .write → q ≠ p → c.holdings[q] = .none
  data  : ∀ p : Port, c.holdings[p] ≠ .none → c.copy.data?.isSome = true
  empty : c.copy = .empty ↔ c.activity = .filling ∨ c.activity = .faultHeld

/-- The core can be the target of the recall (R61). -/
structure Core.Target (c : Core) (w : WaitingRecall) : Prop where
  holder : c.holdings[w.port] ≠ .none
  writer : w.kind = .downgrade → c.holdings[w.port] = .write

/-- The target is one by its holdings alone. -/
theorem Core.Target.of {c d : Core} {w : WaitingRecall} (h : c.Target w) (e : d.holdings = c.holdings) : d.Target w :=
  ⟨by rw [e]; exact h.holder, by rw [e]; exact h.writer⟩

/-- A DRAIN_FAULT record's journal entry is as the record says (R92, R94). -/
def FaultRecord.Drains (r : FaultRecord) (k : JournalEntry) : Prop :=
  k.state = .faulted ∨ (k.state = .writing ∧ k.origin = .retry ∧ r.state = .retrying)

/-- The laws of coherence of a view in which these recalls are outstanding. -/
structure Lawful (v : View) (W : List WaitingRecall) : Prop where
  cores     : ∀ l c, v.core l = some c → c.Ok
  targets   : ∀ w ∈ W, ∃ c, v.core w.line = some c ∧ c.Target w
  one       : W.Pairwise fun a b => ¬ (a.line = b.line ∧ a.port = b.port)
  recallIds : v.recallIds.Nodup
  line      : v.journal.Pairwise fun a b => a.line = b.line → a.state ≠ .queued ∧ b.state = .queued
  seqs      : (v.journal.map (·.seq)).Nodup
  fills     : v.fillJobs.Nodup
  filling   : ∀ l ∈ v.fillJobs, ∃ c, v.core l = some c ∧ c.activity = .filling
  draining  : ∀ q, v.draining = some q → ∃ k ∈ v.journal, k.seq = q ∧ k.state = .writing
  room      : v.queue.length ≤ Config.faultQueueSize
  ids       : (v.records.map (·.id)).Nodup
  lines     : ∀ r ∈ v.records, ∀ l ∈ r.body.lines,
    ∃ c, v.core l = some c ∧ c.recordId = some r.id ∧ r.Fits c.activity c.copy
  entries   : ∀ l c id, v.core l = some c → c.recordId = some id → ∃ r ∈ v.records, r.id = id ∧ l ∈ r.body.lines
  drainSeqs : (v.records.filterMap (·.body.seq?)).Nodup
  drains    : ∀ r ∈ v.records, ∀ q, r.body.seq? = some q → ∃ k ∈ v.journal, k.seq = q ∧ r.Drains k
  stop      : ∀ r, v.stop = some r → r.state ≠ .retrying ∧ v.mode = .stopped

/-- The laws of coherence of a state. -/
def Sound (s : State) : Prop := Lawful s.view s.outstandingRecalls

theorem Same.sound {s t : State} (a : Same s t) (h : Sound s) : Sound t := by
  unfold Sound; rw [a.view, a.out]; exact h

/-- A journal that goes on from another: its laws hold again, and what is not QUEUED stays whole. -/
structure Grows (js ks : List JournalEntry) : Prop where
  line  : (js.Pairwise fun a b => a.line = b.line → a.state ≠ .queued ∧ b.state = .queued) →
    ks.Pairwise fun a b => a.line = b.line → a.state ≠ .queued ∧ b.state = .queued
  seqs  : (js.map (·.seq)).Nodup → (ks.map (·.seq)).Nodup
  keeps : ∀ k ∈ js, k.state ≠ .queued → k ∈ ks

namespace Lawful
variable {v : View} {W : List WaitingRecall} {l : Line} {c : Core}

/-- Recalls that close leave the laws. -/
theorem sub {W' : List WaitingRecall} (h : Lawful v W) (hs : W'.Sublist W) : Lawful v W' :=
  { h with targets := fun w hw => h.targets w (hs.subset hw), one := h.one.sublist hs }

/-- The laws do not look at the order of the recalls. -/
theorem perm {W' : List WaitingRecall} (h : Lawful v W) (hp : W'.Perm W) : Lawful v W' :=
  { h with
    targets := fun w hw => h.targets w (hp.subset hw)
    one := (hp.pairwise_iff fun hab hba => hab ⟨hba.1.symm, hba.2.symm⟩).2 h.one }

/-- A recall that targets a holder, and that is not outstanding, may be asked. -/
theorem ask (h : Lawful v W) {w : WaitingRecall} (hc : v.core w.line = some c) (ht : c.Target w)
    (hn : ∀ x ∈ W, ¬ (x.line = w.line ∧ x.port = w.port)) : Lawful v (W ++ [w]) :=
  { h with
    targets := fun x hx => by
      rcases List.mem_append.1 hx with hx | hx
      · exact h.targets x hx
      · cases List.mem_singleton.1 hx; exact ⟨c, hc, ht⟩
    one := List.pairwise_append.2 ⟨h.one, List.pairwise_singleton .., fun a ha b hb => by
      cases List.mem_singleton.1 hb; exact hn a ha⟩ }

/-- Another core for a line. -/
theorem put (h : Lawful v W) (hc : c.Ok) (ht : ∀ w ∈ W, w.line = l → c.Target w)
    (hn : ∀ r ∈ v.records, l ∈ r.body.lines → c.recordId = some r.id ∧ r.Fits c.activity c.copy)
    (hr : ∀ id, c.recordId = some id → ∃ r ∈ v.records, r.id = id ∧ l ∈ r.body.lines)
    (hf : l ∈ v.fillJobs → c.activity = .filling) : Lawful (v.put l (some c)) W :=
  { h with
    cores := fun x d hd => by
      simp only [View.put] at hd
      split at hd
      · cases hd; exact hc
      · exact h.cores x d hd
    targets := fun w hw => by
      by_cases e : w.line = l
      · exact ⟨c, by simp [View.put, e], ht w hw e⟩
      · obtain ⟨d, hd, hx⟩ := h.targets w hw
        exact ⟨d, by simpa [View.put, e] using hd, hx⟩
    filling := fun x hx => by
      by_cases e : x = l
      · subst e; exact ⟨c, by simp [View.put], hf hx⟩
      · obtain ⟨d, hd, ha⟩ := h.filling x hx
        exact ⟨d, by simpa [View.put, e] using hd, ha⟩
    lines := fun r hm x hx => by
      by_cases e : x = l
      · subst e; exact ⟨c, by simp [View.put], hn r hm hx⟩
      · obtain ⟨d, hd, ha⟩ := h.lines r hm x hx
        exact ⟨d, by simpa [View.put, e] using hd, ha⟩
    entries := fun x d id hd hi => by
      simp only [View.put] at hd
      split at hd
      · rename_i e; cases hd; subst e; exact hr id hi
      · exact h.entries x d id hd hi }

/-- A line whose entry goes: no recall, no record and no FILL job may be left of it. -/
theorem drop (h : Lawful v W) (ht : ∀ w ∈ W, w.line ≠ l) (hn : ∀ r ∈ v.records, l ∉ r.body.lines) (hf : l ∉ v.fillJobs) :
    Lawful (v.put l none) W :=
  { h with
    cores := fun x d hd => by
      simp only [View.put] at hd
      split at hd
      · cases hd
      · exact h.cores x d hd
    targets := fun w hw => by
      obtain ⟨d, hd, hx⟩ := h.targets w hw
      exact ⟨d, by simpa [View.put, ht w hw] using hd, hx⟩
    filling := fun x hx => by
      have e : x ≠ l := fun e => hf (e ▸ hx)
      obtain ⟨d, hd, ha⟩ := h.filling x hx
      exact ⟨d, by simpa [View.put, e] using hd, ha⟩
    lines := fun r hm x hx => by
      have e : x ≠ l := fun e => hn r hm (e ▸ hx)
      obtain ⟨d, hd, ha⟩ := h.lines r hm x hx
      exact ⟨d, by simpa [View.put, e] using hd, ha⟩
    entries := fun x d id hd hi => by
      simp only [View.put] at hd
      split at hd
      · cases hd
      · exact h.entries x d id hd hi }

/-! ## What the laws say of a line -/

theorem named (h : Lawful v W) (hc : v.core l = some c) {r : FaultRecord} (hm : r ∈ v.records) (hl : l ∈ r.body.lines) :
    c.recordId = some r.id ∧ r.Fits c.activity c.copy := by
  obtain ⟨d, hd, ha⟩ := h.lines r hm l hl
  cases hc.symm.trans hd; exact ha

theorem target (h : Lawful v W) (hc : v.core l = some c) {w : WaitingRecall} (hw : w ∈ W) (hl : w.line = l) : c.Target w := by
  obtain ⟨d, hd, ha⟩ := h.targets w hw
  rw [hl] at hd
  cases hc.symm.trans hd; exact ha

theorem fillJob (h : Lawful v W) (hc : v.core l = some c) (hl : l ∈ v.fillJobs) : c.activity = .filling := by
  obtain ⟨d, hd, ha⟩ := h.filling l hl
  cases hc.symm.trans hd; exact ha

/-- A record of a line whose copy has data is none: FILL_FAULT lines are EMPTY, HOLDER_LOST lines POISONED. -/
theorem unnamed (h : Lawful v W) (hc : v.core l = some c) (hd : c.copy.data?.isSome = true) :
    ∀ r ∈ v.records, l ∉ r.body.lines := by
  intro r hm hl
  obtain ⟨-, hf⟩ := h.named hc hm hl
  have he := (h.cores l c hc).empty
  unfold RecordBody.lines at hl
  unfold FaultRecord.Fits at hf
  split at hl <;> rename_i hb <;> simp only [hb] at hf
  · have : c.copy = .empty := he.2 (by split at hf <;> simp [hf])
    simp [this, HubCopy.data?] at hd
  · cases hl
  · simp [hf, HubCopy.data?] at hd

theorem unrecorded (h : Lawful v W) (hc : v.core l = some c) (hd : c.copy.data?.isSome = true) : c.recordId = none := by
  cases hi : c.recordId with
  | none => rfl
  | some id =>
    obtain ⟨r, hm, -, hl⟩ := h.entries l c id hc hi
    exact absurd hl (h.unnamed hc hd r hm)

/-- A line whose copy has data has no FILL job. -/
theorem unfilled (h : Lawful v W) (hc : v.core l = some c) (ha : c.activity ≠ .filling) : l ∉ v.fillJobs :=
  fun hl => ha (h.fillJob hc hl)

theorem notEmpty {c : Core} (h : c.Ok) (hf : c.activity ≠ .filling) (hh : c.activity ≠ .faultHeld) : c.copy ≠ .empty :=
  fun e => by rcases h.empty.1 e with e | e <;> contradiction

/-- No recall is outstanding of a line that nobody holds. -/
theorem unrecalled (h : Lawful v W) (hc : v.core l = some c) (hn : ∀ p : Port, c.holdings[p] = .none) :
    ∀ w ∈ W, w.line ≠ l :=
  fun w hw hl => (h.target hc hw hl).holder (hn w.port)

theorem absent (h : Lawful v W) (hc : v.core l = none) :
    (∀ w ∈ W, w.line ≠ l) ∧ (∀ r ∈ v.records, l ∉ r.body.lines) ∧ l ∉ v.fillJobs := by
  refine ⟨fun w hw e => ?_, fun r hm hl => ?_, fun hl => ?_⟩
  · obtain ⟨d, hd, -⟩ := h.targets w hw; rw [e, hc] at hd; cases hd
  · obtain ⟨d, hd, -⟩ := h.lines r hm l hl; rw [hc] at hd; cases hd
  · obtain ⟨d, hd, -⟩ := h.filling l hl; rw [hc] at hd; cases hd

/-! ## The journal -/

/-- Another journal, in which every entry that a record or the DRAIN in flight names is as it says. -/
theorem withJournal (h : Lawful v W) {js : List JournalEntry}
    (hl : js.Pairwise fun a b => a.line = b.line → a.state ≠ .queued ∧ b.state = .queued)
    (hs : (js.map (·.seq)).Nodup)
    (hd : ∀ q, v.draining = some q → ∃ k ∈ js, k.seq = q ∧ k.state = .writing)
    (hr : ∀ r ∈ v.records, ∀ q, r.body.seq? = some q → ∃ k ∈ js, k.seq = q ∧ r.Drains k) :
    Lawful { v with journal := js } W :=
  { h with line := hl, seqs := hs, draining := hd, drains := hr }

theorem grows (h : Lawful v W) {js : List JournalEntry} (g : Grows v.journal js) : Lawful { v with journal := js } W := by
  refine h.withJournal (g.line h.line) (g.seqs h.seqs) (fun q hq => ?_) fun r hr q hq => ?_
  · obtain ⟨k, hm, he, hw⟩ := h.draining q hq
    exact ⟨k, g.keeps k hm (by simp [hw]), he, hw⟩
  · obtain ⟨k, hm, he, hd⟩ := h.drains r hr q hq
    exact ⟨k, g.keeps k hm (by rcases hd with hd | ⟨hd, -⟩ <;> simp [hd]), he, hd⟩

/-- The entry with a number changes in place to one that is not QUEUED: no other entry of its line stands in the way, and
whoever names the number finds it as it says. -/
theorem setEntry (h : Lawful v W) {q : Seq} {g : JournalEntry → JournalEntry} (hl : ∀ k, (g k).line = k.line)
    (hq : ∀ k, (g k).seq = k.seq) (hs : ∀ k, (g k).state ≠ .queued)
    (he : ∀ k ∈ v.journal, k.seq = q → k.state = .queued → ∀ x ∈ v.journal, x.line = k.line → x.state = .queued)
    (hd : v.draining = some q → ∃ k ∈ v.journal, k.seq = q ∧ (g k).state = .writing)
    (hr : ∀ r ∈ v.records, r.body.seq? = some q → ∃ k ∈ v.journal, k.seq = q ∧ r.Drains (g k)) :
    Lawful { v with journal := v.journal.map fun k => if k.seq == q then g k else k } W := by
  have found {P : JournalEntry → Prop} {x : Seq} (h0 : ∃ k ∈ v.journal, k.seq = x ∧ P (if k.seq == q then g k else k)) :
      ∃ k ∈ v.journal.map (fun k => if k.seq == q then g k else k), k.seq = x ∧ P k := by
    obtain ⟨k, hm, hx, hp⟩ := h0
    refine ⟨_, List.mem_map.2 ⟨k, hm, rfl⟩, ?_, hp⟩
    split
    · rw [hq]; exact hx
    · exact hx
  refine h.withJournal ?_ ?_ (fun x hx => found ?_) fun r hm x hx => found ?_
  · refine List.pairwise_map.2 (List.Pairwise.imp_of_mem (fun {a b} ha hb hab e => ?_) h.line)
    have e' : a.line = b.line := by
      revert e
      by_cases e1 : a.seq = q <;> by_cases e2 : b.seq = q <;> simp [e1, e2, hl]
    obtain ⟨h1, h2⟩ := hab e'
    by_cases e2 : b.seq = q
    · exact absurd (he b hb e2 h2 a ha e') h1
    · constructor
      · split
        · exact hs a
        · exact h1
      · simp [e2, h2]
  · rw [List.map_map]
    refine (List.map_congr_left fun k _ => ?_) ▸ h.seqs
    simp only [Function.comp]; split <;> simp [hq]
  · by_cases e : x = q
    · subst e
      obtain ⟨k, hm, hk, hp⟩ := hd hx
      exact ⟨k, hm, hk, by simp [hk, hp]⟩
    · obtain ⟨k, hm, hk, hp⟩ := h.draining x hx
      exact ⟨k, hm, hk, by simp [hk, e, hp]⟩
  · by_cases e : x = q
    · subst e
      obtain ⟨k, hm', hk, hp⟩ := hr r hm hx
      exact ⟨k, hm', hk, by simpa [hk] using hp⟩
    · obtain ⟨k, hm', hk, hp⟩ := h.drains r hm x hx
      exact ⟨k, hm', hk, by simpa [hk, e] using hp⟩

/-- The entry with a number that neither a record nor a DRAIN in flight names leaves. -/
theorem removeSeq (h : Lawful v W) {q : Seq} (hd : v.draining ≠ some q) (hr : ∀ r ∈ v.records, r.body.seq? ≠ some q) :
    Lawful { v with journal := v.journal.filter fun k => k.seq != q } W := by
  refine h.withJournal (h.line.sublist List.filter_sublist) (h.seqs.sublist (List.filter_sublist.map _)) (fun x hx => ?_)
    fun r hm x hx => ?_
  · obtain ⟨k, hm, hk, hp⟩ := h.draining x hx
    exact ⟨k, List.mem_filter.2 ⟨hm, by simpa [hk] using fun e : x = q => hd (e ▸ hx)⟩, hk, hp⟩
  · obtain ⟨k, hm', hk, hp⟩ := h.drains r hm x hx
    exact ⟨k, List.mem_filter.2 ⟨hm', by simpa [hk] using fun e : x = q => hr r hm (e ▸ hx)⟩, hk, hp⟩

/-! ## Fault records -/

/-- Nobody holds a line of a record, so no recall of it is outstanding. -/
theorem namedUnrecalled (h : Lawful v W) {r : FaultRecord} (hm : r ∈ v.records) : ∀ w ∈ W, w.line ∉ r.body.lines := by
  intro w hw hl
  obtain ⟨c, hc, ht⟩ := h.targets w hw
  exact h.unnamed hc ((h.cores _ c hc).data _ ht.holder) r hm hl

theorem sameId (h : Lawful v W) {a b : FaultRecord} (ha : a ∈ v.records) (hb : b ∈ v.records) (e : a.id = b.id) : a = b :=
  List.inj_on_of_nodup_map h.ids ha hb e

theorem sameSeq (h : Lawful v W) {a b : FaultRecord} (ha : a ∈ v.records) (hb : b ∈ v.records) {q : Seq}
    (ea : a.body.seq? = some q) (eb : b.body.seq? = some q) : a = b := by
  have := h.drainSeqs
  rw [List.Nodup, List.pairwise_filterMap] at this
  by_contra hne
  obtain ⟨i, hi, rfl⟩ := List.mem_iff_getElem.1 ha
  obtain ⟨j, hj, rfl⟩ := List.mem_iff_getElem.1 hb
  rw [List.pairwise_iff_getElem] at this
  rcases Nat.lt_trichotomy i j with hl | rfl | hl
  · exact this i j hi hj hl q ea q eb rfl
  · exact hne rfl
  · exact this j i hj hi hl q eb q ea rfl

/-- A line of one record is a line of no other. -/
theorem sameLine (h : Lawful v W) {a b : FaultRecord} {x : Line} (ha : a ∈ v.records) (hb : b ∈ v.records)
    (ea : x ∈ a.body.lines) (eb : x ∈ b.body.lines) : a = b := by
  obtain ⟨c, hc, hi, -⟩ := h.lines a ha x ea
  obtain ⟨d, hd, hj, -⟩ := h.lines b hb x eb
  cases hc.symm.trans hd
  exact h.sameId ha hb (Option.some.inj (hi.symm.trans hj))

/-- A record of the queue is changed in place, or retired, and with it the entries of its lines: those it keeps are as it
says, the others hold no id. -/
theorem revise (h : Lawful v W) {r : FaultRecord} (hr : r ∈ v.queue) (o : Option FaultRecord)
    (ho : ∀ x ∈ o, x.id = r.id ∧ x.body.seq? = r.body.seq? ∧ x.body.lines ⊆ r.body.lines)
    (core : Line → Option Core) (hout : ∀ x, x ∉ r.body.lines → core x = v.core x)
    (hin : ∀ x ∈ r.body.lines, ∀ c, core x = some c → c.Ok ∧ (c.recordId = none ∨ ∃ y ∈ o, c.recordId = some r.id ∧ x ∈ y.body.lines))
    (hfit : ∀ y ∈ o, ∀ x ∈ y.body.lines, ∃ c, core x = some c ∧ c.recordId = some r.id ∧ y.Fits c.activity c.copy)
    (hfill : ∀ x ∈ v.fillJobs, x ∈ r.body.lines → ∃ c, core x = some c ∧ c.activity = .filling)
    (hdr : ∀ y ∈ o, ∀ q, r.body.seq? = some q → ∃ k ∈ v.journal, k.seq = q ∧ y.Drains k) :
    Lawful { v with core := core, queue := v.queue.filterMap fun x => if x.id = r.id then o else some x } W := by
  have hrm : r ∈ v.records := List.mem_append_left _ hr
  have hmem : ∀ x ∈ v.queue.filterMap (fun x => if x.id = r.id then o else some x) ++ v.stop.toList,
      (x ∈ v.records ∧ x.id ≠ r.id) ∨ x ∈ o := by
    intro x hx
    rcases List.mem_append.1 hx with hx | hx
    · obtain ⟨y, hy, he⟩ := List.mem_filterMap.1 hx
      split at he
      · exact .inr he
      · cases he; exact .inl ⟨List.mem_append_left _ hy, ‹_›⟩
    · refine .inl ⟨List.mem_append_right _ hx, fun e => ?_⟩
      have hn := h.ids
      rw [View.records, List.map_append, List.nodup_append] at hn
      exact hn.2.2 _ (List.mem_map.2 ⟨r, hr, rfl⟩) _ (List.mem_map.2 ⟨x, hx, rfl⟩) e.symm
  have hback : ∀ x ∈ v.records, x.id ≠ r.id →
      x ∈ v.queue.filterMap (fun x => if x.id = r.id then o else some x) ++ v.stop.toList := by
    intro x hx hne
    rcases List.mem_append.1 hx with hx | hx
    · exact List.mem_append_left _ (List.mem_filterMap.2 ⟨x, hx, by rw [if_neg hne]⟩)
    · exact List.mem_append_right _ hx
  have hsub {β : Type} (f : FaultRecord → Option β) (hf : ∀ y ∈ o, f y = f r) :
      ((v.queue.filterMap (fun x => if x.id = r.id then o else some x) ++ v.stop.toList).filterMap f).Sublist
        (v.records.filterMap f) := by
    rw [View.records, List.filterMap_append, List.filterMap_append]
    refine List.Sublist.append ?_ (List.Sublist.refl _)
    have hq : ∀ x ∈ v.queue, x.id = r.id → x = r := fun x hx e => h.sameId (List.mem_append_left _ hx) hrm e
    clear hmem hback
    revert hq
    generalize v.queue = q
    intro hq
    induction q with
    | nil => exact List.Sublist.refl _
    | cons x q ih =>
      have ih := ih fun y hy => hq y (List.mem_cons_of_mem _ hy)
      by_cases e : x.id = r.id
      · have hx := hq x (by simp) e
        subst hx
        cases o with
        | none =>
          simp only [List.filterMap_cons, if_true]
          cases hfx : f x with
          | none => simpa [hfx] using ih
          | some b => exact ih.trans (by simp)
        | some y =>
          have hy := hf y rfl
          simp only [List.filterMap_cons, if_true, hy]
          cases hfx : f x with
          | none => exact ih
          | some b => exact ih.cons_cons b
      · simp only [List.filterMap_cons, if_neg e]
        cases hfx : f x with
        | none => exact ih
        | some b => exact ih.cons_cons b
  exact { h with
    cores := fun x c hc => by
      by_cases hx : x ∈ r.body.lines
      · exact (hin x hx c hc).1
      · exact h.cores x c ((hout x hx).symm.trans hc)
    targets := fun w hw => by
      obtain ⟨c, hc, ht⟩ := h.targets w hw
      exact ⟨c, (hout _ (h.namedUnrecalled hrm w hw)).trans hc, ht⟩
    filling := fun x hx => by
      by_cases hl : x ∈ r.body.lines
      · exact hfill x hx hl
      · obtain ⟨c, hc, ha⟩ := h.filling x hx
        exact ⟨c, (hout x hl).trans hc, ha⟩
    room := (List.length_filterMap_le ..).trans h.room
    ids := by
      have := (hsub (fun x => some x.id) fun y hy => by rw [(ho y hy).1])
      rw [List.filterMap_eq_map'] at this
      exact h.ids.sublist this
    drainSeqs := h.drainSeqs.sublist (hsub _ fun y hy => (ho y hy).2.1)
    lines := fun x hx l hl => by
      rcases hmem x hx with ⟨hm, hne⟩ | hm
      · obtain ⟨c, hc, hi⟩ := h.lines x hm l hl
        refine ⟨c, (hout l fun e => ?_).trans hc, hi⟩
        exact hne (congrArg _ (h.sameLine hm hrm hl e))
      · rw [(ho x hm).1]
        exact hfit x hm l hl
    entries := fun x c id hc hi => by
      by_cases hl : x ∈ r.body.lines
      · rcases (hin x hl c hc).2 with e | ⟨y, hy, e, hyl⟩
        · rw [e] at hi; cases hi
        · rw [e] at hi; cases hi
          refine ⟨y, List.mem_append_left _ (List.mem_filterMap.2 ⟨r, hr, by simpa using hy⟩), (ho y hy).1, hyl⟩
      · obtain ⟨y, hy, e, hyl⟩ := h.entries x c id ((hout x hl).symm.trans hc) hi
        refine ⟨y, hback y hy fun e' => ?_, e, hyl⟩
        rw [h.sameId hy hrm e'] at hyl
        exact hl hyl
    drains := fun x hx q hq => by
      rcases hmem x hx with ⟨hm, -⟩ | hm
      · exact h.drains x hm q hq
      · exact hdr x hm q ((ho x hm).2.1 ▸ hq) }

theorem filterMap_retire (q : List FaultRecord) (id : Byte) :
    (q.filterMap fun x => if x.id = id then none else some x) = q.filter fun x => x.id != id := by
  induction q with
  | nil => rfl
  | cons x q ih => by_cases e : x.id = id <;> simp [e, ih]

/-- A record of one id in the queue is that record, so changing it in place is putting its change. -/
theorem filterMap_change (h : Lawful v W) {r : FaultRecord} (hr : r ∈ v.queue) (f : FaultRecord → FaultRecord) :
    (v.queue.filterMap fun x => if x.id = r.id then some (f r) else some x) = v.queue.map fun x => if x.id = r.id then f x else x := by
  rw [← List.filterMap_eq_map]
  refine List.filterMap_congr fun x hx => ?_
  simp only [Function.comp]
  split
  · rename_i e
    rw [h.sameId (List.mem_append_left _ hx) (List.mem_append_left _ hr) e]
  · rfl

/-- A new record, POSTED under a fresh id, for lines that no record names, whose entries now hold its id and are as it says,
and for a journal entry that is FAULTED and that no record names. -/
theorem create (h : Lawful v W) {r : FaultRecord} (hid : ∀ x ∈ v.records, x.id ≠ r.id) (hp : r.state = .posted)
    (hm : v.mode = .running) (core : Line → Option Core) (hout : ∀ x, x ∉ r.body.lines → core x = v.core x)
    (hin : ∀ x ∈ r.body.lines, (∀ y ∈ v.records, x ∉ y.body.lines) ∧ x ∉ v.fillJobs ∧ (∀ w ∈ W, w.line ≠ x) ∧
      ∃ c, core x = some c ∧ c.Ok ∧ c.recordId = some r.id ∧ r.Fits c.activity c.copy)
    (hseq : ∀ q, r.body.seq? = some q → (∃ k ∈ v.journal, k.seq = q ∧ k.state = .faulted) ∧
      ∀ y ∈ v.records, y.body.seq? ≠ some q) :
    (v.queue.length < Config.faultQueueSize → Lawful { v with core := core, queue := v.queue ++ [r] } W) ∧
    Lawful { v with core := core, stop := some r, mode := .stopped } W := by
  have hstop : v.stop = none := by
    cases hs : v.stop with
    | none => rfl
    | some x => have := (h.stop x hs).2; rw [hm] at this; cases this
  have hrec : v.records = v.queue := by simp [View.records, hstop]
  have key (v' : View) (hc : v'.core = core) (h1 : v'.recallIds = v.recallIds) (h2 : v'.journal = v.journal)
      (h3 : v'.fillJobs = v.fillJobs) (h4 : v'.draining = v.draining) (hr : v'.records = v.queue ++ [r])
      (hroom : v'.queue.length ≤ Config.faultQueueSize) (hst : ∀ r, v'.stop = some r → r.state ≠ .retrying ∧ v'.mode = .stopped) :
      Lawful v' W := by
    have hmem : ∀ x ∈ v'.records, x ∈ v.records ∨ x = r := by
      intro x hx
      rw [hr] at hx; rw [hrec]
      simpa using hx
    have hback : ∀ x ∈ v.records, x ∈ v'.records := by
      intro x hx
      rw [hrec] at hx; rw [hr]
      exact List.mem_append_left _ hx
    exact {
      cores := fun x c hx => by
        rw [hc] at hx
        by_cases hl : x ∈ r.body.lines
        · obtain ⟨-, -, -, d, hd, ok, -⟩ := hin x hl
          cases hx.symm.trans hd; exact ok
        · exact h.cores x c ((hout x hl).symm.trans hx)
      targets := fun w hw => by
        obtain ⟨c, hd, ht⟩ := h.targets w hw
        refine ⟨c, ?_, ht⟩
        rw [hc, hout _ fun e => (hin _ e).2.2.1 w hw rfl]
        exact hd
      one := h.one
      recallIds := by rw [h1]; exact h.recallIds
      line := by rw [h2]; exact h.line
      seqs := by rw [h2]; exact h.seqs
      fills := by rw [h3]; exact h.fills
      filling := fun x hx => by
        rw [h3] at hx
        obtain ⟨c, hd, ha⟩ := h.filling x hx
        refine ⟨c, ?_, ha⟩
        rw [hc, hout _ fun e => (hin _ e).2.1 hx]
        exact hd
      draining := fun q hq => by rw [h2]; exact h.draining q (h4 ▸ hq)
      room := hroom
      ids := by
        rw [hr, List.map_append, List.nodup_append]
        have := h.ids
        rw [hrec] at this
        refine ⟨this, by simp, fun a ha b hb => ?_⟩
        obtain ⟨x, hx, rfl⟩ := List.mem_map.1 ha
        simp only [List.map_cons, List.map_nil, List.mem_singleton] at hb
        subst hb
        exact hid x (hrec ▸ hx)
      lines := fun x hx l hl => by
        rcases hmem x hx with hx | rfl
        · obtain ⟨c, hd, hi⟩ := h.lines x hx l hl
          refine ⟨c, ?_, hi⟩
          rw [hc, hout _ fun e => (hin _ e).1 x hx hl]
          exact hd
        · obtain ⟨-, -, -, d, hd, -, hi⟩ := hin l hl
          exact ⟨d, by rw [hc]; exact hd, hi⟩
      entries := fun x c id hx hi => by
        rw [hc] at hx
        by_cases hl : x ∈ r.body.lines
        · obtain ⟨-, -, -, d, hd, -, hj, -⟩ := hin x hl
          cases hx.symm.trans hd
          cases hi.symm.trans hj
          exact ⟨r, by rw [hr]; simp, rfl, hl⟩
        · obtain ⟨y, hy, e, hyl⟩ := h.entries x c id ((hout x hl).symm.trans hx) hi
          exact ⟨y, hback y hy, e, hyl⟩
      drainSeqs := by
        rw [hr, List.filterMap_append]
        have := h.drainSeqs
        rw [hrec] at this
        rw [List.nodup_append]
        refine ⟨this, ?_, fun a ha b hb => ?_⟩
        · cases e : r.body.seq? <;> simp [e]
        · obtain ⟨x, hx, hxa⟩ := List.mem_filterMap.1 ha
          obtain ⟨y, hy, hyb⟩ := List.mem_filterMap.1 hb
          cases List.mem_singleton.1 hy
          rintro rfl
          exact (hseq a hyb).2 x (hrec ▸ hx) hxa
      drains := fun x hx q hq => by
        rw [h2]
        rcases hmem x hx with hx | rfl
        · exact h.drains x hx q hq
        · obtain ⟨k, hk, e, hf⟩ := (hseq q hq).1
          exact ⟨k, hk, e, .inl hf⟩
      stop := hst }
  constructor
  · intro hroom
    refine key _ rfl rfl rfl rfl rfl ?_ ?_ ?_
    · simp [View.records, hstop]
    · simp; omega
    · intro x hx; rw [show v.stop = some x from hx] at hstop; cases hstop
  · refine key _ rfl rfl rfl rfl rfl ?_ h.room ?_
    · simp [View.records]
    · intro x hx; cases hx; exact ⟨by rw [hp]; simp, rfl⟩

end Lawful

end Sys2Proof.Machine
end

