-- ==== Sys2Proof/Laws/LawfulOps.lean ====
section
/-! SUPPORT. The laws of coherence for the operations over recalls, the journal, entries, the port and fault records. -/

namespace Sys2Proof.Machine

variable (s : State) (p : Port) (l : Line)

/-- The id of a new record is that of no record (R115). -/
theorem newRecordId_fresh (h : s.faultQueue.length ≤ Config.faultQueueSize) : ∀ r ∈ s.view.records, r.id ≠ s.newRecordId := by
  intro r hr e
  refine newRecordId_notUsed s h (List.mem_cons_of_mem _ ?_)
  have : r ∈ s.faultQueue ++ s.stopRecord.toList := hr
  rw [← e, State.recordIds, ← List.map_append]
  exact List.mem_map.2 ⟨r, this, rfl⟩

/-! ## Recalls -/

variable {s p l} {c : Core} {w : WaitingRecall}

theorem recallOutstanding_false : s.recallOutstanding l p = false ↔
    ∀ x ∈ s.outstandingRecalls, ¬ (x.line = l ∧ x.port = p) := by
  simp only [State.recallOutstanding, State.outstandingRecalls, Bool.or_eq_false_iff, List.any_eq_false, List.mem_append,
    List.mem_map, Bool.and_eq_true, beq_iff_eq]
  constructor
  · rintro ⟨a, b⟩ x (⟨r, hr, rfl⟩ | hx)
    · exact a r hr
    · exact b x hx
  · exact fun h => ⟨fun r hr => h _ (.inl ⟨r, hr, rfl⟩), fun x hx => h x (.inr hx)⟩

/-- The view with another list of recall ids. -/
theorem Lawful.withIds {v : View} {W : List WaitingRecall} (h : Lawful v W) {ids : List Byte} (hi : ids.Nodup) :
    Lawful { v with recallIds := ids } W :=
  { h with recallIds := hi }

/-- Opening a recall adds it to those outstanding, whether it was asked now or waited. -/
theorem openRecall_lawful (hr : s.recalls.length < Config.recallTableSize)
    (h : Lawful s.view (s.recalls.map (·.asked) ++ [w] ++ s.recallWait)) : Sound (s.openRecall w) := by
  have hout : (s.openRecall w).outstandingRecalls = s.recalls.map (·.asked) ++ [w] ++ s.recallWait := by
    simp [State.openRecall, State.outstandingRecalls, State.sendSeq]
  unfold Sound
  rw [hout]
  refine h.withIds (ids := (s.recalls ++ [(⟨s.newRecallId, w, s.recallDeadline⟩ : Recall)]).map Recall.id) ?_
  rw [List.map_append, List.nodup_append]
  refine ⟨h.recallIds, by simp, ?_⟩
  intro a ha b hb
  obtain ⟨r, hm, rfl⟩ := List.mem_map.1 ha
  simp only [List.map_cons, List.map_nil, List.mem_singleton] at hb
  subst hb
  exact newRecallId_fresh s hr r hm

theorem askRecall_core : (s.askRecall w).view.core = s.view.core := by
  unfold State.askRecall
  split
  · rfl
  · split <;> rfl

theorem askRecall_sound (h : Sound s) (hc : s.view.core w.line = some c) (ht : c.Target w) : Sound (s.askRecall w) := by
  unfold State.askRecall
  split
  · exact h
  · rename_i hn
    have hn := recallOutstanding_false.1 (Bool.eq_false_iff.2 hn)
    have ha := Lawful.ask h hc ht hn
    split
    · refine openRecall_lawful ‹_› (ha.perm ?_)
      simp only [State.outstandingRecalls, List.append_assoc]
      exact List.Perm.append_left _ List.perm_append_comm
    · have : ({ s with recallWait := s.recallWait ++ [w] } : State).outstandingRecalls = s.outstandingRecalls ++ [w] := by
        simp [State.outstandingRecalls]
      unfold Sound
      rw [this]
      exact ha

/-- Recalls that all target holders may be asked one after another. -/
theorem askRecalls_sound {ws : List WaitingRecall} (h : Sound s)
    (ht : ∀ w ∈ ws, ∃ c, s.view.core w.line = some c ∧ c.Target w) : Sound (s.askRecalls ws) := by
  unfold State.askRecalls
  induction ws generalizing s with
  | nil => exact h
  | cons w ws ih =>
    obtain ⟨c, hc, hw⟩ := ht w (by simp)
    refine ih (askRecall_sound h hc hw) fun x hx => ?_
    rw [askRecall_core]
    exact ht x (by simp [hx])

theorem askRecalls_core {ws : List WaitingRecall} : (s.askRecalls ws).view.core = s.view.core := by
  unfold State.askRecalls
  induction ws generalizing s with
  | nil => rfl
  | cons w ws ih => exact ih.trans askRecall_core

theorem openWaiting_core : s.openWaiting.view.core = s.view.core := by
  unfold State.openWaiting
  split
  · split <;> rfl
  · rfl

theorem openWaiting_sound (h : Sound s) : Sound s.openWaiting := by
  unfold State.openWaiting
  split
  · split
    · exact h
    · rename_i w ws hw
      refine openRecall_lawful (s := { s with recallWait := ws }) ‹_› ?_
      have : s.outstandingRecalls = s.recalls.map (·.asked) ++ [w] ++ ws := by simp [State.outstandingRecalls, hw]
      have h' : Lawful s.view s.outstandingRecalls := h
      rw [this] at h'
      exact h'
  · exact h

theorem openAllWaiting_sound (n : Nat) (h : Sound s) : Sound (s.openAllWaiting n) := by
  induction n generalizing s with
  | zero => exact h
  | succ n ih => exact ih (openWaiting_sound h)

theorem openAllWaiting_core (n : Nat) : (s.openAllWaiting n).view.core = s.view.core := by
  induction n generalizing s with
  | zero => rfl
  | succ n ih => exact ih.trans openWaiting_core

/-- The recalls outstanding once those of a line to a port are gone. -/
def State.outWithout (s : State) (l : Line) (p : Port) : List WaitingRecall :=
  s.outstandingRecalls.filter fun w => !(w.line == l && w.port == p)

theorem removeRecall_core : (s.removeRecall l p).view.core = s.view.core := openWaiting_core

/-- A recall closes: the laws need hold of the others only. -/
theorem removeRecall_sound (h : Lawful s.view (s.outWithout l p)) : Sound (s.removeRecall l p) := by
  refine openWaiting_sound (Lawful.withIds (v := s.view) ?_ ?_)
  · have : ({ s with recalls := s.recalls.filter fun r => !(r.asked.line == l && r.asked.port == p)
                     recallWait := s.recallWait.filter fun w => !(w.line == l && w.port == p) } : State).outstandingRecalls =
        s.outWithout l p := by
      simp only [State.outstandingRecalls, State.outWithout, List.filter_append, List.filter_map]
      rfl
    rw [this]
    exact h
  · exact h.recallIds.sublist (List.filter_sublist.map _)

/-- Every recall to a port closes. -/
theorem closeRecallsTo_sound (h : Lawful s.view (s.outstandingRecalls.filter fun w => w.port != p)) :
    Sound (s.closeRecallsTo p) := by
  refine openAllWaiting_sound _ (Lawful.withIds (v := s.view) ?_ ?_)
  · have : ({ s with recalls := s.recalls.filter fun r => r.asked.port != p
                     recallWait := s.recallWait.filter fun w => w.port != p } : State).outstandingRecalls =
        s.outstandingRecalls.filter fun w => w.port != p := by
      simp only [State.outstandingRecalls, List.filter_append, List.filter_map]
      rfl
    rw [this]
    exact h
  · exact h.recallIds.sublist (List.filter_sublist.map _)

/-! ## The journal -/

variable {W : List WaitingRecall}

/-- Entries changed in place: lines, numbers and states stay, and what is not QUEUED stays whole. -/
theorem Grows.map {js : List JournalEntry} (f : JournalEntry → JournalEntry)
    (hl : ∀ k, (f k).line = k.line) (hq : ∀ k, (f k).seq = k.seq) (hs : ∀ k, (f k).state = k.state)
    (hk : ∀ k, k.state ≠ .queued → f k = k) : Grows js (js.map f) where
  line h := List.pairwise_map.2 (h.imp fun {a b} hab e => by
    rw [hl, hl] at e; rw [hs, hs]; exact hab e)
  seqs h := by rw [List.map_map]; exact (List.map_congr_left fun k _ => (hq k)) ▸ h
  keeps k hm hne := List.mem_map.2 ⟨k, hm, hk k hne⟩

theorem hasQueued_false (h : s.hasQueued l = false) : ∀ k ∈ s.journal, k.line = l → k.state ≠ .queued := by
  simp only [State.hasQueued, List.any_eq_false] at h
  intro k hk hl hs
  exact h k hk (by simp [hl, hs])

/-- What an insertion does to the view: the journal goes on (R83 to R85). -/
theorem insertJournal_view (d : LineData) (o : Origin) (hi : s.canInsert l = true) :
    ∃ js, (s.insertJournal l d o).view = { s.view with journal := js } ∧ Grows s.journal js := by
  unfold State.insertJournal
  split
  · refine ⟨_, rfl, Grows.map _ ?_ ?_ ?_ ?_⟩
    all_goals intro k
    · split <;> rfl
    · split <;> rfl
    · split <;> rfl
    · intro hk; simp [hk]
  · rename_i hq
    have hf : s.slotFree = true := by simpa [State.canInsert, hq] using hi
    refine ⟨_, (raiseHighWater_same _).view, ?_, ?_, ?_⟩
    · intro h
      refine List.pairwise_append.2 ⟨h, List.pairwise_singleton .., fun a ha b hb e => ?_⟩
      cases List.mem_singleton.1 hb
      exact ⟨hasQueued_false (by simpa using hq) a ha e, rfl⟩
    · intro h
      rw [List.map_append, List.nodup_append]
      refine ⟨h, by simp, fun a ha b hb => ?_⟩
      simp only [List.map_cons, List.map_nil, List.mem_singleton] at hb
      subst hb
      exact fun e => newSeq_fresh s hf (e ▸ ha)
    · exact fun k hk _ => List.mem_append_left _ hk

theorem insertJournal_out (d : LineData) (o : Origin) : (s.insertJournal l d o).outstandingRecalls = s.outstandingRecalls := by
  unfold State.insertJournal
  split
  · rfl
  · exact (raiseHighWater_same _).out

end Sys2Proof.Machine
end

