-- ==== Sys2Proof/Laws/LawfulService.lean ====
section
/-! SUPPORT. The laws of coherence for changes of an entry, the service of waiters and the closing of recalls. -/

namespace Sys2Proof.Machine

variable {s : State} {p : Port} {l : Line} {c : Core} {W : List WaitingRecall}

/-! ## Changes of an entry -/

theorem core_entry (h : s.view.core l = some c) : ∃ e, s.entry? l = some e ∧ e.core = c := Option.map_eq_some_iff.1 h

theorem entry_core {e : Entry} (h : s.entry? l = some e) : s.view.core l = some e.core := Option.map_eq_some_iff.2 ⟨e, h, rfl⟩

theorem setActivity_view (a : Activity) (h : s.view.core l = some c) :
    (s.setActivity l a).view = s.view.put l (some { c with activity := a }) := by
  obtain ⟨e, he, rfl⟩ := core_entry h
  exact updateEntry_view s l (fun y => { y with activity := a }) (fun _ => rfl) he

theorem setHolding_view (x : Holding) (h : s.view.core l = some c) :
    (s.setHolding l p x).view = s.view.put l (some { c with holdings := c.holdings.set p x }) := by
  obtain ⟨e, he, rfl⟩ := core_entry h
  exact updateEntry_view s l (fun y => { y with holdings := y.holdings.set p x }) (fun _ => rfl) he

theorem setCopy_view (x : HubCopy) (h : s.view.core l = some c) :
    (s.setCopy l x).view = s.view.put l (some { c with copy := x }) := by
  obtain ⟨e, he, rfl⟩ := core_entry h
  exact updateEntry_view s l (fun y => { y with copy := x }) (fun _ => rfl) he

theorem View.put_core (v : View) (x : Option Core) : (v.put l x).core l = x := by simp [View.put]

/-- An entry that no fill and no fault holds may change between IDLE, RECALLING and EVICTING (R4). -/
theorem setActivity_lawful (h : Lawful s.view W) (hc : s.view.core l = some c) (hf : c.activity ≠ .filling)
    (hh : c.activity ≠ .faultHeld) {a : Activity} (haf : a ≠ .filling) (hah : a ≠ .faultHeld) :
    Lawful (s.setActivity l a).view W := by
  rw [setActivity_view a hc]
  have ok := h.cores l c hc
  refine h.put ⟨ok.alone, ok.data, ?_⟩ (fun w hw hl => (h.target hc hw hl).of rfl) (fun r hr hl => ?_) (fun id hi => h.entries l c id hc hi)
    fun hl => absurd (h.fillJob hc hl) hf
  · constructor
    · exact fun e => absurd e (Lawful.notEmpty (c := c) ok hf hh)
    · rintro (e | e) <;> contradiction
  · obtain ⟨hi, hfit⟩ := h.named hc hr hl
    refine ⟨hi, ?_⟩
    unfold FaultRecord.Fits at hfit ⊢
    split at hfit
    · split at hfit <;> contradiction
    · trivial
    · exact hfit

/-- A holding may be granted, kept or taken where no other port stands in the way (R3). -/
theorem setHolding_lawful (h : Lawful s.view W) (hc : s.view.core l = some c) {x : Holding}
    (hd : x ≠ .none → c.copy.data?.isSome = true) (ho : x ≠ .none → ∀ q : Port, q ≠ p → c.holdings[q] ≠ .write)
    (hw : x = .write → ∀ q : Port, q ≠ p → c.holdings[q] = .none)
    (ht : ∀ w ∈ W, w.line = l → w.port = p → x ≠ .none ∧ (w.kind = .downgrade → x = .write)) :
    Lawful (s.setHolding l p x).view W := by
  rw [setHolding_view x hc]
  have ok := h.cores l c hc
  have get (q : Port) : (c.holdings.set p x)[q] = if q = p then x else c.holdings[q] := by
    by_cases e : q = p
    · subst e; simp
    · have : p.val ≠ q.val := fun e' => e (Fin.ext e'.symm)
      simp [this, e]
  refine h.put ⟨fun a b ha hb => ?_, fun a ha => ?_, ok.empty⟩ (fun w hm hl => ?_) (fun r hr hl => h.named hc hr hl)
    (fun id hi => h.entries l c id hc hi) fun hl => (h.fillJob hc hl : c.activity = _)
  · simp only [get] at ha ⊢
    by_cases ea : a = p
    · subst ea
      rw [if_pos rfl] at ha
      rw [if_neg hb]; exact hw ha b hb
    · rw [if_neg ea] at ha
      by_cases eb : b = p
      · rw [if_pos eb]; by_contra hx; exact ho hx a ea ha
      · rw [if_neg eb]; exact ok.alone a b ha hb
  · simp only [get] at ha
    by_cases ea : a = p
    · rw [if_pos ea] at ha; exact hd ha
    · rw [if_neg ea] at ha; exact ok.data a ha
  · have tg := h.target hc hm hl
    by_cases e : w.port = p
    · obtain ⟨h1, h2⟩ := ht w hm hl e
      refine ⟨?_, fun hk => ?_⟩ <;> simp only [get] <;> rw [if_pos e]
      · exact h1
      · exact h2 hk
    · refine ⟨?_, fun hk => ?_⟩ <;> simp only [get] <;> rw [if_neg e]
      · exact tg.holder
      · exact tg.writer hk

/-- What an insertion of a copy does to the view: the journal goes on, and the copy is CLEAN. -/
theorem insertCopy_view (d : LineData) (o : Origin) (hc : s.view.core l = some c) (hi : s.canInsert l = true) :
    ∃ js, (s.insertCopy l d o).view = { s.view.put l (some { c with copy := .clean d }) with journal := js } ∧
      Grows s.journal js := by
  obtain ⟨js, hv, hg⟩ := insertJournal_view d o hi
  refine ⟨js, ?_, hg⟩
  rw [State.insertCopy, (leaveSpace_same _ _).view, setCopy_view (c := c) _ (by rw [hv]; exact hc), hv]
  rfl

theorem insertCopy_out (d : LineData) (o : Origin) : (s.insertCopy l d o).outstandingRecalls = s.outstandingRecalls :=
  insertJournal_out d o

theorem View.put_put (v : View) (x y : Option Core) : (v.put l x).put l y = v.put l y := by
  simp only [View.put, View.mk.injEq, and_true]
  funext z; split <;> rfl

/-- What a copy's becoming DIRTY does to the view: the copy has data, and the journal may go on (R86). -/
theorem makeDirty_view (d : LineData) (o : Origin) (hc : s.view.core l = some c) :
    ∃ js x, (s.makeDirty l d o).view = { s.view.put l (some { c with copy := x }) with journal := js } ∧
      x.data?.isSome = true ∧ Grows s.journal js := by
  have hv := setCopy_view (.dirty d) hc
  have hstay : ∃ js x, (s.setCopy l (.dirty d)).view = { s.view.put l (some { c with copy := x }) with journal := js } ∧
      x.data?.isSome = true ∧ Grows s.journal js := ⟨s.journal, .dirty d, hv, rfl, id, id, fun _ h _ => h⟩
  unfold State.makeDirty
  dsimp only
  split
  · split
    · obtain ⟨js, hv', hg⟩ := insertCopy_view (s := s.setCopy l (.dirty d)) (c := { c with copy := .dirty d }) d o
        (by rw [hv]; exact View.put_core ..) ‹_›
      refine ⟨js, .clean d, ?_, rfl, hg⟩
      rw [hv', hv, View.put_put]
    · rw [(joinSpace_same _ _ _).view]; exact hstay
  · exact hstay

theorem makeDirty_out (d : LineData) (o : Origin) : (s.makeDirty l d o).outstandingRecalls = s.outstandingRecalls := by
  unfold State.makeDirty
  dsimp only
  split
  · split
    · exact insertCopy_out d o
    · exact (joinSpace_same _ _ _).out
  · rfl

/-- A copy with data may take other data, or change between CLEAN and DIRTY. -/
theorem Lawful.putCopy {v : View} (h : Lawful v W) (hc : v.core l = some c) (hd : c.copy.data?.isSome = true) {x : HubCopy}
    (hx : x.data?.isSome = true) : Lawful (v.put l (some { c with copy := x })) W := by
  have ok := h.cores l c hc
  refine h.put ⟨ok.alone, fun _ _ => hx, ?_⟩ (fun w hw hl => (h.target hc hw hl).of rfl)
    (fun r hr hl => absurd hl (h.unnamed hc hd r hr)) (fun id hi => h.entries l c id hc hi) fun hl => (h.fillJob hc hl : c.activity = _)
  rw [← ok.empty]
  constructor <;> intro e
  · simp only at e; simp [e, HubCopy.data?] at hx
  · simp [e, HubCopy.data?] at hd

theorem insertCopy_sound (d : LineData) (o : Origin) (h : Sound s) (hc : s.view.core l = some c)
    (hd : c.copy.data?.isSome = true) (hi : s.canInsert l = true) : Sound (s.insertCopy l d o) := by
  obtain ⟨js, hv, hg⟩ := insertCopy_view d o hc hi
  unfold Sound; rw [insertCopy_out, hv]
  exact (Lawful.putCopy h hc hd rfl).grows hg

/-- A copy with data becomes DIRTY, and in a WRITE_THROUGH region owed to the journal. -/
theorem makeDirty_lawful (d : LineData) (o : Origin) (h : Lawful s.view W) (hc : s.view.core l = some c)
    (hd : c.copy.data?.isSome = true) : Lawful (s.makeDirty l d o).view W := by
  obtain ⟨js, x, hv, hx, hg⟩ := makeDirty_view d o hc
  rw [hv]
  exact (h.putCopy hc hd hx).grows hg

theorem makeDirty_sound (d : LineData) (o : Origin) (h : Sound s) (hc : s.view.core l = some c)
    (hd : c.copy.data?.isSome = true) : Sound (s.makeDirty l d o) := by
  unfold Sound; rw [makeDirty_out]; exact makeDirty_lawful d o h hc hd

/-- A port's holding ends: the laws need hold of the recalls to other ports and lines only. -/
theorem setHolding_none (h : Sound s) (hc : s.view.core l = some c) :
    Lawful (s.setHolding l p .none).view (s.outWithout l p) := by
  refine setHolding_lawful (h.sub List.filter_sublist) hc (absurd rfl) (absurd rfl) nofun fun w hw hl hp => ?_
  have := (List.mem_filter.1 hw).2
  simp [hl, hp] at this

theorem outWithout_unasked (h : s.recallOutstanding l p = false) : s.outWithout l p = s.outstandingRecalls := by
  refine List.filter_eq_self.2 fun w hw => ?_
  have := recallOutstanding_false.1 h w hw
  simpa [imp_iff_not_or] using this

/-! ## Service -/

theorem serveDone_same (id : ReqId) (d : List Byte) : Same s (s.serveDone l id d) :=
  ((dropHead_same s l).trans (touch_same _ l)).trans (answer_same ..)

theorem excessRecall_target {a : Access} {x : Holding} {k : RecallKind} (h : excessRecall a x = some k) :
    x ≠ .none ∧ (k = .downgrade → x = .write) := by
  cases a <;> cases x <;> cases h <;> simp

theorem watchGrant_sound (h : Sound s) (hc : s.view.core l = some c) (hh : c.holdings[p] ≠ .none) :
    Sound (s.watchGrant l p) := by
  unfold State.watchGrant
  split
  · exact h
  · rename_i e he
    have hce := entry_core he
    cases hc.symm.trans hce
    dsimp only
    have close (t : State) (ht : Sound t) (htc : t.view.core = s.view.core) :
        Sound (if t.sessionState p = .closing then
          t.askRecall { line := l, port := p, kind := .invalidate, purpose := .close } else t) := by
      split
      · exact askRecall_sound ht (by rw [htc]; exact hce) ⟨hh, nofun⟩
      · exact ht
    split
    · rename_i k hk
      exact close _ (askRecall_sound h hce ⟨hh, (excessRecall_target hk).2⟩) askRecall_core
    · exact close s h rfl

/-- The port's own READ is dropped: the entry keeps its copy. -/
theorem dropOwnRead_sound (h : Sound s) (hc : s.view.core l = some c) :
    Sound (s.dropOwnRead l p) ∧ ∃ d, (s.dropOwnRead l p).view.core l = some d ∧ d.copy = c.copy := by
  have h1 := setHolding_none (p := p) h hc
  have hc1 : (s.setHolding l p .none).view.core l = some { c with holdings := c.holdings.set p .none } := by
    rw [setHolding_view _ hc]; exact View.put_core ..
  unfold State.dropOwnRead
  dsimp only
  split
  · refine ⟨removeRecall_sound (s := s.setHolding l p .none) h1, { c with holdings := c.holdings.set p .none }, ?_, rfl⟩
    rw [removeRecall_core]; exact hc1
  · rename_i hn
    refine ⟨?_, { c with holdings := c.holdings.set p .none }, hc1, rfl⟩
    have hu : s.outWithout l p = s.outstandingRecalls := outWithout_unasked (Bool.eq_false_iff.2 hn)
    rw [hu] at h1
    exact h1

theorem serveFlush_sound {e : Entry} (id : ReqId) (h : Sound s) (he : s.entry? l = some e) : Sound (s.serveFlush l e id).1 := by
  unfold State.serveFlush
  split
  · rename_i d hd
    have hc := entry_core he
    split
    · have hs : Sound (s.insertCopy l d .flush) :=
        insertCopy_sound d _ h hc (by simp [Entry.core, hd, HubCopy.data?]) ‹_›
      dsimp only
      split
      · exact ((dropHead_same _ l).trans (waitFlush_same _ _ _)).sound hs
      · exact hs
    · exact (joinSpace_same _ _ _).sound h
  · split
    · exact ((dropHead_same s l).trans (waitFlush_same _ _ _)).sound h
    · exact ((dropHead_same s l).trans (answer_same _ _ _ _)).sound h

/-- A grant: the holding, the reply, and the recall it may be watched for (R45 to R47). -/
theorem grant_sound (h : Sound s) (hc : s.view.core l = some c) (hd : c.copy.data?.isSome = true) {x : Holding}
    (hx : x ≠ .none) (ho : ∀ q : Port, q ≠ p → c.holdings[q] ≠ .write)
    (hw : x = .write → ∀ q : Port, q ≠ p → c.holdings[q] = .none)
    (hr : x = .read → c.holdings[p] = .none) (id : ReqId) (d : List Byte) :
    Sound (((s.setHolding l p x).serveDone l id d).watchGrant l p) := by
  have hs : Sound (s.setHolding l p x) := by
    refine setHolding_lawful h hc (fun _ => hd) (fun _ => ho) hw fun w hm hl hp => ⟨hx, fun _ => ?_⟩
    have tg := h.target hc hm hl
    cases x with
    | none => exact absurd rfl hx
    | read => exact absurd (hp ▸ hr rfl) tg.holder
    | write => rfl
  have sm := serveDone_same (s := s.setHolding l p x) (l := l) id d
  refine watchGrant_sound (c := { c with holdings := c.holdings.set p x }) (sm.sound hs) ?_ (by simpa using hx)
  rw [sm.view, setHolding_view x hc]
  exact View.put_core ..

/-- No other port stands in the way of a request that needs no recall (R42 to R47). -/
theorem recallsNeeded_nil {e : Entry} {k : Kind} (h : recallsNeeded e p k = []) :
    (k = .readWords ∨ k = .acquireRead ∨ k = .flush → ∀ q : Port, q ≠ p → e.holdings[q] ≠ .write) ∧
    (k = .writeWords ∨ k = .acquireWrite ∨ k = .upgrade → ∀ q : Port, q ≠ p → e.holdings[q] = .none) := by
  constructor
  · intro hk q hq hw
    have : ports.filter (fun x => x != p && e.holdings[x] == .write) = [] := by
      rcases hk with rfl | rfl | rfl <;> exact List.map_eq_nil_iff.1 h
    have := List.filter_eq_nil_iff.1 this q (mem_ports q)
    simp [-Fin.getElem_fin, hq, hw] at this
  · intro hk q hq
    have : ports.filter (fun x => x != p && e.holdings[x] != .none) = [] := by
      rcases hk with rfl | rfl | rfl <;> exact List.map_eq_nil_iff.1 h
    have := List.filter_eq_nil_iff.1 this q (mem_ports q)
    simpa [-Fin.getElem_fin, hq] using this

/-- The recalls a request needs target holders, a DOWNGRADE a WRITE holder. -/
theorem recallsNeeded_target {e : Entry} {k : Kind} {x : Port × RecallKind} (h : x ∈ recallsNeeded e p k) :
    e.holdings[x.1] ≠ .none ∧ (x.2 = .downgrade → e.holdings[x.1] = .write) := by
  unfold recallsNeeded at h
  split at h
  case h_7 => cases h
  all_goals
    simp only [List.mem_map, List.mem_filter, Bool.and_eq_true, bne_iff_ne, ne_eq, beq_iff_eq] at h
    obtain ⟨q, ⟨-, -, hq⟩, rfl⟩ := h
    first
      | exact ⟨by rw [hq]; simp, fun _ => hq⟩
      | exact ⟨hq, nofun⟩

theorem recallsFor_target {u : Purpose} {xs : List (Port × RecallKind)} (hc : s.view.core l = some c)
    (h : ∀ x ∈ xs, c.holdings[x.1] ≠ .none ∧ (x.2 = .downgrade → c.holdings[x.1] = .write)) :
    ∀ w ∈ recallsFor l u xs, ∃ d, s.view.core w.line = some d ∧ d.Target w := by
  intro w hw
  obtain ⟨x, hx, rfl⟩ := List.mem_map.1 hw
  exact ⟨c, hc, (h x hx).1, (h x hx).2⟩

theorem serveReq_sound {e : Entry} {q : Request} (h : Sound s) (he : s.entry? l = some e) (hi : e.activity = .idle)
    (hp : e.copy ≠ .poisoned) (hk : s.checkHolding q.id.port q.req.kind l = none)
    (hn : recallsNeeded e q.id.port q.req.kind = []) : Sound (s.serveReq l e q).1 := by
  have hc := entry_core he
  have ok := h.cores l _ hc
  have hd : e.core.copy.data?.isSome = true := by
    have hne : e.copy ≠ .empty := Lawful.notEmpty ok (by simp [Entry.core, hi]) (by simp [Entry.core, hi])
    show e.copy.data?.isSome = true
    cases hcp : e.copy <;> simp_all [HubCopy.data?]
  have hh : s.holding l q.id.port = e.holdings[q.id.port] := by simp [State.holding, he]
  obtain ⟨hnr, hnw⟩ := recallsNeeded_nil hn
  unfold State.serveReq
  dsimp only
  split
  · exact (serveDone_same _ _).sound h
  · refine (serveDone_same _ _).sound ?_
    split
    · obtain ⟨hs, d, hcd, hcp⟩ := dropOwnRead_sound (p := q.id.port) h hc
      exact makeDirty_sound _ _ hs hcd (by rw [hcp]; exact hd)
    · exact makeDirty_sound _ _ h hc hd
  · rename_i hr
    rw [hr] at hnr hk
    refine grant_sound (x := .read) h hc hd (by simp) (hnr (by simp [Req.kind])) nofun (fun _ => ?_) _ _
    simp only [State.checkHolding, Req.kind, holdingCheck, hh] at hk
    by_contra hx
    rw [if_pos (show e.holdings[q.id.port] ≠ .none from hx)] at hk
    cases hk
  · rename_i hr
    rw [hr] at hnw
    have := hnw (by simp [Req.kind])
    exact grant_sound (x := .write) h hc hd (by simp) (fun q hq => by rw [show e.core.holdings[q] = _ from this q hq]; simp) (fun _ => this) nofun _ _
  · rename_i hr
    rw [hr] at hnw
    have := hnw (by simp [Req.kind])
    exact grant_sound (x := .write) h hc hd (by simp) (fun q hq => by rw [show e.core.holdings[q] = _ from this q hq]; simp) (fun _ => this) nofun _ _
  · exact serveFlush_sound _ h he
  · exact h

theorem serveHead_sound (h : Sound s) : Sound (s.serveHead l).1 := by
  unfold State.serveHead
  split
  · exact h
  · rename_i e he
    have hc := entry_core he
    split
    · exact h
    · rename_i hi
      have hi : e.activity = .idle := by simpa using hi
      split
      · exact h
      · split
        · exact (dropHead_same s l).sound h
        · rename_i id _ q hq
          split
          · exact ((dropHead_same s l).trans (answer_same _ _ _ _)).sound h
          · rename_i hck
            split
            · rename_i hn
              have hid := request?_own hq
              rw [State.checkLine, Option.or_eq_none_iff] at hck
              refine serveReq_sound h he hi (fun hp => ?_) (by rw [hid]; exact hck.1) (by rw [hid]; exact hn)
              have := hck.2
              simp [State.checkPoison, he, Entry.poisoned, hp] at this
            · rename_i hn
              have h1 : Sound (s.setActivity l .recalling) :=
                setActivity_lawful h hc (by simp [Entry.core, hi]) (by simp [Entry.core, hi]) (by simp) (by simp)
              refine askRecalls_sound h1 (recallsFor_target (c := { e.core with activity := .recalling }) ?_ fun x hx => ?_)
              · rw [setActivity_view _ hc]; exact View.put_core ..
              · exact recallsNeeded_target hx

theorem serviceLoop_sound (n : Nat) (h : Sound s) : Sound (State.serviceLoop l n s) := by
  induction n generalizing s with
  | zero => exact h
  | succ n ih =>
    have hs := serveHead_sound (l := l) h
    unfold State.serviceLoop
    split <;> rename_i t he <;> rw [he] at hs
    · exact ih hs
    · exact hs

theorem service_sound (h : Sound s) : Sound (s.service l) := by
  unfold State.service
  split
  · exact serviceLoop_sound _ h
  · exact h

/-! ## The closing of a recall -/

theorem askEvict_sound {e : Entry} (h : Sound s) (hc : s.view.core l = some c) (hh : c.holdings = e.holdings) :
    Sound (s.askEvict l e) := by
  refine askRecalls_sound h (recallsFor_target hc fun x hx => ?_)
  simp only [List.mem_map, List.mem_filter, bne_iff_ne, ne_eq] at hx
  obtain ⟨q, ⟨-, hq⟩, rfl⟩ := hx
  exact ⟨by rw [hh]; exact hq, nofun⟩

theorem finishEviction_sound {e : Entry} (h : Sound s) (he : s.entry? l = some e) (ha : e.activity = .evicting) :
    Sound (s.finishEviction l e) := by
  have hc := entry_core he
  have hi : Sound (s.setActivity l .idle) :=
    setActivity_lawful h hc (by simp [Entry.core, ha]) (by simp [Entry.core, ha]) (by simp) (by simp)
  unfold State.finishEviction
  split
  · exact service_sound hi
  · split
    · exact hi
    · split
      · exact askEvict_sound h hc rfl
      · exact hi

theorem tellLineTable_sound (h : Sound s) : Sound (s.tellLineTable l) := by
  unfold State.tellLineTable
  split
  · exact h
  · split
    · exact h
    · rename_i e he
      split
      · rename_i ha
        exact service_sound (setActivity_lawful h (entry_core he) (by simp [Entry.core, ha]) (by simp [Entry.core, ha]) (by simp) (by simp))
      · exact finishEviction_sound h he ‹_›
      · exact h

theorem tellRegionTable_sound (h : Sound s) : Sound (s.tellRegionTable l p) := by
  unfold State.tellRegionTable
  split
  · rename_i he
    split
    · split
      · rename_i hk
        exact askRecall_sound h (entry_core he) ⟨(excessRecall_target hk).1, (excessRecall_target hk).2⟩
      · exact h
    · exact h
  · exact h

theorem tellSession_sound (h : Sound s) : Sound (s.tellSession l p) := by
  unfold State.tellSession
  split
  · rename_i hh
    have hh := hh.2
    unfold State.holding at hh
    split at hh
    · rename_i e he
      exact askRecall_sound h (entry_core he) ⟨hh, nofun⟩
    · exact absurd rfl hh
  · exact h

/-- A recall closes, once the target's holding is what its end leaves. -/
theorem closeRecall_sound (h : Lawful s.view (s.outWithout l p)) : Sound (s.closeRecall l p) :=
  tellSession_sound (tellRegionTable_sound (tellLineTable_sound (removeRecall_sound h)))

end Sys2Proof.Machine
end

