-- ==== Sys2Proof/Laws/LawfulFlow.lean ====
section
/-! SUPPORT. The laws of coherence for the port, fault records, allocation, the end of a step and revocation. -/

namespace Sys2Proof.Machine

variable {s : State} {p : Port} {l : Line} {c : Core} {W : List WaitingRecall}

/-! ## The backing store port -/

/-- A FILL job is asked for, for an entry that has become FILLING. -/
theorem Lawful.addFill {v : View} (h : Lawful v W) (hn : l ∉ v.fillJobs) (hc : v.core l = some c) (ha : c.activity = .filling) :
    Lawful { v with fillJobs := v.fillJobs ++ [l] } W :=
  { h with
    fills := by
      rw [List.nodup_append]
      exact ⟨h.fills, by simp, fun a ha b hb e => hn (by cases List.mem_singleton.1 hb; exact e ▸ ha)⟩
    filling := fun x hx => by
      rcases List.mem_append.1 hx with hx | hx
      · exact h.filling x hx
      · cases List.mem_singleton.1 hx; exact ⟨c, hc, ha⟩ }

/-- The view once a FILL is asked for that was not asked for. -/
theorem askFill_view (hn : l ∉ s.fillJobs) : (s.askFill l).view = { s.view with fillJobs := s.fillJobs ++ [l] } := by
  have : s.fillQueue.contains l = false := by
    simpa using fun e => hn (List.mem_append_right _ e)
  unfold State.askFill
  simp only [this, Bool.false_eq_true, if_false]
  exact View.mk.injEq .. |>.mpr ⟨rfl, rfl, rfl, (List.append_assoc ..).symm, rfl, rfl, rfl, rfl⟩

theorem askFill_out : (s.askFill l).outstandingRecalls = s.outstandingRecalls := by
  unfold State.askFill; split <;> rfl

/-- The job in flight changes, but not whose it is, nor its line. -/
theorem job_same {j k : Job} {bus : Bus} (hj : s.job = some j) (ho : k.owner = j.owner) (hl : k.line = j.line) :
    Same s { s with job := some k, bus := bus } := by
  refine ⟨?_, rfl⟩
  simp only [State.view, State.fillJobs, State.draining?, hj, ho, hl, View.mk.injEq, and_true]
  rfl

theorem beginAccess_same {j k : Job} (hj : s.job = some j) (ho : k.owner = j.owner) (hl : k.line = j.line) :
    Same s (s.beginAccess k) := by
  unfold State.beginAccess
  split <;> exact job_same hj ho hl

/-- The lines of FILL jobs and the DRAIN in flight, once a job of this owner and line is begun in an idle port. -/
theorem beginAccess_view (k : Job) : (s.beginAccess k).view =
    { s.view with
      fillJobs := (match k.owner with
        | .fill => [k.line]
        | .drain _ | .direct _ _ _ => []) ++ s.fillQueue
      draining := match k.owner with
        | .drain q => some q
        | _ => none } := by
  unfold State.beginAccess
  split <;> rfl

theorem beginAccess_out (k : Job) : (s.beginAccess k).outstandingRecalls = s.outstandingRecalls := by
  unfold State.beginAccess
  split <;> rfl

theorem grantFill_same {ls : List Line} (hj : s.job = none) (hq : s.fillQueue = l :: ls) : Same s (s.grantFill l) := by
  unfold State.grantFill
  have hc : ({ s with fillQueue := s.fillQueue.tail } : State).countPass.fillQueue = ls := by
    unfold State.countPass; rw [hq]; split <;> rfl
  refine ⟨?_, ?_⟩
  · rw [beginAccess_view, hc, (countPass_same _).view]
    simp only [newJob, State.view, State.fillJobs, State.draining?, hj, hq, View.mk.injEq, List.nil_append, List.singleton_append,
      and_true]
    rfl
  · rw [beginAccess_out, (countPass_same _).out]; rfl

theorem grantDirect_same (d : DirectJob) (hj : s.job = none) : Same s (s.grantDirect d) := by
  unfold State.grantDirect
  refine ⟨?_, by rw [beginAccess_out]; rfl⟩
  rw [beginAccess_view]
  simp only [newJob, State.view, State.fillJobs, State.draining?, hj, View.mk.injEq, List.nil_append, and_true]
  rfl

/-- The journal's choice is a retried entry that waits, or an eligible one (R90). -/
theorem drainChoice_some {j : JournalEntry} (h : s.drainChoice = some j) :
    j ∈ s.journal ∧ (s.retryWaiting j = true ∨ s.eligible j = true) := by
  unfold State.drainChoice at h
  split at h
  · cases h
    rename_i hf
    exact ⟨List.mem_of_find?_eq_some hf, .inl (List.find?_some hf)⟩
  · exact ⟨List.mem_of_find?_eq_some h, .inr (List.find?_some h)⟩

theorem seq_inj {v : View} (h : Lawful v W) {a b : JournalEntry} (ha : a ∈ v.journal) (hb : b ∈ v.journal)
    (e : a.seq = b.seq) : a = b := List.inj_on_of_nodup_map h.seqs ha hb e

theorem grantDrain_sound {j : JournalEntry} (h : Sound s) (hj : s.job = none) (hc : s.drainChoice = some j) :
    Sound (s.grantDrain j) := by
  obtain ⟨hm, hch⟩ := drainChoice_some hc
  have hd : s.view.draining = none := by simp [State.view, State.draining?, hj]
  have h1 : Lawful { s.view with journal := s.view.journal.map fun k => if k.seq == j.seq then { k with state := .writing } else k } s.outstandingRecalls := by
    refine Lawful.setEntry h (g := fun k => { k with state := .writing }) (fun _ => rfl) (fun _ => rfl) (fun _ => by simp)
      (fun k hk e hq x hx hl => ?_) (fun e => by rw [hd] at e; cases e) fun r hr hq => ?_
    · cases seq_inj h hk hm e
      rcases hch with hch | hch
      · simp [State.retryWaiting, hq] at hch
      · simp only [State.eligible, Bool.and_eq_true, Bool.not_eq_true', List.any_eq_false] at hch
        have := hch.2 x hx
        simpa [hl] using this
    · obtain ⟨k, hk, e, hdr⟩ := h.drains r hr _ hq
      cases seq_inj h hk hm e
      refine ⟨j, hm, rfl, ?_⟩
      rcases hch with hch | hch
      · simp only [State.retryWaiting, Bool.and_eq_true, beq_iff_eq] at hch
        rcases hdr with hf | ⟨_, ho, hr⟩
        · rw [hch.1.1] at hf; cases hf
        · exact .inr ⟨rfl, ho, hr⟩
      · simp only [State.eligible, Bool.and_eq_true, beq_iff_eq] at hch
        rcases hdr with hf | ⟨hf, -⟩ <;> rw [hch.1] at hf <;> cases hf
  unfold Sound State.grantDrain
  dsimp only
  rw [beginAccess_out, beginAccess_view, (countPass_same _).out, (countPass_same _).view]
  have hfq : ({ s with journal := s.journal.map fun k => if k.seq == j.seq then { k with state := .writing } else k } : State).countPass.fillQueue = s.fillQueue := by
    unfold State.countPass; split <;> rfl
  rw [hfq]
  have hfj : s.view.fillJobs = s.fillQueue := by simp [State.view, State.fillJobs, hj]
  have h2 : Lawful { s.view with journal := s.view.journal.map fun k => if k.seq == j.seq then { k with state := .writing } else k
                                 draining := some j.seq } s.outstandingRecalls :=
    { h1 with
      draining := fun q hq => by
        cases hq
        exact ⟨{ j with state := .writing }, List.mem_map.2 ⟨j, hm, by simp⟩, rfl, rfl⟩ }
  rw [← hfj]
  exact h2

theorem arbitrate_sound (h : Sound s) : Sound s.arbitrate := by
  unfold State.arbitrate
  split
  · exact h
  · rename_i hj
    have hj : s.job = none := by simpa using hj
    have choice (g : Grant) (hg : s.arbiterChoice = some g) :
        (some g = s.oldestFill ∨ some g = s.drainGrant ∨ some g = s.oldestDirect ∨ ∃ d, g = .direct d) := by
      unfold State.arbiterChoice at hg
      split at hg
      · obtain ⟨d, -, rfl⟩ := Option.map_eq_some_iff.1 hg
        exact .inr (.inr (.inr ⟨d, rfl⟩))
      · split at hg
        · exact .inr (.inr (.inl hg.symm))
        · split at hg
          all_goals
            simp only [Option.or_eq_some_iff] at hg
            rcases hg with hg | ⟨-, hg | ⟨-, hg⟩⟩ <;> simp [hg]
    split
    · exact h
    · rename_i x hg
      have hx : s.fillQueue.head? = some x := by
        rcases choice _ hg with e | e | e | ⟨d, e⟩
        · obtain ⟨y, hy, e⟩ := Option.map_eq_some_iff.1 e.symm; cases e; exact hy
        · unfold State.drainGrant at e; split at e
          · obtain ⟨y, hy, e⟩ := Option.map_eq_some_iff.1 e.symm; cases e
          · cases e
        · obtain ⟨y, hy, e⟩ := Option.map_eq_some_iff.1 e.symm; cases e
        · cases e
      obtain ⟨ls, hq⟩ := List.head?_eq_some_iff.1 hx
      exact (grantFill_same hj hq).sound h
    · rename_i x hg
      have hx : s.drainChoice = some x := by
        rcases choice _ hg with e | e | e | ⟨d, e⟩
        · obtain ⟨y, hy, e⟩ := Option.map_eq_some_iff.1 e.symm; cases e
        · unfold State.drainGrant at e; split at e
          · obtain ⟨y, hy, e⟩ := Option.map_eq_some_iff.1 e.symm; cases e; exact hy
          · cases e
        · obtain ⟨y, hy, e⟩ := Option.map_eq_some_iff.1 e.symm; cases e
        · cases e
      exact grantDrain_sound h hj hx
    · exact (grantDirect_same _ hj).sound h

/-! ## Allocation -/

/-- A new entry that nobody holds and no record knows. -/
theorem Lawful.place {v : View} (h : Lawful v W) (ha : v.core l = none) (hok : c.Ok) (hr : c.recordId = none) :
    Lawful (v.put l (some c)) W := by
  obtain ⟨h1, h2, h3⟩ := h.absent ha
  exact h.put hok (fun w hw e => absurd e (h1 w hw)) (fun r hm hl => absurd hl (h2 r hm)) (fun id hi => by rw [hr] at hi; cases hi)
    fun hl => absurd hl h3

theorem unheld_ok {copy : HubCopy} {a : Activity} {id : Option Byte} (he : copy = .empty ↔ a = .filling ∨ a = .faultHeld) :
    (⟨copy, Vector.replicate 4 .none, a, id⟩ : Core).Ok :=
  ⟨fun p q h _ => by simp at h, fun p h => by simp at h, he⟩

theorem createEntry_sound {w : Option Request} (h : Sound s) (ha : s.entry? l = none) : Sound (s.createEntry l w) := by
  have hc : s.view.core l = none := by simp [State.view, ha]
  unfold State.createEntry
  dsimp only
  split
  · rename_i d _
    refine service_sound ?_
    have hv : (s.placeEntry { s.freshEntry l w with activity := .idle }).view =
        s.view.put l (some ⟨.empty, Vector.replicate 4 .none, .idle, none⟩) := placeEntry_view s _ ha
    have ho : (s.placeEntry { s.freshEntry l w with activity := .idle }).outstandingRecalls = s.outstandingRecalls := rfl
    have hjr : (s.placeEntry { s.freshEntry l w with activity := .idle }).journal = s.journal := rfl
    generalize s.placeEntry { s.freshEntry l w with activity := .idle } = t at hv ho hjr
    have hcp : t.view.core l = some ⟨.empty, Vector.replicate 4 .none, .idle, none⟩ := by
      rw [hv]; exact View.put_core ..
    obtain ⟨js, x, hm, hx, hg⟩ := makeDirty_view d .through hcp
    rw [hjr] at hg
    unfold Sound
    rw [makeDirty_out, hm, ho, hv, View.put_put]
    refine Lawful.grows (v := s.view.put l _) (h.place hc (unheld_ok ?_) rfl) hg
    constructor
    · rintro rfl; cases hx
    · rintro (e | e) <;> cases e
  · split
    · refine service_sound ?_
      unfold Sound
      rw [placeEntry_view s _ ha]
      refine Lawful.place h hc (unheld_ok ?_) rfl
      simp
    · obtain ⟨-, -, hf⟩ := Lawful.absent h hc
      unfold Sound
      have hfp : l ∉ (s.placeEntry (s.freshEntry l w)).fillJobs := hf
      rw [askFill_out, askFill_view hfp]
      refine Lawful.addFill (v := (s.placeEntry (s.freshEntry l w)).view) ?_ hfp
        (c := ⟨.empty, Vector.replicate 4 .none, .filling, none⟩) ?_ rfl
      · rw [placeEntry_view s _ ha]
        exact Lawful.place h hc (unheld_ok ⟨fun _ => .inl rfl, fun _ => rfl⟩) rfl
      · rw [placeEntry_view s _ ha]; exact View.put_core ..

theorem notHeld {e : Entry} (h : e.held = false) (p : Port) : e.holdings[p] = .none := by
  have := List.any_eq_false.1 h p (mem_ports p)
  simpa using this

/-- An entry that nobody holds, with data and no work in progress, may go. -/
theorem removeEntry_lawful (h : Lawful s.view W) (hc : s.view.core l = some c) (hd : c.copy.data?.isSome = true)
    (ha : c.activity ≠ .filling) (hn : ∀ p : Port, c.holdings[p] = .none) : Lawful (s.removeEntry l).view W := by
  rw [removeEntry_view]
  exact h.drop (h.unrecalled hc hn) (h.unnamed hc hd) (h.unfilled hc ha)

theorem removeVictim_sound {e : Entry} (h : Sound s) (hv : s.victim = .take e) (hn : (s.table.map Entry.line).Nodup) :
    Sound (s.removeVictim e) := by
  obtain ⟨hm, hcand, hj⟩ := victim_take hv
  have he : s.entry? e.line = some e := by
    cases hf : s.entry? e.line with
    | none => exact absurd rfl (entry?_none.1 hf e hm)
    | some x =>
      obtain ⟨hx, hl⟩ := entry?_some hf
      rw [List.inj_on_of_nodup_map hn hx hm hl]
  have hc := entry_core he
  simp only [Entry.candidate, Bool.and_eq_true, beq_iff_eq, Bool.not_eq_true'] at hcand
  obtain ⟨⟨⟨hi, hh⟩, -⟩, hd⟩ := hcand
  have ha : e.core.activity ≠ .filling := by simp [Entry.core, hi]
  unfold State.removeVictim
  split
  · rename_i d hcp
    have hins : s.canInsert e.line = true := by
      rcases hj with hj | hj
      · simp [hcp, HubCopy.isClean] at hj
      · exact hj
    obtain ⟨js, hv, hg⟩ := insertJournal_view d .evict hins
    have : Lawful (s.insertJournal e.line d .evict).view s.outstandingRecalls := by rw [hv]; exact Lawful.grows h hg
    unfold Sound
    rw [show (State.removeEntry (s.insertJournal e.line d .evict) e.line).outstandingRecalls = s.outstandingRecalls from insertJournal_out d .evict]
    exact removeEntry_lawful this (by rw [hv]; exact hc) hd ha (notHeld hh)
  · exact removeEntry_lawful h hc hd ha (notHeld hh)

theorem evict_sound {e : Entry} (h : Sound s) (he : s.entry? e.line = some e) (hi : e.activity = .idle) : Sound (s.evict e) := by
  have hc := entry_core he
  refine askEvict_sound (c := { e.core with activity := .evicting }) ?_ ?_ rfl
  · exact setActivity_lawful h hc (by simp [Entry.core, hi]) (by simp [Entry.core, hi]) (by simp) (by simp)
  · rw [setActivity_view _ hc]; exact View.put_core ..

theorem entry?_mem {e : Entry} (hn : (s.table.map Entry.line).Nodup) (hm : e ∈ s.table) : s.entry? e.line = some e := by
  cases hf : s.entry? e.line with
  | none => exact absurd rfl (entry?_none.1 hf e hm)
  | some x =>
    obtain ⟨hx, hl⟩ := entry?_some hf
    rw [List.inj_on_of_nodup_map hn hx hm hl]

theorem examineAlloc_sound (h : Sound s) (hn : (s.table.map Entry.line).Nodup) : Sound s.examineAlloc.1 := by
  unfold State.examineAlloc
  split
  · exact h
  · have hp := (popAlloc_same s).sound h
    split
    · exact hp
    · split
      · exact hp
      · split
        · exact service_sound ((joinWaiters_same _ _ _).sound hp)
        · rename_i hne
          have ha : s.popAlloc.entry? _ = none := Option.not_isSome_iff_eq_none.1 hne
          split
          · exact createEntry_sound hp ha
          · split
            · rename_i hv
              exact createEntry_sound (removeVictim_sound (s := s.popAlloc) hp hv hn) (removeVictim_absent _ _ _ ha)
            · exact (joinSpaceHead_same s).sound h
            · split
              · exact h
              · split
                · rename_i e he
                  have hm := List.mem_reverse.1 (List.mem_of_find?_eq_some he)
                  have hev := List.find?_some he
                  simp only [Entry.evictable, Bool.and_eq_true, beq_iff_eq] at hev
                  exact evict_sound h (entry?_mem hn hm) hev.1.1
                · split
                  · exact (answer_same _ _ _ _).sound hp
                  · exact h

/-- A state in which no line is in the table twice and the laws of coherence hold. -/
structure Good (s : State) : Prop where
  tables : TablesOk s
  sound  : Sound s

theorem Good.of {d f : Prop} {t : State} (h : Good s) (k : KeepsIf True d f s t) (hs : Sound t) : Good t := ⟨k.tables trivial h.tables, hs⟩

theorem allocLoop_good (n : Nat) (h : Good s) : Good (State.allocLoop n s) := by
  induction n generalizing s with
  | zero => exact h
  | succ n ih =>
    have hs := h.of (examineAlloc_keeps s) (examineAlloc_sound h.sound h.tables.lines)
    unfold State.allocLoop
    split <;> rename_i t he <;> rw [he] at hs
    · exact ih hs
    · exact hs

theorem serveAlloc_good (h : Good s) : Good s.serveAlloc := allocLoop_good _ h

theorem enterLine_sound {id : ReqId} (h : Sound s) : Sound (s.enterLine l id) := by
  unfold State.enterLine
  split
  · exact service_sound ((joinWaiters_same _ _ _).sound h)
  · exact (Same.plain s).sound h

theorem serveSpaceLine_sound (o : Origin) (hf : s.slotFree = true) (h : Sound s) : Sound (s.serveSpaceLine l o) := by
  unfold State.serveSpaceLine
  split
  · rename_i e he
    split
    · rename_i d hd
      have hi : s.canInsert l = true := by simp [State.canInsert, hf]
      have hs : Sound (s.insertCopy l d o) := insertCopy_sound d o h (entry_core he) (by simp [Entry.core, hd, HubCopy.data?]) hi
      dsimp only
      split
      · exact service_sound hs
      · exact hs
    · exact h
  · exact h

theorem spaceLoop_good (n : Nat) (h : Good s) : Good (State.spaceLoop n s) := by
  induction n generalizing s with
  | zero => exact h
  | succ n ih =>
    unfold State.spaceLoop
    split
    · rename_i hf
      split
      · exact h
      · rename_i rest _
        have h1 : Good { s with jspace := rest } := h.of (Keeps.plain s) ((Same.plain s).sound h.sound)
        exact ih (h1.of (serveSpaceLine_keeps _ _ _ hf) (serveSpaceLine_sound _ hf h1.sound))
      · rename_i rest _
        exact ih (serveAlloc_good (h.of (Keeps.plain s) ((Same.plain s).sound h.sound)))
    · exact h

/-- The end of a step keeps the laws of coherence. -/
theorem settle_good (before : State) (h : Good s) : Good (s.settle before) := by
  have h1 : Good s.serveSpace := spaceLoop_good _ h
  have h2 : Good (s.serveSpace.rouseHead before) := by
    unfold State.rouseHead
    split
    · exact serveAlloc_good h1
    · exact h1
  have h3 := h2.of (arbitrate_keeps _) (arbitrate_sound h2.sound)
  exact h3.of (complete_keeps _) ((complete_same _).sound h3.sound)

theorem prefetchEntry_sound {t : State} (h : Good s) (ht : s.prefetchEntry l = some t) (ha : s.entry? l = none) : Sound t := by
  unfold State.prefetchEntry at ht
  split at ht
  · cases ht
  · split at ht
    · cases ht; exact createEntry_sound h.sound ha
    · split at ht
      · cases ht
        exact createEntry_sound (removeVictim_sound h.sound ‹_› h.tables.lines) (removeVictim_absent _ _ _ ha)
      · cases ht

end Sys2Proof.Machine
end

