-- ==== Sys2Proof/Laws/LawfulFaults.lean ====
section
/-! SUPPORT. The laws of coherence for the outcomes of jobs, the creation of fault records and their resolution. -/

namespace Sys2Proof.Machine

variable {s : State} {p : Port} {l : Line} {c : Core} {W : List WaitingRecall}

/-! ## Records -/

/-- A record is created for entries that have been marked with its id, and for a journal entry that is FAULTED. -/
theorem createRecord_lawful {body : RecordBody} {v : View} {core : Line → Option Core} (hv : s.view = { v with core := core })
    (h : Lawful v W) (hm : s.mode = .running) (hout : ∀ x, x ∉ body.lines → core x = v.core x)
    (hin : ∀ x ∈ body.lines, (∀ y ∈ v.records, x ∉ y.body.lines) ∧ x ∉ v.fillJobs ∧
      (∀ w ∈ W, w.line ≠ x) ∧ ∃ c, core x = some c ∧ c.Ok ∧ c.recordId = some s.newRecordId ∧
        (⟨s.newRecordId, .posted, s.hubTime, body⟩ : FaultRecord).Fits c.activity c.copy)
    (hseq : ∀ q, body.seq? = some q → (∃ k ∈ v.journal, k.seq = q ∧ k.state = .faulted) ∧
      ∀ y ∈ v.records, y.body.seq? ≠ some q) : Lawful (s.createRecord body).view W := by
  have hq : s.faultQueue = v.queue := congrArg View.queue hv
  have hrec : s.view.records = v.records := by rw [hv]; rfl
  have hmv : v.mode = .running := (congrArg View.mode hv).symm.trans hm
  obtain ⟨h1, h2⟩ := h.create (r := ⟨s.newRecordId, .posted, s.hubTime, body⟩)
    (fun x hx => newRecordId_fresh s (by rw [hq]; exact h.room) x (hrec ▸ hx)) rfl hmv core hout hin hseq
  unfold State.createRecord
  dsimp only
  split
  · rename_i hl
    rw [(postFaultPosted_same _).view]
    have : ({ s with recordCounter := nextRecordId s.newRecordId, faultQueue := s.faultQueue ++ [⟨s.newRecordId, .posted, s.hubTime, body⟩] } : State).view =
        { s.view with queue := s.faultQueue ++ [⟨s.newRecordId, .posted, s.hubTime, body⟩] } := rfl
    rw [this, hv, hq]
    exact h1 (hq ▸ hl)
  · rw [(postAll_same _ _).view]
    have : ({ s with recordCounter := nextRecordId s.newRecordId, stopRecord := some ⟨s.newRecordId, .posted, s.hubTime, body⟩, mode := .stopped, stopOut := true } : State).view =
        { s.view with stop := some ⟨s.newRecordId, .posted, s.hubTime, body⟩, mode := .stopped } := rfl
    rw [this, hv]
    exact h2

theorem createRecord_out (b : RecordBody) : (s.createRecord b).outstandingRecalls = s.outstandingRecalls := by
  unfold State.createRecord
  dsimp only
  split
  · exact (postFaultPosted_same _).out
  · exact (postAll_same _ _).out

theorem createRecord_sound {body : RecordBody} {v : View} {core : Line → Option Core} (hv : s.view = { v with core := core })
    (h : Lawful v s.outstandingRecalls) (hm : s.mode = .running) (hout : ∀ x, x ∉ body.lines → core x = v.core x)
    (hin : ∀ x ∈ body.lines, (∀ y ∈ v.records, x ∉ y.body.lines) ∧ x ∉ v.fillJobs ∧
      (∀ w ∈ s.outstandingRecalls, w.line ≠ x) ∧ ∃ c, core x = some c ∧ c.Ok ∧ c.recordId = some s.newRecordId ∧
        (⟨s.newRecordId, .posted, s.hubTime, body⟩ : FaultRecord).Fits c.activity c.copy)
    (hseq : ∀ q, body.seq? = some q → (∃ k ∈ v.journal, k.seq = q ∧ k.state = .faulted) ∧
      ∀ y ∈ v.records, y.body.seq? ≠ some q) : Sound (s.createRecord body) := by
  unfold Sound
  rw [createRecord_out]
  exact createRecord_lawful hv h hm hout hin hseq

theorem retireRecord_view (id : Byte) : (s.retireRecord id).view =
    { s.view with queue := s.view.queue.filterMap fun x => if x.id = id then none else some x } := by
  rw [Lawful.filterMap_retire]; rfl

theorem updateRecord_view (h : Lawful s.view W) {r : FaultRecord} (hr : r ∈ s.faultQueue) (f : FaultRecord → FaultRecord) :
    (s.updateRecord r.id f).view =
      { s.view with queue := s.view.queue.filterMap fun x => if x.id = r.id then some (f r) else some x } := by
  rw [h.filterMap_change hr f]; rfl

/-- The record of an entry that is FILLING is a FILL_FAULT of the queue for that line alone. -/
theorem Lawful.fillingRecord {v : View} (h : Lawful v W) (hc : v.core l = some c) (ha : c.activity = .filling) {id : Byte}
    (hi : c.recordId = some id) : ∃ r ∈ v.queue, r.id = id ∧ r.state = .retrying ∧ ∃ x n, r.body = .fillFault l x n := by
  obtain ⟨r, hm, hid, hl⟩ := h.entries l c id hc hi
  obtain ⟨-, hf⟩ := h.named hc hm hl
  have he : c.copy = .empty := (h.cores l c hc).empty.2 (.inl ha)
  unfold FaultRecord.Fits at hf
  unfold RecordBody.lines at hl
  split at hl <;> rename_i hb <;> rw [hb] at hf
  · rename_i l' x n
    cases List.mem_singleton.1 hl
    have hr : r.state = .retrying := by
      by_contra hn
      simp [hn, ha] at hf
    refine ⟨r, ?_, hid, hr, x, n, hb⟩
    rcases List.mem_append.1 hm with hm | hm
    · exact hm
    · exact absurd hr (h.stop r (by simpa using hm)).1
  · cases hl
  · simp only at hf; rw [he] at hf; cases hf

/-- An entry without a record id is named by no record. -/
theorem Lawful.unnamedOf {v : View} (h : Lawful v W) (hc : v.core l = some c) (hi : c.recordId = none) :
    ∀ r ∈ v.records, l ∉ r.body.lines := fun r hr hl => by
  have := (h.named hc hr hl).1; rw [hi] at this; cases this

/-- Nobody holds an EMPTY line. -/
theorem Core.Ok.unheld (h : c.Ok) (hd : c.copy.data?.isSome = false) (q : Port) : c.holdings[q] = .none := by
  by_contra hn
  rw [h.data q hn] at hd; cases hd

/-- A core that nobody holds, with another copy, activity and id. -/
theorem Core.Ok.anew (h : c.Ok) (hd : c.copy.data?.isSome = false) {x : HubCopy} {a : Activity} {i : Option Byte}
    (he : x = .empty ↔ a = .filling ∨ a = .faultHeld) : (⟨x, c.holdings, a, i⟩ : Core).Ok where
  alone q _ hq := absurd hq (by rw [h.unheld hd q]; simp)
  data q hq := absurd (h.unheld hd q) hq
  empty := he

/-! ## The end of a job -/

theorem endJob_sound (h : Sound s) : Sound s.endJob :=
  { h with
    fills := h.fills.sublist (List.sublist_append_right ..)
    filling := fun x hx => h.filling x (List.mem_append_right _ hx)
    draining := nofun }

/-- What is known of the entry of a FILL whose job has just ended. -/
structure Ended (s : State) (l : Line) : Prop where
  filling : ∀ e, s.entry? l = some e → e.activity = .filling
  fills   : l ∉ s.fillJobs

theorem endJob_ended {j : Job} (h : Sound s) (hj : s.job = some j) (ho : j.owner = .fill) : Ended s.endJob j.line := by
  have hf : s.fillJobs = j.line :: s.fillQueue := by simp [State.fillJobs, hj, ho]
  have hn : (j.line :: s.fillQueue).Nodup := hf ▸ h.fills
  refine ⟨fun e he => ?_, ?_⟩
  · have hm : j.line ∈ s.view.fillJobs := by
      show j.line ∈ s.fillJobs
      rw [hf]; simp
    exact h.fillJob (entry_core (s := s) he) hm
  · exact (List.nodup_cons.1 hn).1

theorem fillDone_sound (d : LineData) (h : Sound s) (hn : Ended s l) : Sound (s.fillDone l d) := by
  unfold State.fillDone
  split
  · exact h
  · rename_i e he
    have hc := entry_core he
    have ha : e.core.activity = .filling := hn.filling e he
    have ok := h.cores l _ hc
    have hne : e.core.copy.data?.isSome = false := by rw [ok.empty.2 (.inl ha)]; rfl
    have hv := updateEntry_view s l (fun x => { x with copy := .clean d, activity := .idle, recordId := none }) (fun _ => rfl) he
    have ok' : (⟨.clean d, e.core.holdings, .idle, none⟩ : Core).Ok := ok.anew hne (by simp)
    have hnw : ∀ w ∈ s.outstandingRecalls, w.line ≠ l := h.unrecalled hc (ok.unheld hne)
    dsimp only
    refine service_sound ?_
    split
    · rename_i id hid
      obtain ⟨r, hr, hri, -, x, n, hb⟩ := Lawful.fillingRecord h hc ha hid
      unfold Sound
      rw [retireRecord_view, hv]
      have hl : r.body.lines = [l] := by rw [hb]; rfl
      have := h.revise hr none nofun (s.view.put l (some ⟨.clean d, e.core.holdings, .idle, none⟩)).core
        (fun x hx => by rw [hl] at hx; simp only [List.mem_singleton] at hx; simp [View.put, hx])
        (fun x hx c hcx => by
          rw [hl] at hx; cases List.mem_singleton.1 hx
          rw [View.put_core] at hcx; cases hcx; exact ⟨ok', .inl rfl⟩)
        nofun (fun x hx hx' => by rw [hl] at hx'; cases List.mem_singleton.1 hx'; exact absurd hx hn.fills) nofun
      rw [hri] at this
      exact this
    · rename_i hid
      unfold Sound
      rw [hv]
      exact h.put ok' (fun w hw e => absurd e (hnw w hw)) (fun r hr hl => absurd hl (h.unnamedOf hc hid r hr)) nofun
        fun hl => absurd hl hn.fills

theorem fillLost_sound (x : StoreCause) (h : Sound s) (hn : Ended s l) : Sound (s.fillLost l x) := by
  unfold State.fillLost
  split
  · exact h
  · exact h
  · rename_i e hm he
    have hc := entry_core he
    have ha : e.core.activity = .filling := hn.filling e he
    have ok := h.cores l _ hc
    have hem : e.core.copy = .empty := ok.empty.2 (.inl ha)
    have hne : e.core.copy.data?.isSome = false := by rw [hem]; rfl
    have hnw : ∀ w ∈ s.outstandingRecalls, w.line ≠ l := h.unrecalled hc (ok.unheld hne)
    split
    · rename_i id hid
      obtain ⟨r, hr, hri, hst, y, n, hb⟩ := Lawful.fillingRecord h hc ha hid
      have hl : r.body.lines = [l] := by rw [hb]; rfl
      have hid' : e.core.recordId = some r.id := by rw [hri]; exact hid
      refine (postFaultPosted_same _).sound ?_
      have hq : ({ s with table := s.table.map fun z => if z.line == l then { z with activity := .faultHeld } else z } : State).view = s.view.put l (some { e.core with activity := .faultHeld }) :=
        setActivity_view .faultHeld hc
      have hview : ((s.setActivity l .faultHeld).updateRecord id fun r => { r with state := .posted, body := r.body.failAgain x }).view =
          { s.view.put l (some { e.core with activity := .faultHeld }) with
            queue := s.view.queue.filterMap fun z => if z.id = r.id then some { r with state := .posted, body := r.body.failAgain x } else some z } := by
        rw [h.filterMap_change hr fun r => { r with state := .posted, body := r.body.failAgain x }, ← hq, hri]; rfl
      unfold Sound
      rw [hview]
      have hlf : (r.body.failAgain x).lines = [l] := by rw [hb]; rfl
      refine h.revise hr (some { r with state := .posted, body := r.body.failAgain x }) ?_ _ ?_ ?_ ?_ ?_ ?_
      · rintro _ ⟨⟩
        refine ⟨rfl, by rw [hb]; rfl, ?_⟩
        rw [hlf, hl]; exact List.Subset.refl _
      · intro z hz; rw [hl] at hz; simp only [List.mem_singleton] at hz; simp [View.put, hz]
      · intro z hz c hcz
        rw [hl] at hz; cases List.mem_singleton.1 hz
        rw [View.put_core] at hcz; cases hcz
        refine ⟨ok.anew hne ⟨fun _ => .inr rfl, fun _ => hem⟩, .inr ⟨_, rfl, hid', by rw [hlf]; simp⟩⟩
      · rintro _ ⟨⟩ z hz
        rw [hlf] at hz; cases List.mem_singleton.1 hz
        refine ⟨_, View.put_core .., hid', ?_⟩
        simp [FaultRecord.Fits, hb, RecordBody.failAgain]
      · intro z hz hz'; rw [hl] at hz'; cases List.mem_singleton.1 hz'; exact absurd hz hn.fills
      · rintro _ ⟨⟩ q hq'; rw [hb] at hq'; cases hq'
    · rename_i hid
      split
      · unfold Sound
        rw [removeEntry_view]
        exact h.drop hnw (h.unnamedOf hc hid) hn.fills
      · have hv := updateEntry_view s l (fun x => { x with activity := .faultHeld, recordId := some s.newRecordId }) (fun _ => rfl) he
        refine createRecord_sound (v := s.view) (core := (s.view.put l (some ⟨e.core.copy, e.core.holdings, .faultHeld, some s.newRecordId⟩)).core) hv h hm ?_ ?_ nofun
        · intro z hz; simp only [RecordBody.lines, List.mem_singleton] at hz; simp [View.put, hz]
        · intro z hz
          cases List.mem_singleton.1 hz
          refine ⟨h.unnamedOf hc hid, hn.fills, hnw, _, View.put_core .., ok.anew hne ⟨fun _ => .inr rfl, fun _ => hem⟩, rfl, ?_⟩
          simp [FaultRecord.Fits]

/-! ## Drains -/

theorem removeJournal_view (q : Seq) (ab : Bool) :
    (s.removeJournal q ab).view = { s.view with journal := s.view.journal.filter fun k => k.seq != q } := by
  unfold State.removeJournal
  dsimp only
  exact (examineSync_same _).view

theorem removeJournal_out (q : Seq) (ab : Bool) : (s.removeJournal q ab).outstandingRecalls = s.outstandingRecalls := by
  unfold State.removeJournal
  dsimp only
  exact (examineSync_same _).out

/-- A DRAIN_FAULT record's end: it has no line. -/
theorem Lawful.retireDrain {v : View} (h : Lawful v W) {r : FaultRecord} (hr : r ∈ v.queue) (hl : r.body.lines = []) :
    Lawful { v with queue := v.queue.filterMap fun x => if x.id = r.id then none else some x } W :=
  h.revise hr none nofun v.core (fun _ _ => rfl) (by rw [hl]; nofun) nofun (by rw [hl]; nofun) nofun

theorem drain_lines {r : FaultRecord} {q : Seq} (h : r.body.seq? = some q) : r.body.lines = [] := by
  unfold RecordBody.seq? at h
  split at h
  · rename_i hb; rw [hb]; rfl
  all_goals cases h

theorem drainRecord?_some {q : Seq} {r : FaultRecord} (h : s.drainRecord? q = some r) :
    r ∈ s.faultQueue ∧ r.body.seq? = some q := by
  refine ⟨List.mem_of_find?_eq_some h, ?_⟩
  have := List.find?_some h
  split at this
  · rename_i hb; rw [hb]; simpa [RecordBody.seq?] using this
  · cases this

theorem drainRecord?_none {q : Seq} (h : s.drainRecord? q = none) : ∀ r ∈ s.faultQueue, r.body.seq? ≠ some q := by
  intro r hr e
  have := List.find?_eq_none.1 h r hr
  unfold RecordBody.seq? at e
  split at e
  · rename_i hb; cases e; simp [hb] at this
  all_goals cases e

/-- The record of a journal entry that is WRITING is a record of the queue that is RETRYING, and the entry was retried. -/
theorem Lawful.writingRecord {v : View} (h : Lawful v W) {k : JournalEntry} (hk : k ∈ v.journal) (hw : k.state = .writing)
    {r : FaultRecord} (hr : r ∈ v.records) (hs : r.body.seq? = some k.seq) :
    r ∈ v.queue ∧ r.state = .retrying ∧ k.origin = .retry := by
  obtain ⟨k', hk', e, hd⟩ := h.drains r hr _ hs
  cases seq_inj h hk' hk e
  rcases hd with hd | ⟨-, ho, hr'⟩
  · rw [hw] at hd; cases hd
  · refine ⟨?_, hr', ho⟩
    rcases List.mem_append.1 hr with hm | hm
    · exact hm
    · exact absurd hr' (h.stop r (by simpa using hm)).1

/-- What is known of the journal entry of a DRAIN whose job has just ended. -/
structure Drained (s : State) (k : JournalEntry) : Prop where
  mem      : k ∈ s.journal
  writing  : k.state = .writing
  draining : s.view.draining = none

theorem endJob_drained {j : Job} {q : Seq} (h : Sound s) (hj : s.job = some j) (ho : j.owner = .drain q) :
    ∃ k, k.seq = q ∧ Drained s.endJob k := by
  obtain ⟨k, hk, e, hw⟩ := h.draining q (by simp [State.view, State.draining?, hj, ho])
  exact ⟨k, e, hk, hw, rfl⟩

theorem journalEntry?_of {k : JournalEntry} (h : Sound s) (hk : k ∈ s.journal) : s.journalEntry? k.seq = some k := by
  cases hf : s.journalEntry? k.seq with
  | none => have := List.find?_eq_none.1 hf k hk; simp at this
  | some x =>
    have hx := List.mem_of_find?_eq_some hf
    have e : x.seq = k.seq := by simpa using List.find?_some hf
    rw [seq_inj (v := s.view) h hx hk e]

theorem drainDone_sound {k : JournalEntry} (h : Sound s) (hk : Drained s k) : Sound (s.drainDone k.seq) := by
  unfold State.drainDone
  dsimp only
  have hje := journalEntry?_of h hk.mem
  split
  · rename_i r hr
    unfold State.retriedRecord? at hr
    rw [hje] at hr
    dsimp only at hr
    split at hr
    · obtain ⟨hm, hs⟩ := drainRecord?_some hr
      unfold Sound
      rw [retireRecord_view, show (State.retireRecord (s.removeJournal k.seq false) r.id).outstandingRecalls = s.outstandingRecalls from removeJournal_out .., removeJournal_view]
      refine (h.retireDrain hm (drain_lines hs)).removeSeq (by rw [show View.draining _ = s.view.draining from rfl, hk.draining]; simp) fun y hy e => ?_
      have hy' : y ∈ s.view.records ∧ y.id ≠ r.id := by
        rcases List.mem_append.1 hy with hy | hy
        · obtain ⟨z, hz, he⟩ := List.mem_filterMap.1 hy
          split at he
          · cases he
          · cases he; exact ⟨List.mem_append_left _ hz, ‹_›⟩
        · refine ⟨List.mem_append_right _ hy, fun e' => ?_⟩
          have := h.sameId (List.mem_append_right _ hy) (List.mem_append_left _ hm) e'
          exact absurd (Lawful.writingRecord h hk.mem hk.writing (List.mem_append_left _ hm) hs).2.1
            (this ▸ (h.stop y (by simpa using hy)).1)
      exact hy'.2 (congrArg _ (h.sameSeq hy'.1 (List.mem_append_left _ hm) e hs))
    · cases hr
  · rename_i hr
    unfold Sound
    rw [removeJournal_out, removeJournal_view]
    refine h.removeSeq (by rw [hk.draining]; simp) fun y hy e => ?_
    obtain ⟨hq, -, ho⟩ := Lawful.writingRecord h hk.mem hk.writing hy e
    unfold State.retriedRecord? at hr
    rw [hje] at hr
    simp only [ho, if_true] at hr
    exact drainRecord?_none hr y hq e

theorem drainLost_sound {k : JournalEntry} (x : StoreCause) (h : Sound s) (hk : Drained s k) : Sound (s.drainLost k.seq x) := by
  have h1 : Sound { s with journal := s.journal.map fun j => if j.seq == k.seq then { j with state := .faulted } else j } := by
    refine Lawful.setEntry h (g := fun j => { j with state := .faulted }) (fun _ => rfl) (fun _ => rfl) (fun _ => by simp)
      (fun j hj e hq => ?_) (fun e => by rw [hk.draining] at e; cases e) fun r _ _ => ⟨k, hk.mem, rfl, .inl rfl⟩
    cases seq_inj h hj hk.mem e
    rw [hk.writing] at hq; cases hq
  have hmem : { k with state := .faulted } ∈ s.journal.map fun j => if j.seq == k.seq then { j with state := .faulted } else j :=
    List.mem_map.2 ⟨k, hk.mem, by simp⟩
  unfold State.drainLost
  dsimp only
  rw [journalEntry?_of h hk.mem]
  split
  · exact h1
  · exact h1
  · rename_i j hm hj
    cases hj
    split
    · split
      · rename_i r hr
        obtain ⟨hq, hs⟩ := drainRecord?_some hr
        refine (postFaultPosted_same _).sound ?_
        unfold Sound
        rw [updateRecord_view (s := { s with journal := _ }) h1 hq]
        have hl := drain_lines hs
        have hl' : (r.body.failAgain x).lines = [] := by
          unfold RecordBody.seq? at hs
          split at hs
          · rename_i hb; rw [hb]; rfl
          all_goals cases hs
        have hs' : (r.body.failAgain x).seq? = r.body.seq? := by
          unfold RecordBody.seq? at hs
          split at hs
          · rename_i hb; rw [hb]; rfl
          all_goals cases hs
        refine Lawful.revise (v := State.view { s with journal := _ }) h1 hq _ ?_ _ (fun _ _ => rfl) (by rw [hl]; nofun) ?_ (by rw [hl]; nofun) ?_
        · rintro _ ⟨⟩; exact ⟨rfl, hs', by rw [hl']; exact List.nil_subset _⟩
        · rintro _ ⟨⟩ z hz; rw [hl'] at hz; cases hz
        · rintro _ ⟨⟩ q hq'
          cases hs.symm.trans hq'
          exact ⟨_, hmem, rfl, .inl rfl⟩
      · exact h1
    · rename_i ho
      refine createRecord_sound (v := State.view { s with journal := _ }) rfl h1 hm (fun _ _ => rfl) nofun ?_
      rintro _ ⟨⟩
      refine ⟨⟨_, hmem, rfl, rfl⟩, fun y hy e => ho ?_⟩
      exact (Lawful.writingRecord h hk.mem hk.writing (r := y) hy e).2.2

theorem directDone_same (op : DirectOp) (id : ReqId) (o : Bool) (d : LineData) : Same s (s.directDone op id o d) := by
  unfold State.directDone
  split
  · exact Same.refl s
  · split
    · exact answer_same ..
    · exact Same.refl s

theorem directLost_same (id : ReqId) (o : Bool) : Same s (s.directLost id o) := by
  unfold State.directLost
  split
  · exact Same.refl s
  · split
    · exact answer_same ..
    · exact Same.refl s

theorem completeJob_sound {j k : Job} (h : Sound s) (hj : s.job = some j) (ho : k.owner = j.owner) (hl : k.line = j.line) :
    Sound (s.endJob.completeJob k) := by
  unfold State.completeJob
  have he := endJob_sound h
  rw [hl]
  split <;> rename_i hk <;> rw [ho] at hk
  · exact fillDone_sound _ he (endJob_ended h hj hk)
  · obtain ⟨x, rfl, hx⟩ := endJob_drained h hj hk
    exact drainDone_sound he hx
  · exact (directDone_same ..).sound he

theorem failJob_sound {j : Job} (x : StoreCause) (h : Sound s) (hj : s.job = some j) : Sound (s.endJob.failJob j x) := by
  unfold State.failJob
  have he := endJob_sound h
  split <;> rename_i hk
  · exact fillLost_sound _ he (endJob_ended h hj hk)
  · obtain ⟨x, rfl, hx⟩ := endJob_drained h hj hk
    exact drainLost_sound _ he hx
  · exact (directLost_same ..).sound he

/-! ## Resolve and Supply Line -/

/-- The record of a FAULT_HELD entry, OPEN in the queue. -/
theorem Lawful.heldEntry {v : View} (h : Lawful v W) {r : FaultRecord} (hr : r ∈ v.queue) (hs : r.state ≠ .retrying) {x : StoreCause}
    {n : Nat} (hb : r.body = .fillFault l x n) : ∃ c, v.core l = some c ∧ c.activity = .faultHeld ∧ c.recordId = some r.id ∧
      c.copy = .empty ∧ l ∉ v.fillJobs := by
  obtain ⟨c, hc, hi, hf⟩ := h.lines r (List.mem_append_left _ hr) l (by rw [hb]; simp [RecordBody.lines])
  have ha : c.activity = .faultHeld := by simpa [FaultRecord.Fits, hb, hs] using hf
  exact ⟨c, hc, ha, hi, (h.cores l c hc).empty.2 (.inr ha), h.unfilled hc (by simp [ha])⟩

theorem retryRecord_sound {r : FaultRecord} (d : Option LineData) (h : Sound s) (hr : r ∈ s.faultQueue)
    (hs : r.state ≠ .retrying) : Sound (s.retryRecord r d) := by
  unfold State.retryRecord
  dsimp only
  split
  · rename_i l x n hb
    obtain ⟨c, hc, ha, hi, he, hn⟩ := Lawful.heldEntry h hr hs hb
    have ok := h.cores l c hc
    have hl : r.body.lines = [l] := by rw [hb]; rfl
    have h1 : Lawful ((s.updateRecord r.id fun x => { x with state := .retrying }).setActivity l .filling).view s.outstandingRecalls := by
      rw [setActivity_view (s := s.updateRecord r.id fun x => { x with state := .retrying }) (c := c) .filling hc, updateRecord_view h hr]
      refine h.revise hr (some { r with state := .retrying }) ?_ (s.view.put l _).core ?_ ?_ ?_ ?_ ?_
      · rintro _ ⟨⟩; exact ⟨rfl, rfl, List.Subset.refl _⟩
      · intro z hz; rw [hl] at hz; simp only [List.mem_singleton] at hz; simp [View.put, hz]
      · intro z hz c' hcz
        rw [hl] at hz; cases List.mem_singleton.1 hz
        rw [View.put_core] at hcz; cases hcz
        exact ⟨ok.anew (by rw [he]; rfl) ⟨fun _ => .inl rfl, fun _ => he⟩, .inr ⟨_, rfl, hi, by rw [hl]; simp⟩⟩
      · rintro _ ⟨⟩ z hz
        rw [hl] at hz; cases List.mem_singleton.1 hz
        exact ⟨_, View.put_core .., hi, by simp [FaultRecord.Fits, hb]⟩
      · intro z hz hz'; rw [hl] at hz'; cases List.mem_singleton.1 hz'; exact absurd hz hn
      · rintro _ ⟨⟩ q hq'; rw [hb] at hq'; cases hq'
    unfold Sound
    rw [askFill_out, askFill_view (s := (s.updateRecord r.id fun x => { x with state := .retrying }).setActivity l .filling) hn]
    exact h1.addFill hn (c := { c with activity := .filling }) (by rw [setActivity_view (s := s.updateRecord r.id fun x => { x with state := .retrying }) (c := c) .filling hc]; exact View.put_core ..) rfl
  · rename_i l x n q o d' hb
    have hsq : r.body.seq? = some q := by rw [hb]; rfl
    have hl := drain_lines hsq
    obtain ⟨k, hk, e, hd⟩ := h.drains r (List.mem_append_left _ hr) q hsq
    have hf : k.state = .faulted := by
      rcases hd with hd | ⟨-, -, hd⟩
      · exact hd
      · exact absurd hd hs
    have h1 : Lawful (s.updateRecord r.id fun x => { x with state := .retrying }).view s.outstandingRecalls := by
      rw [updateRecord_view h hr]
      refine h.revise hr (some { r with state := .retrying }) ?_ s.view.core (fun _ _ => rfl) (by rw [hl]; nofun) ?_ (by rw [hl]; nofun) ?_
      · rintro _ ⟨⟩; exact ⟨rfl, rfl, List.Subset.refl _⟩
      · rintro _ ⟨⟩ z hz; rw [hl] at hz; cases hz
      · rintro _ ⟨⟩ q' hq'
        cases hsq.symm.trans hq'
        exact ⟨k, hk, e, .inl hf⟩
    refine Lawful.setEntry h1 (q := q) (g := fun j => { j with state := .writing, origin := .retry }) (fun _ => rfl) (fun _ => rfl)
      (fun _ => by simp) (fun j hj ej hq => ?_) (fun ed => ?_) fun y hy ey => ?_
    · cases seq_inj h hj hk (ej.trans e.symm)
      rw [hf] at hq; cases hq
    · exact ⟨k, hk, e, rfl⟩
    · refine ⟨k, hk, e, .inr ⟨rfl, rfl, ?_⟩⟩
      rw [updateRecord_view h hr] at hy
      rcases List.mem_append.1 hy with hy | hy
      · obtain ⟨z, hz, he⟩ := List.mem_filterMap.1 hy
        split at he
        · cases he; rfl
        · cases he
          have := h.sameSeq (List.mem_append_left _ hz) (List.mem_append_left _ hr) ey hsq
          rename_i hne
          exact absurd (congrArg _ this) hne
      · have hy' : y ∈ s.view.records := List.mem_append_right _ hy
        have := h.sameSeq hy' (List.mem_append_left _ hr) ey hsq
        have hn := h.ids
        rw [View.records, List.map_append, List.nodup_append] at hn
        exact absurd (congrArg _ this.symm) (hn.2.2 _ (List.mem_map.2 ⟨r, hr, rfl⟩) _ (List.mem_map.2 ⟨y, hy, rfl⟩))
  · exact h

/-- The one line of a record is settled, and the record retired. -/
theorem Lawful.settleLine {v : View} (h : Lawful v W) {r : FaultRecord} (hr : r ∈ v.queue) (hl : ∀ x, x ∈ r.body.lines ↔ x = l)
    (o : Option Core) (ho : ∀ c ∈ o, c.Ok ∧ c.recordId = none) (hn : l ∉ v.fillJobs) :
    Lawful { v.put l o with queue := v.queue.filterMap fun x => if x.id = r.id then none else some x } W :=
  h.revise hr none nofun (v.put l o).core (fun x hx => by rw [hl] at hx; simp [View.put, hx])
    (fun x hx c hc => by
      rw [hl] at hx; subst hx
      rw [View.put_core] at hc
      exact ⟨(ho c hc).1, .inl (ho c hc).2⟩) nofun
    (fun x hx hx' => by rw [hl] at hx'; subst hx'; exact absurd hx hn) nofun

theorem supplyRecord_sound {r : FaultRecord} (d : Option LineData) (h : Sound s) (hr : r ∈ s.faultQueue)
    (hs : r.state ≠ .retrying) : Sound (s.supplyRecord r d) := by
  unfold State.supplyRecord
  split
  · rename_i l x n d hb
    obtain ⟨c, hc, ha, hi, he, hn⟩ := Lawful.heldEntry h hr hs hb
    obtain ⟨e, hent, rfl⟩ := core_entry hc
    have ok := h.cores l _ hc
    dsimp only
    refine service_sound ?_
    have hv : (s.updateEntry l fun e => { e with activity := .idle, recordId := none }).view =
        s.view.put l (some ⟨e.core.copy, e.core.holdings, .idle, none⟩) :=
      updateEntry_view s l (fun e => { e with activity := .idle, recordId := none }) (fun _ => rfl) hent
    obtain ⟨js, y, hm, hy, hg⟩ := makeDirty_view (s := s.updateEntry l fun e => { e with activity := .idle, recordId := none })
      (c := ⟨e.core.copy, e.core.holdings, .idle, none⟩) d .supply (by rw [hv]; exact View.put_core ..)
    have hout : ((s.updateEntry l fun e => { e with activity := .idle, recordId := none }).makeDirty l d .supply).outstandingRecalls =
        s.outstandingRecalls := makeDirty_out d .supply
    rw [hv, View.put_put] at hm
    generalize (s.updateEntry l fun e => { e with activity := .idle, recordId := none }).makeDirty l d .supply = t at hm hout ⊢
    unfold Sound
    rw [retireRecord_view, show (State.retireRecord t r.id).outstandingRecalls = s.outstandingRecalls from hout, hm]
    refine Lawful.grows (v := { s.view.put l _ with queue := _ }) ?_ hg
    refine h.settleLine hr (fun z => by rw [hb]; simp [RecordBody.lines]) _ (fun c hc => ?_) hn
    cases hc
    refine ⟨ok.anew (by rw [he]; rfl) ?_, rfl⟩
    constructor
    · rintro rfl; cases hy
    · rintro (e | e) <;> cases e
  · exact h

theorem failRecord_sound {r : FaultRecord} (d : Option LineData) (h : Sound s) (hr : r ∈ s.faultQueue)
    (hs : r.state ≠ .retrying) : Sound (s.failRecord r d) := by
  unfold State.failRecord
  split
  · rename_i l x n hb
    obtain ⟨c, hc, ha, hi, he, hn⟩ := Lawful.heldEntry h hr hs hb
    dsimp only
    have sm := Same.foldl (f := fun (u : State) (id : ReqId) => u.answer id .storeFault [])
      (fun t id => answer_same t id .storeFault []) ((s.entry? l).elim [] Entry.waiters) s
    generalize ((s.entry? l).elim [] Entry.waiters).foldl (fun (u : State) (id : ReqId) => u.answer id .storeFault []) s = t at sm ⊢
    unfold Sound
    rw [retireRecord_view, removeEntry_view, sm.view,
      show (State.retireRecord (t.removeEntry l) r.id).outstandingRecalls = s.outstandingRecalls from sm.out]
    exact h.settleLine hr (fun z => by rw [hb]; simp [RecordBody.lines]) none nofun hn
  · exact h

theorem dropRecord_sound {r : FaultRecord} (ab : Bool) (d : Option LineData) (h : Sound s) (hr : r ∈ s.faultQueue)
    (hs : r.state ≠ .retrying) : Sound (s.dropRecord ab r d) := by
  unfold State.dropRecord
  split
  · rename_i l x n q o d' hb
    have hsq : r.body.seq? = some q := by rw [hb]; rfl
    obtain ⟨k, hk, e, hd⟩ := h.drains r (List.mem_append_left _ hr) q hsq
    have hf : k.state = .faulted := by
      rcases hd with hd | ⟨-, -, hd⟩
      · exact hd
      · exact absurd hd hs
    unfold Sound
    rw [retireRecord_view, show (State.retireRecord (s.removeJournal q ab) r.id).outstandingRecalls = s.outstandingRecalls from removeJournal_out .., removeJournal_view]
    refine (h.retireDrain hr (drain_lines hsq)).removeSeq (fun ed => ?_) fun y hy ey => ?_
    · obtain ⟨k', hk', e', hw⟩ := h.draining q ed
      cases seq_inj h hk' hk (e'.trans e.symm)
      rw [hf] at hw; cases hw
    · rcases List.mem_append.1 hy with hy | hy
      · obtain ⟨z, hz, he⟩ := List.mem_filterMap.1 hy
        split at he
        · cases he
        · cases he
          rename_i hne
          exact hne (congrArg _ (h.sameSeq (List.mem_append_left _ hz) (List.mem_append_left _ hr) ey hsq))
      · have := h.sameSeq (List.mem_append_right _ hy) (List.mem_append_left _ hr) ey hsq
        have hn := h.ids
        rw [View.records, List.map_append, List.nodup_append] at hn
        exact hn.2.2 _ (List.mem_map.2 ⟨r, hr, rfl⟩) _ (List.mem_map.2 ⟨y, hy, rfl⟩) (congrArg _ this.symm)
  · exact h

theorem removeEntries_view (ls : List Line) : (ls.foldl State.removeEntry s).view =
    { s.view with core := fun x => if x ∈ ls then none else s.view.core x } := by
  induction ls generalizing s with
  | nil => simp
  | cons l ls ih =>
    rw [List.foldl_cons, ih, removeEntry_view]
    simp only [View.put, View.mk.injEq, and_true]
    funext x
    by_cases h1 : x ∈ ls <;> by_cases h2 : x = l <;> simp [h1, h2]

theorem removeEntries_out (ls : List Line) : (ls.foldl State.removeEntry s).outstandingRecalls = s.outstandingRecalls := by
  induction ls generalizing s with
  | nil => rfl
  | cons l ls ih => rw [List.foldl_cons, ih]; rfl

/-- The lines of a HOLDER_LOST record have no FILL job: they are POISONED. -/
theorem Lawful.lostEntry {v : View} (h : Lawful v W) {r : FaultRecord} (hr : r ∈ v.records) {q : Port} {x : Cause} {ls : List Line}
    (hb : r.body = .holderLost q x ls) (hl : l ∈ ls) : ∃ c, v.core l = some c ∧ c.copy = .poisoned ∧ c.recordId = some r.id ∧
      c.activity ≠ .filling ∧ c.activity ≠ .faultHeld ∧ l ∉ v.fillJobs := by
  obtain ⟨c, hc, hi, hf⟩ := h.lines r hr l (by rw [hb]; exact hl)
  have hp : c.copy = .poisoned := by simpa [FaultRecord.Fits, hb] using hf
  have ok := h.cores l c hc
  have hne : ¬ (c.activity = .filling ∨ c.activity = .faultHeld) := by rw [← ok.empty, hp]; simp
  rw [not_or] at hne
  exact ⟨c, hc, hp, hi, hne.1, hne.2, h.unfilled hc hne.1⟩

theorem revertRecord_sound {r : FaultRecord} (d : Option LineData) (h : Sound s) (hr : r ∈ s.faultQueue) :
    Sound (s.revertRecord r d) := by
  unfold State.revertRecord
  split
  · rename_i q x ls hb
    have hl : r.body.lines = ls := by rw [hb]; rfl
    unfold Sound
    rw [retireRecord_view, removeEntries_view,
      show (State.retireRecord (ls.foldl State.removeEntry s) r.id).outstandingRecalls = s.outstandingRecalls from removeEntries_out ls]
    refine h.revise hr none nofun _ (fun x hx => ?_) (fun x hx c hc => ?_) nofun (fun x hx hx' => ?_) nofun
    · rw [hl] at hx; simp [hx]
    · rw [hl] at hx; simp [hx] at hc
    · obtain ⟨c, -, -, -, -, -, hn⟩ := h.lostEntry (List.mem_append_left _ hr) hb (hl ▸ hx')
      exact absurd hx hn
  · exact h

theorem supplyLine_sound {r : FaultRecord} (d : LineData) (h : Sound s) (hr : r ∈ s.faultQueue)
    (hm : l ∈ r.body.lostLines) : Sound (s.supplyLine r l d) := by
  obtain ⟨q, x, ls, hb⟩ : ∃ q x ls, r.body = .holderLost q x ls := by
    unfold RecordBody.lostLines at hm
    split at hm
    · exact ⟨_, _, _, ‹_›⟩
    · cases hm
    · cases hm
  have hls : r.body.lines = ls := by rw [hb]; rfl
  have hll : l ∈ ls := by rw [hb] at hm; exact hm
  obtain ⟨c, hc, hp, hi, ha, hh, hn⟩ := h.lostEntry (List.mem_append_left _ hr) hb hll
  obtain ⟨e, hent, rfl⟩ := core_entry hc
  have ok := h.cores l _ hc
  have hv : (s.updateEntry l fun e => { e with recordId := none }).view =
      s.view.put l (some ⟨e.core.copy, e.core.holdings, e.core.activity, none⟩) :=
    updateEntry_view s l (fun e => { e with recordId := none }) (fun _ => rfl) hent
  obtain ⟨js, y, hmd, hy, hg⟩ := makeDirty_view (s := s.updateEntry l fun e => { e with recordId := none })
    (c := ⟨e.core.copy, e.core.holdings, e.core.activity, none⟩) d .supply (by rw [hv]; exact View.put_core ..)
  rw [hv, View.put_put] at hmd
  have hout : ((s.updateEntry l fun e => { e with recordId := none }).makeDirty l d .supply).outstandingRecalls = s.outstandingRecalls := makeDirty_out d .supply
  have hqueue : ((s.updateEntry l fun e => { e with recordId := none }).makeDirty l d .supply).faultQueue = s.faultQueue := congrArg View.queue hmd
  have okn : (⟨y, e.core.holdings, e.core.activity, none⟩ : Core).Ok := by
    refine ok.anew (by rw [hp]; rfl) ?_
    constructor
    · rintro rfl; cases hy
    · rintro (e' | e') <;> contradiction
  unfold State.supplyLine
  dsimp only
  generalize (s.updateEntry l fun e => { e with recordId := none }).makeDirty l d .supply = t at hmd hout hqueue ⊢
  have hdl : (r.body.dropLine l).lostLines = ls.filter (· != l) := by rw [hb]; rfl
  split
  · rename_i hem
    rw [hdl, List.isEmpty_iff, List.filter_eq_nil_iff] at hem
    unfold Sound
    rw [retireRecord_view, show (State.retireRecord t r.id).outstandingRecalls = s.outstandingRecalls from hout, hmd]
    refine Lawful.grows (v := { s.view.put l _ with queue := _ }) ?_ hg
    refine h.settleLine hr (fun z => ?_) _ (fun c hc => by cases hc; exact ⟨okn, rfl⟩) hn
    rw [hls]
    exact ⟨fun hz => by simpa using hem z hz, fun e => e ▸ hll⟩
  · have hlines : ({ r with body := r.body.dropLine l } : FaultRecord).body.lines = ls.filter (· != l) := by
      show (r.body.dropLine l).lines = _
      rw [hb]; rfl
    unfold Sound
    rw [show (State.updateRecord t r.id _).outstandingRecalls = s.outstandingRecalls from hout,
      show (t.updateRecord r.id fun x => { x with body := x.body.dropLine l }).view = { t.view with queue := t.faultQueue.map fun x => if x.id = r.id then { x with body := x.body.dropLine l } else x } from rfl,
      hqueue, hmd, show s.faultQueue = s.view.queue from rfl, ← h.filterMap_change hr fun x => { x with body := x.body.dropLine l }]
    refine Lawful.grows (v := { s.view.put l _ with queue := _ }) ?_ hg
    refine h.revise hr (some { r with body := r.body.dropLine l }) ?_ (s.view.put l _).core ?_ ?_ ?_ ?_ ?_
    · rintro _ ⟨⟩
      refine ⟨rfl, by rw [hb]; rfl, ?_⟩
      rw [hlines, hls]; exact List.filter_sublist.subset
    · intro z hz
      rw [hls] at hz
      have : z ≠ l := fun e => hz (e ▸ hll)
      simp [View.put, this]
    · intro z hz c' hcz
      by_cases e' : z = l
      · subst e'
        rw [View.put_core] at hcz; cases hcz
        exact ⟨okn, .inl rfl⟩
      · have hcz : s.view.core z = some c' := by simpa [View.put, e'] using hcz
        refine ⟨h.cores z c' hcz, .inr ⟨_, rfl, (h.named hcz (List.mem_append_left _ hr) hz).1, ?_⟩⟩
        rw [hlines, List.mem_filter]
        exact ⟨hls ▸ hz, by simpa using e'⟩
    · rintro _ ⟨⟩ z hz
      rw [hlines, List.mem_filter] at hz
      have e' : z ≠ l := by simpa using hz.2
      obtain ⟨c', hc', hp', hi', -⟩ := h.lostEntry (List.mem_append_left _ hr) hb hz.1
      refine ⟨c', by simpa [View.put, e'] using hc', hi', ?_⟩
      simpa [FaultRecord.Fits, hb, RecordBody.dropLine] using hp'
    · intro z hz hz'
      obtain ⟨c', -, -, -, -, -, hn'⟩ := h.lostEntry (List.mem_append_left _ hr) hb (hls ▸ hz')
      exact absurd hz hn'
    · rintro _ ⟨⟩ q' hq'; rw [hb] at hq'; cases hq'

end Sys2Proof.Machine
end

