-- ==== Sys2Proof/Laws/Lines.lean ====
section
/-! SUPPORT. Lines in ascending order (R76, R77, R144). -/

namespace Sys2Proof.Machine

theorem mem_insertLine {l m : Line} {ms : List Line} : l ∈ insertLine m ms ↔ l = m ∨ l ∈ ms := by
  induction ms with
  | nil => simp [insertLine]
  | cons x xs ih =>
    unfold insertLine; split
    · simp
    · simp [ih]; tauto

theorem mem_sortLines {l : Line} {ms : List Line} : l ∈ sortLines ms ↔ l ∈ ms := by
  induction ms with
  | nil => simp [sortLines]
  | cons x xs ih => simp [sortLines, mem_insertLine, ih]

theorem insertLine_sorted {m : Line} {ms : List Line} (h : ms.Pairwise fun a b : Line => a.toNat < b.toNat) (hm : m ∉ ms) :
    (insertLine m ms).Pairwise fun a b : Line => a.toNat < b.toNat := by
  induction ms with
  | nil => simp [insertLine]
  | cons x xs ih =>
    obtain ⟨h1, h2⟩ := List.pairwise_cons.1 h
    have hmx : m ≠ x := fun e => hm (by simp [e])
    have hne : m.toNat ≠ x.toNat := fun e => hmx (BitVec.eq_of_toNat_eq e)
    unfold insertLine; split
    · rename_i hle
      refine List.pairwise_cons.2 ⟨fun a ha => ?_, h⟩
      rcases List.mem_cons.1 ha with rfl | ha
      · omega
      · have := h1 a ha; omega
    · rename_i hle
      refine List.pairwise_cons.2 ⟨fun a ha => ?_, ih h2 fun e => hm (by simp [e])⟩
      rcases mem_insertLine.1 ha with rfl | ha
      · omega
      · exact h1 a ha

/-- Distinct lines sorted are ascending. -/
theorem sortLines_sorted {ms : List Line} (h : ms.Nodup) : (sortLines ms).Pairwise fun a b : Line => a.toNat < b.toNat := by
  induction ms with
  | nil => simp [sortLines]
  | cons x xs ih =>
    obtain ⟨h1, h2⟩ := List.nodup_cons.1 h
    exact insertLine_sorted (ih h2) (by rw [mem_sortLines]; exact h1)

/-- The lines of which the entries have a property, ascending. -/
theorem sortLines_filter {s : State} {P : Entry → Bool} (hn : (s.table.map Entry.line).Nodup) :
    (sortLines ((s.table.filter P).map (·.line))).Pairwise (fun a b => a.toNat < b.toNat) ∧
      ∀ l : Line, l ∈ sortLines ((s.table.filter P).map (·.line)) ↔ ∃ e ∈ s.table, e.line = l ∧ P e = true := by
  refine ⟨sortLines_sorted (List.Nodup.sublist (List.Sublist.map _ List.filter_sublist) hn), fun l => ?_⟩
  rw [mem_sortLines]
  simp only [List.mem_map, List.mem_filter]
  exact ⟨fun ⟨e, ⟨h1, h2⟩, h3⟩ => ⟨e, h1, h3, h2⟩, fun ⟨e, h1, h3, h2⟩ => ⟨e, ⟨h1, h2⟩, h3⟩⟩

end Sys2Proof.Machine
end

