-- ==== Sys2Proof/Laws/Step.lean ====
section
/-! SUPPORT. What every command but RESTART and POWER_ON_RESET keeps: the control registers only their own commands write,
the laws of `InOrder`, and the STOPPED mode. -/

namespace Sys2Proof.Machine

/-- What a command keeps from `s` to `t`; each clause names the commands that may write what it speaks of. -/
structure Follows (c : Instr) (s t : State) : Prop where
  pending        : t.pending = s.pending
  supervisor     : t.supervisor = s.supervisor
  resetN         : c ≠ .resetNLow → t.resetN = s.resetN
  hubTime        : c ≠ .hubTimeAdvance → t.hubTime = s.hubTime
  timers         : (∀ p f, c ≠ .setTimers p f) → t.timers = s.timers
  sessionCounter : (∀ p f, c ≠ .hello p f) → t.sessionCounter = s.sessionCounter
  regions        : (∀ p f, c ≠ .regionSet p f) → t.regions = s.regions
  linkUp         : ∀ p : Port, c ≠ .linkUp p → c ≠ .linkDown p → t.links[p].up = s.links[p].up
  stopped        : s.mode = .stopped → t.mode = .stopped
  records        : s.mode = .stopped → (t.faultQueue.map (·.id)).Sublist (s.faultQueue.map (·.id))
  stopId         : s.mode = .stopped → t.stopRecord.map (·.id) = s.stopRecord.map (·.id)
  faults         : FaultUnitOk s → FaultUnitOk t
  tables         : TablesOk s → TablesOk t
  replays        : ReplayOk s → ReplayOk t
  requestsOk     : RequestsOk s → RequestsOk t
  tags           : TagsOk s → TagsOk t

variable {c : Instr} {s t u : State} {p : Port}

theorem RequestsOk.sub {s t : State} (h : RequestsOk s) (hs : t.requests.Sublist s.requests) : RequestsOk t :=
  fun p => ((hs.filter fun r => r.id.port == p).length_le).trans (h p)

theorem TagsOk.sub {s t : State} (h : TagsOk s) (hs : t.requests.Sublist s.requests) : TagsOk t :=
  List.Nodup.sublist (hs.map _) h

theorem KeepsIf.follows {d f : Prop} (h : KeepsIf True d f s t) : Follows c s t where
  pending := h.pending
  supervisor := h.supervisor
  resetN _ := h.resetN
  hubTime _ := h.hubTime
  timers _ := h.timers
  sessionCounter _ := h.sessionCounter
  regions _ := h.regions
  linkUp p _ _ := h.linkUp p
  stopped := h.stopped
  records := h.records
  stopId := h.stopId
  faults := h.faults
  tables := h.tables trivial
  replays := h.replays
  requestsOk hr := hr.sub h.requests
  tags ht := ht.sub h.requests

theorem Follows.trans (a : Follows c s t) (b : Follows c t u) : Follows c s u where
  pending := b.pending.trans a.pending
  supervisor := b.supervisor.trans a.supervisor
  resetN h := (b.resetN h).trans (a.resetN h)
  hubTime h := (b.hubTime h).trans (a.hubTime h)
  timers h := (b.timers h).trans (a.timers h)
  sessionCounter h := (b.sessionCounter h).trans (a.sessionCounter h)
  regions h := (b.regions h).trans (a.regions h)
  linkUp p h g := (b.linkUp p h g).trans (a.linkUp p h g)
  stopped h := b.stopped (a.stopped h)
  records h := (b.records (a.stopped h)).trans (a.records h)
  stopId h := (b.stopId (a.stopped h)).trans (a.stopId h)
  faults h := b.faults (a.faults h)
  tables h := b.tables (a.tables h)
  replays h := b.replays (a.replays h)
  requestsOk h := b.requestsOk (a.requestsOk h)
  tags h := b.tags (a.tags h)

theorem Follows.keeps (a : Follows c s t) (b : Keeps t u) : Follows c s u := a.trans b.follows

theorem Follows.most (a : Follows c s t) (b : KeepsMost t u) : Follows c s u := a.trans b.follows

theorem Follows.refl : Follows c s s := (Keeps.refl s).follows

/-- A request can join the outstanding ones: its port has fewer than eight, and none with its tag (R32). -/
structure MayJoin (s : State) (r : ReqId) : Prop where
  room  : (s.outstanding r.port).length < Config.outstandingLimit
  fresh : ∀ x ∈ s.requests, x.id ≠ r

/-- Admitting a request that can join (R32). -/
theorem admitReq_follows {r : ReqId} (q : Req) (h : MayJoin s r) : Follows c s (s.admitReq r q) := by
  constructor <;> try first | rfl | exact id | exact fun _ => rfl | exact fun _ => List.Sublist.refl _ | exact fun _ _ _ => rfl
  · rintro ⟨a, b, c, d⟩; exact ⟨a, b, c, d⟩
  · rintro ⟨a, b, c, d⟩; exact ⟨a, b, c, d⟩
  · intro hr q'
    have h := h.room
    have h' := hr q'
    by_cases e : r.port = q'
    · subst e
      simp only [State.outstanding] at h ⊢
      simp [State.admitReq, List.filter_append]
      omega
    · simp only [State.outstanding] at h' ⊢
      simpa [State.admitReq, List.filter_append, e] using h'
  · intro ht
    unfold TagsOk State.admitReq
    rw [List.map_append, List.nodup_append]
    refine ⟨ht, by simp, fun a ha b hb => ?_⟩
    obtain ⟨x, hx, rfl⟩ := List.mem_map.1 ha
    simp only [List.map_cons, List.map_nil, List.mem_singleton] at hb
    subst hb
    exact h.fresh x hx

theorem admission_join {k : Kind} {tag : Byte} {g : Bool} (h : s.admission p k tag g = none) : MayJoin s ⟨p, tag⟩ := by
  unfold State.admission at h
  split at h
  · cases h
  · split at h <;> [cases h; split at h] <;> [cases h; split at h] <;> [cases h; split at h]
    · cases h
    · rename_i ht h'
      refine ⟨Nat.lt_of_not_le h', fun x hx e => ht ?_⟩
      exact List.any_eq_true.2 ⟨x, List.mem_filter.2 ⟨hx, by simp [e]⟩, by simp [e]⟩

/-- A request's frame keeps what taking it keeps, from a state in which it can join the outstanding ones (R32, R33). -/
theorem onRequest_follows {α : Type} (f : RxFrame) (k : Kind) {operand : State → Option α} {take : State → α → State}
    (h : ∀ t a, MayJoin t ⟨p, f.tag⟩ → Follows c t (take t a)) :
    Follows c s (s.onRequest p f k operand take) := by
  unfold State.onRequest State.onSequenced State.onGoodFrame
  split
  · refine (restartKeepalive_keeps s p).follows.trans ?_
    dsimp only
    split
    · refine (acceptSeq_keeps _ p).follows.trans ?_
      split
      · exact (reply_keeps ..).follows
      · rename_i hn _; exact h _ _ (admission_join hn)
      · exact Follows.refl
    · exact (rejectSeq_keeps ..).follows
  · exact Follows.refl

/-- The same for a request that takes no place among the outstanding ones. -/
theorem onRequest_keepsTake {α : Type} {d b : Prop} (f : RxFrame) (k : Kind) {operand : State → Option α}
    {take : State → α → State} (h : ∀ t a, KeepsIf True d b t (take t a)) : Follows c s (s.onRequest p f k operand take) :=
  onRequest_follows f k fun t a _ => (h t a).follows

/-! ## The commands that keep a request outstanding -/

theorem takeLineRequest_follows {id : ReqId} (q : Req) (l : Line) (need : Access) (d : Option DirectJob)
    (h : MayJoin s id) :
    Follows c s (s.takeLineRequest id q l need d) := by
  unfold State.takeLineRequest
  split
  · exact (reply_keeps ..).follows
  · split
    · exact (admitReq_follows q h).keeps ((handDirect_keeps ..).trans (settle_keeps _ _))
    · exact (admitReq_follows q h).keeps ((enterLine_keeps ..).trans (settle_keeps _ _))

theorem takeFlush_follows {id : ReqId} (l : Line) (h : MayJoin s id) :
    Follows c s (s.takeFlush id l) := by
  unfold State.takeFlush
  split
  · exact (reply_keeps ..).follows
  · exact (reply_keeps ..).follows
  · split
    · exact (admitReq_follows _ h).keeps ((enterLine_keeps ..).trans (settle_keeps _ _))
    · split
      · exact (admitReq_follows _ h).keeps (waitFlush_keeps ..)
      · exact (reply_keeps ..).follows

theorem takeSync_follows {id : ReqId} (h : MayJoin s id) :
    Follows c s (s.takeSync id) := by
  unfold State.takeSync
  split
  · exact (reply_keeps ..).follows
  · exact (admitReq_follows _ h).keeps (joinSync_keeps ..)

theorem takeStore_follows {id : ReqId} (q : Req) (d : DirectJob)
    (h : MayJoin s id) : Follows c s (s.takeStore id q d) := by
  unfold State.takeStore
  split
  · exact (reply_keeps ..).follows
  · exact (admitReq_follows q h).keeps ((handDirect_keeps ..).trans (settle_keeps _ _))

theorem takeGoodbye_follows {id : ReqId} (h : MayJoin s id) :
    Follows c s (s.takeGoodbye id) := by
  unfold State.takeGoodbye
  refine (admitReq_follows .goodbye h).keeps ?_
  exact ((setSession_keeps ..).trans (askRecalls_keeps ..)).trans (completeGoodbye_keeps ..)

/-! ## The commands that write a control register -/

theorem openSession_follows (f : RxFrame) (tag : Byte) (n : Nat) : Follows (.hello p f) s (s.openSession p tag n) := by
  have h0 : Follows (.hello p f) s { s with sessionCounter := nextSession s.sessionCounter } := by
    constructor <;> try first | rfl | exact id | exact fun _ => rfl | exact fun _ => List.Sublist.refl _ | exact fun _ _ _ => rfl
    · exact fun h => absurd rfl (h p f)
    · rintro ⟨a, b, c, d⟩; exact ⟨a, b, c, d⟩
    · rintro ⟨a, b, c, d⟩; exact ⟨a, b, c, d⟩
  have h1 (v : State) : Keeps v (match v.stopRecord with
      | some r => if v.mode = .stopped then v.postNotice p (hubStoppedNotice r.body.kind) else v
      | none => v) := by
    split
    · split
      · exact postNotice_keeps ..
      · exact Keeps.refl _
    · exact Keeps.refl _
  unfold State.openSession
  refine h0.keeps (Keeps.trans ?_ (h1 _))
  refine Keeps.trans ?_ (reply_keeps ..)
  refine Keeps.trans ?_ (Keeps.links_of _ p _ rfl id (List.prefix_refl _))
  exact setSession_keeps ..

theorem setRegion_follows (f : RxFrame) (i : RegionId) (r : Region) :
    Follows (.regionSet p f) s { s with regions := s.regions.set i r } := by
  constructor <;> try first | rfl | exact id | exact fun _ => rfl | exact fun _ => List.Sublist.refl _ | exact fun _ _ _ => rfl
  · exact fun h => absurd rfl (h p f)
  · rintro ⟨a, b, c, d⟩; exact ⟨a, b, c, d⟩
  · rintro ⟨a, b, c, d⟩; exact ⟨a, b, c, d⟩

theorem takeRegionSet_follows {id : ReqId} (f : RxFrame) (i : RegionId) (r : Region)
    (h : MayJoin s id) :
    Follows (.regionSet p f) s (s.takeRegionSet id i r) := by
  have h0 := setRegion_follows (p := p) (s := s) f i r
  have hd : Follows (.regionSet p f) s
      (({ s with regions := s.regions.set i r }.reply id.port id.tag .done []).postRegionChanged i) := by
    refine h0.keeps (Keeps.trans ?_ (postAll_keeps ..))
    exact reply_keeps ..
  have hw (ws : List WaitingRecall) : Follows (.regionSet p f) s
      (({ ({ s with regions := s.regions.set i r }.admitReq id (.regionSet i)) with completing := some i }.askRecalls
        ws).postRegionChanged i) := by
    refine (h0.trans (admitReq_follows (.regionSet i) ⟨h.room, h.fresh⟩)).keeps ?_
    refine Keeps.trans ?_ (postAll_keeps ..)
    refine Keeps.trans ?_ (askRecalls_keeps ..)
    exact Keeps.plain _
  unfold State.takeRegionSet
  split
  · exact (reply_keeps ..).follows
  · dsimp only
    split
    · split
      · exact hd
      · exact hw _
    · exact hd

theorem setTimers_follows (f : RxFrame) (tag : Byte) (x : Timers) :
    Follows (.setTimers p f) s ({ s with timers := x }.reply p tag .done []) := by
  refine Follows.keeps (t := { s with timers := x }) ?_ (reply_keeps ..)
  constructor <;> try first | rfl | exact id | exact fun _ => rfl | exact fun _ => List.Sublist.refl _ | exact fun _ _ _ => rfl
  · exact fun h => absurd rfl (h p f)
  · rintro ⟨a, b, c, d⟩; exact ⟨a, b, c, d⟩
  · rintro ⟨a, b, c, d⟩; exact ⟨a, b, c, d⟩

theorem setLink_follows (l : LinkUnit) (hc : c = .linkUp p ∨ c = .linkDown p) (hl : l.replay = []) :
    Follows c s (s.setLink p l) := by
  constructor <;> try first | rfl | exact id | exact fun _ => rfl | exact fun _ => List.Sublist.refl _
  · intro q h g
    by_cases e : p = q
    · subst e; rcases hc with rfl | rfl <;> contradiction
    · have : p.val ≠ q.val := fun e' => e (Fin.ext e')
      simp [this]
  · rintro ⟨a, b, c, d⟩; exact ⟨a, b, c, d⟩
  · rintro ⟨a, b, c, d⟩; exact ⟨a, b, c, d⟩
  · intro ho q
    by_cases e : p = q
    · subst e; simp [hl]
    · have : p.val ≠ q.val := fun e' => e (Fin.ext e')
      simpa [Vector.getElem_set, this] using ho q

/-! ## The memory's levels -/

theorem levels_follows (a b : Bool) : Follows c s { s with mrdy := a, merr := b } := by
  constructor <;> try first | rfl | exact id | exact fun _ => rfl | exact fun _ => List.Sublist.refl _ | exact fun _ _ _ => rfl
  · rintro ⟨a, b, c, d⟩; exact ⟨a, b, c, d⟩
  · rintro ⟨a, b, c, d⟩; exact ⟨a, b, c, d⟩

theorem onComplete_follows (k : JobOwner → Bool) (md : HalfWord) : Follows c s (s.onComplete k md) := by
  unfold State.onComplete
  dsimp only
  split
  · split
    · exact (levels_follows true s.merr).most (((endJob_keeps _).most.trans (completeJob_keeps ..)).trans (settle_keeps _ _).most)
    · exact Follows.refl
  · exact levels_follows true s.merr

theorem endFailed_keeps (s before : State) (j : Job) (x : StoreCause) : KeepsMost s (s.endFailed before j x) :=
  ((endJob_keeps _).most.trans (failJob_keeps ..)).trans (settle_keeps _ _).most

theorem onFailure_follows (k : JobOwner → Bool) (x : StoreCause) : Follows c s (s.onFailure k x) := by
  cases x with
  | storeError =>
    show Follows c s (s.onError k)
    unfold State.onError
    dsimp only
    split
    · split
      · exact (levels_follows s.mrdy true).most (endFailed_keeps ..)
      · exact Follows.refl
    · exact levels_follows s.mrdy true
  | storeTimeout =>
    show Follows c s (s.onTimeout k)
    unfold State.onTimeout
    split
    · split
      · exact (endFailed_keeps ..).follows
      · exact Follows.refl
    · exact Follows.refl

theorem onHalfWord_follows (md : HalfWord) : Follows c s (s.onHalfWord md) := by
  unfold State.onHalfWord
  dsimp only
  split
  · split
    · exact Follows.refl
    · exact (levels_follows true s.merr).keeps (beginAccess_keeps ..)
  · exact levels_follows true s.merr

theorem onMemoryQuiet_follows : Follows c s s.onMemoryQuiet := by
  unfold State.onMemoryQuiet
  dsimp only
  split
  · split
    · exact levels_follows false false
    · exact (levels_follows false false).keeps (beginAccess_keeps ..)
  · exact levels_follows false false

/-- What is reached is taken, and only that (R74, R171). -/
theorem takeReached_keeps (s : State) : KeepsMost s s.takeReached :=
  (KeepsMost.foldl takeDeadline_keeps _ _).trans (KeepsMost.foldl takeExpiry_keeps _ _)

/-- Hub time moves on by its own command alone (R187). -/
theorem hubTime_follows (n : Time) : Follows .hubTimeAdvance s { s with hubTime := n } := by
  constructor <;> try first | rfl | exact id | exact fun _ => rfl | exact fun _ => List.Sublist.refl _ | exact fun _ _ _ => rfl
  · exact fun h => absurd rfl h
  · rintro ⟨a, b, c, d⟩; exact ⟨a, b, c, d⟩
  · rintro ⟨a, b, c, d⟩; exact ⟨a, b, c, d⟩

/-! ## Every command -/

theorem ite_follows {b : Prop} [Decidable b] (h : Follows c s t) : Follows c s (if b then t else s) := by
  split
  · exact h
  · exact Follows.refl

theorem onResolve_follows (a : Action) (f : RxFrame) {effect : State → FaultRecord → Option LineData → State}
    (h : ∀ t r x, KeepsMost t (effect t r x)) : Follows c s (s.onResolve a p f effect) :=
  onRequest_keepsTake f .resolve fun t x => takeResolve_keeps t p a f.tag x.1 x.2 h

/-- What every command but RESTART and POWER_ON_RESET keeps. -/
theorem exec_follows (c : Instr) (hr : ∀ p f, c ≠ .restart p f) (hp : ∀ a b, c ≠ .powerOnReset a b)
    (h : exec c s = .next t) : Follows c s t := by
  cases c <;> cases h
  case restart p f => exact absurd rfl (hr p f)
  case powerOnReset a b => exact absurd rfl (hp a b)
  case readWords | writeWords | acquireRead | acquireWrite | upgrade =>
    exact onRequest_follows _ _ fun t x h => takeLineRequest_follows _ _ _ _ h
  case release => exact onRequest_keepsTake _ _ fun t x => takeRelease_keeps ..
  case prefetch => exact onRequest_keepsTake _ _ fun t x => takePrefetch_keeps ..
  case flush => exact onRequest_follows _ _ fun t x h => takeFlush_follows _ h
  case sync => exact onRequest_follows _ _ fun t x h => takeSync_follows h
  case recallAnswer => exact (onSequenced_keeps _ _ _ fun t => onAnswer_keeps ..).follows
  case hello f =>
    refine onRequest_follows _ _ fun t x h => ?_
    split
    · exact openSession_follows f ..
    · exact (reply_keeps ..).follows
  case goodbye => exact onRequest_follows _ _ fun t x h => takeGoodbye_follows h
  case noticeAck => exact onRequest_keepsTake _ _ fun t x => takeNoticeAck_keeps ..
  case setThreshold => exact onRequest_keepsTake _ _ fun t x => takeThreshold_keeps ..
  case regionQuery | hubStatus | faultList => exact onRequest_keepsTake _ _ fun t x => reply_keeps ..
  case setTimers => exact onRequest_follows _ _ fun t x h => setTimers_follows _ _ _
  case fence => exact onRequest_keepsTake _ _ fun t x => takeFence_keeps ..
  case unfence => exact onRequest_keepsTake _ _ fun t x => takeUnfence_keeps ..
  case regionSet => exact onRequest_follows _ _ fun t x h => takeRegionSet_follows _ _ _ h
  case faultRead => exact onRequest_keepsTake _ _ fun t x => takeFaultRead_keeps ..
  case resolveRetry => exact onResolve_follows _ _ fun t r x => retryRecord_keeps ..
  case resolveSupply => exact onResolve_follows _ _ fun t r x => supplyRecord_keeps ..
  case resolveFail => exact onResolve_follows _ _ fun t r x => failRecord_keeps ..
  case resolveComplete => exact onResolve_follows _ _ fun t r x => dropRecord_keeps ..
  case resolveAbandon => exact onResolve_follows _ _ fun t r x => dropRecord_keeps ..
  case resolveRevert => exact onResolve_follows _ _ fun t r x => revertRecord_keeps ..
  case supplyLine => exact onRequest_keepsTake _ _ fun t x => takeSupplyLine_keeps ..
  case storeRead | storeWrite => exact onRequest_follows _ _ fun t x h => takeStore_follows _ _ h
  case unknownKindFrame => exact (onSequenced_keeps _ _ _ fun t => reply_keeps ..).follows
  case ping => exact (onGoodFrame_keeps _ _ fun t => sendPong_keeps ..).follows
  case replayRequest =>
    refine (onGoodFrame_keeps (d := True) (f := False) _ _ fun t => ?_).follows
    split
    · exact takeReplay_keeps ..
    · exact (Keeps.refl t).most
  case linkRestart =>
    refine (onGoodFrame_keeps (d := False) (f := False) _ _ fun t => ?_).follows
    split
    · exact takeLinkRestart_keeps ..
    · exact (Keeps.refl t).rest
  case discardedLinkFrame => exact (onGoodFrame_keeps _ _ fun t => Keeps.refl t).follows
  case damagedFrame => exact ite_follows (rejectSeq_keeps ..).follows
  case unexpectedSequence =>
    split
    · exact Follows.refl
    · exact (onSequenced_keeps _ _ _ fun t => Keeps.refl t).follows
  case linkUp => exact ite_follows ((setLink_follows _ (.inl rfl) rfl).keeps (setSession_keeps ..))
  case linkDown =>
    exact ite_follows (((endSession_keeps ..).follows.trans (setLink_follows _ (.inr rfl) rfl)).keeps (settle_keeps _ _))
  case keepaliveExpired => exact ite_follows (takeExpiry_keeps ..).follows
  case recallTimeout => exact ite_follows (takeDeadline_keeps ..).follows
  case storeTimeout => exact onFailure_follows (fun _ => true) .storeTimeout
  case fillFailed x => exact onFailure_follows JobOwner.isFill x
  case drainFailed x => exact onFailure_follows JobOwner.isDrain x
  case directJobFailed x => exact onFailure_follows JobOwner.isDirect x
  case fillComplete | drainComplete | directJobComplete => exact onComplete_follows ..
  case grant => exact ite_follows (arbitrate_keeps s).follows
  case waiterService => exact ite_follows ((service_keeps ..).trans (settle_keeps _ _)).follows
  case allocation => exact ite_follows (((serveAlloc_keeps s).trans (arbitrate_keeps _)).trans (complete_keeps _)).follows
  case waitingRecallOpen => exact ite_follows (openWaiting_keeps s).follows
  case journalSpaceService => exact ite_follows (settle_keeps s s).follows
  case syncListAnswer => exact ite_follows ((examineSync_keeps s).trans (complete_keeps _)).follows
  case goodbyeCompletion => exact ite_follows (completeGoodbye_keeps ..).follows
  case regionSetCompletion => exact ite_follows (complete_keeps s).follows
  case notice => exact ite_follows (deliverNotice_keeps ..).follows
  case resetNLow =>
    constructor <;> try first | rfl | exact id | exact fun _ => rfl | exact fun _ => List.Sublist.refl _ | exact fun _ _ _ => rfl
    · exact fun h => absurd rfl h
    · rintro ⟨a, b, c, d⟩; exact ⟨a, b, nofun, nofun⟩
    · rintro ⟨a, b, c, d⟩; exact ⟨a, b, c, d⟩
  case hubTimeAdvance => exact ite_follows (.trans (takeReached_keeps s).follows (hubTime_follows (s := s.takeReached) _))
  case halfWordAnswered => exact onHalfWord_follows _
  case mrdyMerrInactive => exact onMemoryQuiet_follows
  case frameTransmitted p =>
    refine ite_follows (KeepsIf.follows (d := False) (f := True) ?_)
    exact Keeps.links_if s p _ rfl id (False.elim ·)

end Sys2Proof.Machine
end

