-- ==== Sys2Proof/Laws/LawfulCommands.lean ====
section
/-! SUPPORT. The laws of coherence for revocation and for what admitted requests and events do. -/

namespace Sys2Proof.Machine

variable {s : State} {p : Port} {l : Line} {c : Core} {W : List WaitingRecall}

/-! ## Revocation -/

/-- Every core changes in the same way, which keeps its activity, its record and a copy without data. -/
theorem Lawful.mapCores {v : View} (h : Lawful v W) (g : Core → Core) {W' : List WaitingRecall} (hs : W'.Sublist W)
    (hok : ∀ c : Core, c.Ok → (g c).Ok) (ht : ∀ w ∈ W', ∀ c : Core, c.Target w → (g c).Target w)
    (hr : ∀ c, (g c).recordId = c.recordId) (ha : ∀ c, (g c).activity = c.activity)
    (hc : ∀ c : Core, c.Ok → c.copy.data?.isSome = false → (g c).copy = c.copy) :
    Lawful { v with core := fun l => (v.core l).map g } W' :=
  { h.sub hs with
    cores := fun l c hl => by
      obtain ⟨d, hd, rfl⟩ := Option.map_eq_some_iff.1 hl
      exact hok d (h.cores l d hd)
    targets := fun w hw => by
      obtain ⟨d, hd, hx⟩ := h.targets w (hs.subset hw)
      exact ⟨g d, Option.map_eq_some_iff.2 ⟨d, hd, rfl⟩, ht w hw d hx⟩
    filling := fun l hl => by
      obtain ⟨d, hd, hx⟩ := h.filling l hl
      exact ⟨g d, Option.map_eq_some_iff.2 ⟨d, hd, rfl⟩, (ha d).trans hx⟩
    lines := fun r hm l hl => by
      obtain ⟨d, hd, hi, hf⟩ := h.lines r hm l hl
      refine ⟨g d, Option.map_eq_some_iff.2 ⟨d, hd, rfl⟩, (hr d).trans hi, ?_⟩
      have hn : d.copy.data?.isSome = false := Bool.eq_false_iff.2 fun e => h.unnamed hd e r hm hl
      rw [ha, hc d (h.cores l d hd) hn]
      exact hf
    entries := fun l c id hl hi => by
      obtain ⟨d, hd, rfl⟩ := Option.map_eq_some_iff.1 hl
      exact h.entries l d id hd ((hr d).symm.trans hi) }

/-- A core once a port's holding is taken away (R76, R78). -/
def Core.drop (p : Port) (m : HubMode) (c : Core) : Core :=
  { c with holdings := c.holdings.set p .none
           copy := if c.holdings[p] == .write && m == .running then .poisoned else c.copy }

theorem set_get (v : Vector Holding 4) (p q : Port) (x : Holding) : (v.set p x)[q] = if q = p then x else v[q] := by
  by_cases e : q = p
  · subst e; simp
  · have : p.val ≠ q.val := fun h => e (Fin.ext h.symm)
    simp [this, e]

theorem Core.drop_ok (m : HubMode) (h : c.Ok) : (c.drop p m).Ok where
  alone a b ha hb := by
    simp only [Core.drop, set_get] at ha ⊢
    split
    · rfl
    · split at ha
      · cases ha
      · exact h.alone a b ha hb
  data q hq := by
    simp only [Core.drop, set_get] at hq ⊢
    split at hq
    · exact absurd rfl hq
    · rename_i e
      split
      · rename_i hw
        simp only [Bool.and_eq_true, beq_iff_eq] at hw
        exact absurd (h.alone p q hw.1 e) hq
      · exact h.data q hq
  empty := by
    simp only [Core.drop]
    split
    · rename_i hw
      simp only [Bool.and_eq_true, beq_iff_eq] at hw
      have hd := h.data p (by rw [hw.1]; simp)
      have hn : c.copy ≠ .empty := fun e => by simp [e, HubCopy.data?] at hd
      rw [← h.empty]
      simp [hn]
    · exact h.empty

theorem dropHoldings_view : (s.dropHoldings p).view =
    { s.view with core := fun l => (s.view.core l).map (Core.drop p s.mode) } := by
  refine View.mk.injEq .. |>.mpr ⟨funext fun x => ?_, rfl, rfl, rfl, rfl, rfl, rfl, rfl⟩
  show Option.map _ ((s.dropHoldings p).entry? x) = _
  have : (s.dropHoldings p).entry? x = (s.entry? x).map fun e => { e with
      holdings := e.holdings.set p .none
      copy := if e.holdings[p] == .write && s.mode == .running then .poisoned else e.copy } :=
    mapTable_entry? s (fun e => { e with
      holdings := e.holdings.set p .none
      copy := if e.holdings[p] == .write && s.mode == .running then .poisoned else e.copy }) (fun _ => rfl) x
  rw [this]
  show _ = ((s.entry? x).map Entry.core).map _
  rw [Option.map_map, Option.map_map]
  rfl

theorem dropHoldings_lawful (h : Lawful s.view W) : Lawful (s.dropHoldings p).view (W.filter fun w => w.port != p) := by
  rw [dropHoldings_view]
  refine h.mapCores (Core.drop p s.mode) List.filter_sublist (fun c hc => Core.drop_ok s.mode hc) (fun w hw c hc => ?_)
    (fun _ => rfl) (fun _ => rfl) fun c hc hn => ?_
  · have hp : w.port ≠ p := by simpa using (List.mem_filter.1 hw).2
    have hg : (c.drop p s.mode).holdings[w.port] = c.holdings[w.port] := by
      show (c.holdings.set p .none)[w.port] = _
      rw [set_get, if_neg hp]
    exact ⟨by rw [hg]; exact hc.holder, fun hk => by rw [hg]; exact hc.writer hk⟩
  · simp only [Core.drop]
    split
    · rename_i hw
      simp only [Bool.and_eq_true, beq_iff_eq] at hw
      have hd := hc.data p (by rw [hw.1]; simp)
      rw [hn] at hd; cases hd
    · rfl

theorem markPoisoned_view (ls : List Line) (id : Byte) : (s.markPoisoned ls id).view =
    { s.view with core := fun l => (s.view.core l).map fun c => if l ∈ ls then { c with recordId := some id } else c } := by
  refine View.mk.injEq .. |>.mpr ⟨funext fun x => ?_, rfl, rfl, rfl, rfl, rfl, rfl, rfl⟩
  show Option.map _ ((s.markPoisoned ls id).entry? x) = _
  have : (s.markPoisoned ls id).entry? x = (s.entry? x).map fun e => if ls.contains e.line then { e with recordId := some id } else e :=
    mapTable_entry? s (fun e => if ls.contains e.line then { e with recordId := some id } else e)
      (fun e => by split <;> rfl) x
  rw [this]
  show _ = ((s.entry? x).map Entry.core).map _
  cases he : s.entry? x with
  | none => rfl
  | some e =>
    have hl := (entry?_some he).2
    by_cases hm : x ∈ ls <;> simp [hl, hm, Entry.core]

theorem mem_writtenBy (hn : (s.table.map Entry.line).Nodup) : l ∈ s.writtenBy p ↔ ∃ c, s.view.core l = some c ∧ c.holdings[p] = .write := by
  unfold State.writtenBy
  rw [mem_sortLines]
  constructor
  · intro h
    obtain ⟨e, he, rfl⟩ := List.mem_map.1 h
    obtain ⟨he, hw⟩ := List.mem_filter.1 he
    exact ⟨_, entry_core (entry?_mem hn he), beq_iff_eq.1 hw⟩
  · rintro ⟨c, hc, hw⟩
    obtain ⟨e, he, rfl⟩ := core_entry hc
    obtain ⟨hm, rfl⟩ := entry?_some he
    exact List.mem_map.2 ⟨e, List.mem_filter.2 ⟨hm, beq_iff_eq.2 hw⟩, rfl⟩

/-- The holdings of a revoked port are gone: the laws hold of the recalls to other ports. -/
theorem revokeHoldings_lawful (x : Cause) (h : Good s) :
    Lawful (s.revokeHoldings p x).view (s.outstandingRecalls.filter fun w => w.port != p) ∧
      (s.revokeHoldings p x).outstandingRecalls = s.outstandingRecalls := by
  have hd := dropHoldings_lawful (p := p) h.sound
  unfold State.revokeHoldings
  dsimp only
  have mem (y : Line) : y ∈ s.writtenBy p ↔ ∃ c, s.view.core y = some c ∧ c.holdings[p] = .write := mem_writtenBy h.tables.lines
  generalize s.writtenBy p = ls at mem ⊢
  by_cases hne : (if s.mode = .running then ls else []) = []
  · rw [if_pos hne]; exact ⟨hd, rfl⟩
  · rw [if_neg hne]
    have hm : s.mode = .running := by by_contra e; simp [e] at hne
    rw [if_pos hm]
    refine ⟨?_, createRecord_out _⟩
    refine createRecord_lawful (v := (s.dropHoldings p).view) (markPoisoned_view ls _) hd hm (fun y hy => ?_) (fun y hy => ?_) nofun
    · have hy : y ∉ ls := hy
      simp [hy]
    · obtain ⟨c, hc, hw⟩ := (mem y).1 hy
      have ok := h.sound.cores y c hc
      have hdata := ok.data p (by rw [hw]; simp)
      refine ⟨fun r hr hl => h.sound.unnamed hc hdata r hr hl, fun hf => ?_, fun w hw' hwl => ?_, ?_⟩
      · have := h.sound.fillJob hc hf
        have he := ok.empty.2 (.inl this)
        simp [he, HubCopy.data?] at hdata
      · obtain ⟨hw1, hw2⟩ := List.mem_filter.1 hw'
        have hp : w.port ≠ p := by simpa using hw2
        exact (h.sound.target hc hw1 hwl).holder (ok.alone p w.port hw hp)
      · have hy : y ∈ ls := hy
        refine ⟨{ c.drop p s.mode with recordId := some _ }, ?_, ?_, rfl, ?_⟩
        · show ((s.dropHoldings p).view.core y).map _ = _
          rw [dropHoldings_view]
          show ((s.view.core y).map _).map _ = _
          rw [hc]
          simp only [Option.map_some, hy, if_true]
          rfl
        · have := Core.drop_ok (p := p) s.mode ok
          exact ⟨this.alone, this.data, this.empty⟩
        · simp [FaultRecord.Fits, Core.drop, hw, hm]

theorem leavePlaces_same : Same s (s.leavePlaces p) := by
  unfold State.leavePlaces
  refine Same.trans ?_ (clearPass_same _)
  refine ⟨View.mk.injEq .. |>.mpr ⟨funext fun x => ?_, rfl, rfl, ?_, ?_, rfl, rfl, rfl⟩, rfl⟩
  · show Option.map _ (State.entry? _ x) = ((s.entry? x).map Entry.core)
    have : ({ s with jspace := s.leaveFlushSpace p
                     table := s.table.map fun e => { e with waiters := e.waiters.filter fun r => r.port != p }
                     allocQueue := s.allocQueue.filter fun r => r.port != p
                     syncList := s.syncList.filter fun i => i.id.port != p
                     directQueue := s.directQueue.filter fun d => d.id.port != p
                     job := s.job.map (Job.abandonBy p) } : State).entry? x =
        (s.entry? x).map fun e => { e with waiters := e.waiters.filter fun r => r.port != p } :=
      mapTable_entry? s (fun e => { e with waiters := e.waiters.filter fun r => r.port != p }) (fun _ => rfl) x
    rw [this, Option.map_map]
    rfl
  · show State.fillJobs _ = s.fillJobs
    simp only [State.fillJobs]
    cases s.job with
    | none => rfl
    | some j => 
      unfold Job.abandonBy
      cases ho : j.owner with
      | direct op id orphan => by_cases hp : id.port = p <;> simp [hp, ho]
      | fill => simp [ho]
      | drain q => simp [ho]
  · show State.draining? _ = s.draining?
    simp only [State.draining?]
    cases s.job with
    | none => rfl
    | some j => 
      unfold Job.abandonBy
      cases ho : j.owner with
      | direct op id orphan => by_cases hp : id.port = p <;> simp [hp, ho]
      | fill => simp [ho]
      | drain q => simp [ho]

theorem resumeEntry_sound (h : Sound s) : Sound (s.resumeEntry l) := by
  unfold State.resumeEntry
  split
  · split
    · exact service_sound h
    · exact tellLineTable_sound h
  · exact h

theorem resumeEntries_sound (h : Sound s) : Sound s.resumeEntries := by
  unfold State.resumeEntries
  generalize sortLines _ = ls
  induction ls generalizing s with
  | nil => exact h
  | cons l ls ih => exact ih (resumeEntry_sound h)

theorem revoke_sound (x : Cause) (f : Bool) (h : Good s) : Sound (s.revoke p x f) := by
  obtain ⟨h1, h2⟩ := revokeHoldings_lawful (p := p) x h
  have hc : Sound (((s.revokeHoldings p x).closeRecallsTo p).leavePlaces p) :=
    leavePlaces_same.sound (closeRecallsTo_sound (by rw [h2]; exact h1))
  unfold State.revoke
  dsimp only
  refine resumeEntries_sound ?_
  split
  · exact (answerFenced_same _ _).sound hc
  · exact (discardRequests_same _ _).sound hc

theorem revoke_good (x : Cause) (f : Bool) (h : Good s) : Good (s.revoke p x f) := h.of (revoke_keeps ..) (revoke_sound x f h)

theorem fencePort_good (x : Cause) (h : Good s) : Good (s.fencePort p x) := by
  refine h.of (fencePort_keeps ..) ?_
  unfold State.fencePort
  split
  · have h1 : Good ((s.setSession p { s.sessions[p] with state := .fenced }).setLink p { s.links[p] with keepalive := none }) :=
      ⟨⟨h.tables.entries, h.tables.lines, h.tables.recalls, h.tables.journal⟩, ((setSession_same ..).trans (setLink_same ..)).sound h.sound⟩
    have h2 := (fenceNotices_same _ p x).sound (revoke_sound (p := p) x true h1)
    dsimp only
    split
    · exact h2
    · exact (postNotice_same ..).sound h2
  · exact h.sound

theorem endSession_sound (n : SessionState) (h : Good s) : Sound (s.endSession p n) := by
  unfold State.endSession
  dsimp only
  refine (Same.trans (Same.trans (setSession_same ..) (setNotices_same ..)) (setLink_same ..)).sound ?_
  split
  · exact revoke_sound _ _ h
  · exact (discardRequests_same _ _).sound h.sound

theorem endSession_good (n : SessionState) (h : Good s) : Good (s.endSession p n) := h.of (endSession_keeps ..) (endSession_sound n h)

/-! ## Data requests -/

theorem Good.same {d f : Prop} {t : State} (h : Good s) (k : KeepsIf True d f s t) (e : Same s t) : Good t := h.of k (e.sound h.sound)

theorem holding_core (h : s.holding l p ≠ .none) : ∃ c, s.view.core l = some c ∧ c.holdings[p] ≠ .none := by
  unfold State.holding at h
  split at h
  · rename_i e he; exact ⟨_, entry_core he, h⟩
  · exact absurd rfl h

theorem outWithout_of {t : State} (h : t.outstandingRecalls = s.outstandingRecalls) : t.outWithout l p = s.outWithout l p := by
  unfold State.outWithout; rw [h]

theorem recallOutstanding_of {t : State} (h : t.outstandingRecalls = s.outstandingRecalls) (hn : t.recallOutstanding l p = false) :
    s.recallOutstanding l p = false := by
  rw [recallOutstanding_false] at hn ⊢
  rw [← h]; exact hn

/-- The end of a Release, once the holding is gone and its data taken. -/
theorem releaseEnd_good {u : State} (tag : Byte) (h : Good s) (hk : Keeps s u) (hu : Lawful u.view (s.outWithout l p))
    (ho : u.outstandingRecalls = s.outstandingRecalls) :
    Good ((if (u.reply p tag .done []).recallOutstanding l p then (u.reply p tag .done []).closeRecall l p
      else u.reply p tag .done []).settle s) := by
  have h3 : Lawful (u.reply p tag .done []).view ((u.reply p tag .done []).outWithout l p) := by
    rw [(reply_same u p tag .done []).view, outWithout_of (((reply_same u p tag .done []).out).trans ho)]
    exact hu
  have hk3 := hk.trans (reply_keeps u p tag .done [])
  refine settle_good _ ?_
  split
  · exact ⟨(hk3.trans (closeRecall_keeps ..)).tables trivial h.tables, closeRecall_sound h3⟩
  · rename_i hn
    rw [outWithout_unasked (Bool.eq_false_iff.2 hn)] at h3
    exact ⟨hk3.tables trivial h.tables, h3⟩

theorem takeRelease_good (tag : Byte) (d : Option LineData) (h : Good s) : Good (s.takeRelease p tag l d) := by
  unfold State.takeRelease
  split
  · exact h.same (reply_keeps ..) (reply_same ..)
  · rename_i hk
    have hh : s.holding l p ≠ .none := by
      intro e; simp [State.checkHolding, e, holdingCheck] at hk
    obtain ⟨c, hc, hp⟩ := holding_core hh
    have h1 := setHolding_none (p := p) h.sound hc
    have hd := (h.sound.cores l c hc).data p hp
    cases d with
    | none => exact releaseEnd_good tag h (setHolding_keeps ..) h1 rfl
    | some d =>
      exact releaseEnd_good tag h ((setHolding_keeps ..).trans (makeDirty_keeps ..))
        (makeDirty_lawful (c := { c with holdings := c.holdings.set p .none }) d .through h1
          (by rw [setHolding_view _ hc]; exact View.put_core ..) hd) (makeDirty_out ..)

theorem takePrefetch_good (tag : Byte) (h : Good s) : Good (s.takePrefetch p tag l) := by
  unfold State.takePrefetch
  split
  · exact h.same (reply_keeps ..) (reply_same ..)
  · split
    · exact h.same (reply_keeps ..) (reply_same ..)
    · rename_i hne
      have ha := Option.not_isSome_iff_eq_none.1 hne
      split
      · rename_i t ht
        have h1 := h.of (prefetchEntry_keeps _ _ ht ha) (prefetchEntry_sound h ht ha)
        exact settle_good _ (h1.same (reply_keeps ..) (reply_same ..))
      · exact h.same (reply_keeps ..) (reply_same ..)

theorem matchRecall_some {a : AnswerOperand} {r : Recall} (h : s.matchRecall p a = some r) :
    r ∈ s.recalls ∧ r.asked.line = a.line ∧ r.asked.port = p := by
  have := List.find?_some h
  simp only [Bool.and_eq_true, beq_iff_eq] at this
  exact ⟨List.mem_of_find?_eq_some h, this.1.2, this.2⟩

/-- What a matched answer leaves of a holding is at most what it was, and less than WRITE. -/
theorem answerEffect_holding {k : RecallKind} {x : Holding} (hk : k = .downgrade → x = .write) (o : AnswerOutcome) :
    (answerEffect k x o).1 ≠ .write ∧ ((answerEffect k x o).1 ≠ .none → x = .write) := by
  cases k with
  | downgrade => cases o <;> simp [answerEffect, downgradeEffect, hk rfl]
  | invalidate =>
    cases o with
    | data d => by_cases hx : x = .write <;> simp [answerEffect, invalidateEffect, hx]
    | clean => simp [answerEffect, invalidateEffect]
    | notHeld => simp [answerEffect, invalidateEffect]

theorem takeAnswer_good (a : AnswerOperand) (h : Good s) : Good (s.takeAnswer p a) := by
  unfold State.takeAnswer
  split
  · exact h
  · rename_i r hr
    obtain ⟨hm, hl, hp⟩ := matchRecall_some hr
    have hw : r.asked ∈ s.outstandingRecalls := List.mem_append_left _ (List.mem_map.2 ⟨r, hm, rfl⟩)
    obtain ⟨c, hc, ht⟩ := h.sound.targets _ hw
    rw [hl] at hc
    have hold : s.holding a.line p = c.holdings[p] := by
      obtain ⟨e, he, rfl⟩ := core_entry hc
      simp [State.holding, he, Entry.core]
    have hd := (h.sound.cores _ c hc).data p (hp ▸ ht.holder)
    obtain ⟨hx1, hx2⟩ := answerEffect_holding (k := r.asked.kind) (x := s.holding a.line p)
      (fun e => by rw [hold]; exact hp ▸ ht.writer e) a.outcome
    dsimp only
    generalize answerEffect r.asked.kind (s.holding a.line p) a.outcome = eff at hx1 hx2
    have h1 : Lawful (s.setHolding a.line p eff.1).view (s.outWithout a.line p) := by
      refine setHolding_lawful (h.sound.sub List.filter_sublist) hc (fun _ => hd) (fun hx q hq => ?_) (fun e => absurd e hx1)
        fun w hw hl' hp' => ?_
      · have := (h.sound.cores _ c hc).alone p q (by rw [← hold]; exact hx2 hx) hq
        rw [this]; simp
      · have := (List.mem_filter.1 hw).2
        simp [hl', hp'] at this
    refine settle_good _ ?_
    cases hdata : eff.2 with
    | none => exact h.of ((setHolding_keeps ..).trans (closeRecall_keeps ..)) (closeRecall_sound (s := s.setHolding a.line p eff.1) h1)
    | some d =>
      refine h.of (((setHolding_keeps ..).trans (makeDirty_keeps ..)).trans (closeRecall_keeps ..))
        (closeRecall_sound (s := (s.setHolding a.line p eff.1).makeDirty a.line d .through) ?_)
      show Lawful ((s.setHolding a.line p eff.1).makeDirty a.line d .through).view _
      rw [outWithout_of (s := s) (t := (s.setHolding a.line p eff.1).makeDirty a.line d .through) (makeDirty_out d .through)]
      exact makeDirty_lawful (c := { c with holdings := c.holdings.set p eff.1 }) d _ h1
        (by rw [setHolding_view _ hc]; exact View.put_core ..) hd

theorem onAnswer_good (f : RxFrame) (h : Good s) : Good (s.onAnswer p f) := by
  unfold State.onAnswer
  split
  · split
    · exact takeAnswer_good _ h
    · exact h.same (reply_keeps ..) (reply_same ..)
  · split
    · exact takeAnswer_good _ h
    · exact h.same (reply_keeps ..) (reply_same ..)
  · exact h.same (reply_keeps ..) (reply_same ..)
  · exact h.same (reply_keeps ..) (reply_same ..)
  · exact h

theorem takeDeadline_good (id : Byte) (h : Good s) : Good (s.takeDeadline id) := by
  unfold State.takeDeadline
  split
  · exact h
  · split
    · exact settle_good _ (fencePort_good _ h)
    · exact h

theorem takeExpiry_good (h : Good s) : Good (s.takeExpiry p) := by
  unfold State.takeExpiry
  split
  · split
    · exact settle_good _ (fencePort_good _ h)
    · exact h
  · exact h

theorem Good.foldl {α : Type} {f : State → α → State} (hf : ∀ t a, Good t → Good (f t a)) (as : List α) (h : Good s) :
    Good (as.foldl f s) := by
  induction as generalizing s with
  | nil => exact h
  | cons a as ih => exact ih (hf s a h)

theorem takeReached_good (h : Good s) : Good s.takeReached :=
  Good.foldl (fun _ _ h => takeExpiry_good h) _ (Good.foldl (fun _ id h => takeDeadline_good id h) _ h)

theorem admitReq_good (id : ReqId) (q : Req) (h : Good s) : Good (s.admitReq id q) :=
  ⟨⟨h.tables.entries, h.tables.lines, h.tables.recalls, h.tables.journal⟩, (admitReq_same ..).sound h.sound⟩

theorem takeLineRequest_good {id : ReqId} (q : Req) (need : Access) (d : Option DirectJob) (h : Good s) :
    Good (s.takeLineRequest id q l need d) := by
  unfold State.takeLineRequest
  split
  · exact h.same (reply_keeps ..) (reply_same ..)
  · have h1 := admitReq_good id q h
    split
    · exact settle_good _ (h1.same (handDirect_keeps ..) (handDirect_same ..))
    · exact settle_good _ (h1.of (enterLine_keeps ..) (enterLine_sound h1.sound))

theorem takeFlush_good {id : ReqId} (h : Good s) : Good (s.takeFlush id l) := by
  unfold State.takeFlush
  split
  · exact h.same (reply_keeps ..) (reply_same ..)
  · exact h.same (reply_keeps ..) (reply_same ..)
  · have h1 := admitReq_good id (.flush l) h
    split
    · exact settle_good _ (h1.of (enterLine_keeps ..) (enterLine_sound h1.sound))
    · split
      · exact h1.same (waitFlush_keeps ..) (waitFlush_same ..)
      · exact h.same (reply_keeps ..) (reply_same ..)

theorem takeSync_good {id : ReqId} (h : Good s) : Good (s.takeSync id) := by
  unfold State.takeSync
  split
  · exact h.same (reply_keeps ..) (reply_same ..)
  · exact (admitReq_good id .sync h).same (joinSync_keeps ..) (joinSync_same ..)

theorem takeStore_good {id : ReqId} (q : Req) (d : DirectJob) (h : Good s) : Good (s.takeStore id q d) := by
  unfold State.takeStore
  split
  · exact h.same (reply_keeps ..) (reply_same ..)
  · exact settle_good _ ((admitReq_good id q h).same (handDirect_keeps ..) (handDirect_same ..))

/-! ## Sessions, notices, regions, supervisor requests -/

theorem mem_heldBy (h : l ∈ s.heldBy p) (hn : (s.table.map Entry.line).Nodup) : ∃ c, s.view.core l = some c ∧ c.holdings[p] ≠ .none := by
  unfold State.heldBy at h
  rw [mem_sortLines] at h
  obtain ⟨e, he, rfl⟩ := List.mem_map.1 h
  obtain ⟨he, hw⟩ := List.mem_filter.1 he
  exact ⟨_, entry_core (entry?_mem hn he), by simpa [Entry.core] using hw⟩

theorem takeGoodbye_good {id : ReqId} (h : Good s) : Good (s.takeGoodbye id) := by
  unfold State.takeGoodbye
  dsimp only
  have h1 := (admitReq_good id .goodbye h).same (setSession_keeps _ id.port { s.sessions[id.port] with state := .closing }) (setSession_same ..)
  generalize (s.admitReq id .goodbye).setSession id.port { s.sessions[id.port] with state := .closing } = t at h1 ⊢
  have h2 := h1.of (askRecalls_keeps t _) (askRecalls_sound (ws := (t.heldBy id.port).map fun l =>
    { line := l, port := id.port, kind := .invalidate, purpose := .close }) h1.sound fun w hw => by
      obtain ⟨l, hl, rfl⟩ := List.mem_map.1 hw
      obtain ⟨c, hc, hh⟩ := mem_heldBy hl h1.tables.lines
      exact ⟨c, hc, hh, nofun⟩)
  exact h2.same (completeGoodbye_keeps ..) (completeGoodbye_same ..)

theorem regionRecalls_target {r : Region} {w : WaitingRecall} (hw : w ∈ s.regionRecalls r) :
    ∃ c, s.view.core w.line = some c ∧ c.Target w := by
  unfold State.regionRecalls at hw
  obtain ⟨e, he, hw⟩ := List.mem_flatMap.1 hw
  obtain ⟨l, -, hl⟩ := List.mem_filterMap.1 he
  obtain ⟨q, -, hq⟩ := List.mem_filterMap.1 hw
  obtain ⟨k, hk, rfl⟩ := Option.map_eq_some_iff.1 hq
  have e' := (entry?_some hl).2
  subst e'
  exact ⟨_, entry_core hl, (excessRecall_target hk).1, (excessRecall_target hk).2⟩

/-- A new session and its first notice change nothing of the data path. -/
theorem openSession_same (tag : Byte) (n : Nat) : Same s (s.openSession p tag n) := by
  have h1 (v : State) : Same v (match v.stopRecord with
      | some r => if v.mode = .stopped then v.postNotice p (hubStoppedNotice r.body.kind) else v
      | none => v) := by
    split
    · split
      · exact postNotice_same ..
      · exact Same.refl _
    · exact Same.refl _
  unfold State.openSession
  refine Same.trans ?_ (h1 _)
  exact ⟨rfl, rfl⟩

theorem takeRegionSet_sound {id : ReqId} (i : RegionId) (r : Region) (h : Sound s) : Sound (s.takeRegionSet id i r) := by
  have hs : Sound { s with regions := s.regions.set i r } :=
    Same.sound (s := s) (t := { s with regions := s.regions.set i r }) ⟨rfl, rfl⟩ h
  unfold State.takeRegionSet
  split
  · exact (reply_same ..).sound h
  · dsimp only
    generalize { s with regions := s.regions.set i r } = u at hs ⊢
    have done : Sound ((u.reply id.port id.tag .done []).postRegionChanged i) :=
      (postAll_same _ _).sound ((reply_same ..).sound hs)
    have wait : Sound (({ u.admitReq id (.regionSet i) with completing := some i }.askRecalls (u.regionRecalls r)).postRegionChanged i) := by
      refine (postAll_same _ _).sound (askRecalls_sound ?_ fun w hw => regionRecalls_target (s := u) hw)
      exact Same.sound (s := u) (t := { u.admitReq id (.regionSet i) with completing := some i }) ⟨rfl, rfl⟩ hs
    split
    · split
      · exact done
      · exact wait
    · exact done

theorem takeNoticeAck_same (tag n : Byte) : Same s (s.takeNoticeAck p tag n) := by
  unfold State.takeNoticeAck
  split
  · split
    · exact ((setNotices_same ..).trans (reply_same ..)).trans (deliverNotice_same ..)
    · exact reply_same ..
  · exact reply_same ..

theorem takeThreshold_same (tag : Byte) (n : Nat) : Same s (s.takeThreshold p tag n) :=
  ((setNotices_same ..).trans (reply_same ..)).trans (deliverNotice_same ..)

theorem takeFence_good (tag : Byte) (q : Port) (h : Good s) : Good (s.takeFence p tag q) := by
  unfold State.takeFence
  split
  · exact h.same (reply_keeps ..) (reply_same ..)
  · split
    · exact settle_good _ (fencePort_good _ (h.same (reply_keeps ..) (reply_same ..)))
    · exact h.same (reply_keeps ..) (reply_same ..)

theorem takeUnfence_same (tag : Byte) (q : Port) : Same s (s.takeUnfence p tag q) := by
  unfold State.takeUnfence
  split
  · exact reply_same ..
  · split
    · exact ((reply_same ..).trans (closeSession_same ..)).trans (sendLink_same ..)
    · exact reply_same ..

/-! ## Fault requests -/

theorem opened_body (r : FaultRecord) : r.opened.id = r.id ∧ r.opened.body = r.body := by
  unfold FaultRecord.opened; split <;> exact ⟨rfl, rfl⟩

theorem opened_retrying (r : FaultRecord) : r.opened.state = .retrying ↔ r.state = .retrying := by
  unfold FaultRecord.opened; split <;> simp_all

/-- Records that change by being read alone. -/
theorem openRecord_sound (id : Byte) (h : Sound s) : Sound (s.openRecord id) := by
  let g : FaultRecord → FaultRecord := fun r => if r.id = id then r.opened else r
  have gid (r) : (g r).id = r.id := by simp only [g]; split <;> simp [opened_body]
  have gbody (r) : (g r).body = r.body := by simp only [g]; split <;> simp [opened_body]
  have gret (r) : (g r).state = .retrying ↔ r.state = .retrying := by simp only [g]; split <;> simp [opened_retrying]
  have hrec : (s.openRecord id).view.records = s.view.records.map g := by
    simp only [View.records, State.view, State.openRecord, State.updateRecord, List.map_append]
    cases s.stopRecord <;> rfl
  have hmem {x} (hx : x ∈ (s.openRecord id).view.records) : ∃ y ∈ s.view.records, g y = x := by
    rw [hrec] at hx; exact List.mem_map.1 hx
  exact { cores := h.cores, targets := h.targets, one := h.one, recallIds := h.recallIds, line := h.line, seqs := h.seqs,
          fills := h.fills, filling := h.filling, draining := h.draining
          room := by simpa [State.view, State.openRecord, State.updateRecord] using h.room
          ids := by
            rw [hrec, List.map_map]
            refine (List.map_congr_left fun r _ => ?_) ▸ h.ids
            exact (gid r).symm
          lines := fun r hr l hl => by
            obtain ⟨y, hy, rfl⟩ := hmem hr
            rw [gbody] at hl
            obtain ⟨c, hc, hi, hf⟩ := h.lines y hy l hl
            refine ⟨c, hc, by rw [gid]; exact hi, ?_⟩
            unfold FaultRecord.Fits at hf ⊢
            rw [gbody]
            simp only [gret]
            exact hf
          entries := fun l c i hc hi => by
            obtain ⟨r, hr, e, hl⟩ := h.entries l c i hc hi
            exact ⟨g r, by rw [hrec]; exact List.mem_map.2 ⟨r, hr, rfl⟩, (gid r).trans e, by rw [gbody]; exact hl⟩
          drainSeqs := by
            rw [hrec, List.filterMap_map]
            refine (List.filterMap_congr fun r _ => ?_) ▸ h.drainSeqs
            simp [gbody]
          drains := fun r hr q hq => by
            obtain ⟨y, hy, rfl⟩ := hmem hr
            rw [gbody] at hq
            obtain ⟨k, hk, e, hd⟩ := h.drains y hy q hq
            refine ⟨k, hk, e, ?_⟩
            unfold FaultRecord.Drains at hd ⊢
            rw [gret]
            exact hd
          stop := fun r hr => by
            obtain ⟨y, hy, rfl⟩ := Option.map_eq_some_iff.1 (show s.stopRecord.map g = some r from hr)
            have := h.stop y hy
            exact ⟨fun e => this.1 ((gret y).1 e), this.2⟩ }

theorem takeFaultRead_sound (tag id : Byte) (part : Nat) (h : Sound s) : Sound (s.takeFaultRead p tag id part) := by
  unfold State.takeFaultRead
  split
  · exact (reply_same ..).sound h
  · split
    · exact openRecord_sound _ ((reply_same ..).sound h)
    · split <;> exact (reply_same ..).sound h

theorem queuedRecord?_mem {id : Byte} {r : FaultRecord} (h : s.queuedRecord? id = some r) : r ∈ s.faultQueue :=
  List.mem_of_find?_eq_some h

/-- An effect of Resolve keeps the laws of coherence on a record of the queue that is not RETRYING. -/
def Effect (e : State → FaultRecord → Option LineData → State) : Prop :=
  ∀ (t : State) (r : FaultRecord) (d : Option LineData), KeepsMost t (e t r d) ∧
    (Sound t → r ∈ t.faultQueue → r.state ≠ .retrying → Sound (e t r d))

theorem takeResolve_good {a : Action} {tag id : Byte} {d : Option LineData}
    {e : State → FaultRecord → Option LineData → State} (he : Effect e) (h : Good s) : Good (s.takeResolve a p tag id d e) := by
  unfold State.takeResolve
  split
  · exact h.same (reply_keeps ..) (reply_same ..)
  · rename_i r hr
    split
    · exact h.same (reply_keeps ..) (reply_same ..)
    · rename_i hk
      have hs : r.state ≠ .retrying := by
        intro e; simp [FaultRecord.checkResolve, e] at hk
      have h1 := h.of (he s r d).1 ((he s r d).2 h.sound (queuedRecord?_mem hr) hs)
      exact settle_good _ (h1.same (reply_keeps ..) (reply_same ..))

theorem takeSupplyLine_good (tag id : Byte) (d : LineData) (h : Good s) : Good (s.takeSupplyLine p tag id l d) := by
  unfold State.takeSupplyLine
  split
  · exact h.same (reply_keeps ..) (reply_same ..)
  · rename_i r hr
    split
    · exact h.same (reply_keeps ..) (reply_same ..)
    · rename_i hk
      have hm : l ∈ r.body.lostLines := by
        unfold FaultRecord.checkSupply at hk
        split at hk
        · cases hk
        · split at hk
          · cases hk
          · split at hk
            · cases hk
            · rename_i hc; simpa using hc
      have h1 := h.of (supplyLine_keeps ..) (supplyLine_sound d h.sound (queuedRecord?_mem hr) hm)
      exact settle_good _ (h1.same (reply_keeps ..) (reply_same ..))

/-! ## Link frames and bus events -/

theorem takeReplay_good (n : Byte) (h : Good s) : Good (s.takeReplay p n) := by
  unfold State.takeReplay
  split
  · exact h.same (Keeps.links_if (d := False) _ _ _ rfl id nofun) (setLink_same ..)
  · split
    · exact h
    · split
      · exact settle_good _ (fencePort_good _ h)
      · exact h

theorem takeLinkRestart_good (h : Good s) : Good (s.takeLinkRestart p) := by
  unfold State.takeLinkRestart
  dsimp only
  split
  · refine settle_good _ ?_
    refine Good.same ?_ (sendSessionEnd_keeps ..) (sendLink_same ..)
    refine Good.same ?_ (sendLink_keeps ..) (sendLink_same ..)
    exact (endSession_good _ h).same (restartLink_keeps ..) (setLink_same ..)
  · have h1 : Good ((s.setLink p s.links[p].restarted).answerLinkRestart p) :=
      (h.same (restartLink_keeps s p) (setLink_same ..)).same (sendLink_keeps ..) (sendLink_same ..)
    split
    · unfold State.resendNotice
      split
      · exact h1.same (sendNotice_keeps ..) (sendNotice_same ..)
      · exact h1
    · exact h1

theorem levels_good (a b : Bool) (h : Good s) : Good { s with mrdy := a, merr := b } :=
  ⟨⟨h.tables.entries, h.tables.lines, h.tables.recalls, h.tables.journal⟩, (Same.plain s).sound h.sound⟩

theorem take_kept (j : Job) (md : HalfWord) : (j.take md).owner = j.owner ∧ (j.take md).line = j.line := by
  unfold Job.take; split <;> exact ⟨rfl, rfl⟩

theorem onComplete_good (k : JobOwner → Bool) (md : HalfWord) (h : Good s) : Good (s.onComplete k md) := by
  unfold State.onComplete
  dsimp only
  split
  · rename_i j _ hj
    split
    · have h1 := levels_good true s.merr h
      refine settle_good _ (h1.of ((endJob_keeps _).most.trans (completeJob_keeps ..)) ?_)
      exact completeJob_sound (s := { s with mrdy := true }) h1.sound hj (take_kept j md).1 (take_kept j md).2
    · exact h
  · exact levels_good true s.merr h

theorem endFailed_good {t : State} {j : Job} (x : StoreCause) (h : Good s) (hj : s.job = some j) : Good (s.endFailed t j x) :=
  settle_good _ (h.of ((endJob_keeps _).most.trans (failJob_keeps ..)) (failJob_sound x h.sound hj))

theorem onFailure_good (k : JobOwner → Bool) (x : StoreCause) (h : Good s) : Good (s.onFailure k x) := by
  cases x with
  | storeError =>
    show Good (s.onError k)
    unfold State.onError
    dsimp only
    split
    · rename_i j _ hj
      split
      · exact endFailed_good (s := { s with merr := true }) _ (levels_good s.mrdy true h) hj
      · exact h
    · exact levels_good s.mrdy true h
  | storeTimeout =>
    show Good (s.onTimeout k)
    unfold State.onTimeout
    split
    · rename_i j _ hj
      split
      · exact endFailed_good _ h hj
      · exact h
    · exact h

theorem onHalfWord_good (md : HalfWord) (h : Good s) : Good (s.onHalfWord md) := by
  unfold State.onHalfWord
  dsimp only
  split
  · rename_i j _ hj
    split
    · exact h
    · have h1 := levels_good true s.merr h
      refine h1.same (beginAccess_keeps ..) (beginAccess_same (s := { s with mrdy := true }) hj ?_ ?_)
      · unfold Job.take Job.advance; (repeat' split) <;> rfl
      · unfold Job.take Job.advance; (repeat' split) <;> rfl
  · exact levels_good true s.merr h

theorem onMemoryQuiet_good (h : Good s) : Good s.onMemoryQuiet := by
  have h1 := levels_good false false h
  unfold State.onMemoryQuiet
  dsimp only
  split
  · rename_i j _ hj
    split
    · exact h1
    · exact h1.same (beginAccess_keeps ..) (beginAccess_same (s := { s with mrdy := false, merr := false }) hj rfl rfl)
  · exact h1

end Sys2Proof.Machine
end

