-- ==== Sys2Proof/Laws/LawfulStep.lean ====
section
/-! SUPPORT. The laws of coherence over one command. -/

namespace Sys2Proof.Machine

variable {s t : State} {p : Port}

theorem onGoodFrame_good {take : State → State} (h : Good s) (ht : ∀ t, Good t → Good (take t)) : Good (s.onGoodFrame p take) := by
  unfold State.onGoodFrame
  split
  · exact ht _ (h.same (restartKeepalive_keeps ..) (restartKeepalive_same ..))
  · exact h

theorem onSequenced_good {seq : Byte} {take : State → State} (h : Good s) (ht : ∀ t, Good t → Good (take t)) :
    Good (s.onSequenced p seq take) := by
  refine onGoodFrame_good h fun t hg => ?_
  split
  · exact ht _ (hg.same (acceptSeq_keeps ..) (acceptSeq_same ..))
  · exact hg.same (rejectSeq_keeps ..) (rejectSeq_same ..)

theorem onRequest_good {α : Type} (f : RxFrame) (k : Kind) {operand : State → Option α} {take : State → α → State} (h : Good s)
    (ht : ∀ t a, Good t → Good (take t a)) : Good (s.onRequest p f k operand take) := by
  refine onSequenced_good h fun t hg => ?_
  split
  · exact hg.same (reply_keeps ..) (reply_same ..)
  · exact ht _ _ hg
  · exact hg

theorem onResolve_good (a : Action) (f : RxFrame) {e : State → FaultRecord → Option LineData → State} (he : Effect e)
    (h : Good s) : Good (s.onResolve a p f e) := onRequest_good f .resolve h fun _ _ hg => takeResolve_good he hg

theorem ite_good {b : Prop} [Decidable b] (h : Good s) (ht : Good t) : Good (if b then t else s) := by
  split
  · exact ht
  · exact h

/-- A hub with nothing in its tables, journal, job, and fault unit. -/
theorem empty_good (h1 : s.table = []) (h2 : s.recalls = []) (h3 : s.recallWait = []) (h4 : s.journal = []) (h5 : s.job = none)
    (h6 : s.fillQueue = []) (h7 : s.faultQueue = []) (h8 : s.stopRecord = none) : Good s := by
  have hv : s.view = { core := fun _ => none, recallIds := [], journal := [], fillJobs := [], draining := none, queue := [],
                       stop := none, mode := s.mode } := by
    simp [State.view, State.entry?, State.fillJobs, State.draining?, *]
  refine ⟨⟨?_, ?_, ?_, ?_⟩, ?_⟩
  · simp [h1]
  · simp [h1]
  · simp [h2]
  · simp [h4]
  · unfold Sound
    rw [hv, show s.outstandingRecalls = [] by simp [State.outstandingRecalls, h2, h3]]
    constructor <;> simp [View.records]

theorem hub_good {n : Time} (h : Good s) : Good { s with hubTime := n } :=
  ⟨⟨h.tables.entries, h.tables.lines, h.tables.recalls, h.tables.journal⟩, Same.sound (s := s) ⟨rfl, rfl⟩ h.sound⟩

/-- Every command keeps the laws of coherence. -/
theorem exec_good (c : Instr) (hx : exec c s = .next t) (h : Good s) : Good t := by
  cases c <;> cases hx
  case restart p f =>
    refine onRequest_good _ _ h fun t x _ => ?_
    exact empty_good rfl rfl rfl rfl rfl rfl rfl rfl
  case powerOnReset a b => exact empty_good rfl rfl rfl rfl rfl rfl rfl rfl
  case readWords | writeWords | acquireRead | acquireWrite | upgrade =>
    exact onRequest_good _ _ h fun t x hg => takeLineRequest_good _ _ _ hg
  case release => exact onRequest_good _ _ h fun t x hg => takeRelease_good _ _ hg
  case prefetch => exact onRequest_good _ _ h fun t x hg => takePrefetch_good _ hg
  case flush => exact onRequest_good _ _ h fun t x hg => takeFlush_good hg
  case sync => exact onRequest_good _ _ h fun t x hg => takeSync_good hg
  case recallAnswer => exact onSequenced_good h fun t hg => onAnswer_good _ hg
  case hello p f =>
    refine onRequest_good _ _ h fun t x hg => ?_
    split
    · exact ⟨(openSession_follows (s := t) (p := p) f f.tag x.2).tables hg.tables, (openSession_same ..).sound hg.sound⟩
    · exact hg.same (reply_keeps ..) (reply_same ..)
  case goodbye => exact onRequest_good _ _ h fun t x hg => takeGoodbye_good hg
  case noticeAck => exact onRequest_good _ _ h fun t x hg => hg.same (takeNoticeAck_keeps ..) (takeNoticeAck_same ..)
  case setThreshold => exact onRequest_good _ _ h fun t x hg => hg.same (takeThreshold_keeps ..) (takeThreshold_same ..)
  case regionQuery | hubStatus | faultList => exact onRequest_good _ _ h fun t x hg => hg.same (reply_keeps ..) (reply_same ..)
  case setTimers =>
    refine onRequest_good _ _ h fun t x hg => ?_
    have h1 : Good { t with timers := x } :=
      ⟨⟨hg.tables.entries, hg.tables.lines, hg.tables.recalls, hg.tables.journal⟩, Same.sound (s := t) ⟨rfl, rfl⟩ hg.sound⟩
    exact h1.same (reply_keeps ..) (reply_same ..)
  case fence => exact onRequest_good _ _ h fun t x hg => takeFence_good _ _ hg
  case unfence => exact onRequest_good _ _ h fun t x hg => hg.same (takeUnfence_keeps ..) (takeUnfence_same ..)
  case regionSet p f =>
    refine onRequest_good _ _ h fun t x hg => ⟨?_, takeRegionSet_sound _ _ hg.sound⟩
    have h0 : TablesOk { t with regions := t.regions.set x.1 x.2 } := ⟨hg.tables.entries, hg.tables.lines, hg.tables.recalls, hg.tables.journal⟩
    unfold State.takeRegionSet
    split
    · exact (reply_keeps ..).tables trivial hg.tables
    · dsimp only
      generalize { t with regions := t.regions.set x.1 x.2 } = u at h0 ⊢
      have done : TablesOk ((u.reply p f.tag .done []).postRegionChanged x.1) :=
        ((reply_keeps ..).trans (postAll_keeps ..)).tables trivial h0
      have wait : TablesOk (({ u.admitReq ⟨p, f.tag⟩ (.regionSet x.1) with completing := some x.1 }.askRecalls (u.regionRecalls x.2)).postRegionChanged x.1) := by
        refine ((askRecalls_keeps ..).trans (postAll_keeps ..)).tables trivial ?_
        exact ⟨h0.entries, h0.lines, h0.recalls, h0.journal⟩
      split
      · split
        · exact done
        · exact wait
      · exact done
  case faultRead => exact onRequest_good _ _ h fun t x hg => hg.of (takeFaultRead_keeps ..) (takeFaultRead_sound _ _ _ hg.sound)
  case resolveRetry => exact onResolve_good _ _ (fun t r d => ⟨retryRecord_keeps .., retryRecord_sound d⟩) h
  case resolveSupply => exact onResolve_good _ _ (fun t r d => ⟨supplyRecord_keeps .., supplyRecord_sound d⟩) h
  case resolveFail => exact onResolve_good _ _ (fun t r d => ⟨failRecord_keeps .., failRecord_sound d⟩) h
  case resolveComplete => exact onResolve_good _ _ (fun t r d => ⟨dropRecord_keeps .., dropRecord_sound false d⟩) h
  case resolveAbandon => exact onResolve_good _ _ (fun t r d => ⟨dropRecord_keeps .., dropRecord_sound true d⟩) h
  case resolveRevert => exact onResolve_good _ _ (fun t r d => ⟨revertRecord_keeps .., fun hs hr _ => revertRecord_sound d hs hr⟩) h
  case supplyLine => exact onRequest_good _ _ h fun t x hg => takeSupplyLine_good _ _ _ hg
  case storeRead | storeWrite => exact onRequest_good _ _ h fun t x hg => takeStore_good _ _ hg
  case unknownKindFrame => exact onSequenced_good h fun t hg => hg.same (reply_keeps ..) (reply_same ..)
  case ping => exact onGoodFrame_good h fun t hg => hg.same (sendPong_keeps ..) (sendLink_same ..)
  case replayRequest =>
    refine onGoodFrame_good h fun t hg => ?_
    split
    · exact takeReplay_good _ hg
    · exact hg
  case linkRestart =>
    refine onGoodFrame_good h fun t hg => ?_
    split
    · exact takeLinkRestart_good hg
    · exact hg
  case discardedLinkFrame => exact onGoodFrame_good h fun t hg => hg
  case damagedFrame => exact ite_good h (h.same (rejectSeq_keeps ..) (rejectSeq_same ..))
  case unexpectedSequence =>
    split
    · exact h
    · exact onSequenced_good h fun t hg => hg
  case linkUp p =>
    refine ite_good h ⟨?_, ?_⟩
    · exact ⟨h.tables.entries, h.tables.lines, h.tables.recalls, h.tables.journal⟩
    · exact ((setLink_same s p _).trans (setSession_same ..)).sound h.sound
  case linkDown p =>
    refine ite_good h (settle_good _ ?_)
    have h1 := endSession_good (p := p) .down h
    exact ⟨⟨h1.tables.entries, h1.tables.lines, h1.tables.recalls, h1.tables.journal⟩, (setLink_same ..).sound h1.sound⟩
  case keepaliveExpired => exact ite_good h (takeExpiry_good h)
  case recallTimeout => exact ite_good h (takeDeadline_good _ h)
  case storeTimeout => exact onFailure_good (fun _ => true) .storeTimeout h
  case fillFailed x => exact onFailure_good JobOwner.isFill x h
  case drainFailed x => exact onFailure_good JobOwner.isDrain x h
  case directJobFailed x => exact onFailure_good JobOwner.isDirect x h
  case fillComplete | drainComplete | directJobComplete => exact onComplete_good _ _ h
  case grant => exact ite_good h (h.of (arbitrate_keeps s) (arbitrate_sound h.sound))
  case waiterService => exact ite_good h (settle_good _ (h.of (service_keeps ..) (service_sound h.sound)))
  case allocation =>
    have h1 := serveAlloc_good h
    have h2 := h1.of (arbitrate_keeps _) (arbitrate_sound h1.sound)
    exact ite_good h (h2.same (complete_keeps _) (complete_same _))
  case waitingRecallOpen => exact ite_good h (h.of (openWaiting_keeps s) (openWaiting_sound h.sound))
  case journalSpaceService => exact ite_good h (settle_good _ h)
  case syncListAnswer => exact ite_good h ((h.same (examineSync_keeps s) (examineSync_same s)).same (complete_keeps _) (complete_same _))
  case goodbyeCompletion => exact ite_good h (h.same (completeGoodbye_keeps ..) (completeGoodbye_same ..))
  case regionSetCompletion => exact ite_good h (h.same (complete_keeps s) (complete_same s))
  case notice => exact ite_good h (h.same (deliverNotice_keeps ..) (deliverNotice_same ..))
  case resetNLow => exact ⟨⟨h.tables.entries, h.tables.lines, h.tables.recalls, h.tables.journal⟩, Same.sound (s := s) ⟨rfl, rfl⟩ h.sound⟩
  case hubTimeAdvance => exact ite_good h (hub_good (takeReached_good h))
  case halfWordAnswered => exact onHalfWord_good _ h
  case mrdyMerrInactive => exact onMemoryQuiet_good h
  case frameTransmitted p => exact ite_good h (h.same (Keeps.links_if (d := False) s p _ rfl id nofun) (setLink_same ..))

/-! ## The laws as the statements say them -/

theorem holding_view {l : Line} {c : Core} (h : s.view.core l = some c) : s.holding l p = c.holdings[p] := by
  obtain ⟨e, he, rfl⟩ := core_entry h
  simp [State.holding, he, Entry.core]

theorem core_mem (hn : (s.table.map Entry.line).Nodup) {e : Entry} (he : e ∈ s.table) : s.view.core e.line = some e.core :=
  entry_core (entry?_mem hn he)

theorem draining?_some {q : Seq} : s.draining? = some q ↔ ∃ j, s.job = some j ∧ j.owner = .drain q := by
  unfold State.draining?
  cases hj : s.job with
  | none => simp
  | some j => cases ho : j.owner <;> simp [ho]

theorem InOrder.good (h : InOrder s) : Good s := by
  have hn := h.tables.lines
  refine ⟨h.tables, ?_⟩
  exact {
    cores := fun l c hc => by
      obtain ⟨e, he, rfl⟩ := core_entry hc
      have hm := (entry?_some he).1
      exact ⟨h.holdings.alone e hm, h.holdings.data e hm, h.holdings.empty e hm⟩
    targets := fun w hw => by
      obtain ⟨c, hc, -⟩ := holding_core (h.recalls.holder w hw)
      exact ⟨c, hc, by rw [← holding_view hc]; exact h.recalls.holder w hw,
        fun hk => by rw [← holding_view hc]; exact h.recalls.writer w hw hk⟩
    one := h.recalls.one
    recallIds := h.recalls.ids
    line := h.journal.line
    seqs := h.journal.seqs
    fills := h.jobs.fills
    filling := fun l hl => by
      obtain ⟨e, he, rfl, ha⟩ := h.jobs.filling l hl
      exact ⟨_, core_mem hn he, ha⟩
    draining := fun q hq => by
      obtain ⟨j, hj, ho⟩ := draining?_some.1 hq
      exact h.jobs.draining j q hj ho
    room := h.faults.queue
    ids := h.records.ids
    lines := fun r hr l hl => by
      obtain ⟨e, he, rfl, hi⟩ := h.records.lines r hr l hl
      exact ⟨_, core_mem hn he, hi⟩
    entries := fun l c id hc hi => by
      obtain ⟨e, he, rfl⟩ := core_entry hc
      obtain ⟨hm, rfl⟩ := entry?_some he
      exact h.records.entries e hm id hi
    drainSeqs := h.records.seqs
    drains := h.records.drains
    stop := fun r hr => ⟨h.records.stop r hr, h.faults.slot.1 (by rw [show s.stopRecord = some r from hr]; rfl)⟩ }

/-- What the laws of coherence say of the table, the recalls, the journal, the jobs and the records. -/
theorem Good.orders (h : Good s) : HoldingsOk s ∧ RecallsOk s ∧ JournalOk s ∧ JobsOk s ∧ RecordsOk s := by
  have hn := h.tables.lines
  have hs := h.sound
  refine ⟨⟨fun e he => ?_, fun e he => ?_, fun e he => ?_⟩, ⟨fun w hw => ?_, fun w hw hk => ?_, hs.one, hs.recallIds⟩,
    ⟨hs.line, hs.seqs⟩, ⟨hs.fills, fun l hl => ?_, fun j q hj ho => ?_⟩,
    ⟨hs.ids, fun r hr l hl => ?_, fun e he id hi => ?_, hs.drainSeqs, hs.drains, fun r hr => (hs.stop r hr).1⟩⟩
  · exact (hs.cores _ _ (core_mem hn he)).alone
  · exact (hs.cores _ _ (core_mem hn he)).data
  · exact (hs.cores _ _ (core_mem hn he)).empty
  · obtain ⟨c, hc, ht⟩ := hs.targets w hw
    rw [holding_view hc]; exact ht.holder
  · obtain ⟨c, hc, ht⟩ := hs.targets w hw
    rw [holding_view hc]; exact ht.writer hk
  · obtain ⟨c, hc, ha⟩ := hs.filling l hl
    obtain ⟨e, he, rfl⟩ := core_entry hc
    exact ⟨e, (entry?_some he).1, (entry?_some he).2, ha⟩
  · exact hs.draining q (draining?_some.2 ⟨j, hj, ho⟩)
  · obtain ⟨c, hc, hi⟩ := hs.lines r hr l hl
    obtain ⟨e, he, rfl⟩ := core_entry hc
    exact ⟨e, (entry?_some he).1, (entry?_some he).2, hi⟩
  · exact hs.entries _ _ id (core_mem hn he) hi

end Sys2Proof.Machine
end

