-- ==== Sys2Proof/Laws/PerInstr.lean ====
section
/-! SUPPORT. The family CommandFrame: the frame of a well-formed command fits the lane, and its kind, tag, sequence and
payload give the command back. -/

namespace Sys2Proof.Machine

/-- Every request kind has the code of an agent-to-hub row. -/
theorem Kind.code_isAgent (k : Kind) : isAgentKind k.code = true := by cases k <;> rfl

theorem Kind.ofCode_code (k : Kind) : Kind.ofCode k.code = some k := by cases k <;> rfl

theorem Kind.ofCode_unknown {b : Byte} (h : isAgentKind b = false) : Kind.ofCode b = none := by
  refine List.find?_eq_none.2 fun k _ hk => ?_
  rw [← beq_iff_eq.1 hk, Kind.code_isAgent] at h
  cases h

/-- No request kind is a link kind or Recall Answer. -/
theorem Kind.code_sequenced (k : Kind) : isLinkKind k.code = false ∧ k.code ≠ recallAnswerKind := by
  cases k <;> exact ⟨rfl, by decide⟩

theorem sequencedCommand_code (p : Port) (k : Kind) (f : RxFrame) : sequencedCommand p k.code f = k.command p f := by
  simp [sequencedCommand, (Kind.code_sequenced k).2, Kind.ofCode_code]

theorem carriesAction_eq {a : Action} {bs : List Byte} (h : carriesAction a bs = true) : actionByte? bs = some a.code := by
  simpa [carriesAction] using h

/-- A Resolve frame with a listed action is that action's row. -/
theorem resolveCommand_of {a : Action} {p : Port} {f : RxFrame} (h : carriesAction a f.payload = true) :
    resolveCommand p f =
      match a with
      | .retry => .resolveRetry p f
      | .supply => .resolveSupply p f
      | .fail => .resolveFail p f
      | .complete => .resolveComplete p f
      | .abandon => .resolveAbandon p f
      | .revert => .resolveRevert p f := by
  cases a <;> simp [resolveCommand, carriesAction, carriesAction_eq h, Action.code]

theorem resolveCommand_retry {p : Port} {f : RxFrame} (h : carriesOther f.payload = false) :
    resolveCommand p f = .resolveRetry p f := by
  simp only [carriesOther, List.any_cons, List.any_nil, Bool.or_false, Bool.or_eq_false_iff] at h
  simp [resolveCommand, h]

end Sys2Proof.Machine

namespace Sys2Proof.Laws.CommandFrame

open Sys2Proof Sys2Proof.Machine

/-- A well-formed command's frame, where it has one, fits the lane, and the frame's own fields give the command back: a
link frame has sequence 0 and is its link command, any other is its sequenced command (R160, section 11.1). -/
def Statement (i : Instr) : Prop :=
  i.wellFormed = true → ∀ p fr, commandFrame? i = some (p, fr) →
    payloadFits fr.payload = true ∧
      if isLinkKind fr.kind = true then fr.seq = 0 ∧ linkCommand p fr.kind fr.tag fr.payload = i
      else sequencedCommand p fr.kind { tag := fr.tag, seq := fr.seq, payload := fr.payload } = i

/-- A request's frame. -/
theorem of_kind (k : Kind) {i : Instr} {p : Port} {f : RxFrame} (hf : commandFrame? i = some (p, toFrame f k.code))
    (hw : i.wellFormed = true → payloadFits f.payload = true ∧ k.command p f = i) : Statement i := by
  intro h q fr hfr
  obtain ⟨rfl, rfl⟩ := Prod.mk.injEq .. ▸ (Option.some.inj (hf.symm.trans hfr))
  refine ⟨(hw h).1, ?_⟩
  simp only [toFrame, (Kind.code_sequenced k).1, Bool.false_eq_true, if_false, sequencedCommand_code]
  exact (hw h).2

/-- A command that no good frame brings whole. -/
theorem of_none {i : Instr} (h : commandFrame? i = none) : Statement i := fun _ _ _ hf => by rw [h] at hf; cases hf

theorem readWords (p f) : Statement (.readWords p f) := of_kind .readWords rfl fun h => ⟨h, rfl⟩
theorem writeWords (p f) : Statement (.writeWords p f) := of_kind .writeWords rfl fun h => ⟨h, rfl⟩
theorem acquireRead (p f) : Statement (.acquireRead p f) := of_kind .acquireRead rfl fun h => ⟨h, rfl⟩
theorem acquireWrite (p f) : Statement (.acquireWrite p f) := of_kind .acquireWrite rfl fun h => ⟨h, rfl⟩
theorem upgrade (p f) : Statement (.upgrade p f) := of_kind .upgrade rfl fun h => ⟨h, rfl⟩
theorem release (p f) : Statement (.release p f) := of_kind .release rfl fun h => ⟨h, rfl⟩
theorem prefetch (p f) : Statement (.prefetch p f) := of_kind .prefetch rfl fun h => ⟨h, rfl⟩
theorem flush (p f) : Statement (.flush p f) := of_kind .flush rfl fun h => ⟨h, rfl⟩
theorem sync (p f) : Statement (.sync p f) := of_kind .sync rfl fun h => ⟨h, rfl⟩
theorem hello (p f) : Statement (.hello p f) := of_kind .hello rfl fun h => ⟨h, rfl⟩
theorem goodbye (p f) : Statement (.goodbye p f) := of_kind .goodbye rfl fun h => ⟨h, rfl⟩
theorem noticeAck (p f) : Statement (.noticeAck p f) := of_kind .noticeAck rfl fun h => ⟨h, rfl⟩
theorem setThreshold (p f) : Statement (.setThreshold p f) := of_kind .setThreshold rfl fun h => ⟨h, rfl⟩
theorem regionQuery (p f) : Statement (.regionQuery p f) := of_kind .regionQuery rfl fun h => ⟨h, rfl⟩
theorem hubStatus (p f) : Statement (.hubStatus p f) := of_kind .hubStatus rfl fun h => ⟨h, rfl⟩
theorem setTimers (p f) : Statement (.setTimers p f) := of_kind .setTimers rfl fun h => ⟨h, rfl⟩
theorem fence (p f) : Statement (.fence p f) := of_kind .fence rfl fun h => ⟨h, rfl⟩
theorem unfence (p f) : Statement (.unfence p f) := of_kind .unfence rfl fun h => ⟨h, rfl⟩
theorem restart (p f) : Statement (.restart p f) := of_kind .restart rfl fun h => ⟨h, rfl⟩
theorem regionSet (p f) : Statement (.regionSet p f) := of_kind .regionSet rfl fun h => ⟨h, rfl⟩
theorem faultList (p f) : Statement (.faultList p f) := of_kind .faultList rfl fun h => ⟨h, rfl⟩
theorem faultRead (p f) : Statement (.faultRead p f) := of_kind .faultRead rfl fun h => ⟨h, rfl⟩
theorem supplyLine (p f) : Statement (.supplyLine p f) := of_kind .supplyLine rfl fun h => ⟨h, rfl⟩
theorem storeRead (p f) : Statement (.storeRead p f) := of_kind .storeRead rfl fun h => ⟨h, rfl⟩
theorem storeWrite (p f) : Statement (.storeWrite p f) := of_kind .storeWrite rfl fun h => ⟨h, rfl⟩

theorem resolveRetry (p f) : Statement (.resolveRetry p f) :=
  of_kind .resolve rfl fun h => by
    simp only [Instr.wellFormed, Bool.and_eq_true, Bool.not_eq_true'] at h
    exact ⟨h.1, resolveCommand_retry h.2⟩

/-- A Resolve frame with one of the other actions. -/
theorem of_action (a : Action) {i : Instr} {p : Port} {f : RxFrame}
    (hf : commandFrame? i = some (p, toFrame f Kind.resolve.code))
    (hw : i.wellFormed = (payloadFits f.payload && carriesAction a f.payload))
    (hi : carriesAction a f.payload = true → resolveCommand p f = i) : Statement i :=
  of_kind .resolve hf fun h => by
    rw [hw, Bool.and_eq_true] at h
    exact ⟨h.1, hi h.2⟩

theorem resolveSupply (p f) : Statement (.resolveSupply p f) := of_action .supply rfl rfl resolveCommand_of
theorem resolveFail (p f) : Statement (.resolveFail p f) := of_action .fail rfl rfl resolveCommand_of
theorem resolveComplete (p f) : Statement (.resolveComplete p f) := of_action .complete rfl rfl resolveCommand_of
theorem resolveAbandon (p f) : Statement (.resolveAbandon p f) := of_action .abandon rfl rfl resolveCommand_of
theorem resolveRevert (p f) : Statement (.resolveRevert p f) := of_action .revert rfl rfl resolveCommand_of

theorem recallAnswer (p f) : Statement (.recallAnswer p f) := fun h _ _ hf => by cases hf; exact ⟨h, rfl⟩

theorem unknownKindFrame (p kind f) : Statement (.unknownKindFrame p kind f) := fun h _ _ hf => by
  cases hf
  simp only [Instr.wellFormed, Bool.and_eq_true, Bool.not_eq_true'] at h
  obtain ⟨⟨hp, hl⟩, ha⟩ := h
  have hr : kind ≠ recallAnswerKind := by rintro rfl; exact absurd ha (by decide)
  refine ⟨hp, ?_⟩
  simp [toFrame, hl, sequencedCommand, hr, Kind.ofCode_unknown ha]

theorem ping (p tag payload) : Statement (.ping p tag payload) := fun h _ _ hf => by cases hf; exact ⟨h, rfl, rfl⟩
theorem replayRequest (p payload) : Statement (.replayRequest p payload) := fun h _ _ hf => by
  cases hf; exact ⟨h, rfl, rfl⟩
theorem linkRestart (p payload) : Statement (.linkRestart p payload) := fun h _ _ hf => by cases hf; exact ⟨h, rfl, rfl⟩

theorem discardedLinkFrame (p kind) : Statement (.discardedLinkFrame p kind) := fun h _ _ hf => by
  cases hf
  simp only [Instr.wellFormed, isDiscardedLinkKind, Bool.and_eq_true, bne_iff_ne] at h
  obtain ⟨⟨⟨hl, h1⟩, h2⟩, h3⟩ := h
  refine ⟨rfl, ?_⟩
  simp [hl, linkCommand, h1, h2, h3]

theorem damagedFrame (p kind) : Statement (.damagedFrame p kind) := of_none rfl
theorem unexpectedSequence (p seq) : Statement (.unexpectedSequence p seq) := of_none rfl
theorem linkUp (p) : Statement (.linkUp p) := of_none rfl
theorem linkDown (p) : Statement (.linkDown p) := of_none rfl
theorem keepaliveExpired (p) : Statement (.keepaliveExpired p) := of_none rfl
theorem recallTimeout (id) : Statement (.recallTimeout id) := of_none rfl
theorem powerOnReset (a b) : Statement (.powerOnReset a b) := of_none rfl
theorem storeTimeout : Statement .storeTimeout := of_none rfl
theorem fillComplete (md) : Statement (.fillComplete md) := of_none rfl
theorem fillFailed (c) : Statement (.fillFailed c) := of_none rfl
theorem drainComplete : Statement .drainComplete := of_none rfl
theorem drainFailed (c) : Statement (.drainFailed c) := of_none rfl
theorem directJobComplete (md) : Statement (.directJobComplete md) := of_none rfl
theorem directJobFailed (c) : Statement (.directJobFailed c) := of_none rfl
theorem grant : Statement .grant := of_none rfl
theorem waiterService (l) : Statement (.waiterService l) := of_none rfl
theorem allocation : Statement .allocation := of_none rfl
theorem waitingRecallOpen : Statement .waitingRecallOpen := of_none rfl
theorem journalSpaceService : Statement .journalSpaceService := of_none rfl
theorem syncListAnswer : Statement .syncListAnswer := of_none rfl
theorem goodbyeCompletion (p) : Statement (.goodbyeCompletion p) := of_none rfl
theorem regionSetCompletion : Statement .regionSetCompletion := of_none rfl
theorem notice (p) : Statement (.notice p) := of_none rfl
theorem resetNLow : Statement .resetNLow := of_none rfl
theorem hubTimeAdvance : Statement .hubTimeAdvance := of_none rfl
theorem halfWordAnswered (md) : Statement (.halfWordAnswered md) := of_none rfl
theorem mrdyMerrInactive : Statement .mrdyMerrInactive := of_none rfl
theorem frameTransmitted (p) : Statement (.frameTransmitted p) := of_none rfl

end Sys2Proof.Laws.CommandFrame
end

