-- ==== Sys2Proof/Laws/Revoke.lean ====
section
/-! SUPPORT. What the revocation of a port's holdings does to the fault unit (R76, R78, R122). -/

namespace Sys2Proof.Machine

variable {s : State}

/-- The port holds a line WRITE where the line's entry says so. -/
theorem holding_write_iff (hn : (s.table.map Entry.line).Nodup) (l : Line) (p : Port) :
    s.holding l p = .write ↔ ∃ e ∈ s.table, e.line = l ∧ (e.holdings[p] == .write) = true := by
  unfold State.holding
  constructor
  · intro h
    split at h
    · rename_i e he; obtain ⟨h1, h2⟩ := entry?_some he; exact ⟨e, h1, h2, by simpa using h⟩
    · cases h
  · rintro ⟨e, he, rfl, h⟩
    rw [entry?_mem hn he]
    simpa using h

/-- The lines lost are those the port holds WRITE, ascending, and none while STOPPED; if there are any, the one new record of
them joins the queue, or stops the hub when six records fill it. -/
theorem revokeHoldings_unit (s : State) (p : Port) (c : Cause) (hl : s.faultQueue.length ≤ 6) (hn : (s.table.map Entry.line).Nodup) :
    ∃ lost : List Line, lost.Pairwise (fun a b => a.toNat < b.toNat) ∧
      (∀ l : Line, l ∈ lost ↔ s.mode = .running ∧ s.holding l p = .write) ∧
      let r : FaultRecord := ⟨s.freeRecordId, .posted, s.hubTime, .holderLost p c lost⟩
      let t := s.revokeHoldings p c
      (lost = [] → t.faultQueue = s.faultQueue ∧ t.stopRecord = s.stopRecord ∧ t.mode = s.mode) ∧
      (lost ≠ [] →
        (s.faultQueue.length < 6 → t.faultQueue = s.faultQueue ++ [r] ∧ t.stopRecord = s.stopRecord ∧ t.mode = .running) ∧
        (s.faultQueue.length = 6 → t.faultQueue = s.faultQueue ∧ t.stopRecord = some r ∧ t.mode = .stopped)) := by
  have hsl := sortLines_filter (s := s) (P := fun e => e.holdings[p] == .write) hn
  refine ⟨if s.mode = .running then s.writtenBy p else [], ?_, fun l => ?_, ?_⟩
  · split
    · exact hsl.1
    · exact .nil
  · rw [holding_write_iff hn]
    split
    · rename_i h; simp only [h, true_and]; exact hsl.2 l
    · rename_i h; simp [h]
  · set lost := if s.mode = .running then s.writtenBy p else [] with hlost
    have hid : (s.dropHoldings p).newRecordId = s.freeRecordId := newRecordId_free (s.dropHoldings p) hl
    intro r t
    refine ⟨fun h => ?_, fun h => ?_⟩
    · have : t = s.dropHoldings p := by simp only [t, State.revokeHoldings, ← hlost, h]; rfl
      rw [this]; exact ⟨rfl, rfl, rfl⟩
    · have hrun : s.mode = .running := by by_contra hh; simp [hlost, hh] at h
      set u : State := (s.dropHoldings p).markPoisoned lost s.freeRecordId with hu
      have ht : t = u.createRecord (.holderLost p c lost) := by
        simp only [t, State.revokeHoldings, ← hlost, h, if_false, hid, hu]
      have hid' : u.newRecordId = s.freeRecordId := newRecordId_free u hl
      rw [ht]
      unfold State.createRecord
      simp only [hid']
      refine ⟨fun hlt => ?_, fun heq => ?_⟩
      · rw [if_pos (by exact hlt)]
        obtain ⟨h1, h2, h3⟩ := (postFaultPosted_keeps _).unit trivial
        exact ⟨h1, h2, h3.trans hrun⟩
      · rw [if_neg (by show ¬ s.faultQueue.length < 6; omega)]
        exact (postAll_keeps _ _).unit trivial

end Sys2Proof.Machine
end

