-- ==== Sys2Proof/Laws/Syncs.lean ====
section
/-! SUPPORT. The sync list: what an entry that leaves the journal answers (R95, R97, R98). -/

namespace Sys2Proof.Machine

variable {s : State}

/-- Answers leave the sync list as it is. -/
theorem answered_syncList (xs items : List SyncItem) (f : SyncItem → Status) :
    xs.foldl (fun t i => t.answer i.id (f i) []) { s with syncList := items } =
      { xs.foldl (fun t i => t.answer i.id (f i) []) s with syncList := items } := by
  induction xs generalizing s with
  | nil => rfl
  | cons x xs ih => exact ih (s := s.answer x.id (f x) [])

/-- Answers to a list of items change the outstanding requests and the links, and no more. -/
theorem answered_eq (xs : List SyncItem) (f : SyncItem → Status) :
    let t := xs.foldl (fun t i => t.answer i.id (f i) []) s
    t = { s with requests := t.requests, links := t.links } := by
  induction xs generalizing s with
  | nil => rfl
  | cons x xs ih => exact ih (s := s.answer x.id (f x) [])

/-- The items answered leave the sync list; else the outstanding requests and the links change, and no more (R97). -/
theorem syncsAnswered_eq (items : List SyncItem) :
    s.syncsAnswered items =
      { s with syncList := items.filter fun i => !i.done s.journal
               requests := (s.syncsAnswered items).requests, links := (s.syncsAnswered items).links } := by
  rw [State.syncsAnswered, answered_eq]

@[simp] theorem syncsAnswered_allocQueue (items : List SyncItem) : (s.syncsAnswered items).allocQueue = s.allocQueue := by rw [syncsAnswered_eq]
@[simp] theorem syncsAnswered_jspace (items : List SyncItem) : (s.syncsAnswered items).jspace = s.jspace := by rw [syncsAnswered_eq]
@[simp] theorem syncsAnswered_completing (items : List SyncItem) : (s.syncsAnswered items).completing = s.completing := by rw [syncsAnswered_eq]
@[simp] theorem syncsAnswered_sessions (items : List SyncItem) : (s.syncsAnswered items).sessions = s.sessions := by rw [syncsAnswered_eq]
@[simp] theorem syncsAnswered_job (items : List SyncItem) : (s.syncsAnswered items).job = s.job := by rw [syncsAnswered_eq]
@[simp] theorem syncsAnswered_journal (items : List SyncItem) : (s.syncsAnswered items).journal = s.journal := by rw [syncsAnswered_eq]
@[simp] theorem syncsAnswered_table (items : List SyncItem) : (s.syncsAnswered items).table = s.table := by rw [syncsAnswered_eq]
@[simp] theorem syncsAnswered_fillQueue (items : List SyncItem) : (s.syncsAnswered items).fillQueue = s.fillQueue := by rw [syncsAnswered_eq]
@[simp] theorem syncsAnswered_directQueue (items : List SyncItem) : (s.syncsAnswered items).directQueue = s.directQueue := by rw [syncsAnswered_eq]
@[simp] theorem syncsAnswered_faultQueue (items : List SyncItem) : (s.syncsAnswered items).faultQueue = s.faultQueue := by rw [syncsAnswered_eq]

/-- Answers leave the fault queue as it is. -/
theorem answered_faultQueue (xs : List SyncItem) (f : SyncItem → Status) (q : List FaultRecord) :
    xs.foldl (fun t i => t.answer i.id (f i) []) { s with faultQueue := q } =
      { xs.foldl (fun t i => t.answer i.id (f i) []) s with faultQueue := q } := by
  induction xs generalizing s with
  | nil => rfl
  | cons x xs ih => exact ih (s := s.answer x.id (f x) [])

theorem syncsAnswered_records (items : List SyncItem) (q : List FaultRecord) :
    State.syncsAnswered { s with faultQueue := q } items = { s.syncsAnswered items with faultQueue := q } :=
  answered_faultQueue (s := { s with syncList := items.filter fun i => !i.done s.journal }) ..

/-- An item is done when none of the entries it covers is left. -/
theorem satisfied_eq (i : SyncItem) (js : List JournalEntry) : i.satisfied js = i.done js := by
  obtain ⟨id, k, f⟩ := i
  cases k <;> simp [SyncItem.satisfied, SyncItem.covers, SyncItem.done, List.not_any_eq_all_not, bne, Bool.beq_comm]

/-- Examining the sync list answers the items that are done. -/
theorem examineSync_eq : s.examineSync = s.syncsAnswered s.syncList := by
  simp only [State.examineSync, State.syncsAnswered, SyncItem.status, satisfied_eq]

/-- An item as it stands once an entry has left: flagged by an ABANDON, then without the entry. -/
theorem without_eq (i : SyncItem) (q : Seq) (ab : Bool) :
    i.without q ab = (if ab && i.covers q then { i with partialFlag := true } else i).forget q := by
  obtain ⟨id, k, f⟩ := i
  cases k with
  | flush n => cases ab <;> by_cases h : n = q <;> simp [SyncItem.without, SyncItem.covers, SyncItem.forget, h]
  | sync m cs => cases ab <;> by_cases h : q ∈ cs <;> simp [SyncItem.without, SyncItem.covers, SyncItem.forget, h]

/-- An entry that is not in the journal makes no difference to whether an item is done. -/
theorem forget_done (i : SyncItem) (q : Seq) {js : List JournalEntry} (h : ∀ k ∈ js, k.seq ≠ q) :
    (i.forget q).done js = i.done js := by
  obtain ⟨id, k, f⟩ := i
  cases k with
  | flush n => rfl
  | sync m cs =>
    simp only [SyncItem.forget, SyncItem.done]
    rw [Bool.eq_iff_iff, List.all_eq_true, List.all_eq_true]
    exact forall₂_congr fun x hx => by simp [h x hx]

/-- An entry that leaves the journal is covered no more, arms the alarm at 16 entries, and answers what waited for it last. -/
theorem removeJournal_eq (q : Seq) (ab : Bool) :
    s.removeJournal q ab =
      State.syncsAnswered
        { s with journal := s.journal.filter fun j => j.seq != q
                 highAlarm := s.highAlarm || (s.journal.filter fun j => j.seq != q).length == Config.lowWater }
        (s.syncList.map fun i => i.without q ab) := by
  have hq : ∀ k ∈ s.journal.filter (fun j => j.seq != q), k.seq ≠ q := fun k hk => by simpa using (List.mem_filter.1 hk).2
  have hf : (if ab then s.syncList.map (fun i => if i.covers q then { i with partialFlag := true } else i) else s.syncList) =
      s.syncList.map fun i => if ab && i.covers q then { i with partialFlag := true } else i := by
    cases ab <;> simp
  have hw : (s.syncList.map fun i => i.without q ab) =
      (s.syncList.map fun i => if ab && i.covers q then { i with partialFlag := true } else i).map (SyncItem.forget q) := by
    rw [List.map_map]
    exact List.map_congr_left fun i _ => without_eq i q ab
  have hp : ∀ i : SyncItem, (i.forget q).id = i.id ∧ (i.forget q).partialFlag = i.partialFlag := fun i => by
    unfold SyncItem.forget; split <;> exact ⟨rfl, rfl⟩
  unfold State.removeJournal
  dsimp only
  rw [hf, hw, examineSync_eq]
  generalize s.journal.filter (fun j => j.seq != q) = js at hq ⊢
  generalize s.syncList.map (fun i => if ab && i.covers q then { i with partialFlag := true } else i) = is
  unfold State.syncsAnswered
  dsimp only
  rw [List.filter_map, List.filter_map, List.foldl_map]
  simp only [Function.comp_def, forget_done _ q hq, (hp _).1, (hp _).2]
  generalize is.filter (fun i => !i.done js) = left
  have h := fun items => answered_syncList (is.filter fun i => i.done js) items
    (fun i => if i.partialFlag = true then .partialDone else .done)
    (s := { s with journal := js, highAlarm := s.highAlarm || js.length == Config.lowWater })
  exact (congrArg (fun u : State => { u with syncList := u.syncList.map (SyncItem.forget q) }) (h left)).trans
    (h (left.map (SyncItem.forget q))).symm

end Sys2Proof.Machine
end

