-- ==== Sys2Proof/Tests/Slice0.lean ====
section
/-! SUPPORT. The tests: ill-formed commands, frames written out from chapter 11, small steps with results worked out from
the rules, and for each obligation a concrete state and operands that meet its hypotheses. -/

namespace Sys2Proof.Tests

open Sys2Proof Sys2Proof.Machine

set_option Elab.async false

/-! ## Ill-formed commands -/

/-- A frame with receive number 0 and tag 5. -/
def fr (payload : List Byte) : RxFrame := { tag := 5, seq := 0, payload := payload }

theorem test_wellFormed_payload : (Instr.sync 0 (fr (List.replicate 241 0))).wellFormed = false ∧
    (Instr.sync 0 (fr (List.replicate 240 0))).wellFormed = true ∧
    (Instr.ping 0 0 (List.replicate 241 0)).wellFormed = false := by decide +kernel

theorem test_wellFormed_resolve : (Instr.resolveRetry 0 (fr [1, 2])).wellFormed = false ∧
    (Instr.resolveSupply 0 (fr [1, 1])).wellFormed = false ∧ (Instr.resolveFail 0 (fr [1])).wellFormed = false ∧
    (Instr.resolveComplete 0 (fr [1, 5])).wellFormed = false ∧ (Instr.resolveAbandon 0 (fr [1, 4])).wellFormed = false ∧
    (Instr.resolveRevert 0 (fr [1, 7])).wellFormed = false ∧ (Instr.resolveRetry 0 (fr [1, 7])).wellFormed = true := by decide

theorem test_wellFormed_kinds : (Instr.unknownKindFrame 0 0x0F (fr [])).wellFormed = false ∧
    (Instr.unknownKindFrame 0 0x28 (fr [])).wellFormed = false ∧ (Instr.unknownKindFrame 0 0x29 (fr [])).wellFormed = true ∧
    (Instr.discardedLinkFrame 0 0x01).wellFormed = false ∧ (Instr.discardedLinkFrame 0 0x10).wellFormed = false ∧
    (Instr.discardedLinkFrame 0 0x0F).wellFormed = true := by decide

/-! ## Frames written out from section 11.1 to 11.3, with the check worked out by hand -/

/-- The CRC's published check value: the ASCII digits 1 to 9 give 0x29B1 (section 11.1's polynomial and initial value). -/
theorem test_crc : crc16 [0x31, 0x32, 0x33, 0x34, 0x35, 0x36, 0x37, 0x38, 0x39] = 0x29B1#16 := by decide +kernel

theorem test_frame_readWords : decodeFrame 1 7 [0x20, 0x05, 0x07, 0x04, 0x34, 0x12, 0x07, 0x01, 0x1B, 0x30] =
    some (.readWords 1 { tag := 5, seq := 7, payload := [0x34, 0x12, 7, 1] }) := by decide +kernel

theorem test_frame_hello : decodeFrame 3 0 [0x10, 0x01, 0x00, 0x03, 0x01, 0x00, 0x02, 0xBB, 0x0F] =
    some (.hello 3 { tag := 1, seq := 0, payload := [1, 0, 2] }) := by decide +kernel

theorem test_frame_noticeAck : decodeFrame 0 1 [0x12, 0x02, 0x01, 0x01, 0x09, 0x95, 0x29] =
    some (.noticeAck 0 { tag := 2, seq := 1, payload := [9] }) := by decide +kernel

theorem test_frame_setTimers :
    decodeFrame 0 5 [0x41, 0x04, 0x03, 0x05, 0x32, 0x00, 0xF4, 0x01, 0x0A, 0xE2, 0xDD] = some (.unexpectedSequence 0 3) ∧
    decodeFrame 0 3 [0x41, 0x04, 0x03, 0x05, 0x32, 0x00, 0xF4, 0x01, 0x0A, 0xE2, 0xDD] =
      some (.setTimers 0 { tag := 4, seq := 3, payload := [0x32, 0, 0xF4, 1, 10] }) := by decide +kernel

theorem test_frame_regionSet : decodeFrame 0 4
    [0x45, 0x05, 0x04, 0x0A, 0x00, 0x01, 0x00, 0x00, 0x64, 0x00, 0x00, 0x00, 0x00, 0xAA, 0x0C, 0xED] =
    some (.regionSet 0 { tag := 5, seq := 4, payload := [0, 1, 0, 0, 100, 0, 0, 0, 0, 0xAA] }) := by decide +kernel

/-- A Resolve belongs to the row of its action; one with an unlisted action to RETRY's (log entry 13). -/
theorem test_frame_resolve :
    decodeFrame 0 5 [0x48, 0x06, 0x05, 0x02, 0x03, 0x03, 0xD2, 0x13] =
      some (.resolveFail 0 { tag := 6, seq := 5, payload := [3, 3] }) ∧
    decodeFrame 0 5 [0x48, 0x06, 0x05, 0x02, 0x03, 0x01, 0x90, 0x33] =
      some (.resolveRetry 0 { tag := 6, seq := 5, payload := [3, 1] }) ∧
    decodeFrame 0 5 [0x48, 0x06, 0x05, 0x02, 0x03, 0x09, 0x98, 0xB2] =
      some (.resolveRetry 0 { tag := 6, seq := 5, payload := [3, 9] }) := by decide +kernel

theorem test_frame_storeRead : decodeFrame 0 6 [0x4A, 0x07, 0x06, 0x02, 0xFF, 0xFF, 0x20, 0xD1] =
    some (.storeRead 0 { tag := 7, seq := 6, payload := [0xFF, 0xFF] }) := by decide +kernel

theorem test_frame_unknownKind : decodeFrame 2 7 [0x15, 0x08, 0x07, 0x00, 0x14, 0x13] =
    some (.unknownKindFrame 2 0x15 { tag := 8, seq := 7, payload := [] }) := by decide +kernel

/-- Link frames are read whatever the receive number (R160). -/
theorem test_frame_link : decodeFrame 1 9 [0x02, 0x00, 0x00, 0x00, 0xA8, 0x69] = some (.discardedLinkFrame 1 0x02) ∧
    decodeFrame 1 9 [0x04, 0x00, 0x00, 0x01, 0x06, 0xFD, 0xCB] = some (.replayRequest 1 [6]) ∧
    decodeFrame 1 9 [0x05, 0x00, 0x00, 0x01, 0x00, 0x6A, 0x01] = some (.linkRestart 1 [0]) := by decide +kernel

/-- No row of the opcode table has bits (log entry 14). -/
theorem test_tableWord : decodeTableWord 8 0x20 = none := rfl

/-! ## Small states -/

/-- A link that is UP with a running keepalive. -/
def upLink : LinkUnit := { LinkUnit.reset with up := true, keepalive := some 500 }

/-- Four rights, all FULL. -/
def allFull : Vector Access 4 := Vector.replicate 4 .full

def nobody : Vector Holding 4 := Vector.replicate 4 .none

/-- All ports ONLINE with room for two lines, four regions: TRACKED, WRITE_THROUGH, PLAIN, and, up to the last line,
TRACKED with P1 READ and P2 NONE. -/
def hub : State := { State.reset with
  links := Vector.replicate 4 upLink
  sessions := Vector.replicate 4 { state := .online, capacity := some 2, number := some 7 }
  regions := #v[⟨true, 0, 100, .tracked, allFull⟩, ⟨true, 100, 100, .writeThrough, allFull⟩,
    ⟨true, 200, 100, .plain, #v[.full, .read, .none, .full]⟩, ⟨true, 300, 65236, .tracked, #v[.full, .read, .none, .full]⟩,
    Region.reset, Region.reset, Region.reset, Region.reset] }

/-- A job of an owner at a half-word, strobed. -/
def job (o : JobOwner) (l : Line) (writing : Bool) (index : Nat) : Job :=
  { owner := o, line := l, data := 0, enables := 1, buffer := 0, writing := writing, index := index, strobed := true,
    timeout := 10 }

/-- A state with a DRAIN job in flight. -/
def busy (s : State) : State := { s with job := some (job (.drain 9) 99 true 3) }

/-- An IDLE entry of a line, with its region, copy and holdings. -/
def entry (l : Line) (i : RegionId) (c : HubCopy) (h : Vector Holding 4) : Entry :=
  { line := l, region := i, copy := c, holdings := h, activity := .idle, waiters := [], prefetched := true, recordId := none }

def lines (s : State) (es : List Entry) : State := { s with table := es }

/-- A state in which a port is in a session state. -/
def inState (s : State) (p : Port) (x : SessionState) : State := s.setSession p { s.sessions[p] with state := x }

def stopped (s : State) : State := { s with
  mode := .stopped
  stopOut := true
  stopRecord := some ⟨7, .posted, 3, .fillFault 9 .storeError 1⟩ }

/-- The next state of a command; `none` where it has none. -/
def after (c : Instr) (s : State) : Option State :=
  match exec c s with
  | .next t => some t
  | _ => none

/-- What an answer leaves on a port's lane. -/
def sent (p : Port) (t : State) : List (Byte × List Byte) := t.links[p].tx.map fun f => (f.kind, f.payload)

/-- A line whose byte i is i. -/
def ramp : LineData := 0x1f1e1d1c1b1a191817161514131211100f0e0d0c0b0a09080706050403020100#256

/-! ## One step each, with results worked out from the rules -/

/-- Word 7 of the line, in payload order, and the entry stays (R42). -/
theorem test_readWords :
    (after (.readWords 1 (fr [5, 0, 7, 1])) (lines hub [entry 5 0 (.clean ramp) nobody])).map (sent 1) =
      some [(0x80, [0, 28, 29, 30, 31])] := by decide +kernel

/-- One enabled byte of word 1, the second, lands at byte 5 of the line (R43, R44). -/
theorem test_writeWords_oneByte :
    (after (.writeWords 1 (fr [5, 0, 1, 1, 0x20, 0, 0, 0, 0xA0, 0xA1, 0xA2, 0xA3]))
      (lines hub [entry 5 0 (.clean ramp) nobody])).map (fun t => (sent 1 t, t.table.map Entry.copy)) =
      some ([(0x80, [0, 0])],
        [.dirty 0x1f1e1d1c1b1a191817161514131211100f0e0d0c0b0a09080706a10403020100#256]) := by decide +kernel

/-- With the port idle the fill is granted in the same step: half-word 0 of line 5 is 16 × 5 (R100, R101, R107). -/
theorem test_acquireRead_fills :
    (after (.acquireRead 1 (fr [5, 0])) hub).map
      (fun t => (t.bus, t.table.map Entry.activity, sent 1 t)) =
      some (⟨some 80, none, false, false, true⟩, [.filling], []) := by decide +kernel

/-- A line two ports hold READ: an Acquire Write by the third recalls both, INVALIDATE for a REQUEST (R10, R46, R64). -/
theorem test_acquireWrite_recalls :
    (after (.acquireWrite 1 (fr [5, 0])) (lines hub [entry 5 0 (.clean ramp) #v[.none, .none, .read, .read]])).map
      (fun t => (sent 1 t, [sent 2 t, sent 3 t], t.recalls.map (·.deadline))) =
      some ([], [[(0x81, [0, 5, 0, 2, 1])], [(0x81, [1, 5, 0, 2, 1])]], [50, 50]) := by decide +kernel

/-- NOT_HELD is 0x10 (R36, R47). -/
theorem test_upgrade_notHeld :
    (after (.upgrade 1 (fr [5, 0])) (lines hub [entry 5 0 (.clean ramp) nobody])).map (sent 1) =
      some [(0x80, [0x10])] := by decide +kernel

/-- Data given back by the WRITE holder of a TRACKED line is the DIRTY copy (R49). -/
theorem test_release_data :
    (after (.release 1 (fr (5 :: 0 :: List.replicate 32 0xEE))) (lines hub [entry 5 0 (.clean ramp) #v[.none, .write, .none, .none]])).map
      (fun t => (sent 1 t, t.table.map (fun e => (e.copy, e.holdings == nobody)))) =
      some ([(0x80, [0])], [(.dirty 0xEEEEEEEEEEEEEEEEEEEEEEEEEEEEEEEEEEEEEEEEEEEEEEEEEEEEEEEEEEEEEEEE#256, true)]) := by
  decide +kernel

/-- P2 has no right in region 3 (R35). -/
theorem test_prefetch : (after (.prefetch 1 (fr [5, 0])) (lines hub [entry 5 0 (.clean ramp) nobody])).map (sent 1) =
      some [(0x80, [0, 0])] ∧
    (after (.prefetch 2 (fr [0x2C, 1])) hub).map (sent 2) = some [(0x80, [0x0D])] := by decide +kernel

theorem test_flush_plain : (after (.flush 1 (fr [200, 0])) hub).map (sent 1) = some [(0x80, [0])] := by decide +kernel

theorem test_sync : (after (.sync 2 (fr [])) hub).map (sent 2) = some [(0x80, [0])] ∧
    (after (.sync 2 (fr [1])) hub).map (sent 2) = some [(0x80, [7])] := by decide +kernel

/-- An unlisted outcome (R66, R190). -/
theorem test_recallAnswer_outcome : (after (.recallAnswer 2 (fr [0, 5, 0, 4])) hub).map (sent 2) = some [(0x80, [7])] := by
  decide +kernel

/-- Session number 1, port 3, no supervisor, capacity 256, 8, 240, 16, 50 ms, 500 ms (R170, section 11.4). -/
theorem test_hello : (after (.hello 3 (fr [1, 0, 1])) (inState hub 3 .idle)).map (sent 3) =
      some [(0x80, [0, 1, 0, 3, 0, 0, 1, 8, 240, 16, 50, 0, 0xF4, 1])] ∧
    (after (.hello 3 (fr [1, 0, 1])) hub).map (sent 3) = some [(0x80, [0x16])] := by decide +kernel

theorem test_goodbye : (after (.goodbye 1 (fr [])) (inState hub 1 .closing)).map (sent 1) = some [(0x80, [3])] ∧
    (after (.goodbye 1 (fr [])) hub).map (fun t => (t.sessions[(1 : Port)], sent 1 t)) =
      some (Session.idle, [(0x80, [0])]) := by decide +kernel

theorem test_noticeAck : (after (.noticeAck 1 (fr [0])) hub).map (sent 1) = some [(0x80, [0x17])] := by decide +kernel

theorem test_setThreshold : (after (.setThreshold 1 (fr [8])) hub).map (sent 1) = some [(0x80, [7])] ∧
    (after (.setThreshold 1 (fr [7])) hub).map (fun t => t.notices[(1 : Port)].threshold) = some 7 := by decide +kernel

/-- Enabled, first line 300, 65236 lines, TRACKED, FULL READ NONE FULL in two bits each (section 11.3). -/
theorem test_regionQuery : (after (.regionQuery 1 (fr [3])) hub).map (sent 1) =
    some [(0x80, [0, 1, 0x2C, 1, 0xD4, 0xFE, 0, 0, 0, 0x86])] := by decide +kernel

theorem test_hubStatus_notPermitted : (after (.hubStatus 1 (fr [])) hub).map (sent 1) = some [(0x80, [6])] := by decide +kernel

/-- Keepalive 19 is below its range (R181). -/
theorem test_setTimers : (after (.setTimers 0 (fr [50, 0, 19, 0, 10])) hub).map (sent 0) = some [(0x80, [7])] ∧
    (after (.setTimers 0 (fr [0xE8, 3, 20, 0, 100])) hub).map (·.timers) = some ⟨1000, 20, 100⟩ := by decide +kernel

/-- SESSION_FENCED and AGENT_FENCED carry the cause SUPERVISOR_FENCE (R155, R172). -/
theorem test_fence : (after (.fence 0 (fr [2])) hub).map
    (fun t => (sent 2 t, (sent 0 t).filter (·.1 == 0x82), t.sessions[(2 : Port)].state)) = some ([(0x82, [0, 3, 0xFF, 4])], [(0x82, [0, 2, 2, 4])], .fenced) := by decide +kernel

theorem test_unfence : (after (.unfence 0 (fr [2])) hub).map (sent 0) = some [(0x80, [0x19])] ∧
    (after (.unfence 0 (fr [2])) (inState hub 2 .fenced)).map (fun t => (sent 2 t, sent 0 t)) =
      some ([(6, [2, 7, 0])], [(0x80, [0])]) := by decide +kernel

/-- Every port is told Session End for RESTART (R168, R185). -/
theorem test_restart : (after (.restart 0 (fr [])) hub).map (fun t => (sent 0 t, sent 1 t, t.regions[3].enabled)) =
    some ([(0x80, [0]), (6, [1, 7, 0])], [(6, [1, 7, 0])], false) := by decide +kernel

/-- A region of line 99 shares a line with region 0 (R141, R143). -/
theorem test_regionSet_overlap : (after (.regionSet 0 (fr [7, 1, 99, 0, 1, 0, 0, 0, 0, 0])) hub).map (sent 0) =
    some [(0x80, [0x1A])] := by decide +kernel

/-- The stop record 7, FILL_FAULT, POSTED with the stop flag (R125). -/
theorem test_faultList : (after (.faultList 0 (fr [])) (stopped hub)).map (sent 0) = some [(0x80, [0, 1, 7, 1, 0x81])] := by
  decide +kernel

theorem test_faultRead : (after (.faultRead 0 (fr [1, 0])) hub).map (sent 0) = some [(0x80, [0x1D])] ∧
    (after (.faultRead 0 (fr [7, 0])) (stopped hub)).map (sent 0) =
      some [(0x80, [0, 7, 1, 1, 1, 3, 0, 0, 0, 9, 0, 1, 1, 0])] := by decide +kernel

theorem test_resolve : (after (.resolveRetry 0 (fr [1, 1])) hub).map (sent 0) = some [(0x80, [0x1D])] ∧
    (after (.resolveRetry 0 (fr [1, 7])) hub).map (sent 0) = some [(0x80, [7])] := by decide +kernel

theorem test_supplyLine : (after (.supplyLine 0 (fr (1 :: 5 :: 0 :: List.replicate 32 0))) hub).map (sent 0) =
    some [(0x80, [0x1D])] := by decide +kernel

theorem test_storeRead : (after (.storeRead 0 (fr [5, 0])) hub).map (sent 0) = some [(0x80, [0x23])] ∧
    (after (.storeRead 0 (fr [200, 0])) hub).map (fun t => (sent 0 t, t.bus.ma)) = some ([], some 3200) := by decide +kernel

/-- Half-word 0 of a Store Write carries byte 0 on MD7 to MD0 (R100). -/
theorem test_storeWrite : (after (.storeWrite 0 (fr (200 :: 0 :: 0x34 :: 0x12 :: List.replicate 30 0))) hub).map (·.bus) =
    some ⟨some 3200, some 0x1234, false, true, false⟩ := by decide +kernel

theorem test_unknownKind : (after (.unknownKindFrame 1 0x15 (fr [])) hub).map (sent 1) = some [(0x80, [5])] := by decide +kernel

theorem test_keepaliveExpired : (after (.keepaliveExpired 1) hub).map (fun t => t.sessions[(1 : Port)].state) = some .online ∧
    (after (.keepaliveExpired 1) { hub with hubTime := 500 }).map (fun t => (t.sessions[(1 : Port)].state, sent 1 t)) =
      some (.fenced, [(0x82, [0, 3, 0xFF, 2])]) := by decide +kernel

theorem test_powerOnReset : (after (.powerOnReset true false) hub).map (fun t => (t.supervisor, t.hubTime, t.mode)) =
    some (2, 0, .running) := by decide +kernel

/-- Every keepalive runs out at 500: the tick that leaves that millisecond takes the expiries (R171, R187). -/
theorem test_hubTimeAdvance_expiry : (after .hubTimeAdvance { hub with hubTime := 500 }).map
    (fun t => (t.hubTime, t.sessions[(1 : Port)].state, t.sessions[(3 : Port)].state)) = some (501, .fenced, .fenced) := by
  decide +kernel

/-- MERR with no strobe asserted ends nothing, and the next access waits for its level (R101). -/
theorem test_merr_unstrobed :
    let s : State := { hub with job := some { job .fill 9 false 3 with strobed := false }, mrdy := true }
    after (.fillFailed .storeError) s = some { s with merr := true } := by decide +kernel

/-- The sixteenth half-word of a FILL makes the copy CLEAN; byte 30 is its low byte (R24, R100). -/
theorem test_fillComplete :
    (after (.fillComplete 0xBBAA) { lines hub [{ entry 9 0 .empty nobody with activity := .filling }] with
      job := some (job .fill 9 false 15) }).map (fun t => (t.table.map Entry.copy, t.job, t.bus.mselN)) =
      some ([.clean (0xBBAA#256 <<< 240)], none, true) := by decide +kernel

/-- A DRAIN that fails leaves a DRAIN_FAULT record with one attempt, and FAULT_POSTED for the supervisor with data 1 (R92,
R119). -/
theorem test_drainFailed : (after (.drainFailed .storeError) { hub with
      job := some (job (.drain 1) 9 true 3), journal := [⟨9, ramp, 1, .evict, .writing⟩], seqCounter := 2 }).map
      (fun t => (sent 0 t, t.faultQueue.map (·.body), t.merr)) =
      some ([(0x82, [0, 1, 0xFF, 1])], [.drainFault 9 .storeError 1 1 .evict ramp], true) := by decide +kernel

/-! ## Witnesses: states and operands that meet the hypotheses of each obligation, at the ends of their ranges -/

/-- P1 and nobody else has a holding. -/
def p1 (h : Holding) : Vector Holding 4 := #v[.none, h, .none, .none]

/-- Lines 0 and 65535, the second held READ by P1. -/
def twoEnds : State :=
  lines hub [entry 0 0 (.clean ramp) nobody, entry 0xFFFF 3 (.dirty ramp) (p1 .read)]

theorem witness_ReadWordsServed :
    (Admits twoEnds 2 (fr [0, 0, 0, 8]) .readWords ∧ Quiet twoEnds ∧
      Serves twoEnds 2 0 .read (entry 0 0 (.clean ramp) nobody) ramp ∧
      (fr [0, 0, 0, 8]).payload = le16 0 ++ [count8 0, count8 8] ∧ ∀ q : Port, nobody[q] ≠ .write) ∧
    (Admits twoEnds 1 (fr [0xFF, 0xFF, 7, 1]) .readWords ∧ Quiet twoEnds ∧
      Serves twoEnds 1 0xFFFF .read (entry 0xFFFF 3 (.dirty ramp) (p1 .read)) ramp ∧
      (fr [0xFF, 0xFF, 7, 1]).payload = le16 0xFFFF ++ [count8 7, count8 1] ∧ ∀ q : Port, (p1 .read)[q] ≠ .write) := by
  repeat' first | decide +kernel | (unfold State.portSettled; decide +kernel) | constructor

/-- Line 99, the last of region 0, held by P1. -/
def ninetyNine (h : Holding) : State := lines hub [entry 99 0 (.clean ramp) (p1 h)]

/-- The same, with a recall of P1's READ outstanding. -/
def recalledRead : State := { ninetyNine .read with recalls := [⟨255, ⟨99, 1, .invalidate, .region⟩, 50⟩] }

theorem witness_WriteWordsServed :
    (Admits recalledRead 1 (fr (99 :: 0 :: 7 :: 1 :: 0 :: 0 :: 0 :: 0x80 :: wordBytes ramp 7 1)) .writeWords ∧
      Quiet recalledRead ∧ Serves recalledRead 1 99 .full (entry 99 0 (.clean ramp) (p1 .read)) ramp ∧
      OnlyRecall recalledRead 99 1 ⟨255, ⟨99, 1, .invalidate, .region⟩, 50⟩) ∧
    Admits (ninetyNine .read) 1 (fr (99 :: 0 :: 7 :: 1 :: 0 :: 0 :: 0 :: 0x80 :: wordBytes ramp 7 1)) .writeWords ∧
    Quiet (ninetyNine .read) ∧ Serves (ninetyNine .read) 1 99 .full (entry 99 0 (.clean ramp) (p1 .read)) ramp ∧
    hub.regions[(0 : RegionId)].cls = .tracked ∧ (0x80000000#32 : Enables) ≠ 0 ∧
    enablesInside 0x80000000 7 1 = true ∧ (∀ q : Port, q ≠ 1 → (p1 .read)[q] = .none) ∧
    (p1 .read)[(1 : Port)] ≠ .write ∧ (ninetyNine .read).recallOutstanding 99 1 = false ∧
    (fr (99 :: 0 :: 7 :: 1 :: 0 :: 0 :: 0 :: 0x80 :: wordBytes ramp 7 1)).payload =
      le16 99 ++ [count8 7, count8 1] ++ le32 0x80000000 ++ wordBytes ramp 7 1 := by
  repeat' first | decide +kernel | (unfold State.portSettled; decide +kernel) | constructor

/-- Lines 98 and 99 of region 0: P1 holds the first. -/
def ninetyEight (h : Vector Holding 4) : State :=
  lines hub [entry 98 0 (.clean ramp) (p1 .read), entry 99 0 (.clean ramp) h]

/-- P1 has room for one holding more (R36). -/
theorem witness_AcquiresServed :
    (Admits (ninetyEight #v[.read, .none, .read, .read]) 1 (fr [99, 0]) .acquireRead ∧
      Quiet (ninetyEight #v[.read, .none, .read, .read]) ∧
      Serves (ninetyEight #v[.read, .none, .read, .read]) 1 99 .read (entry 99 0 (.clean ramp) #v[.read, .none, .read, .read]) ramp ∧
      (ninetyEight #v[.read, .none, .read, .read]).holdingCount 1 < (ninetyEight #v[.read, .none, .read, .read]).capacity 1 ∧
      ∀ q : Port, (#v[.read, .none, .read, .read] : Vector Holding 4)[q] ≠ .write) ∧
    (Admits (ninetyEight nobody) 1 (fr [99, 0]) .acquireWrite ∧ Quiet (ninetyEight nobody) ∧
      Serves (ninetyEight nobody) 1 99 .full (entry 99 0 (.clean ramp) nobody) ramp ∧ (∀ q : Port, nobody[q] = .none) ∧
      (ninetyEight nobody).holdingCount 1 < (ninetyEight nobody).capacity 1) ∧
    (Admits (ninetyEight (p1 .read)) 1 (fr [99, 0]) .upgrade ∧ Quiet (ninetyEight (p1 .read)) ∧
      Serves (ninetyEight (p1 .read)) 1 99 .full (entry 99 0 (.clean ramp) (p1 .read)) ramp ∧
      (p1 .read)[(1 : Port)] = .read ∧ ∀ q : Port, q ≠ 1 → (p1 .read)[q] = .none) ∧ (fr [99, 0]).payload = le16 99 := by
  repeat' first | decide +kernel | (unfold State.portSettled; decide +kernel) | constructor

/-- Lines 0 to 99, then 300 on. -/
def fillLines : List Line := (List.range 100).map (BitVec.ofNat 16) ++ (List.range 412).map fun n => BitVec.ofNat 16 (300 + n)

/-- One entry of the table is free. -/
def nearlyFull : State :=
  busy (lines hub (((fillLines.drop 1).map fun l => entry l (if l.toNat < 100 then 0 else 3) (.clean ramp) nobody)))

def partialWrite : List Byte := [0, 0, 7, 1, 0, 0, 0, 0x80, 1, 2, 3, 4]

theorem witness_AbsentLineAsksFill :
    Quiet nearlyFull ∧ nearlyFull.job.isSome = true ∧ Absent nearlyFull 0 ∧ 0 ∉ nearlyFull.fillQueue ∧
    Admits nearlyFull 1 (fr [0, 0]) .acquireRead ∧ Admits nearlyFull 1 (fr [0, 0]) .acquireWrite ∧
    MayUse nearlyFull 1 0 .full 0 ∧ MayUse nearlyFull 1 0 .read 0 ∧ nearlyFull.holdingCount 1 < nearlyFull.capacity 1 ∧
    (fr [0, 0]).payload = le16 0 ∧ Admits nearlyFull 1 (fr [0, 0, 7, 1]) .readWords ∧
    (fr [0, 0, 7, 1]).payload = le16 0 ++ [count8 7, count8 1] ∧ Admits nearlyFull 1 (fr partialWrite) .writeWords ∧
    (parseWriteWords partialWrite).map (fun x => (x.line, isFullLine x.enables)) = some (0, false) := by
  repeat' first | decide +kernel | (unfold State.portSettled; decide +kernel) | constructor

/-- A full-line write of line 0. -/
def fullWrite : RxFrame := fr (le16 0 ++ [count8 0, count8 8] ++ le32 (BitVec.allOnes 32) ++ lineBytes ramp)

/-- The nearly full table without a job. -/
def nearlyFullIdle : State := { nearlyFull with job := none }

theorem witness_FullLineWriteCreatesEntry :
    Admits nearlyFullIdle 1 fullWrite .writeWords ∧ Quiet nearlyFullIdle ∧ MayUse nearlyFullIdle 1 0 .full 0 ∧
    nearlyFullIdle.regions[(0 : RegionId)].cls = .tracked ∧ nearlyFullIdle.entry? 0 = none ∧
    nearlyFullIdle.table.length < Config.tableSize := by
  repeat' first | decide +kernel | (unfold State.portSettled; decide +kernel) | constructor

/-- Fifteen open recalls of lines 50 to 64 to P2, with ids 1 to 15. -/
def fifteen : List Recall := (List.range 15).map fun i =>
  ⟨BitVec.ofNat 8 (i + 1), ⟨BitVec.ofNat 16 (50 + i), 2, .invalidate, .request⟩, 50⟩

/-- Line 5, held so, with one place left in the recall table. -/
def five (h : Vector Holding 4) : State := { lines hub [entry 5 0 (.clean ramp) h] with recalls := fifteen }

/-- One holder, two with one place left in the recall table, and three with none. -/
theorem witness_RecallAsked :
    (Quiet (five (p1 .write)) ∧ Serves (five (p1 .write)) 3 5 .read (entry 5 0 (.clean ramp) (p1 .write)) ramp ∧
      (List.finRange 4).filter (fun q => decide (q ≠ 3 ∧ (p1 .write)[q] = .write)) = [1] ∧ (p1 .write)[(3 : Port)] = .none ∧
      Admits (five (p1 .write)) 3 (fr [5, 0]) .acquireRead ∧
      (fr [5, 0]).payload = le16 5 ∧ (five (p1 .write)).holdingCount 3 < (five (p1 .write)).capacity 3 ∧
      Admits (five (p1 .write)) 3 (fr [5, 0]) .flush ∧ Admits (five (p1 .write)) 3 (fr [5, 0, 0, 8]) .readWords ∧
      parseReadWords [5, 0, 0, 8] = some (5, 0, 8)) ∧
    (Serves (five (p1 .write)) 3 5 .full (entry 5 0 (.clean ramp) (p1 .write)) ramp ∧
      (List.finRange 4).filter (fun q => decide (q ≠ 3 ∧ (p1 .write)[q] ≠ .none)) ≠ [] ∧
      Admits (five (p1 .write)) 3 (fr [5, 0]) .acquireWrite ∧
      Admits (five (p1 .write)) 3 (fr (5 :: 0 :: partialWrite.drop 2)) .writeWords ∧
      (parseWriteWords (5 :: 0 :: partialWrite.drop 2)).map (·.line) = some 5) ∧
    (Quiet (five #v[.none, .read, .read, .read]) ∧
      Serves (five #v[.none, .read, .read, .read]) 3 5 .full (entry 5 0 (.clean ramp) #v[.none, .read, .read, .read]) ramp ∧
      (List.finRange 4).filter (fun q => decide (q ≠ 3 ∧ (#v[.none, .read, .read, .read] : Vector Holding 4)[q] ≠ .none)) = [1, 2] ∧
      Admits (five #v[.none, .read, .read, .read]) 3 (fr [5, 0]) .upgrade) ∧
    (let s : State := { five #v[.read, .read, .read, .none] with recalls := fifteen ++ [⟨0, ⟨49, 2, .invalidate, .request⟩, 50⟩] }
     Quiet s ∧ Serves s 3 5 .full (entry 5 0 (.clean ramp) #v[.read, .read, .read, .none]) ramp ∧ s.recalls.length = 16 ∧
      Admits s 3 (fr [5, 0]) .acquireWrite ∧ s.holdingCount 3 < s.capacity 3) := by
  repeat' first | decide +kernel | (unfold State.portSettled; decide +kernel) | constructor

/-- With one place left the first of two recalls takes it under id 0, and the second waits (R62, R63). -/
theorem test_upgrade_recallWaits :
    (after (.upgrade 3 (fr [5, 0])) (five #v[.none, .read, .read, .read])).map
      (fun t => ((t.recalls.drop 15).map fun r => (r.id, r.asked.port), t.recallWait.map fun w => (w.line, w.port), sent 2 t)) =
      some ([(0, 1)], [(5, 2)], []) := by decide +kernel

theorem witness_PlainLineBecomesDirect :
    Quiet (busy hub) ∧ (busy hub).job.isSome = true ∧ hub.regionOf 200 = some 2 ∧ hub.regionOf 299 = some 2 ∧
    hub.regions[(2 : RegionId)].cls = .plain ∧ (busy hub).entry? 200 = none ∧ (busy hub).entry? 299 = none ∧
    Admits (busy hub) 1 (fr [200, 0, 7, 1]) .readWords ∧ hub.regions[(2 : RegionId)].access[(1 : Port)] ≠ .none ∧
    parseReadWords [200, 0, 7, 1] = some (200, 7, 1) ∧ parseReadWords [0x2B, 1, 0, 8] = some (299, 0, 8) ∧
    Admits (busy hub) 0 (fr (200 :: 0 :: partialWrite.drop 2)) .writeWords ∧
    hub.regions[(2 : RegionId)].access[(0 : Port)] = .full ∧
    (parseWriteWords (200 :: 0 :: partialWrite.drop 2)).map (·.line) = some 200 := by
  repeat' first | decide +kernel | (unfold State.portSettled; decide +kernel) | constructor

/-- A data request that names the line and passes checks 1 to 5. -/
abbrev Named (k : Kind) (p : Port) (f : RxFrame) (s : State) (l : Line) : Prop :=
  k.checksLine = true ∧ Admits s p f k ∧ k.lineNamed f.payload = some l

/-- Line 5 POISONED, line 6 held WRITE by P1. -/
def poisoned : State := lines hub [{ entry 5 0 .poisoned nobody with recordId := some 1 }, entry 6 0 (.clean ramp) (p1 .write)]

/-- P1 may hold one line only. -/
def oneLine : State := { poisoned with sessions := hub.sessions.set 1 { state := .online, capacity := some 1, number := some 7 } }

theorem witness_DataRequestRefused :
    (Named .readWords 1 (fr [0x2C, 1, 0, 1]) { hub with regions := hub.regions.set 3 Region.reset } 300 ∧
      ({ hub with regions := hub.regions.set 3 Region.reset } : State).regionOf 300 = none) ∧
    (Named .upgrade 1 (fr [0x2C, 1]) hub 300 ∧ hub.regionOf 300 = some 3 ∧
      hub.regions[(3 : RegionId)].access[(1 : Port)].rank < Kind.upgrade.needs.rank) ∧
    (Named .acquireRead 1 (fr [200, 0]) hub 200 ∧ hub.regionOf 200 = some 2 ∧ hub.regions[(2 : RegionId)].cls = .plain ∧
      Kind.acquireRead.needs.rank ≤ hub.regions[(2 : RegionId)].access[(1 : Port)].rank ∧ Kind.acquireRead.takesPlain = false) ∧
    (Named .flush 1 (fr [6, 0]) poisoned 6 ∧ poisoned.regionOf 6 = some 0 ∧ poisoned.regions[(0 : RegionId)].cls ≠ .plain ∧
      poisoned.holding 6 1 = .write) ∧
    (Named .acquireWrite 1 (fr [6, 0]) poisoned 6 ∧ poisoned.holding 6 1 ≠ .none) ∧
    (Named .acquireRead 1 (fr [7, 0]) oneLine 7 ∧ oneLine.regionOf 7 = some 0 ∧ oneLine.holding 7 1 = .none ∧
      oneLine.capacity 1 ≤ oneLine.holdingCount 1) ∧
    (Named .upgrade 1 (fr [6, 0]) poisoned 6 ∧ poisoned.holding 6 1 ≠ .read) ∧
    (Named .prefetch 1 (fr [5, 0]) poisoned 5 ∧ poisoned.checkHolding 1 .prefetch 5 = none ∧
      ∃ e, poisoned.entry? 5 = some e ∧ e.copy = .poisoned) := by
  refine ⟨?_, ?_, ?_, ?_, ?_, ?_, ?_, ?_, ?_, ⟨_, rfl, rfl⟩⟩ <;>
    repeat' first | decide +kernel | constructor

theorem witness_StepRunsFrontCommand : State.reset.pending = [] := rfl

/-- The entry of a line that a FILL_FAULT record holds. -/
def faultHeld (l : Line) (id : Byte) : Entry := ⟨l, 0, .empty, nobody, .faultHeld, [], false, some id⟩

/-- STOPPED, the fault queue full: a FILL_FAULT for each of lines 0 to 5, and the stop record for line 9. A Restart waits. -/
def fullFaults : State := { stopped hub with
  table := faultHeld 9 7 :: (List.range 6).map fun i => faultHeld (BitVec.ofNat 16 i) (BitVec.ofNat 8 (i + 1))
  faultQueue := (List.range 6).map fun i => ⟨BitVec.ofNat 8 (i + 1), .opened, 2, .fillFault (BitVec.ofNat 16 i) .storeError 1⟩
  pending := [.restart 0 (fr [])] }

/-- Its records and the entries they stand for name each other. -/
theorem test_fullFaults_records : RecordsOk fullFaults where
  ids := by decide +kernel
  lines := by simp [fullFaults, stopped, State.faultRecords, RecordBody.lines, faultHeld, FaultRecord.Fits, List.range, List.range.loop]
  entries := by simp [fullFaults, stopped, State.faultRecords, RecordBody.lines, faultHeld, List.range, List.range.loop]
  seqs := by decide +kernel
  drains := by simp [fullFaults, stopped, State.faultRecords, RecordBody.seq?, List.range, List.range.loop]
  stop := by simp [fullFaults, stopped]

theorem witness_StepKeepsOrder : InOrder fullFaults ∧ ∃ t, step fullFaults = .next t := by
  refine ⟨⟨⟨?_, ?_, ?_, ?_⟩, ⟨?_, ?_, ?_, ?_⟩, ?_, ?_, ⟨?_, ?_, ?_⟩, ⟨?_, ?_, ?_, ?_⟩, ⟨?_, ?_⟩,
    ⟨?_, (rfl : fullFaults.fillJobs = []) ▸ nofun, nofun⟩, test_fullFaults_records, ?_⟩, ⟨_, rfl⟩⟩
  all_goals first | decide +kernel | (unfold ReplayOk; decide +kernel) | (unfold RequestsOk; decide +kernel) |
    (unfold TagsOk; decide +kernel)

theorem witness_StoppedUntilReset : fullFaults.mode = .stopped ∧ (∃ t, exec (.drainFailed .storeTimeout) fullFaults = .next t) ∧
    (∀ p f, Instr.drainFailed .storeTimeout ≠ .restart p f) ∧ ∀ a b, Instr.drainFailed .storeTimeout ≠ .powerOnReset a b := by
  exact ⟨rfl, ⟨_, rfl⟩, nofun, nofun⟩

theorem witness_ControlRegistersWritten : (∃ t, exec (.setThreshold 1 (fr [7])) hub = .next t) ∧
    (∀ a b, Instr.setThreshold 1 (fr [7]) ≠ .powerOnReset a b) ∧ Instr.setThreshold 1 (fr [7]) ≠ .resetNLow ∧
    Instr.setThreshold 1 (fr [7]) ≠ .hubTimeAdvance ∧ (∀ p f, Instr.setThreshold 1 (fr [7]) ≠ .hello p f) ∧
    (∀ p : Port, Instr.setThreshold 1 (fr [7]) ≠ .linkUp p ∧ Instr.setThreshold 1 (fr [7]) ≠ .linkDown p) ∧
    (∀ p f, Instr.setThreshold 1 (fr [7]) ≠ .restart p f) ∧ (∀ p f, Instr.setThreshold 1 (fr [7]) ≠ .setTimers p f) ∧
    ∀ p f, Instr.setThreshold 1 (fr [7]) ≠ .regionSet p f := by
  exact ⟨⟨_, rfl⟩, nofun, nofun, nofun, nofun, fun _ => ⟨nofun, nofun⟩, nofun, nofun, nofun⟩

/-- An empty payload and the longest one. -/
theorem witness_FramesSpellTheirCommands :
    (Instr.sync 2 (fr [])).wellFormed = true ∧ commandFrame? (.sync 2 (fr [])) = some (2, ⟨0x28, 5, 0, []⟩) ∧
    (Instr.ping 3 255 (List.replicate 240 0xFF)).wellFormed = true ∧
    commandFrame? (.ping 3 255 (List.replicate 240 0xFF)) = some (3, ⟨1, 255, 0, List.replicate 240 0xFF⟩) := by decide +kernel

theorem witness_MergeTakesEnabledBytes : (0 < 32 ∧ 31 < 32) ∧ (0x80000000#32).getLsbD 31 = true ∧
    (0x80000000#32).getLsbD 0 = false := by decide

/-- Seven outstanding Syncs of P1, tags 10 to 16, on a journal of one FAULTED entry. -/
def sevenSyncs : State := { hub with
  journal := [⟨9, ramp, 1, .evict, .faulted⟩], seqCounter := 2
  requests := (List.range 7).map fun i => ⟨⟨1, BitVec.ofNat 8 (10 + i)⟩, .sync⟩
  syncList := (List.range 7).map fun i => ⟨⟨1, BitVec.ofNat 8 (10 + i)⟩, .sync 1 [1], false⟩ }

/-- An eighth, with tag 17. -/
def eightSyncs : State := { sevenSyncs with
  requests := sevenSyncs.requests ++ [⟨⟨1, 17⟩, .sync⟩]
  syncList := sevenSyncs.syncList ++ [⟨⟨1, 17⟩, .sync 1 [1], false⟩] }

theorem witness_AdmissionInOrder :
    (Arrives (inState hub 1 .idle) 1 0 ∧ ¬ (inState hub 1 .idle).sessionTakes 1 .readWords ∧
      ¬ hub.sessionTakes 1 .hello ∧ ¬ (inState hub 1 .closing).sessionTakes 1 .readWords ∧
      ¬ (inState hub 1 .fenced).sessionTakes 1 .hubStatus) ∧
    (Arrives hub 1 0 ∧ hub.sessionTakes 1 .hubStatus ∧ Kind.hubStatus.supervisorOnly = true ∧ (1 : Port) ≠ hub.supervisor) ∧
    ((Kind.sync.supervisorOnly = true → (1 : Port) = hub.supervisor) ∧ hub.goodFormat 1 .sync [0] = false ∧
      hub.goodFormat 1 .sync [] = true) ∧
    (Arrives sevenSyncs 1 0 ∧ ∃ r ∈ sevenSyncs.outstanding 1, r.id.tag = 16) ∧
    (Arrives eightSyncs 1 0 ∧ (∀ r ∈ eightSyncs.outstanding 1, r.id.tag ≠ 5) ∧ 8 ≤ (eightSyncs.outstanding 1).length) ∧
    (Arrives (stopped sevenSyncs) 1 0 ∧ (stopped sevenSyncs).sessionTakes 1 .sync ∧ (∀ r ∈ sevenSyncs.outstanding 1, r.id.tag ≠ 5) ∧
      ((stopped sevenSyncs).outstanding 1).length < 8 ∧ (stopped sevenSyncs).mode = .stopped ∧ Kind.sync.inStopped = false) := by
  refine ⟨⟨by constructor <;> decide, ?_, ?_, ?_, ?_⟩, ⟨by constructor <;> decide, ?_, rfl, by decide⟩, by decide,
    ⟨by constructor <;> decide, by decide⟩, ⟨by constructor <;> decide, by decide, by decide⟩,
    ⟨by constructor <;> decide, ?_, by decide⟩⟩
  · exact show ¬ (Kind.readWords = .hello) by decide
  · exact show ¬ (Kind.hello ≠ .hello) by decide
  · exact show ¬ (Kind.readWords.anySession = true) by decide
  · exact show ¬ (Kind.hubStatus.anySession = true ∨ _ = true ∧ (1 : Port) = hub.supervisor) by decide
  · exact show Kind.hubStatus ≠ .hello by decide
  · exact show Kind.sync ≠ .hello by decide

/-- Line 99 held WRITE by P1; line 100, of the WRITE_THROUGH region, likewise. -/
def twoWritten : State := lines hub [entry 99 0 (.clean ramp) (p1 .write), entry 100 1 (.clean ramp) (p1 .write)]

theorem witness_ReleaseAnswered :
    (Admits twoWritten 1 (fr [99, 0]) .release ∧ Quiet twoWritten ∧ twoWritten.recallOutstanding 99 1 = false ∧
      (fr [99, 0]).payload = le16 99 ∧ twoWritten.holding 99 1 ≠ .none) ∧
    (Admits twoWritten 1 (fr (le16 99 ++ lineBytes ramp)) .release ∧ twoWritten.holding 99 1 = .write ∧
      twoWritten.classOf 99 ≠ some .writeThrough) ∧
    (Admits twoWritten 2 (fr (le16 99 ++ lineBytes ramp)) .release ∧ twoWritten.holding 99 2 ≠ .write) ∧
    (Admits twoWritten 2 (fr [99, 0]) .release ∧ twoWritten.holding 99 2 = .none) := by
  repeat' first | decide +kernel | (unfold State.portSettled; decide +kernel) | constructor

/-- Thirty-one journal entries of the line, all but the last FAULTED (the last as given); the alarm is disarmed. -/
def owed (l : Line) (last : JournalState) (s : State) : State := { s with
  journal := (List.range 31).map fun i => ⟨l, ramp, BitVec.ofNat 32 (i + 1), .evict, if i = 30 then last else .faulted⟩
  seqCounter := 32
  highAlarm := false }

/-- A journal of 23 FAULTED entries of the line, the alarm armed. -/
def armed (l : Line) (s : State) : State := { s with
  journal := (List.range 23).map fun i => ⟨l, ramp, BitVec.ofNat 32 (i + 1), .evict, .faulted⟩
  seqCounter := 24
  highAlarm := true }

/-- A journal of 32 FAULTED entries of the line. -/
def shutFor (l : Line) (s : State) : State := { s with
  journal := (List.range 32).map fun i => ⟨l, ramp, BitVec.ofNat 32 (i + 1), .evict, .faulted⟩
  seqCounter := 33 }

theorem witness_WriteThroughOwed :
    (Admits (owed 100 .queued (busy twoWritten)) 1 (fr (le16 100 ++ lineBytes ramp)) .release ∧
      Quiet (owed 100 .queued (busy twoWritten)) ∧ (owed 100 .queued (busy twoWritten)).job.isSome = true ∧
      (owed 100 .queued (busy twoWritten)).recallOutstanding 100 1 = false ∧
      (owed 100 .queued (busy twoWritten)).holding 100 1 = .write ∧
      (owed 100 .queued (busy twoWritten)).classOf 100 = some .writeThrough ∧
      ∃ j ∈ (owed 100 .queued (busy twoWritten)).journal, j.line = 100 ∧ j.state = .queued) ∧
    (Admits (owed 100 .faulted (busy twoWritten)) 1 (fr (le16 100 ++ lineBytes ramp)) .release ∧
      Quiet (owed 100 .faulted (busy twoWritten)) ∧ Appends (owed 100 .faulted (busy twoWritten)) 100) ∧
    (Admits (armed 98 (busy twoWritten)) 1 (fr (le16 100 ++ lineBytes ramp)) .release ∧ Quiet (armed 98 (busy twoWritten)) ∧
      Appends (armed 98 (busy twoWritten)) 100 ∧ (armed 98 (busy twoWritten)).journal.length = 23 ∧
      (armed 98 (busy twoWritten)).highAlarm = true) ∧
    (Admits (shutFor 100 (busy twoWritten)) 1 (fr (le16 100 ++ lineBytes ramp)) .release ∧
      Quiet (shutFor 100 (busy twoWritten)) ∧ (shutFor 100 (busy twoWritten)).journal.length = 32 ∧
      ∀ j ∈ (shutFor 100 (busy twoWritten)).journal, j.state ≠ .queued) := by
  repeat' first | decide +kernel | (unfold State.portSettled; decide +kernel) | constructor

/-- The Release that brings the journal to 24 entries: JOURNAL_HIGH with 24 for the supervisor, and the alarm is disarmed
(R98). -/
theorem test_release_journalHigh : (after (.release 1 (fr (le16 100 ++ lineBytes ramp))) (armed 98 (busy twoWritten))).map
    (fun t => (t.highAlarm, [sent 0 t, sent 1 t])) = some (false, [[(0x82, [0, 6, 0xFF, 24])], [(0x80, [0])]]) := by decide +kernel

/-- One record in the fault queue. -/
def withRecord (b : RecordBody) (x : RecordState) (s : State) : State :=
  { s with faultQueue := [⟨1, x, 2, b⟩], recordCounter := 2 }

/-- Line 100 of the WRITE_THROUGH region, in a busy hub whose journal is full, with this entry. -/
def through (e : Entry) : State := shutFor 98 (busy (lines hub [e]))

/-- The recall of P1's line 100. -/
def recall100 : Recall := ⟨0, ⟨100, 1, .downgrade, .request⟩, 50⟩

/-- Write Words, Recall Answer, Resolve SUPPLY and Supply Line. -/
theorem witness_WriteThroughOwed_others :
    (let s : State := through (entry 100 1 (.clean ramp) (p1 .read))
     Admits s 1 (fr (100 :: 0 :: 7 :: 1 :: 0 :: 0 :: 0 :: 0x80 :: wordBytes ramp 7 1)) .writeWords ∧ Quiet s ∧
      s.classOf 100 = some .writeThrough ∧ Serves s 1 100 .full (entry 100 1 (.clean ramp) (p1 .read)) ramp ∧
      enablesInside 0x80000000 7 1 = true ∧ s.recallOutstanding 100 1 = false) ∧
    (let s : State := { through { entry 100 1 (.clean ramp) (p1 .write) with activity := .recalling } with
       recalls := [recall100] }
     Arrives s 1 0 ∧ Quiet s ∧ OnlyRecall s 100 1 recall100 ∧ s.sessionState 1 = .online) ∧
    (let s : State := withRecord (.fillFault 100 .storeError 1) .opened
       (through { entry 100 1 .empty nobody with activity := .faultHeld, recordId := some 1 })
     Admits s 0 (fr ([1, 2] ++ lineBytes ramp)) .resolve ∧ Quiet s ∧
      Queued s [] ⟨1, .opened, 2, .fillFault 100 .storeError 1⟩ []) ∧
    (let s : State := withRecord (.holderLost 1 .linkLost [100]) .opened
       (through { entry 100 1 .poisoned nobody with recordId := some 1 })
     Admits s 0 (fr (1 :: le16 100 ++ lineBytes ramp)) .supplyLine ∧ Quiet s ∧
      Queued s [] ⟨1, .opened, 2, .holderLost 1 .linkLost [100]⟩ []) := by
  repeat' first | decide +kernel | (unfold State.portSettled; decide +kernel) | constructor

/-- Every entry of the table is in use, none can give way: the lines of the table each held READ by P3. -/
def fullHeld : State := lines hub (fillLines.map fun l =>
  entry l (if l.toNat < 100 then 0 else 3) (.clean ramp) #v[.none, .none, .none, .read])

theorem witness_PrefetchTaken :
    (Admits nearlyFull 1 (fr [0x2C, 1]) .prefetch ∧ MayUse nearlyFull 1 300 .read 3 ∧ nearlyFull.checkPoison 300 = none ∧
      (nearlyFull.entry? 300).isSome = true) ∧
    (Admits nearlyFull 1 (fr [0, 0]) .prefetch ∧ MayUse nearlyFull 1 0 .read 0 ∧ nearlyFull.checkPoison 0 = none ∧
      Quiet nearlyFull ∧ nearlyFull.job.isSome = true ∧ Absent nearlyFull 0 ∧ 0 ∉ nearlyFull.fillQueue) ∧
    (Admits fullHeld 1 (fr [0xFF, 0xFF]) .prefetch ∧ MayUse fullHeld 1 65535 .read 3 ∧ fullHeld.checkPoison 65535 = none ∧
      fullHeld.entry? 65535 = none ∧ Config.tableSize ≤ fullHeld.table.length ∧ ∀ e ∈ fullHeld.table, e.candidate = false) := by
  repeat' first | decide +kernel | (unfold State.portSettled; decide +kernel) | constructor

/-- Line 99 DIRTY, nothing of it in the journal, which has one place left. -/
def dirty99 : State := owed 98 .faulted (busy (lines hub [entry 99 0 (.dirty ramp) nobody]))

theorem witness_FlushTaken :
    (Admits hub 1 (fr [200, 0]) .flush ∧ hub.regionOf 200 = some 2 ∧ hub.regions[(2 : RegionId)].cls = .plain ∧
      hub.regions[(2 : RegionId)].access[(1 : Port)] ≠ .none ∧ hub.holding 200 1 = .none) ∧
    (Admits dirty99 1 (fr [0, 0]) .flush ∧ MayUse dirty99 1 0 .read 0 ∧ dirty99.entry? 0 = none ∧
      ∀ j ∈ dirty99.journal, j.line ≠ 0) ∧
    (Admits dirty99 1 (fr [98, 0]) .flush ∧ MayUse dirty99 1 98 .read 0 ∧ dirty99.entry? 98 = none ∧
      dirty99.Newest 98 ⟨98, ramp, 31, .evict, .faulted⟩) ∧
    (Admits dirty99 1 (fr [99, 0]) .flush ∧ TablesOk dirty99 ∧ Quiet dirty99 ∧
      Serves dirty99 1 99 .read (entry 99 0 (.dirty ramp) nobody) ramp ∧ (∀ q : Port, nobody[q] ≠ .write) ∧
      dirty99.job.isSome = true ∧ Appends dirty99 99) ∧
    (Admits (ninetyNine .read) 1 (fr [99, 0]) .flush ∧ TablesOk (ninetyNine .read) ∧ Quiet (ninetyNine .read) ∧
      Serves (ninetyNine .read) 1 99 .read (entry 99 0 (.clean ramp) (p1 .read)) ramp ∧
      (∀ q : Port, (p1 .read)[q] ≠ .write) ∧ ∀ j ∈ (ninetyNine .read).journal, j.line ≠ 99) ∧
    (let s : State := shutFor 98 (busy (lines hub [entry 99 0 (.dirty ramp) nobody]))
     Admits s 1 (fr [99, 0]) .flush ∧ TablesOk s ∧ Quiet s ∧ Serves s 1 99 .read (entry 99 0 (.dirty ramp) nobody) ramp ∧
      s.journal.length = 32 ∧ ∀ j ∈ s.journal, j.line = 99 → j.state ≠ .queued) ∧
    (let s : State := owed 99 .queued (busy (lines hub [entry 99 0 (.dirty ramp) nobody]))
     Admits s 1 (fr [99, 0]) .flush ∧ TablesOk s ∧ Quiet s ∧ Serves s 1 99 .read (entry 99 0 (.dirty ramp) nobody) ramp ∧
      s.journal = s.journal.take 30 ++ ⟨99, ramp, 31, .evict, .queued⟩ :: [] ∧
      ∀ k ∈ s.journal.take 30, k.line = 99 → k.state ≠ .queued) ∧
    (let s : State := armed 98 (busy (lines hub [entry 99 0 (.dirty ramp) nobody]))
     Admits s 1 (fr [99, 0]) .flush ∧ TablesOk s ∧ Quiet s ∧ Serves s 1 99 .read (entry 99 0 (.dirty ramp) nobody) ramp ∧
      Appends s 99) := by
  refine ⟨?_, ?_, ⟨?_, ?_, ?_, ⟨dirty99.journal.take 30, [], ?_, ?_⟩⟩, ?_, ?_, ?_, ?_, ?_⟩ <;>
    repeat' first | decide +kernel | (unfold State.portSettled; decide +kernel) | constructor

theorem witness_SyncTaken : Admits hub 3 (fr []) .sync ∧ hub.journal = [] ∧ Admits dirty99 3 (fr []) .sync ∧
    dirty99.journal = dirty99.journal.take 30 ++ [⟨98, ramp, 31, .evict, .faulted⟩] := by
  repeat' first | decide +kernel | constructor

/-- P1 CLOSING, its Goodbye outstanding. -/
def closing (s : State) : State := inState { s with requests := s.requests ++ [⟨⟨1, 99⟩, .goodbye⟩] } 1 .closing

/-- Region 0 with the right of P1 as given. -/
def region0 (x : Access) : Region := ⟨true, 0, 100, .tracked, #v[.full, x, .full, .full]⟩

/-- A Region Set of region 0 that takes P1's right is completing. -/
def losing (s : State) : State := { s with regions := s.regions.set 0 (region0 .none), completing := some 0 }

/-- The recall with id 255 of line 5 to P1. -/
def asked (k : RecallKind) : Recall := ⟨255, ⟨5, 1, k, .request⟩, 50⟩

/-- Line 5 RECALLING, held so, with these waiters, its recall the only one of the line. -/
def recalling (k : RecallKind) (h : Vector Holding 4) (w : List ReqId) : State :=
  { lines hub [{ entry 5 0 (.clean ramp) h with activity := .recalling, waiters := w }] with
    recalls := [⟨0, ⟨6, 1, .invalidate, .request⟩, 50⟩, asked k] }

/-- Line 5 EVICTING, held WRITE by P1, with this recall its only one, and fifteen of other lines. -/
def evicting (k : RecallKind) : State :=
  { lines hub [{ entry 5 0 (.clean ramp) (p1 .write) with activity := .evicting }] with recalls := fifteen ++ [asked k] }

theorem witness_RecallAnswered :
    (Arrives (recalling .downgrade (p1 .write) []) 1 (fr []).seq ∧ (recalling .downgrade (p1 .write) []).sessionState 1 = .online ∧
      Quiet (recalling .downgrade (p1 .write) []) ∧
      (recalling .downgrade (p1 .write) []).entry? 5 = some { entry 5 0 (.clean ramp) (p1 .write) with activity := .recalling } ∧
      OnlyRecall (recalling .downgrade (p1 .write) []) 5 1 (asked .downgrade) ∧
      (recalling .downgrade (p1 .write) []).classOf 5 ≠ some .writeThrough ∧ (asked .downgrade).asked.kind = .downgrade) ∧
    (Arrives (recalling .invalidate (p1 .read) []) 1 (fr []).seq ∧ Quiet (recalling .invalidate (p1 .read) []) ∧
      (recalling .invalidate (p1 .read) []).entry? 5 = some { entry 5 0 (.clean ramp) (p1 .read) with activity := .recalling } ∧
      OnlyRecall (recalling .invalidate (p1 .read) []) 5 1 (asked .invalidate) ∧ (p1 .read)[(1 : Port)] ≠ .write ∧
      (p1 .write)[(1 : Port)] = .write) ∧
    (Arrives (evicting .downgrade) 1 0 ∧ (evicting .downgrade).sessionState 1 = .online ∧ Quiet (evicting .downgrade) ∧
      (evicting .downgrade).entry? 5 = some { entry 5 0 (.clean ramp) (p1 .write) with activity := .evicting } ∧
      OnlyRecall (evicting .downgrade) 5 1 (asked .downgrade) ∧ (∀ q : Port, q ≠ 1 → (p1 .write)[q] = .none) ∧
      OnlyRecall (evicting .invalidate) 5 1 (asked .invalidate)) ∧
    (fr [255, 5, 0, 1]).payload = (asked .downgrade).id :: le16 5 ++ [1] := by
  repeat' first | decide +kernel | (unfold State.portSettled; decide +kernel) | constructor

/-- P1 is left with READ on an EVICTING or RECALLING line: under a completing Region Set that takes its right, CLOSING, or both. -/
theorem witness_RecallAnswered_again :
    (let s : State := losing (evicting .downgrade)
     Arrives s 1 0 ∧ Idle s ∧ s.sessionState 1 = .online ∧ (∀ q : Port, q ≠ 1 → s.sessionState q ≠ .closing) ∧
      OnlyRecall s 5 1 (asked .downgrade) ∧ s.classOf 5 ≠ some .writeThrough ∧
      s.entry? 5 = some { entry 5 0 (.clean ramp) (p1 .write) with activity := .evicting } ∧ s.completing = some 0 ∧
      s.regions[(0 : RegionId)].contains 5 = true ∧ s.regions[(0 : RegionId)].access[(1 : Port)] = .none) ∧
    (let s : State := closing (losing (recalling .downgrade (p1 .write) []))
     Arrives s 1 0 ∧ Idle s ∧ s.sessionState 1 = .closing ∧ (∀ q : Port, q ≠ 1 → s.sessionState q ≠ .closing) ∧
      OnlyRecall s 5 1 (asked .downgrade) ∧ s.classOf 5 ≠ some .writeThrough ∧ s.completing = some 0 ∧
      s.entry? 5 = some { entry 5 0 (.clean ramp) (p1 .write) with activity := .recalling } ∧
      s.regions[(0 : RegionId)].contains 5 = true ∧ s.regions[(0 : RegionId)].access[(1 : Port)] = .none) ∧
    (let s : State := closing (recalling .downgrade (p1 .write) [])
     Arrives s 1 0 ∧ Idle s ∧ s.sessionState 1 = .closing ∧ (∀ q : Port, q ≠ 1 → s.sessionState q ≠ .closing) ∧
      OnlyRecall s 5 1 (asked .downgrade) ∧ s.classOf 5 ≠ some .writeThrough ∧ s.completing = none) := by
  repeat' first | decide +kernel | (unfold State.portSettled; decide +kernel) | constructor

/-- An answer with another id than the open recall's, one without an outcome, and ports that are FENCED or IDLE. -/
theorem witness_RecallAnswerDiscarded :
    (Arrives (recalling .downgrade (p1 .write) []) 1 (fr []).seq ∧ (recalling .downgrade (p1 .write) []).sessionState 1 = .online ∧
      parseRecallAnswer [255, 5, 0] = none ∧ parseRecallAnswer [254, 5, 0, 1] = some ⟨254, 5, .clean⟩ ∧
      ∀ r ∈ (recalling .downgrade (p1 .write) []).recalls, ¬ (r.id = 254 ∧ r.asked.line = 5 ∧ r.asked.port = 1)) ∧
    (Arrives (inState hub 1 .fenced) 1 0 ∧ (inState hub 1 .fenced).sessionState 1 = .fenced) ∧
    (Arrives (inState hub 1 .idle) 1 0 ∧ (inState hub 1 .idle).sessionState 1 = .idle) := by
  repeat' first | decide +kernel | constructor

theorem witness_ReleaseAnswersRecall :
    Admits (recalling .invalidate (p1 .write) []) 1 (fr [5, 0]) .release ∧ Quiet (recalling .invalidate (p1 .write) []) ∧
    (recalling .invalidate (p1 .write) []).entry? 5 = some { entry 5 0 (.clean ramp) (p1 .write) with activity := .recalling } ∧
    (p1 .write)[(1 : Port)] ≠ .none ∧ OnlyRecall (recalling .invalidate (p1 .write) []) 5 1 (asked .invalidate) := by
  repeat' first | decide +kernel | (unfold State.portSettled; decide +kernel) | constructor

/-- A request of P2's waits for P1's line, held so. -/
def handOver (q : Req) (k : RecallKind) (h : Vector Holding 4) : State :=
  { recalling k h [⟨2, 9⟩] with requests := [⟨⟨2, 9⟩, q⟩] }

/-- What the state must be, whichever request waits. -/
abbrev HandsOver (s : State) (q : Req) (k : RecallKind) (h : Vector Holding 4) : Prop :=
  Arrives s 1 (fr []).seq ∧ Idle s ∧ s.sessionState 1 = .online ∧ (∀ x : Port, x ≠ 2 → s.sessionState x ≠ .closing) ∧
    s.regionOf 5 = some 0 ∧ s.regions[(0 : RegionId)].cls = .tracked ∧
    s.entry? 5 = some { entry 5 0 (.clean ramp) h with activity := .recalling, waiters := [⟨2, 9⟩] } ∧
    OnlyRecall s 5 1 (asked k) ∧ s.request? ⟨2, 9⟩ = some { id := ⟨2, 9⟩, req := q } ∧ s.holdingCount 2 < s.capacity 2

/-- P2's right in region 0 falls to READ, or to NONE, under the completing Region Set. -/
def p2Loses (x : Access) (s : State) : State :=
  { s with regions := s.regions.set 0 ⟨true, 0, 100, .tracked, #v[.full, .full, x, .full]⟩, completing := some 0 }

/-- An Acquire Write, an Acquire Read and an Upgrade that wait; P2 ONLINE or CLOSING, with its right or without. -/
theorem witness_RecallAnswerHandsLineOver :
    (let s : State := handOver (.acquireWrite 5) .invalidate (p1 .write)
     HandsOver s (.acquireWrite 5) .invalidate (p1 .write) ∧ s.completing = none ∧
      (p1 .write)[(1 : Port)] = .write ∧ ∀ x : Port, x ≠ 1 → (p1 .write)[x] = .none) ∧
    (let s : State := p2Loses .read (handOver (.acquireWrite 5) .invalidate (p1 .write))
     HandsOver s (.acquireWrite 5) .invalidate (p1 .write) ∧ s.completing = some 0 ∧
      s.regions[(0 : RegionId)].access[(2 : Port)].rank < Holding.write.needs.rank) ∧
    (let s : State := handOver (.acquireRead 5) .downgrade (p1 .write)
     HandsOver s (.acquireRead 5) .downgrade (p1 .write) ∧ HandsOver (inState s 2 .closing) (.acquireRead 5) .downgrade (p1 .write)) ∧
    (let s : State := p2Loses .none (handOver (.acquireRead 5) .downgrade (p1 .write))
     HandsOver (inState s 2 .closing) (.acquireRead 5) .downgrade (p1 .write) ∧
      s.regions[(0 : RegionId)].access[(2 : Port)].rank < Holding.read.needs.rank ∧
      s.regions[(0 : RegionId)].access[(1 : Port)] ≠ .none) ∧
    (let s : State := handOver (.upgrade 5) .invalidate #v[.none, .read, .read, .none]
     HandsOver s (.upgrade 5) .invalidate #v[.none, .read, .read, .none] ∧ s.sessionState 2 ≠ .closing ∧
      (∀ x : Port, x ≠ 1 → x ≠ 2 → (#v[.none, .read, .read, .none] : Vector Holding 4)[x] = .none) ∧
      HandsOver (p2Loses .read s) (.upgrade 5) .invalidate #v[.none, .read, .read, .none]) := by
  repeat' first | decide +kernel | (unfold State.portSettled; decide +kernel) | constructor

/-- P1 CLOSING and beyond its right is left READ: the REGION recall is asked, no CLOSE recall. P2 CLOSING is granted READ and
recalled at once, purpose CLOSE; beyond its right, purpose REGION alone (R63, R145, R174; log entry 6). -/
theorem test_recallAnswer_recalls :
    (let s : State := closing (losing (recalling .downgrade (p1 .write) []))
     (after (.recallAnswer 1 (fr [255, 5, 0, 1])) s).map (sent 1) = some [(0x81, [1, 5, 0, 2, 3])]) ∧
    (let s : State := inState (handOver (.acquireRead 5) .downgrade (p1 .write)) 2 .closing
     (after (.recallAnswer 1 (fr [255, 5, 0, 1])) s).map (fun t => (sent 2 t).map fun x => (x.1, x.2.take 5))) =
      some [(0x80, [0, 0, 1, 2, 3]), (0x81, [1, 5, 0, 2, 4])] ∧
    (let s : State := inState (p2Loses .none (handOver (.acquireRead 5) .downgrade (p1 .write))) 2 .closing
     (after (.recallAnswer 1 (fr [255, 5, 0, 1])) s).map (fun t => (sent 2 t).map fun x => (x.1, x.2.take 5))) =
      some [(0x80, [0, 0, 1, 2, 3]), (0x81, [1, 5, 0, 2, 3])] := by decide +kernel

theorem witness_PingAnswered : hub.receives 1 = true := by decide

theorem witness_FramesRejected : hub.receives 1 = true ∧ ((15 : Byte).toNat < 16 ∧ 16 ≤ (16 : Byte).toNat) ∧
    (255 : Byte) ≠ hub.links[(1 : Port)].recvNum := by decide

theorem witness_UnlistedKindsRefused :
    (16 ≤ (0x15 : Byte).toNat ∧ isAgentKind 0x15 = false ∧ isAgentKind 0xFF = false) ∧ Arrives hub 1 (fr []).seq ∧
    hub.sessionState 1 = .online ∧ (Arrives (inState hub 1 .idle) 1 0 ∧ (inState hub 1 .idle).sessionState 1 = .idle) ∧
    (Arrives (inState hub 1 .closing) 1 0 ∧ (inState hub 1 .closing).sessionState 1 = .closing) ∧
    (Arrives (inState hub 1 .fenced) 1 0 ∧ (inState hub 1 .fenced).sessionState 1 = .fenced) ∧
    (7 ≤ (7 : Byte).toNat ∧ (15 : Byte).toNat ≤ 15) ∧ hub.receives 1 = true := by
  repeat' first | decide +kernel | constructor

/-- Two frames buffered, numbers 255 and 0. -/
def twoBuffered : State := { hub with links := hub.links.set 1 { upLink with
  sendNum := 1, replay := [⟨0x80, 3, 255, [0]⟩, ⟨0x80, 4, 0, [0]⟩] } }

theorem witness_FramesReplayed : twoBuffered.receives 1 = true ∧
    twoBuffered.links[(1 : Port)].replay = [⟨0x80, 3, 255, [0]⟩] ++ ⟨0x80, 4, 0, [0]⟩ :: [] ∧
    (∀ x ∈ ([⟨0x80, 3, 255, [0]⟩] : List Frame), x.seq ≠ 0) ∧
    (∀ x ∈ twoBuffered.links[(1 : Port)].replay, x.seq ≠ 1) ∧ (1 : Byte) = twoBuffered.links[(1 : Port)].sendNum ∧
    (inState twoBuffered 1 .idle).sessionState 1 = .idle ∧ (inState twoBuffered 1 .fenced).sessionState 1 = .fenced ∧
    ([1, 1] : List Byte).length ≠ 1 := by decide +kernel

/-- P1 FENCED with a notice in flight. -/
def fencedNotice : State := { inState hub 1 .fenced with notices := hub.notices.set 1 { NoticeUnit.reset with
  inFlight := some ⟨0, ⟨.sessionFenced, none, 4⟩⟩, counter := 1 } }

theorem witness_LinkRestarted :
    ((inState hub 1 .idle).receives 1 = true ∧ (0xFE#8).getLsbD 0 = false ∧ (inState hub 1 .idle).sessionState 1 = .idle) ∧
    ((inState hub 1 .fenced).sessionState 1 = .fenced ∧ (inState hub 1 .fenced).notices[(1 : Port)].inFlight = none) ∧
    (fencedNotice.receives 1 = true ∧ fencedNotice.sessionState 1 = .fenced ∧
      fencedNotice.notices[(1 : Port)].inFlight = some ⟨0, ⟨.sessionFenced, none, 4⟩⟩) ∧
    (([] : List Byte).length ≠ 1 ∧ (1#8).getLsbD 0 = true) := by decide +kernel

theorem witness_LinkEvents :
    State.reset.resetN = true ∧ State.reset.links[(1 : Port)].up = false ∧ hub.resetN = true ∧ hub.links[(1 : Port)].up = true ∧
    Quiet (inState hub 1 .idle) ∧ (inState hub 1 .idle).sessionState 1 = .idle ∧ (inState hub 1 .idle).outstanding 1 = [] ∧
    (inState hub 1 .idle).notices[(1 : Port)] = NoticeUnit.reset ∧
    (Quiet fencedNotice ∧ fencedNotice.links[(1 : Port)].up = true ∧ fencedNotice.sessionState 1 = .fenced ∧
      fencedNotice.outstanding 1 = []) ∧
    { hub with links := hub.links.set 1 { upLink with tx := [⟨0x80, 3, 255, [0]⟩] } }.links[(1 : Port)].tx =
      ⟨0x80, 3, 255, [0]⟩ :: [] := by
  repeat' first | decide +kernel | (unfold State.portSettled; decide +kernel) | constructor

theorem witness_HelloOpensSession :
    (Admits (inState hub 1 .idle) 1 (fr (1 :: count16 512)) .hello ∧ hub.mode = .running) ∧
    (Admits (inState (stopped hub) 1 .idle) 1 (fr (1 :: count16 0)) .hello ∧ (stopped hub).mode = .stopped ∧
      (stopped hub).stopRecord = some ⟨7, .posted, 3, .fillFault 9 .storeError 1⟩ ∧
      (stopped hub).notices[(1 : Port)] = NoticeUnit.reset) ∧
    Admits (inState hub 1 .idle) 1 (fr (2 :: count16 512)) .hello := by
  repeat' first | decide +kernel | constructor

theorem witness_GoodbyeAnswered :
    (Admits hub 1 (fr []) .goodbye ∧ hub.holdsNothing 1 ∧ hub.outstanding 1 = []) ∧
    (Admits sevenSyncs 1 (fr []) .goodbye ∧ sevenSyncs.holdsNothing 1 ∧ sevenSyncs.outstanding 1 ≠ []) ∧
    (Admits twoWritten 1 (fr []) .goodbye ∧ ¬ twoWritten.holdsNothing 1 ∧ TablesOk twoWritten) ∧
    ((closing hub).resetN = true ∧ (closing hub).sessionState 1 = .closing ∧ (closing hub).holdsNothing 1 ∧
      (closing hub).outstanding 1 = [{ id := ⟨1, 99⟩, req := .goodbye }]) ∧
    (hub.sessionState 1 ≠ .closing ∧ ¬ (closing (ninetyNine .read)).holdsNothing 1 ∧
      2 ≤ ((closing sevenSyncs).outstanding 1).length) := by
  unfold State.holdsNothing
  repeat' first | decide +kernel | constructor

/-- P1 with these notices waiting, this one in flight, and threshold 3. -/
def noticed (q : List Notice) (x : Option SentNotice) : State :=
  { hub with notices := hub.notices.set 1 { queue := q, inFlight := x, counter := 255, threshold := 3 } }

def twoNotices : List Notice := [⟨.regionChanged, none, 1⟩, ⟨.hubStopped, none, 1⟩]

def sentNotice : SentNotice := ⟨254, ⟨.hubStopped, none, 2⟩⟩

theorem witness_NoticesDelivered :
    (hub.resetN = true ∧ (noticed twoNotices none).notices[(1 : Port)].inFlight = none ∧
      Chosen 3 twoNotices [⟨.regionChanged, none, 1⟩] ⟨.hubStopped, none, 1⟩ [] ∧
      (noticed twoNotices (some sentNotice)).notices[(1 : Port)].inFlight ≠ none ∧
      ∀ n ∈ twoNotices.take 1, n.sendable 3 = false) ∧
    (Admits (noticed twoNotices (some sentNotice)) 1 (fr [254]) .noticeAck ∧
      (noticed twoNotices (some sentNotice)).notices[(1 : Port)].inFlight = some sentNotice ∧ sentNotice.number = 254 ∧
      ∀ n ∈ (noticed [] (some sentNotice)).notices[(1 : Port)].queue, n.sendable 3 = false) ∧
    (Admits (noticed twoNotices (some sentNotice)) 1 (fr [255]) .noticeAck ∧ sentNotice.number ≠ 255) ∧
    (Admits (noticed (twoNotices.take 1) none) 1 (fr [1]) .setThreshold ∧ (1 : Byte).toNat ≤ 7 ∧
      Chosen 1 (twoNotices.take 1) [] ⟨.regionChanged, none, 1⟩ []) ∧
    (Admits (noticed (twoNotices.take 1) none) 1 (fr [7]) .setThreshold ∧ (7 : Byte).toNat ≤ 7 ∧
      ∀ n ∈ twoNotices.take 1, n.sendable 7 = false) := by
  repeat' first | decide +kernel | constructor

theorem witness_RegionQueryAnswered : Admits hub 1 (fr [0]) .regionQuery ∧ Admits hub 1 (fr [7]) .regionQuery ∧
    (fr [7]).payload = [count8 (7 : RegionId).val] ∧ Admits hub 1 (fr [8]) .regionQuery ∧ 8 ≤ (8 : Byte).toNat ∧
    Admits hub 1 (fr []) .regionQuery ∧ (fr []).payload.length ≠ 1 := by
  repeat' first | decide +kernel | constructor

theorem witness_HubStatusReported : Admits hub 0 (fr []) .hubStatus ∧
    Admits (stopped (inState hub 0 .fenced)) 0 (fr []) .hubStatus := by
  repeat' first | decide +kernel | constructor

theorem witness_FaultListed :
    (Arrives fullFaults 1 (fr []).seq ∧ (1 : Port) ≠ fullFaults.supervisor ∧ fullFaults.sessionState 1 = .online) ∧
    (Arrives fullFaults 0 (fr [1]).seq ∧ (0 : Port) = fullFaults.supervisor ∧ fullFaults.sessionState 0 = .online ∧
      (fr [1]).payload ≠ [] ∧ (∀ r ∈ fullFaults.outstanding 0, r.id.tag ≠ (fr []).tag) ∧ (fullFaults.outstanding 0).length < 8) ∧
    (Arrives (inState hub 0 .fenced) 0 (fr []).seq ∧ (inState hub 0 .fenced).sessionState 0 = .fenced) ∧
    FaultUnitOk fullFaults := by
  repeat' first | decide +kernel | constructor

/-- 101 lost lines: two parts. -/
def lost101 : RecordBody := .holderLost 1 .linkLost ((List.range 101).map (BitVec.ofNat 16))

/-- A FILL_FAULT, a DRAIN_FAULT and a HOLDER_LOST record are each alone in the queue. -/
theorem witness_FaultReadAnswered :
    (Admits hub 0 (fr [1, 0]) .faultRead ∧ (∀ r ∈ hub.faultQueue, r.id ≠ 1) ∧ hub.stopRecord = none) ∧
    (Admits (withRecord (.fillFault 5 .storeError 1) .posted hub) 0 (fr [1, 0]) .faultRead ∧
      (withRecord (.fillFault 5 .storeError 1) .posted hub).faultQueue = [] ++ ⟨1, .posted, 2, .fillFault 5 .storeError 1⟩ :: [] ∧
      (withRecord (.fillFault 5 .storeError 1) .posted hub).stopRecord = none) ∧
    Admits (withRecord (.drainFault 5 .storeTimeout 4 1 .evict ramp) .retrying hub) 0 (fr [1, 0]) .faultRead ∧
    (Admits (withRecord lost101 .opened hub) 0 (fr [1, 2]) .faultRead ∧ (2 : Byte).toNat ≤ (101 + 99) / 100) ∧
    (Admits (withRecord lost101 .opened hub) 0 (fr [1, 3]) .faultRead ∧ (101 + 99) / 100 < (3 : Byte).toNat) ∧
    (Admits fullFaults 0 (fr [7, 0]) .faultRead ∧ fullFaults.stopRecord = some ⟨7, .posted, 3, .fillFault 9 .storeError 1⟩ ∧
      ∀ x ∈ fullFaults.faultQueue, x.id ≠ 7) := by
  repeat' first | decide +kernel | constructor

/-- The six bounds of R181, and a payload of six bytes. -/
theorem witness_TimersSet :
    (Admits hub 0 (fr (le16 1 ++ le16 20 ++ [1])) .setTimers ∧ 20 ≤ (20 : BitVec 16).toNat) ∧
    (Admits hub 0 (fr (le16 1000 ++ le16 5000 ++ [100])) .setTimers ∧ (1000 : BitVec 16).toNat ≤ 1000 ∧
      (5000 : BitVec 16).toNat ≤ 5000 ∧ (100 : Byte).toNat ≤ 100) ∧
    (Admits hub 0 (fr (le16 1001 ++ le16 19 ++ [0])) .setTimers ∧ ¬ (1001 : BitVec 16).toNat ≤ 1000) ∧
    Admits hub 0 (fr (le16 1 ++ le16 20 ++ [1, 0])) .setTimers := by
  repeat' first | decide +kernel | constructor

theorem witness_RestartTaken : Admits hub 0 (fr []) .restart ∧ Admits fullFaults 0 (fr []) .restart := by
  repeat' first | decide +kernel | constructor

theorem witness_ResetEvents : hub.resetN = true ∧ (stopped hub).mode = .stopped ∧ (∀ r ∈ hub.recalls, r.deadline ≠ hub.hubTime) ∧
    (∀ p : Port, hub.links[p].keepalive ≠ some hub.hubTime) ∧ ({ hub with resetN := false } : State).resetN = false := by decide

theorem witness_FencesAnswered :
    (Admits hub 0 (fr [0]) .fence ∧ (fr [0]).payload = [portByte 0] ∧ (0 : Port) = hub.supervisor) ∧
    (Admits (inState hub 3 .idle) 0 (fr [3]) .fence ∧ (fr [3]).payload = [portByte 3] ∧ (3 : Port) ≠ hub.supervisor ∧
      (inState hub 3 .idle).sessionState 3 ≠ .online ∧ (inState hub 3 .idle).sessionState 3 ≠ .closing) ∧
    (Admits hub 0 (fr [4]) .fence ∧ 4 ≤ (4 : Byte).toNat) ∧
    (Admits hub 0 (fr [0]) .unfence ∧ Admits hub 0 (fr [3]) .unfence ∧ hub.sessionState 3 ≠ .fenced ∧ Admits hub 0 (fr [4]) .unfence) ∧
    (Admits (inState hub 3 .fenced) 0 (fr [3]) .unfence ∧ (inState hub 3 .fenced).sessionState 3 = .fenced ∧
      (inState hub 3 .fenced).links[(3 : Port)].up = true ∧ (inState hub 3 .fenced).sessions[(3 : Port)].number = some 7) := by
  repeat' first | decide +kernel | constructor

/-- P1 with outstanding Syncs, a written line and a recall whose deadline, and its keepalive's expiry, are now. -/
def toFence : State := { sevenSyncs with
  table := (ninetyNine .write).table, recalls := [⟨3, ⟨99, 1, .downgrade, .request⟩, 500⟩], hubTime := 500 }

/-- The entry of a lost line that a record names. -/
def lostLine (l : Line) (id : Byte) : Entry := { entry l 0 .poisoned nobody with recordId := some id }

/-- So many HOLDER_LOST records wait, of lines 90 on; P1 holds lines 99 and 98 WRITE and 97 READ; the deadline of a recall to it,
and its keepalive's expiry, are now. -/
def threeHeld (n : Nat) : State := { lines hub
    ([entry 99 0 (.clean ramp) (p1 .write), entry 97 0 (.clean ramp) (p1 .read), entry 98 0 (.dirty ramp) (p1 .write)] ++
      (List.range n).map fun i => lostLine (BitVec.ofNat 16 (90 + i)) (BitVec.ofNat 8 (i + 1))) with
  faultQueue := (List.range n).map fun i => ⟨BitVec.ofNat 8 (i + 1), .posted, 2, .holderLost 2 .linkLost [BitVec.ofNat 16 (90 + i)]⟩
  recordCounter := 255, recalls := [⟨3, ⟨99, 1, .downgrade, .region⟩, 500⟩], hubTime := 500 }

/-- STOPPED over six records: the stop record is of line 96. -/
def stoppedHeld : State := { threeHeld 6 with
  table := lostLine 96 7 :: (threeHeld 6).table
  mode := .stopped, stopOut := true, stopRecord := some ⟨7, .posted, 3, .holderLost 3 .linkLost [96]⟩ }

theorem test_fiveRecords_ok : RecordsOk (threeHeld 5) where
  ids := by decide +kernel
  lines := by
    simp [threeHeld, lostLine, lines, hub, State.reset, State.faultRecords,
      RecordBody.lines, entry, FaultRecord.Fits, List.range, List.range.loop]
  entries := by
    simp [threeHeld, lostLine, lines, hub, State.reset, State.faultRecords,
      RecordBody.lines, entry, List.range, List.range.loop]
  seqs := by decide +kernel
  drains := by simp [threeHeld, lines, hub, State.reset, State.faultRecords, RecordBody.seq?, List.range, List.range.loop]
  stop := nofun

theorem test_sixRecords_ok : RecordsOk (threeHeld 6) where
  ids := by decide +kernel
  lines := by
    simp [threeHeld, lostLine, lines, hub, State.reset, State.faultRecords,
      RecordBody.lines, entry, FaultRecord.Fits, List.range, List.range.loop]
  entries := by
    simp [threeHeld, lostLine, lines, hub, State.reset, State.faultRecords,
      RecordBody.lines, entry, List.range, List.range.loop]
  seqs := by decide +kernel
  drains := by simp [threeHeld, lines, hub, State.reset, State.faultRecords, RecordBody.seq?, List.range, List.range.loop]
  stop := nofun

theorem test_stopRecord_ok : RecordsOk stoppedHeld where
  ids := by decide +kernel
  lines := by
    simp [stoppedHeld, threeHeld, lostLine, lines, hub, State.reset, State.faultRecords,
      RecordBody.lines, entry, FaultRecord.Fits, List.range, List.range.loop]
  entries := by
    simp [stoppedHeld, threeHeld, lostLine, lines, hub, State.reset, State.faultRecords,
      RecordBody.lines, entry, List.range, List.range.loop]
  seqs := by decide +kernel
  drains := by simp [stoppedHeld, threeHeld, lines, hub, State.reset, State.faultRecords, RecordBody.seq?, List.range, List.range.loop]
  stop := by simp [stoppedHeld]

/-- A record of P1's lines fits into the queue; it is the stop record; the hub is STOPPED. -/
theorem test_held_order : InOrder (threeHeld 5) ∧ InOrder (threeHeld 6) ∧ InOrder stoppedHeld := by
  refine ⟨⟨⟨?_, ?_, ?_, ?_⟩, ⟨?_, ?_, ?_, ?_⟩, ?_, ?_, ⟨?_, ?_, ?_⟩, ⟨?_, ?_, ?_, ?_⟩, ⟨?_, ?_⟩,
    ⟨?_, (rfl : (threeHeld 5).fillJobs = []) ▸ nofun, nofun⟩, test_fiveRecords_ok, ?_⟩,
    ⟨⟨?_, ?_, ?_, ?_⟩, ⟨?_, ?_, ?_, ?_⟩, ?_, ?_, ⟨?_, ?_, ?_⟩, ⟨?_, ?_, ?_, ?_⟩, ⟨?_, ?_⟩,
    ⟨?_, (rfl : (threeHeld 6).fillJobs = []) ▸ nofun, nofun⟩, test_sixRecords_ok, ?_⟩,
    ⟨⟨?_, ?_, ?_, ?_⟩, ⟨?_, ?_, ?_, ?_⟩, ?_, ?_, ⟨?_, ?_, ?_⟩, ⟨?_, ?_, ?_, ?_⟩, ⟨?_, ?_⟩,
    ⟨?_, (rfl : stoppedHeld.fillJobs = []) ▸ nofun, nofun⟩, test_stopRecord_ok, ?_⟩⟩
  all_goals first | decide +kernel | (unfold ReplayOk; decide +kernel) | (unfold RequestsOk; decide +kernel) |
    (unfold TagsOk; decide +kernel)

/-- The four commands that fence P1, with their causes, in a state where its deadline and expiry are now. -/
theorem test_fences {s : State} (r : Recall) (is : r ∈ s.recalls) (only : ∀ x ∈ s.recalls, x.id = r.id → x = r)
    (target : r.asked.port = 1) (running : s.mode = .running) (due : s.hubTime = r.deadline)
    (expired : s.links[(1 : Port)].keepalive = some s.hubTime) (up : s.links[(1 : Port)].up = true)
    (lost : ∀ x ∈ s.links[(1 : Port)].replay, x.seq ≠ 255) (unsent : (255 : Byte) ≠ s.links[(1 : Port)].sendNum)
    (admits : Admits s 0 (fr [1]) .fence) (other : (1 : Port) ≠ s.supervisor) :
    Fences s 1 (.recallTimeout r.id) .recallTimeout ∧ Fences s 1 (.keepaliveExpired 1) .keepaliveExpired ∧
      Fences s 1 (.replayRequest 1 [255]) .replayLost ∧ Fences s 1 (.fence 0 (fr [1])) .supervisorFence :=
  ⟨.recallTimeout r is only target running due, .keepaliveExpired running expired, .replayRequest 255 up lost unsent,
    .fence 0 (fr [1]) admits rfl other⟩

theorem witness_FenceLeavesNothing :
    (toFence.resetN = true ∧ toFence.sessionState 1 = .online ∧ (closing toFence).sessionState 1 = .closing ∧
      (toFence.outstanding 1).length = 7 ∧ toFence.links[(1 : Port)].up = true) ∧
    (Fences toFence 1 (.recallTimeout 3) .recallTimeout ∧ Fences toFence 1 (.keepaliveExpired 1) .keepaliveExpired ∧
      Fences toFence 1 (.replayRequest 1 [255]) .replayLost ∧ Fences toFence 1 (.fence 0 (fr [1])) .supervisorFence) ∧
    ((threeHeld 5).resetN = true ∧ (threeHeld 5).sessionState 1 = .online ∧ InOrder (threeHeld 5) ∧ InOrder (threeHeld 6) ∧
      InOrder stoppedHeld) ∧
    (Fences (threeHeld 6) 1 (.recallTimeout 3) .recallTimeout ∧ Fences (threeHeld 6) 1 (.keepaliveExpired 1) .keepaliveExpired ∧
      Fences (threeHeld 6) 1 (.replayRequest 1 [255]) .replayLost ∧ Fences (threeHeld 6) 1 (.fence 0 (fr [1])) .supervisorFence) ∧
    Fences stoppedHeld 1 (.replayRequest 1 [255]) .replayLost := by
  refine ⟨by decide +kernel, test_fences ⟨3, ⟨99, 1, .downgrade, .request⟩, 500⟩ ?_ ?_ ?_ ?_ ?_ ?_ ?_ ?_ ?_ ?_ ?_,
    ⟨rfl, rfl, test_held_order⟩, test_fences ⟨3, ⟨99, 1, .downgrade, .region⟩, 500⟩ ?_ ?_ ?_ ?_ ?_ ?_ ?_ ?_ ?_ ?_ ?_,
    .replayRequest 255 ?_ ?_ ?_⟩ <;>
    repeat' first | decide +kernel | constructor

/-- P1's two written lines are POISONED and named with the cause; on a full queue they stop the hub (R76, R122). -/
theorem test_linkDown_poisons :
    (after (.linkDown 1) (threeHeld 5)).map (fun t => (t.table.map Entry.poisoned, (t.faultQueue.drop 5).map (·.body))) =
      some ([true, false, true, true, true, true, true, true], [.holderLost 1 .linkLost [98, 99]]) ∧
    (after (.linkDown 1) (threeHeld 6)).map (fun t => (t.mode, t.stopRecord.map (·.body), t.faultQueue.length)) =
      some (.stopped, some (.holderLost 1 .linkLost [98, 99]), 6) := by decide +kernel

theorem witness_TimersRest : fullFaults.mode = .stopped ∧ (∀ r ∈ hub.recalls, r.id ≠ 0) ∧
    State.reset.links[(1 : Port)].keepalive = none := by decide

theorem witness_LostLinkLeavesNothing : (toFence.receives 1 = true ∧ toFence.sessionState 1 = .online ∧
    (closing toFence).receives 1 = true ∧ (closing toFence).sessionState 1 = .closing ∧ (0xFE#8).getLsbD 0 = false ∧
    toFence.sessions[(1 : Port)].number = some 7) ∧
    ((threeHeld 6).receives 1 = true ∧ (threeHeld 6).sessionState 1 = .online ∧ stoppedHeld.receives 1 = true) ∧
    InOrder (threeHeld 5) ∧ InOrder (threeHeld 6) ∧ InOrder stoppedHeld :=
  ⟨by decide, by decide, test_held_order⟩

/-- What revocation in a calm hub asks of the state. -/
abbrev Calm (s : State) : Prop :=
  s.resetN = true ∧ InOrder s ∧ Quiet s ∧ s.sessionState 1 = .online ∧ (1 : Port) ≠ s.supervisor ∧ s.outstanding 1 = [] ∧
    ∀ e ∈ s.table, e.activity = .idle ∧ e.waiters = []

theorem witness_FencePoisonsWrittenLines :
    (Calm (threeHeld 5) ∧ Calm (threeHeld 6) ∧ Calm stoppedHeld) ∧
    (Fences (threeHeld 5) 1 (.fence 0 (fr [1])) .supervisorFence ∧ Fences (threeHeld 6) 1 (.fence 0 (fr [1])) .supervisorFence ∧
      Fences stoppedHeld 1 (.replayRequest 1 [255]) .replayLost) ∧
    ((threeHeld 5).links[(1 : Port)].up = true ∧ stoppedHeld.links[(1 : Port)].up = true ∧ (0xFE#8).getLsbD 0 = false) := by
  refine ⟨⟨⟨rfl, test_held_order.1, ?_, rfl, ?_, ?_, ?_⟩, ⟨rfl, test_held_order.2.1, ?_, rfl, ?_, ?_, ?_⟩,
    ⟨rfl, test_held_order.2.2, ?_, rfl, ?_, ?_, ?_⟩⟩,
    ⟨.fence 0 (fr [1]) ?_ rfl ?_, .fence 0 (fr [1]) ?_ rfl ?_, .replayRequest 255 ?_ ?_ ?_⟩, by decide⟩ <;>
    repeat' first | decide +kernel | (unfold State.portSettled; decide +kernel) | constructor

/-- A fence that stops the hub: HUB_STOPPED to the supervisor before AGENT_FENCED, which waits; on the port SESSION_FENCED behind
the discarded HUB_STOPPED, another one waiting (R122, R155, R172; log entry 23). -/
theorem test_fence_stops : (after (.fence 0 (fr [1])) (threeHeld 6)).map
    (fun t => (t.notices[(1 : Port)].inFlight, t.notices[(1 : Port)].queue, t.notices[(0 : Port)].queue)) =
      some (some ⟨1, ⟨.sessionFenced, none, 4⟩⟩, [⟨.hubStopped, none, 3⟩], [⟨.agentFenced, some 1, 4⟩]) := by decide +kernel

theorem witness_NoticePosted :
    ¬ ((hub.sessionState 1 = .online ∧ NoticeKind.sessionFenced ≠ .sessionFenced) ∨
      (hub.sessionState 1 = .closing ∧ NoticeKind.sessionFenced ≠ .sessionFenced ∧ NoticeKind.sessionFenced ≠ .regionChanged) ∨
      (hub.sessionState 1 = .fenced ∧ NoticeKind.sessionFenced ≠ .regionChanged)) ∧
    ((noticed twoNotices none).sessionState 1 = .online ∧ NoticeKind.regionChanged ≠ .sessionFenced ∧
      (noticed twoNotices none).notices[(1 : Port)].queue = [] ++ ⟨.regionChanged, none, 1⟩ :: [⟨.hubStopped, none, 1⟩] ∧
      ∀ x ∈ [] ++ [(⟨.hubStopped, none, 1⟩ : Notice)], ¬ (x.kind = .regionChanged ∧ x.subject = none)) ∧
    ((inState hub 1 .closing).sessionState 1 = .closing ∧ (inState hub 1 .fenced).sessionState 1 = .fenced ∧
      ∀ x ∈ twoNotices, ¬ (x.kind = .faultPosted ∧ x.subject = none)) := by decide +kernel

/-- The payload of a Region Set of a region. -/
def setRegion (i : RegionId) (r : Region) : RxFrame := fr ([count8 i.val, bit r.enabled] ++ le16 r.first ++
  le32 (BitVec.ofNat 32 r.count) ++ [r.cls.code, accessByte r.access])

theorem test_regions_above : ∀ k : RegionId, k ≠ 0 → hub.regions[k].enabled = true → 100 ≤ hub.regions[k].first.toNat := by
  decide +kernel

/-- No other region of the hub has a line of region 0's range. -/
theorem test_region0_alone (x : Access) (j : RegionId) (hj : j ≠ 0) (l : Line) (h : (region0 x).contains l = true) :
    hub.regions[j].enabled = true → hub.regions[j].contains l = false := by
  have hl : l.toNat < 100 := by simpa [region0, Region.contains] using h
  intro he
  have := test_regions_above j hj he
  have hf : ¬ hub.regions[j].first.toNat ≤ l.toNat := by omega
  simp only [Region.contains, hf, decide_false, Bool.false_and]

/-- A Region Set of region 0 that takes P1's right is completing. -/
def setting : State := { hub with
  regions := hub.regions.set 0 (region0 .none), completing := some 0, requests := [⟨⟨0, 9⟩, .regionSet 0⟩] }

/-- P1 still holds line 99. -/
def recalledAgain : State := { setting with table := (ninetyNine .read).table }

/-- Region 7 disabled and its whole range; region 7 on line 99; region 0 without line 99, and with another right for P1. -/
theorem witness_RegionSetAnswered :
    (Admits { hub with completing := some 0 } 0 (setRegion 0 (region0 .none)) .regionSet ∧
      ({ hub with completing := some 0 } : State).completing ≠ none) ∧
    (Admits hub 0 (setRegion 7 ⟨true, 99, 1, .tracked, allFull⟩) .regionSet ∧ hub.completing = none ∧
      ∃ j : RegionId, j ≠ 7 ∧ hub.regions[j].enabled = true ∧
        ∃ l : Line, (⟨true, 99, 1, .tracked, allFull⟩ : Region).contains l = true ∧ hub.regions[j].contains l = true) ∧
    (Admits (ninetyNine .write) 0 (setRegion 0 ⟨false, 0, 65536, .plain, allFull⟩) .regionSet ∧
      ¬ (({ region0 .full with access := allFull } : Region) = ⟨false, 0, 65536, .plain, allFull⟩) ∧
      hub.regions[(0 : RegionId)] = region0 .full ∧ (ninetyNine .write).InUse (region0 .full)) ∧
    (Admits hub 0 (setRegion 7 ⟨false, 0xFFFF, 1, .plain, allFull⟩) .regionSet ∧ hub.regions[(7 : RegionId)].enabled = false) ∧
    (Admits (ninetyNine .write) 0 (setRegion 0 (region0 .read)) .regionSet ∧
      (∀ j : RegionId, j ≠ 0 → ∀ l : Line, (region0 .read).contains l = true → hub.regions[j].enabled = true →
        hub.regions[j].contains l = false) ∧
      ({ region0 .full with access := (region0 .read).access } : Region) = region0 .read ∧ TablesOk (ninetyNine .write) ∧
      ¬ (ninetyNine .write).NoExcess (region0 .read)) ∧
    (Admits (ninetyNine .read) 0 (setRegion 0 (region0 .read)) .regionSet ∧ (ninetyNine .read).NoExcess (region0 .read)) ∧
    (setting.resetN = true ∧ (∀ p : Port, setting.sessionState p ≠ .closing) ∧ setting.completing = some 0 ∧
      setting.NoExcess (region0 .none) ∧ ¬ setting.RegionRecalled (region0 .none) ∧
      setting.requests = [] ++ ⟨⟨0, 9⟩, .regionSet 0⟩ :: [] ∧ ¬ (recalledAgain.NoExcess (region0 .none))) := by
  refine ⟨?_, ⟨?_, ?_, 0, ?_, ?_, 99, ?_, ?_⟩, ⟨?_, ?_, ?_, .inl ⟨_, .head _, ?_⟩⟩, ?_,
    ⟨?_, fun j hj l h => test_region0_alone .read j hj l h, ?_⟩, ?_, ?_⟩
  all_goals
    repeat' first | decide +kernel |
      (unfold State.NoExcess Region.Excess; decide +kernel) | (unfold State.RegionRecalled; decide +kernel) | constructor

/-- A FILL_FAULT of line 5 with these attempts in a busy hub, its entry FAULT_HELD with these waiters. -/
def fillFaulted (x : RecordState) (n : Nat) (w : List ReqId) : State :=
  { busy (withRecord (.fillFault 5 .storeError n) x
      (lines hub [{ entry 5 0 .empty nobody with activity := .faultHeld, waiters := w, recordId := some 1 }])) with
    requests := w.map fun id => ⟨id, .readWords 5 7 1⟩ }

/-- A DRAIN_FAULT of journal entry 1, with this sync list. -/
def drainFaulted (n : Nat) (items : List SyncItem) : State :=
  { busy (withRecord (.drainFault 9 .storeTimeout n 1 .evict ramp) .opened hub) with
    journal := [⟨9, ramp, 1, .evict, .faulted⟩], seqCounter := 2, syncList := items }

/-- A HOLDER_LOST record of lines 98 and 99, with one of them POISONED in the table. -/
def linesLost (x : RecordState) (ls : List Line) : State :=
  busy (withRecord (.holderLost 1 .linkLost ls) x (lines hub [{ entry 99 0 .poisoned nobody with recordId := some 1 }]))

theorem witness_ResolveRefused :
    (Admits hub 0 (fr [1]) .resolve ∧ (fr [1]).payload.length ≠ 2 ∧ (fr [1]).payload.length ≠ 34) ∧
    (Admits hub 0 (fr [1, 0]) .resolve ∧ Admits hub 0 (fr [1, 7]) .resolve ∧ 7 ≤ (7 : Byte).toNat) ∧
    (Admits hub 0 (fr [1, 1]) .resolve ∧ (fr [1, 1]).payload = 1 :: Action.retry.code :: [] ∧ ∀ r ∈ hub.faultQueue, r.id ≠ 1) ∧
    (Admits (fillFaulted .retrying 1 []) 0 (fr [1, 1]) .resolve ∧ Admits (fillFaulted .posted 1 []) 0 (fr [1, 1]) .resolve ∧
      Queued (fillFaulted .posted 1 []) [] ⟨1, .posted, 2, .fillFault 5 .storeError 1⟩ []) ∧
    (Queued (fillFaulted .opened 4 []) [] ⟨1, .opened, 2, .fillFault 5 .storeError 4⟩ [] ∧
      Admits (fillFaulted .opened 4 []) 0 (fr [1, 4]) .resolve ∧ Action.complete ∉ [Action.retry, .supply, .fail] ∧
      Admits (fillFaulted .opened 4 []) 0 (fr (1 :: 1 :: lineBytes ramp)) .resolve ∧
      Admits (fillFaulted .opened 4 []) 0 (fr [1, 2]) .resolve ∧ Admits (fillFaulted .opened 4 []) 0 (fr [1, 1]) .resolve) ∧
    (Admits (drainFaulted 4 []) 0 (fr [1, 1]) .resolve ∧
      Queued (drainFaulted 4 []) [] ⟨1, .opened, 2, .drainFault 9 .storeTimeout 4 1 .evict ramp⟩ []) := by
  repeat' first | decide +kernel | constructor

theorem witness_FillFaultResolved :
    (Admits (fillFaulted .opened 3 [⟨1, 8⟩]) 0 (fr [1, 1]) .resolve ∧ Quiet (fillFaulted .opened 3 [⟨1, 8⟩]) ∧
      (fillFaulted .opened 3 [⟨1, 8⟩]).job.isSome = true ∧
      Queued (fillFaulted .opened 3 [⟨1, 8⟩]) [] ⟨1, .opened, 2, .fillFault 5 .storeError 3⟩ [] ∧
      (fillFaulted .opened 3 [⟨1, 8⟩]).entry? 5 =
        some { entry 5 0 .empty nobody with activity := .faultHeld, waiters := [⟨1, 8⟩], recordId := some 1 } ∧
      5 ∉ (fillFaulted .opened 3 [⟨1, 8⟩]).fillQueue) ∧
    (Admits (fillFaulted .opened 3 [⟨1, 8⟩]) 0 (fr ([1, 2] ++ lineBytes ramp)) .resolve ∧
      (fillFaulted .opened 3 [⟨1, 8⟩]).classOf 5 ≠ some .writeThrough ∧ nobody = Vector.replicate 4 Holding.none ∧
      (fillFaulted .opened 3 [⟨1, 8⟩]).request? ⟨1, 8⟩ = some { id := ⟨1, 8⟩, req := .readWords 5 7 1 }) ∧
    (Admits (fillFaulted .opened 4 []) 0 (fr ([1, 2] ++ lineBytes ramp)) .resolve ∧ Quiet (fillFaulted .opened 4 []) ∧
      (fillFaulted .opened 4 []).entry? 5 = some { entry 5 0 .empty nobody with activity := .faultHeld, recordId := some 1 }) ∧
    Admits (fillFaulted .opened 4 []) 0 (fr [1, 3]) .resolve := by
  repeat' first | decide +kernel | (unfold State.portSettled; decide +kernel) | constructor

theorem witness_DrainFaultResolved :
    (Admits (drainFaulted 3 []) 0 (fr [1, 1]) .resolve ∧ Quiet (drainFaulted 3 []) ∧ (drainFaulted 3 []).job.isSome = true ∧
      Queued (drainFaulted 3 []) [] ⟨1, .opened, 2, .drainFault 9 .storeTimeout 3 1 .evict ramp⟩ [] ∧
      (drainFaulted 3 []).journal = [] ++ ⟨9, ramp, 1, .evict, .faulted⟩ :: [] ∧ (drainFaulted 3 []).syncList = [] ∧
      Admits (drainFaulted 3 []) 0 (fr [1, 4]) .resolve ∧ Admits (drainFaulted 3 []) 0 (fr [1, 5]) .resolve) ∧
    (Admits (drainFaulted 4 [⟨⟨1, 8⟩, .flush 1, false⟩]) 0 (fr [1, 4]) .resolve ∧
      Quiet (drainFaulted 4 [⟨⟨1, 8⟩, .flush 1, false⟩]) ∧ Admits (drainFaulted 4 [⟨⟨1, 8⟩, .flush 1, false⟩]) 0 (fr [1, 5]) .resolve ∧
      (drainFaulted 4 [⟨⟨1, 8⟩, .flush 1, false⟩]).syncList = [{ id := ⟨1, 8⟩, kind := .flush 1, partialFlag := false }]) := by
  repeat' first | decide +kernel | (unfold State.portSettled; decide +kernel) | constructor

/-- An ABANDON of entry 1: the Sync that covers no other is answered PARTIAL; the one that covers entry 2 too waits on, flagged
(R95, R97). -/
theorem test_resolveAbandon_sync :
    (let s : State := drainFaulted 4 [⟨⟨1, 8⟩, .sync 1 [1], false⟩, ⟨⟨2, 9⟩, .sync 2 [1, 2], false⟩]
     after (.resolveAbandon 0 (fr [1, 5])) { s with journal := s.journal ++ [⟨8, ramp, 2, .evict, .faulted⟩] }).map
      (fun t => (sent 1 t, sent 2 t, t.syncList)) = some ([(0x80, [1])], [], [⟨⟨2, 9⟩, .sync 2 [2], true⟩]) := by
  decide +kernel

theorem witness_LostLinesResolved :
    (Admits (linesLost .opened [98, 99]) 0 (fr [1, 6]) .resolve ∧ Quiet (linesLost .opened [98, 99]) ∧
      (linesLost .opened [98, 99]).job.isSome = true ∧
      Queued (linesLost .opened [98, 99]) [] ⟨1, .opened, 2, .holderLost 1 .linkLost [98, 99]⟩ []) ∧
    (Admits (linesLost .opened [99]) 0 (fr (1 :: le16 99 ++ lineBytes ramp)) .supplyLine ∧ Quiet (linesLost .opened [99]) ∧
      (linesLost .opened [99]).classOf 99 ≠ some .writeThrough ∧
      Queued (linesLost .opened [99]) [] ⟨1, .opened, 2, .holderLost 1 .linkLost [99]⟩ [] ∧
      Admits (linesLost .opened [98, 99]) 0 (fr (1 :: le16 99 ++ lineBytes ramp)) .supplyLine ∧
      Admits (linesLost .opened [98, 99]) 0 (fr (1 :: le16 97 ++ lineBytes ramp)) .supplyLine ∧ (97 : Line) ∉ [(98 : Line), 99]) ∧
    (Admits (linesLost .posted [99]) 0 (fr (1 :: le16 99 ++ lineBytes ramp)) .supplyLine ∧
      Queued (linesLost .posted [99]) [] ⟨1, .posted, 2, .holderLost 1 .linkLost [99]⟩ []) ∧
    (Admits (fillFaulted .opened 1 []) 0 (fr (1 :: le16 99 ++ lineBytes ramp)) .supplyLine ∧
      Admits hub 0 (fr (1 :: le16 99 ++ lineBytes ramp)) .supplyLine ∧ ∀ r ∈ hub.faultQueue, r.id ≠ 1) := by
  repeat' first | decide +kernel | (unfold State.portSettled; decide +kernel) | constructor

theorem witness_StoreRequestsTaken :
    (Admits hub 0 (fr [100, 0]) .storeRead ∧ hub.mode = .running ∧ hub.regionOf 100 = some 1 ∧
      hub.regions[(1 : RegionId)].cls ≠ .plain ∧ Admits hub 0 (fr (le16 100 ++ lineBytes ramp)) .storeWrite) ∧
    (Admits hub 0 (fr [200, 0]) .storeRead ∧ Admits hub 0 (fr (le16 200 ++ lineBytes ramp)) .storeWrite ∧
      hub.regionOf 200 = some 2 ∧ hub.regions[(2 : RegionId)].cls = .plain ∧ Quiet hub ∧ hub.job = none) ∧
    (Admits (busy (stopped hub)) 0 (fr [100, 0]) .storeRead ∧
      Admits (busy (stopped hub)) 0 (fr (le16 100 ++ lineBytes ramp)) .storeWrite ∧ (busy (stopped hub)).mode = .stopped ∧
      Quiet (busy (stopped hub)) ∧ (busy (stopped hub)).job.isSome = true) := by
  repeat' first | decide +kernel | (unfold State.portSettled; decide +kernel) | constructor

/-- A job in flight. -/
def withJob (j : Job) (s : State) : State := { s with job := some j }

/-- The read of a read-modify-write at its last half-word. -/
def rmwRead : Job := job (.direct .readModifyWrite ⟨1, 8⟩ false) 200 false 15

theorem witness_HalfWordsTransferred :
    ((withJob (job .fill 5 false 14) hub).resetN = true ∧ (job .fill 5 false 14).strobed = true ∧
      (job .fill 5 false 14).index < 15 ∧ (job .fill 5 false 14).writing = false ∧ (job (.drain 1) 9 true 0).index < 15 ∧
      (job (.drain 1) 9 true 0).writing = true ∧ (job (.drain 1) 9 true 0).strobed = true) ∧
    (rmwRead.index = 15 ∧ rmwRead.writing = false ∧ rmwRead.owner = .direct .readModifyWrite ⟨1, 8⟩ false ∧ rmwRead.strobed = true) ∧
    (∀ j, hub.job = some j → j.strobed = false) ∧
    (({ job .fill 5 false 15 with strobed := false } : Job).strobed = false ∧
      ({ job .fill 5 false 15 with strobed := false } : Job).index < 16) := by
  exact ⟨by decide, by decide, nofun, by decide⟩

/-- A job whose owner is a request of P1's with tag 8. -/
def owned (q : Req) (op : DirectOp) (orphan writing : Bool) : State :=
  { withJob (job (.direct op ⟨1, 8⟩ orphan) 200 writing 15) hub with requests := if orphan then [] else [⟨⟨1, 8⟩, q⟩] }

/-- The FILL of line 9 at its last half-word, with this record id and these waiters. -/
def filling (r : Option Byte) (w : List ReqId) (s : State) : State :=
  { withJob (job .fill 9 false 15) s with
    table := [{ entry 9 0 .empty nobody with activity := .filling, waiters := w, recordId := r }]
    requests := w.map fun id => ⟨id, .readWords 9 7 1⟩ }

/-- The DRAIN of entry 1 at its last half-word, with an older FAULTED entry of another line and this origin. -/
def draining (o : Origin) (s : State) : State :=
  { withJob (job (.drain 1) 9 true 15) s with
    journal := [⟨8, ramp, 0xFFFFFFFF, .evict, .faulted⟩, ⟨9, ramp, 1, o, .writing⟩], seqCounter := 2 }

theorem witness_JobsComplete :
    (Quiet (filling none [] hub) ∧ NoJobs (filling none [] hub) ∧ LastAccess (filling none [] hub) (job .fill 9 false 15) ∧
      AllIn (filling none [] hub).journal .faulted ∧
      (filling none [] hub).entry? 9 = some { entry 9 0 .empty nobody with activity := .filling }) ∧
    (Quiet (filling (some 1) [] (withRecord (.fillFault 9 .storeError 1) .retrying hub)) ∧
      Queued (filling (some 1) [] (withRecord (.fillFault 9 .storeError 1) .retrying hub)) []
        ⟨1, .retrying, 2, .fillFault 9 .storeError 1⟩ []) ∧
    (Quiet (filling none [⟨1, 8⟩] hub) ∧ LastAccess (filling none [⟨1, 8⟩] hub) (job .fill 9 false 15) ∧
      (filling none [⟨1, 8⟩] hub).request? ⟨1, 8⟩ = some { id := ⟨1, 8⟩, req := .readWords 9 7 1 }) ∧
    (Quiet (draining .flush hub) ∧ NoJobs (draining .flush hub) ∧ LastAccess (draining .flush hub) (job (.drain 1) 9 true 15) ∧
      (draining .flush hub).journal = [⟨8, ramp, 0xFFFFFFFF, .evict, .faulted⟩] ++ ⟨9, ramp, 1, .flush, .writing⟩ :: [] ∧
      (∀ x ∈ [(⟨8, ramp, 0xFFFFFFFF, .evict, .faulted⟩ : JournalEntry)] ++ [], x.seq ≠ 1 ∧ x.state = .faulted) ∧
      (draining .flush hub).syncList = [] ∧
      ({ draining .flush hub with syncList := [⟨⟨1, 8⟩, .flush 1, false⟩] } : State).syncList =
        [{ id := ⟨1, 8⟩, kind := .flush 1, partialFlag := false }]) ∧
    (Quiet (draining .retry (withRecord (.drainFault 9 .storeError 3 1 .evict ramp) .retrying hub)) ∧
      Queued (draining .retry (withRecord (.drainFault 9 .storeError 3 1 .evict ramp) .retrying hub)) []
        ⟨1, .retrying, 2, .drainFault 9 .storeError 3 1 .evict ramp⟩ []) ∧
    (Quiet (owned (.readWords 200 7 1) .read false false) ∧ NoJobs (owned (.readWords 200 7 1) .read false false) ∧
      LastAccess (owned (.readWords 200 7 1) .read false false) (job (.direct .read ⟨1, 8⟩ false) 200 false 15) ∧
      (owned (.readWords 200 7 1) .read false false).request? ⟨1, 8⟩ = some { id := ⟨1, 8⟩, req := .readWords 200 7 1 }) ∧
    (LastAccess (owned (.writeWords 200 0 1 1 0) .readModifyWrite false true)
        (job (.direct .readModifyWrite ⟨1, 8⟩ false) 200 true 15) ∧
      LastAccess (owned (.storeRead 200) .storeRead false false) (job (.direct .storeRead ⟨1, 8⟩ false) 200 false 15) ∧
      LastAccess (owned (.storeWrite 200 0) .storeWrite true true) (job (.direct .storeWrite ⟨1, 8⟩ true) 200 true 15)) := by
  repeat' first | decide +kernel | (unfold AllIn; decide +kernel) | (unfold State.portSettled; decide +kernel) | constructor

/-- Six records, and RUNNING. -/
def sixRecords : State := { hub with faultQueue := fullFaults.faultQueue, recordCounter := 7 }

/-- STOPPED or not, FILLs, DRAINs and DIRECT jobs in flight; the fault queue empty or full; first tries and retries. -/
theorem witness_JobsFail :
    (Quiet (filling none [⟨1, 8⟩] hub) ∧ NoJobs (filling none [⟨1, 8⟩] hub) ∧
      CanFail (filling none [⟨1, 8⟩] hub) (job .fill 9 false 15) .storeError ∧ AllIn (filling none [⟨1, 8⟩] hub).journal .faulted ∧
      RecordRoom (filling none [⟨1, 8⟩] hub) ∧ (filling none [⟨1, 8⟩] hub).mode = .running) ∧
    (Quiet (filling none [] hub) ∧ Quiet (filling none [] fullFaults) ∧ (filling none [] fullFaults).mode = .stopped) ∧
    (FaultUnitOk (filling none [⟨1, 8⟩] sixRecords) ∧ (filling none [⟨1, 8⟩] sixRecords).faultQueue.length = 6 ∧
      (filling none [⟨1, 8⟩] sixRecords).recordCounter ≠ 0 ∧
      (∀ r ∈ (filling none [⟨1, 8⟩] sixRecords).faultQueue, r.id ≠ (filling none [⟨1, 8⟩] sixRecords).recordCounter) ∧
      FaultUnitOk (draining .evict sixRecords) ∧ (draining .evict sixRecords).faultQueue.length = 6) ∧
    (Queued (filling (some 1) [⟨1, 8⟩] (withRecord (.fillFault 9 .storeError 3) .retrying hub)) []
        ⟨1, .retrying, 2, .fillFault 9 .storeError 3⟩ [] ∧
      Queued (draining .retry (withRecord (.drainFault 9 .storeError 3 1 .evict ramp) .retrying hub)) []
        ⟨1, .retrying, 2, .drainFault 9 .storeError 3 1 .evict ramp⟩ []) ∧
    (Quiet (draining .evict hub) ∧ NoJobs (draining .evict hub) ∧ CanFail (draining .evict hub) (job (.drain 1) 9 true 15) .storeTimeout ∧
      RecordRoom (draining .evict hub) ∧ (draining .evict fullFaults).mode = .stopped) ∧
    (Quiet (owned (.storeRead 200) .storeRead false false) ∧ NoJobs (owned (.storeRead 200) .storeRead false false) ∧
      CanFail (owned (.storeRead 200) .storeRead false false) (job (.direct .storeRead ⟨1, 8⟩ false) 200 false 15) .storeTimeout ∧
      (owned (.storeRead 200) .storeRead false false).request? ⟨1, 8⟩ = some ⟨⟨1, 8⟩, .storeRead 200⟩ ∧
      CanFail (owned (.storeRead 200) .storeRead true false) (job (.direct .storeRead ⟨1, 8⟩ true) 200 false 15) .storeError) := by
  repeat' first | decide +kernel | (unfold AllIn; decide +kernel) | (unfold State.portSettled; decide +kernel) | constructor

/-- A DIRECT job of each kind that waits. -/
def waiting (op : DirectOp) : DirectJob := ⟨⟨1, 8⟩, op, 200, 0, 0⟩

/-- A journal of n entries, the lines all different, the first as given and the others QUEUED. -/
def journaled (n : Nat) (first : JournalState) (o : Origin) : State := { hub with
  journal := (List.range n).map fun i =>
    if i = 0 then ⟨0, ramp, 1, o, first⟩ else ⟨BitVec.ofNat 16 i, ramp, BitVec.ofNat 32 (i + 1), .evict, .queued⟩ }

theorem witness_GrantsInOrder :
    (busy hub).job ≠ none ∧ (hub.resetN = true ∧ hub.job = none ∧ hub.mode = .running) ∧
    (let s : State := { hub with directQueue := [waiting .read], passCount := 8 }; s.directQueue ≠ [] ∧ 8 ≤ s.passCount) ∧
    (let s : State := { hub with directQueue := [waiting .read], passCount := 7, fillQueue := [5] }
     ¬ (s.directQueue ≠ [] ∧ 8 ≤ s.passCount) ∧ s.journal.length < 24 ∧ s.fillQueue = 5 :: []) ∧
    (∃ before k after, (journaled 23 .queued .evict).journal.length < 24 ∧ DrainNext (journaled 23 .queued .evict) before k after ∧
      ∀ x ∈ before ++ after, x.seq ≠ k.seq) ∧
    (∃ before k after, 24 ≤ (journaled 24 .writing .retry).journal.length ∧
      DrainNext (journaled 24 .writing .retry) before k after ∧ ∀ x ∈ before ++ after, x.seq ≠ k.seq) ∧
    hub.NoDrain ∧ (journaled 1 .faulted .evict).NoDrain ∧ (hub.fillQueue = [] ∧ hub.directQueue = []) ∧
    (let s : State := { stopped hub with directQueue := [waiting .write, waiting .storeRead] }
     s.job = none ∧ s.mode = .stopped ∧ s.directQueue = [waiting .write] ++ waiting .storeRead :: [] ∧
      ((waiting .storeRead).op = .storeRead ∨ (waiting .storeRead).op = .storeWrite) ∧
      ∀ x ∈ [waiting .write], ¬ (x.op = .storeRead ∨ x.op = .storeWrite)) := by
  refine ⟨by decide, by decide, by decide, by decide,
    ⟨[], _, _, by decide, .eligible rfl ?_ ⟨by decide +kernel, by decide +kernel⟩ (by simp), by decide +kernel⟩,
    ⟨[], _, _, by decide, .retried rfl ⟨by decide +kernel, by decide +kernel⟩ (by simp), by decide +kernel⟩,
    ?_, ?_, by decide, by decide +kernel⟩
  all_goals
    try unfold State.NoDrain State.Eligible
    unfold JournalEntry.retried
    decide +kernel

/-- P1's Read Words of a line, tag 8, waits for allocation in a busy hub with this table. -/
def allocating (l : Line) (es : List Entry) : State :=
  { busy (lines hub es) with requests := [⟨⟨1, 8⟩, .readWords l 7 1⟩], allocQueue := [⟨1, 8⟩] }

/-- It waits on its IDLE entry, held so. -/
def served (h : Vector Holding 4) : State :=
  { busy (lines hub [{ entry 5 0 (.dirty ramp) h with waiters := [⟨1, 8⟩] }]) with requests := [⟨⟨1, 8⟩, .readWords 5 7 1⟩] }

/-- All entries but the last are held READ; the last, of line 711, is CLEAN and free. -/
def heldButLast : List Entry := fullHeld.table.dropLast

/-- P1's line 65535 waits for the place of line 711, which has this copy; with this journal. -/
def givesWay (c : HubCopy) (j : List JournalEntry) : State :=
  { allocating 0xFFFF (heldButLast ++ [entry 711 3 c nobody]) with journal := j }

theorem test_fillLines : fillLines.Nodup :=
  List.Nodup.of_map BitVec.toNat ((List.isChain_iff_pairwise.1
    (by decide +kernel : (fillLines.map BitVec.toNat).IsChain (· < ·))).imp ne_of_lt)

theorem test_heldButLast : heldButLast.map Entry.line ++ [711] = fillLines ∧ heldButLast.length = 511 ∧
    ∀ x ∈ heldButLast, x.candidate = false := by decide +kernel

theorem test_givesWay (c : HubCopy) (j : List JournalEntry) (h : j.length ≤ 32) :
    TablesOk (givesWay c j) ∧ (givesWay c j).table.length = 512 :=
  have hl : (givesWay c j).table.length = 512 := by
    rw [show (givesWay c j).table = heldButLast ++ [entry 711 3 c nobody] from rfl, List.length_append, test_heldButLast.2.1]; rfl
  have hm : (givesWay c j).table.map Entry.line = fillLines := by
    rw [show (givesWay c j).table = heldButLast ++ [entry 711 3 c nobody] from rfl, List.map_append]; exact test_heldButLast.1
  ⟨{ entries := hl.le, lines := hm ▸ test_fillLines, recalls := Nat.zero_le _, journal := h }, hl⟩

/-- A Flush that finds the journal full stays at its entry. That is no event of R13's: the head is not examined, though here
an entry is free (R13, R53). -/
theorem test_flush_keepsHead :
    (after (.flush 3 (fr [99, 0])) { through (entry 99 0 (.dirty ramp) nobody) with
      requests := [⟨⟨1, 8⟩, .readWords 0 7 1⟩], allocQueue := [⟨1, 8⟩], jspace := [.allocHead] }).map
      (fun t => (t.allocQueue, t.jspace)) = some ([⟨1, 8⟩], [.allocHead, .line 99 .flush]) := by decide +kernel

/-- The journal is full, and the least recent candidate, line 99, cannot enter it. Its Read Words makes line 97 the least
recent, whose QUEUED entry can take its data: the head is examined, and here takes a free entry (R13, R15). -/
theorem test_candidateAppears :
    (after (.readWords 3 (fr [99, 0, 0, 1])) { busy (lines hub [entry 97 0 (.dirty ramp) nobody, entry 99 0 (.dirty ramp) nobody]) with
      journal := ⟨97, 0, 40, .flush, .queued⟩ :: (shutFor 98 hub).journal.tail
      requests := [⟨⟨1, 8⟩, .readWords 0 7 1⟩], allocQueue := [⟨1, 8⟩], jspace := [.allocHead] }).map
      (fun t => (t.allocQueue, t.jspace, t.fillQueue)) = some ([], [], [0]) := by decide +kernel

/-- The victim CLEAN; DIRTY with a QUEUED entry, with none, and with no slot in the journal. -/
theorem witness_BlocksServe_victims :
    (let s : State := givesWay (.clean ramp) []
     TablesOk s ∧ s.table.length = 512 ∧ s.regionOf 0xFFFF = some 3 ∧ s.entry? 0xFFFF = none ∧ 0xFFFF ∉ s.fillQueue ∧
      s.table = heldButLast ++ entry 711 3 (.clean ramp) nobody :: []) ∧
    (let s : State := givesWay (.dirty ramp) [⟨711, 0, 1, .flush, .queued⟩]
     TablesOk s ∧ s.entry? 0xFFFF = none ∧ ∃ k ∈ s.journal, k.line = 711 ∧ k.state = .queued) ∧
    (let s : State := givesWay (.dirty ramp) []
     TablesOk s ∧ s.entry? 0xFFFF = none ∧ Appends s 711) ∧
    (let s : State := givesWay (.dirty ramp) (shutFor 98 hub).journal
     TablesOk s ∧ s.entry? 0xFFFF = none ∧ (entry 711 3 (.dirty ramp) nobody).copy = .dirty ramp ∧ s.journal.length = 32 ∧
      (∀ k ∈ s.journal, k.line = 711 → k.state ≠ .queued) ∧ ∀ x ∈ heldButLast ++ [], x.candidate = false) := by
  refine ⟨⟨(test_givesWay _ _ ?_).1, (test_givesWay _ _ ?_).2, ?_, ?_, ?_, rfl⟩, ⟨(test_givesWay _ _ ?_).1, ?_, ?_⟩,
    ⟨(test_givesWay _ _ ?_).1, ?_, ?_⟩, ⟨(test_givesWay _ _ ?_).1, ?_, ?_, ?_, ?_, ?_⟩⟩ <;>
    repeat' first | decide +kernel | constructor

/-- The line in the journal; every entry held; one EVICTING; every entry FILLING. -/
theorem witness_BlocksServe_heads :
    (let s : State := { allocating 98 [] with journal := dirty99.journal }
     s.table.length < 512 ∧ s.regionOf 98 = some 0 ∧ s.entry? 98 = none ∧ s.jspace = [] ∧
      s.request? ⟨1, 8⟩ = some { id := ⟨1, 8⟩, req := .readWords 98 7 1 } ∧ s.Newest 98 ⟨98, ramp, 31, .evict, .faulted⟩) ∧
    (let s : State := allocating 0xFFFF fullHeld.table
     s.table.length = 512 ∧ (∀ x ∈ s.table, x.candidate = false) ∧ (∀ x ∈ s.table, x.activity ≠ .evicting) ∧
      ∃ v, s.table = heldButLast ++ v :: [] ∧ v.line = 711 ∧ v.activity = .idle ∧ v.waiters = [] ∧
        v.holdings[(3 : Port)] ≠ .none) ∧
    (let s : State := allocating 0xFFFF (heldButLast ++ [{ entry 711 3 (.clean ramp) (p1 .read) with activity := .evicting }])
     s.table.length = 512 ∧ (∀ x ∈ s.table, x.candidate = false) ∧ ∃ x ∈ s.table, x.activity = .evicting) ∧
    (let s : State := allocating 0xFFFF (fillLines.map fun l => { entry l 0 .empty nobody with activity := .filling })
     s.table.length = 512 ∧ (∀ x ∈ s.table, x.candidate = false) ∧ (∀ x ∈ s.table, x.activity = .filling) ∧
      ∃ x ∈ s.table, x.activity ≠ .faultHeld ∧ x.copy ≠ .poisoned) := by
  refine ⟨⟨?_, ?_, ?_, ?_, ?_, ⟨dirty99.journal.take 30, [], ?_, ?_⟩⟩,
    ⟨?_, ?_, ?_, _, (List.dropLast_append_getLast (by decide +kernel : fullHeld.table ≠ [])).symm, ?_, ?_, ?_, ?_⟩, ?_, ?_⟩ <;>
    decide +kernel

theorem witness_BlocksServe :
    ((served nobody).resetN = true ∧ (served nobody).job.isSome = true ∧ (served nobody).completing = none ∧
      (∀ p : Port, (served nobody).sessionState p ≠ .closing) ∧ (served nobody).allocQueue = [] ∧ (served nobody).jspace = [] ∧
      (served nobody).entry? 5 = some { entry 5 0 (.dirty ramp) nobody with waiters := [⟨1, 8⟩] } ∧
      (served nobody).request? ⟨1, 8⟩ = some { id := ⟨1, 8⟩, req := .readWords 5 7 1 } ∧ (∀ q : Port, nobody[q] ≠ .write) ∧
      (served (p1 .write)).entry? 5 = some { entry 5 0 (.dirty ramp) (p1 .write) with waiters := [⟨1, 8⟩] } ∧
      (p1 .write)[(1 : Port)] = .write) ∧
    ((allocating 0 nearlyFull.table).resetN = true ∧ (allocating 0 nearlyFull.table).job.isSome = true ∧
      (allocating 0 nearlyFull.table).jspace = [] ∧ Absent (allocating 0 nearlyFull.table) 0 ∧
      (allocating 0 nearlyFull.table).request? ⟨1, 8⟩ = some { id := ⟨1, 8⟩, req := .readWords 0 7 1 } ∧
      (allocating 0 nearlyFull.table).regionOf 0 = some 0 ∧ 0 ∉ (allocating 0 nearlyFull.table).fillQueue) ∧
    ((allocating 0xFFFF (fillLines.map fun l => entry l 0 .poisoned nobody)).table.length = 512 ∧
      ∀ x ∈ (allocating 0xFFFF (fillLines.map fun l => entry l 0 .poisoned nobody)).table,
        x.activity = .faultHeld ∨ (x.activity = .idle ∧ x.copy = .poisoned ∧ ∀ q : Port, x.holdings[q] = .none)) ∧
    (let s : State := { dirty99 with jspace := [.line 99 .evict] }
     s.allocQueue = [] ∧ s.jspace = [.line 99 .evict] ∧ s.entry? 99 = some (entry 99 0 (.dirty ramp) nobody) ∧ Appends s 99) ∧
    (let s : State := { armed 98 (busy (lines hub [entry 99 0 (.dirty ramp) nobody])) with jspace := [.line 99 .evict] }
     s.allocQueue = [] ∧ s.jspace = [.line 99 .evict] ∧ s.entry? 99 = some (entry 99 0 (.dirty ramp) nobody) ∧ Appends s 99) ∧
    (let s : State := { hub with recalls := fifteen, recallWait := [⟨5, 1, .invalidate, .evict⟩] }
     s.recallWait = ⟨5, 1, .invalidate, .evict⟩ :: [] ∧ s.recalls.length < 16) ∧
    (hub.recallWait = [] ∧ 16 ≤ (fifteen ++ [asked .downgrade]).length) := by
  refine ⟨by decide +kernel, ?_, ?_⟩
  all_goals repeat' first | decide +kernel | constructor

end Sys2Proof.Tests
end

/-! PROOFS. Every step keeps the hub in order. -/

namespace Sys2Proof.Machine

variable {s t : State} {p : Port}

/-- The laws of `InOrder` that are not laws of coherence. -/
structure Bounded (s : State) : Prop where
  faults   : FaultUnitOk s
  replays  : ReplayOk s
  requests : RequestsOk s
  tags     : TagsOk s

theorem InOrder.bounded (h : InOrder s) : Bounded s := ⟨h.faults, h.replays, h.requests, h.tags⟩

/-- The hub is in order when the bounds and the laws of coherence hold. -/
theorem Bounded.inOrder (h : Bounded s) (hg : Good s) : InOrder s :=
  have ⟨hh, hr, hj, hb, hc⟩ := hg.orders
  { faults := h.faults, tables := hg.tables, replays := h.replays, requests := h.requests, holdings := hh, recalls := hr,
    journal := hj, jobs := hb, records := hc, tags := h.tags }

theorem Bounded.keeps {c d f : Prop} (h : Bounded s) (hk : KeepsIf c d f s t) : Bounded t :=
  ⟨hk.faults h.faults, hk.replays h.replays, h.requests.sub hk.requests, h.tags.sub hk.requests⟩

theorem Bounded.follows {c : Instr} (h : Bounded s) (hf : Follows c s t) : Bounded t :=
  ⟨hf.faults h.faults, hf.replays h.replays, hf.requestsOk h.requests, hf.tags h.tags⟩

/-- A RUNNING hub without records, requests and frames to replay, STOP deasserted, is within the bounds. -/
theorem blank_bounded (hq : s.faultQueue = []) (hr : s.stopRecord = none) (hm : s.mode = .running) (ho : s.stopOut = false)
    (hl : ∀ p : Port, s.links[p].replay = []) (hs : s.requests = []) : Bounded s where
  faults := ⟨by simp [hq], by simp [hr, hm], by simp [ho], by simp [hm]⟩
  replays p := by rw [hl p]; exact Nat.zero_le _
  requests p := by simp [State.outstanding, hs]
  tags := by simp [TagsOk, hs]

theorem reset_bounded : Bounded State.reset :=
  blank_bounded rfl rfl rfl rfl (fun p => by simp [State.reset, LinkUnit.reset]) rfl

theorem powerOn_bounded (a b : Bool) : Bounded (s.powerOn a b) :=
  blank_bounded rfl rfl rfl rfl (fun p => by simp [State.powerOn, State.reset, LinkUnit.reset]) rfl

theorem restartHub_bounded : Bounded s.restartHub :=
  blank_bounded rfl rfl rfl rfl (fun p => by simp [State.restartHub, State.afterRestart, LinkUnit.reset]) rfl

/-- A request's frame keeps the bounds where taking it does. -/
theorem onRequest_bounded {α : Type} (f : RxFrame) (k : Kind) {operand : State → Option α} {take : State → α → State}
    (h : Bounded s) (ht : ∀ t a, Bounded t → Bounded (take t a)) : Bounded (s.onRequest p f k operand take) := by
  unfold State.onRequest State.onSequenced State.onGoodFrame
  split
  · have hr := h.keeps (restartKeepalive_keeps s p)
    dsimp only
    split
    · have ha := hr.keeps (acceptSeq_keeps _ p)
      split
      · exact ha.keeps (reply_keeps ..)
      · exact ht _ _ ha
      · exact ha
    · exact hr.keeps (rejectSeq_keeps ..)
  · exact h

/-- Every command keeps the bounds: Restart and power-on reset by what they leave, every other one by what it keeps. -/
theorem exec_bounded (c : Instr) (hx : exec c s = .next t) (h : Bounded s) : Bounded t := by
  by_cases hr : ∃ p f, c = .restart p f
  · obtain ⟨p, f, rfl⟩ := hr
    cases hx
    exact onRequest_bounded _ _ h fun _ _ _ => restartHub_bounded
  · by_cases hp : ∃ a b, c = .powerOnReset a b
    · obtain ⟨a, b, rfl⟩ := hp
      cases hx
      exact powerOn_bounded a b
    · exact h.follows (exec_follows c (fun p f e => hr ⟨p, f, e⟩) (fun a b e => hp ⟨a, b, e⟩) hx)

theorem exec_keeps_inOrder (c : Instr) (hx : exec c s = .next t) (h : InOrder s) : InOrder t :=
  (exec_bounded c hx h.bounded).inOrder (exec_good c hx h.good)

/-- The commands that wait are no matter of order. -/
theorem InOrder.pending (h : InOrder s) (cs : List Instr) : InOrder { s with pending := cs } :=
  { faults := ⟨h.faults.queue, h.faults.slot, h.faults.pinOff, h.faults.pinOn⟩
    tables := ⟨h.tables.entries, h.tables.lines, h.tables.recalls, h.tables.journal⟩
    replays := h.replays
    requests := h.requests
    holdings := ⟨h.holdings.alone, h.holdings.data, h.holdings.empty⟩
    recalls := ⟨h.recalls.holder, h.recalls.writer, h.recalls.one, h.recalls.ids⟩
    journal := ⟨h.journal.line, h.journal.seqs⟩
    jobs := ⟨h.jobs.fills, h.jobs.filling, h.jobs.draining⟩
    records := ⟨h.records.ids, h.records.lines, h.records.entries, h.records.seqs, h.records.drains, h.records.stop⟩
    tags := h.tags }

/-- Settles O12: a step is its front command, which keeps the bounds of `Bounded` and the laws of `Good`. -/
theorem stepKeepsOrder : Obligations.StepKeepsOrder := by
  intro s t h hs
  unfold step at hs
  split at hs
  · cases hs
    exact h
  · exact exec_keeps_inOrder _ hs (h.pending _)

/-- Settles O11: after reset every table, queue and buffer is empty. -/
theorem resetInOrder : Obligations.ResetInOrder :=
  reset_bounded.inOrder (empty_good rfl rfl rfl rfl rfl rfl rfl rfl)

end Sys2Proof.Machine

/-! PROOFS. Admitted data requests, and those for absent lines: a FILL asked for, an entry made of a full line (R12, R20 to
R23). -/

namespace Sys2Proof.Machine

variable {s t : State} {p : Port} {l : Line} {f : RxFrame} {i : RegionId} {first count : Nat} {x : WriteOperand}

/-! ## The commands of data requests, once admitted (R33, R38) -/

theorem exec_acquireRead_admits (h : Admits s p f .acquireRead) (hp : f.payload = le16 l) :
    exec (.acquireRead p f) s = .next ((s.accepted p).takeLineRequest ⟨p, f.tag⟩ (.acquireRead l) l .read none) :=
  congrArg _ (onRequest_admits h (a := l) (by rw [hp]; exact parseLine_le16 l) _)

theorem exec_acquireWrite_admits (h : Admits s p f .acquireWrite) (hp : f.payload = le16 l) :
    exec (.acquireWrite p f) s = .next ((s.accepted p).takeLineRequest ⟨p, f.tag⟩ (.acquireWrite l) l .full none) :=
  congrArg _ (onRequest_admits h (a := l) (by rw [hp]; exact parseLine_le16 l) _)

theorem exec_upgrade_admits (h : Admits s p f .upgrade) (hp : f.payload = le16 l) :
    exec (.upgrade p f) s = .next ((s.accepted p).takeLineRequest ⟨p, f.tag⟩ (.upgrade l) l .full none) :=
  congrArg _ (onRequest_admits h (a := l) (by rw [hp]; exact parseLine_le16 l) _)

theorem exec_flush_admits (h : Admits s p f .flush) (hp : f.payload = le16 l) :
    exec (.flush p f) s = .next ((s.accepted p).takeFlush ⟨p, f.tag⟩ l) :=
  congrArg _ (onRequest_admits h (a := l) (by rw [hp]; exact parseLine_le16 l) _)

theorem exec_prefetch_admits (h : Admits s p f .prefetch) (hp : f.payload = le16 l) :
    exec (.prefetch p f) s = .next ((s.accepted p).takePrefetch p f.tag l) :=
  congrArg _ (onRequest_admits h (a := l) (by rw [hp]; exact parseLine_le16 l) _)

theorem exec_readWords_admits (h : Admits s p f .readWords) (hp : parseReadWords f.payload = some (l, first, count)) :
    ∃ job, exec (.readWords p f) s =
      .next ((s.accepted p).takeLineRequest ⟨p, f.tag⟩ (.readWords l first count) l .read job) :=
  ⟨_, congrArg _ (onRequest_admits h (a := (l, first, count)) hp _)⟩

theorem exec_writeWords_admits (h : Admits s p f .writeWords) (hp : parseWriteWords f.payload = some x) :
    ∃ job, exec (.writeWords p f) s = .next ((s.accepted p).takeLineRequest ⟨p, f.tag⟩
      (.writeWords x.line x.first x.count x.enables x.data) x.line .full job) :=
  ⟨_, congrArg _ (onRequest_admits h (a := x) hp _)⟩

/-! ## Checks on an absent line (R36, R37) -/

/-- An acquiring port below its capacity passes the checks. -/
theorem checkLine_acquire_absent {k : Kind} (hk : k = .acquireRead ∨ k = .acquireWrite) (h : s.entry? l = none)
    (hc : s.holdingCount p < s.capacity p) : s.checkLine p k l = none := by
  rw [checkLine_absent h]
  rcases hk with rfl | rfl <;> simp [holdingCheck, hc]

/-- A request for words passes the checks. -/
theorem checkLine_words_absent {k : Kind} (hk : k = .readWords ∨ k = .writeWords) (h : s.entry? l = none) :
    s.checkLine p k l = none := by
  rw [checkLine_absent h]
  rcases hk with rfl | rfl <;> rfl

/-- Settles O4: each kind passes its checks, and none of them fills its entry itself. -/
theorem absentLineAsksFill : Obligations.AbsentLineAsksFill := by
  intro p f s l i hq hb ha hl filled
  refine ⟨fun had hu hp hc => ?_, fun had hu hp hc => ?_, fun first count had hu hp hf h1 h8 => ?_,
    fun x had hu hp hx hn => ?_⟩
  · rw [exec_acquireRead_admits had hp]
    exact congrArg _ (takeLineRequest_fills hq hb ha hl had rfl hu rfl (checkLine_acquire_absent (.inl rfl) ha.absent hc) rfl)
  · rw [exec_acquireWrite_admits had hp]
    exact congrArg _ (takeLineRequest_fills hq hb ha hl had rfl hu rfl (checkLine_acquire_absent (.inr rfl) ha.absent hc) rfl)
  · obtain ⟨job, hx⟩ := exec_readWords_admits had (by rw [hp]; exact parseReadWords_bytes l hf h1 h8)
    rw [hx]
    exact congrArg _ (takeLineRequest_fills hq hb ha hl had rfl hu rfl (checkLine_words_absent (.inl rfl) ha.absent) rfl)
  · subst hx
    obtain ⟨job, hx⟩ := exec_writeWords_admits had hp
    rw [hx]
    exact congrArg _ (takeLineRequest_fills hq hb ha hl had rfl hu rfl (checkLine_words_absent (.inr rfl) ha.absent)
      (by simp [Request.fullLine?, hn]))

/-! ## A full-line Write Words (R22, R44) -/

theorem wordBytes_whole (d : LineData) : wordBytes d 0 8 = lineBytes d := by simp [wordBytes, lineBytes]

/-- The payload of a full-line Write Words. -/
theorem parseWriteWords_full (l : Line) (d : LineData) :
    parseWriteWords (le16 l ++ [count8 0, count8 8] ++ le32 (BitVec.allOnes 32) ++ lineBytes d) =
      some { line := l, first := 0, count := 8, enables := BitVec.allOnes 32, data := d } := by
  rw [← wordBytes_whole,
    parseWriteWords_bytes l d (en := BitVec.allOnes 32) (by decide) (by decide) (by decide) (by decide) (by decide)]
  simp [wordBytes_whole, lineOfBytes_lineBytes]

theorem entry?_head {e : Entry} {es : List Entry} (h : e.line = l) : (s.withTable (e :: es)).entry? l = some e := by
  simp [State.entry?, h]

theorem others_head {e : Entry} (h : e.line = l) (hn : s.entry? l = none) :
    (s.withTable (e :: s.table)).others l = s.table := by
  have ho := others_absent hn
  simpa [State.others, h] using ho

/-- A change of the entry at the most-recent end of a table in which no other is of its line. -/
theorem updateEntry_head {e : Entry} (g : Entry → Entry) (h : e.line = l) (hn : s.entry? l = none) :
    (s.withTable (e :: s.table)).updateEntry l g = s.withTable (g e :: s.table) := by
  have hm : s.table.map (fun x => if x.line == l then g x else x) = s.table := by
    conv_rhs => rw [← List.map_id s.table]
    exact List.map_congr_left fun x hx => by simp [entry?_none.1 hn x hx]
  rw [State.updateEntry, State.withTable_table, List.map_cons, hm, if_pos (by simpa using h)]
  rfl

theorem freshEntry_request (hr : s.regionOf l = some i) (w : Request) : s.freshEntry l (some w) = newEntry l i w.id := by
  simp [State.freshEntry, newEntry, hr]

/-- The entry that a full-line Write Words creates takes its data, and the request is answered at once (R22, R44). -/
theorem createEntry_fullLine {id : ReqId} {d : LineData} (he : s.entry? l = none) (hr : s.regionOf l = some i)
    (hc : s.regions[i].cls = .tracked)
    (hq : s.request? id = some ⟨id, .writeWords l first count (BitVec.allOnes 32) d⟩) :
    s.createEntry l (some ⟨id, .writeWords l first count (BitVec.allOnes 32) d⟩) =
      (s.withTable ({ newEntry l i id with copy := .dirty d, activity := .idle, waiters := [] } :: s.table)).answer id .done
        [bit false] := by
  have hcls : s.classOf l ≠ some .writeThrough := by rw [State.classOf, hr, Option.map_some, hc]; decide
  let e : Entry := { newEntry l i id with copy := .dirty d, activity := .idle }
  let t : State := s.withTable (e :: s.table)
  have hte : t.entry? l = some e := entry?_head rfl
  have hnone : ∀ q : Port, e.holdings[q] = .none := fun q => by simp [e, newEntry]
  have hplaced : s.createEntry l (some ⟨id, .writeWords l first count (BitVec.allOnes 32) d⟩) = t.service l := by
    have hf : Request.fullLine? ⟨id, .writeWords l first count (BitVec.allOnes 32) d⟩ = some d := rfl
    unfold State.createEntry
    rw [freshEntry_request hr, Option.bind_some, hf]
    refine congrArg (fun u : State => u.service l) ?_
    refine (makeDirty_tracked (s := s.withTable ({ newEntry l i id with activity := .idle } :: s.table)) d .through hcls).trans ?_
    exact updateEntry_head (e := { newEntry l i id with activity := .idle }) (fun x => { x with copy := .dirty d }) rfl he
  have hcheck : t.checkLine id.port .writeWords l = none := by
    rw [checkLine_present hte rfl, hnone]; rfl
  have hoth : t.others l = s.table := others_head rfl he
  have hset : t.setCopy l (.dirty d) = t := updateEntry_head (fun x => { x with copy := .dirty d }) rfl he
  rw [hplaced, service_alone hte rfl rfl hq hcheck (recallsNeeded_writers (.inl rfl) fun q _ => hnone q)]
  show ((if (e.holdings[id.port] == .read) = true then _ else t).makeDirty l
    (mergeBytes d d (BitVec.allOnes 32)) .through).serveDone l id [bit (e.holdings[id.port] == .read)] = _
  rw [hnone, mergeBytes_full, if_neg (by decide), makeDirty_tracked d .through (s := t) hcls, hset, serveDone_eq _ _ hte, hoth]
  rfl

/-- Settles O5: the new entry is made of the request's own data, which its service merges into it. -/
theorem fullLineWriteCreatesEntry : Obligations.FullLineWriteCreatesEntry := by
  intro p f s l i new had hq hu hc he hroom hp
  obtain ⟨job, hx⟩ := exec_writeWords_admits had (by rw [hp]; exact parseWriteWords_full l new)
  let r : Req := .writeWords l 0 8 (BitVec.allOnes 32) new
  let done : State := (s.replied p f.tag .done [bit false]).withTable
    ({ newEntry l i ⟨p, f.tag⟩ with copy := .dirty new, activity := .idle, waiters := [] } :: s.table)
  have hcr : (s.asked p f.tag r).createEntry l (some ⟨⟨p, f.tag⟩, r⟩) = done := by
    rw [createEntry_fullLine (s := s.asked p f.tag r) he hu.region hc (asked_request? had.may r),
      answer_asked had.may (q := r) rfl rfl]
    rfl
  have hquiet : Quiet done := hq.congr rfl rfl rfl rfl rfl rfl rfl rfl rfl
  rw [hx, takeLineRequest_asked job hu (checkLine_words_absent (.inr rfl) he)]
  refine congrArg _ (settle_served ?_ hquiet.port hquiet.region hquiet.sessions)
  exact (enterLine_createEntry hq he hroom had.may rfl (by rw [hcr]; exact hquiet.alloc)).trans hcr

end Sys2Proof.Machine

/-! PROOFS. Requests that other holders stand in the way of (R10, R42 to R47, R52). -/

namespace Sys2Proof.Machine

variable {s : State} {p : Port} {l : Line} {e : Entry} {d : LineData} {f : RxFrame}

/-- An admitted request that needs recalls of these ports asks them, and its entry is RECALLING (R10, R63). -/
theorem takeLineRequest_recalls {k : Kind} {r : Req} {need : Access} {job : Option DirectJob} {rk : RecallKind}
    {qs : List Port} (hq : Quiet s) (hv : Serves s p l need e d) (ha : Admits s p f k) (hk : r.kind = k)
    (hc : holdingCheck k e.holdings[p] (s.holdingCount p) (s.capacity p) = none)
    (hr : recallsNeeded e p k = qs.map fun q => (q, rk)) (hqs : qs ≠ []) :
    (s.accepted p).takeLineRequest ⟨p, f.tag⟩ r l need job =
      ((s.asked p f.tag r).withTable (s.table.map fun x =>
        if x.line == l then { x with activity := .recalling, waiters := x.waiters ++ [⟨p, f.tag⟩] } else x)).recalledInTurn
        (qs.map fun q => { line := l, port := q, kind := rk, purpose := .request }) := by
  have hcl : s.checkLine p r.kind l = none := by rw [hk, checkLine_present hv.present hv.data, hc]
  rw [takeLineRequest_asked job hv.use hcl, enterLine_recalls hq hv ha hk hc hr hqs]

theorem holdingCheck_words {k : Kind} (hk : k = .readWords ∨ k = .writeWords ∨ k = .flush) {h : Holding} (hh : h ≠ .write)
    (n m : Nat) : holdingCheck k h n m = none := by
  rcases hk with rfl | rfl | rfl <;> simp [holdingCheck, hh]

theorem holdingCheck_acquire {k : Kind} (hk : k = .acquireRead ∨ k = .acquireWrite) {h : Holding} (hh : h = .none)
    {n m : Nat} (hc : n < m) : holdingCheck k h n m = none := by
  rcases hk with rfl | rfl <;> simp [holdingCheck, hh, hc]

theorem holdingCheck_upgrade {h : Holding} (hh : h = .read) (n m : Nat) : holdingCheck .upgrade h n m = none := by
  simp [holdingCheck, hh]

/-- Settles O6: each kind passes its checks and needs a recall of the ports named, and of no other. -/
theorem recallAsked : Obligations.RecallAsked := by
  intro p f s l e d hq recalling writers holders
  refine ⟨fun hv hw hh => ⟨fun ha hp hn hc => ?_, fun ha hp => ?_, fun first count ha hp => ?_⟩,
    fun hv hw => ⟨fun ha hp hn hc => ?_, fun ha hp hr => ?_, fun x ha hp hx hh => ?_⟩⟩
  · rw [exec_acquireRead_admits ha hp]
    exact congrArg _ (takeLineRequest_recalls hq hv ha rfl (holdingCheck_acquire (.inl rfl) hn hc)
      (recallsNeeded_reads (.inr (.inl rfl))) hw)
  · have hc := holdingCheck_words (.inr (.inr rfl)) hh (s.holdingCount p) (s.capacity p)
    rw [exec_flush_admits ha hp,
      takeFlush_present hv.use hv.present ((checkLine_present hv.present hv.data).trans hc)]
    exact congrArg _ (enterLine_recalls hq hv ha rfl hc (recallsNeeded_reads (.inr (.inr rfl))) hw)
  · obtain ⟨job, hx⟩ := exec_readWords_admits ha hp
    rw [hx]
    exact congrArg _ (takeLineRequest_recalls hq hv ha rfl (holdingCheck_words (.inl rfl) hh ..)
      (recallsNeeded_reads (.inl rfl)) hw)
  · rw [exec_acquireWrite_admits ha hp]
    exact congrArg _ (takeLineRequest_recalls hq hv ha rfl (holdingCheck_acquire (.inr rfl) hn hc)
      (recallsNeeded_writes (.inr (.inl rfl))) hw)
  · rw [exec_upgrade_admits ha hp]
    exact congrArg _ (takeLineRequest_recalls hq hv ha rfl (holdingCheck_upgrade hr ..)
      (recallsNeeded_writes (.inr (.inr rfl))) hw)
  · subst hx
    obtain ⟨job, hx⟩ := exec_writeWords_admits ha hp
    rw [hx]
    exact congrArg _ (takeLineRequest_recalls hq hv ha rfl (holdingCheck_words (.inr (.inl rfl)) hh ..)
      (recallsNeeded_writes (.inl rfl)) hw)

end Sys2Proof.Machine

/-! PROOFS. Prefetch (R19, R50). -/

namespace Sys2Proof.Machine

variable {s : State} {p : Port} {l : Line} {f : RxFrame} {i : RegionId}

/-- A Prefetch is checked for its right and for poison alone (R35, R37). -/
theorem checkLine_prefetch (h : s.checkPoison l = none) : s.checkLine p .prefetch l = none := by
  rw [State.checkLine, h]; rfl

/-- An admitted Prefetch that passes its checks: FETCHED is clear unless it takes an entry (R50). -/
theorem takePrefetch_eq (hu : MayUse s p l .read i) (hc : s.checkPoison l = none) (tag : Byte) :
    (s.accepted p).takePrefetch p tag l =
      if (s.entry? l).isSome then s.replied p tag .done [bit false]
      else match (s.accepted p).prefetchEntry l with
        | some t => (t.reply p tag .done [bit true]).settle (s.accepted p)
        | none => s.replied p tag .done [bit false] := by
  have hd : (s.accepted p).checkData p .prefetch l .read false = .ok s.regions[i].cls :=
    checkData_mayUse (s := s.accepted p) (i := i) ⟨hu.region, hu.cached, hu.right⟩ false (checkLine_prefetch hc)
  rw [State.takePrefetch, hd, ← accepted_reply]
  rfl

theorem victim_noCandidate (h : ∀ e ∈ s.table, e.candidate = false) : s.victim = .noCandidate := by
  have : s.table.reverse.filter Entry.candidate = [] :=
    List.filter_eq_nil_iff.2 fun e he => by simp [h e (List.mem_reverse.1 he)]
  rw [State.victim, this]

/-- No entry is to be had at once behind a waiting request, or in a full table without candidates (R19). -/
theorem prefetchEntry_none
    (h : s.allocQueue ≠ [] ∨ (Config.tableSize ≤ s.table.length ∧ ∀ e ∈ s.table, e.candidate = false)) :
    s.prefetchEntry l = none := by
  unfold State.prefetchEntry
  rcases h with h | ⟨hr, hc⟩
  · rw [if_pos (by simpa using h)]
  · split
    · rfl
    · rw [if_neg (by omega), victim_noCandidate hc]

/-- A free entry is taken, FILLING at the least-recent end, and its FILL asked for (R19, R20, R23). -/
theorem prefetchEntry_free (hq : s.allocQueue = []) (ha : Absent s l) (hr : s.regionOf l = some i) (hf : l ∉ s.fillQueue)
    (id : ReqId) : s.prefetchEntry l = some { s with
      table := s.table ++ [{ newEntry l i id with waiters := [], prefetched := true }]
      fillQueue := s.fillQueue ++ [l] } := by
  simp [State.prefetchEntry, hq, ha.room, State.createEntry, newest?_none ha.journal, State.placeEntry, State.freshEntry,
    hr, State.askFill, hf, newEntry]

/-- Settles O21: by whether the line is present, and whether an entry is to be had. -/
theorem prefetchTaken : Obligations.PrefetchTaken := by
  intro p f s l i had hu hc hp
  have hx : exec (.prefetch p f) s = .next ((s.accepted p).takePrefetch p f.tag l) := exec_prefetch_admits had hp
  rw [hx, takePrefetch_eq hu hc]
  refine ⟨fun ⟨e, he⟩ => ?_, fun he hn => ?_, fun hq hb ha hf => ?_⟩
  · rw [he]; rfl
  · rw [he, prefetchEntry_none (s := s.accepted p) hn]; rfl
  · rw [ha.absent, prefetchEntry_free (s := s.accepted p) (i := i) hq.alloc ⟨ha.absent, ha.room, ha.journal⟩ hu.region hf
      ⟨p, f.tag⟩]
    refine congrArg _ (.trans (settle_quiet ?_) ?_)
    · exact hq.busy hb rfl rfl rfl rfl
    · rw [← accepted_reply]
      rfl

end Sys2Proof.Machine

/-! PROOFS. A good answer to the only outstanding recall of a line (R17, R67 to R70, R145, R174). -/

namespace Sys2Proof.Machine

variable {s t : State} {p q : Port} {l : Line} {e : Entry} {f : RxFrame} {r : Recall} {i : RegionId}

/-! ## An answer taken (R66 to R69) -/

/-- An answer in a session that is open is taken by its operand (R66). -/
theorem exec_recallAnswer_open {a : AnswerOperand} (ha : Arrives s p f.seq)
    (hs : s.sessionState p = .online ∨ s.sessionState p = .closing) (hp : parseRecallAnswer f.payload = some a) :
    exec (.recallAnswer p f) s = .next ((s.accepted p).takeAnswer p a) := by
  have hon : (s.accepted p).onAnswer p f = (s.accepted p).takeAnswer p a := by
    unfold State.onAnswer
    rcases hs with h | h <;> rw [show (s.accepted p).sessionState p = _ from h, hp]
  exact congrArg _ ((onSequenced_arrives ha _).trans hon)

/-- The state once an answer has left the target this holding, and the hub copy as it was or this data (R68, R69). -/
def State.answered (s : State) (l : Line) (p : Port) (h : Holding) (d : Option LineData) : State :=
  s.withTable (s.changed l fun x =>
    { x with holdings := x.holdings.set p h, copy := (d.map HubCopy.dirty).getD x.copy })

/-- A matched answer has its effect by the kind of the recall, which then closes (R67 to R70). -/
theorem takeAnswer_only {o : AnswerOutcome} {h : Holding} {d : Option LineData} (hr : OnlyRecall s l p r)
    (hc : s.classOf l ≠ some .writeThrough) (he : answerEffect r.asked.kind (s.holding l p) o = (h, d)) :
    s.takeAnswer p ⟨r.id, l, o⟩ = ((s.answered l p h d).closeRecall l p).settle s := by
  unfold State.takeAnswer
  rw [matchRecall_only hr]
  dsimp only
  rw [he]
  cases d with
  | none => rfl
  | some d =>
    have hm := makeDirty_tracked (s := s.setHolding l p h) (l := l) d .through hc
    rw [setHolding_setCopy] at hm
    exact congrArg (fun u : State => (u.closeRecall l p).settle s) hm

/-- The state once the only recall of its line has left the table. -/
def State.unrecalled (s : State) (l : Line) (p : Port) : State := { s with recalls := s.recallsWithout l p }

theorem answered_entry? (h : Holding) (d : Option LineData) (he : s.entry? l = some e) :
    (s.answered l p h d).entry? l =
      some { e with holdings := e.holdings.set p h, copy := (d.map HubCopy.dirty).getD e.copy } :=
  updateEntry_entry? (fun x => { x with holdings := x.holdings.set p h, copy := (d.map HubCopy.dirty).getD x.copy })
    (fun _ => rfl) he

/-! ## The blocks that are told (R70) -/

theorem setActivity_entry? (a : Activity) (he : s.entry? l = some e) :
    (s.setActivity l a).entry? l = some { e with activity := a } :=
  updateEntry_entry? (fun x => { x with activity := a }) (fun _ => rfl) he

theorem service_noWaiters (he : s.entry? l = some e) (hw : e.waiters = []) : s.service l = s := by
  simp only [State.service, he, hw, List.length_nil, State.serviceLoop]

/-- A RECALLING entry, and an EVICTING one that is waited for, becomes IDLE and is served (R17, R70). -/
theorem tellLineTable_serves (hn : s.lineRecalled l = false) (he : s.entry? l = some e)
    (ha : e.activity = .recalling ∨ (e.activity = .evicting ∧ e.waiters ≠ [])) :
    s.tellLineTable l = (s.setActivity l .idle).service l := by
  unfold State.tellLineTable
  rcases ha with ha | ⟨ha, hw⟩ <;> simp [hn, he, ha, State.finishEviction]
  exact fun h => absurd h hw

theorem held_iff : e.held = true ↔ ∃ q : Port, e.holdings[q] ≠ .none := by
  simp only [Entry.held, List.any_eq_true, bne_iff_ne]
  exact ⟨fun ⟨q, _, h⟩ => ⟨q, h⟩, fun ⟨q, h⟩ => ⟨q, mem_ports q, h⟩⟩

theorem not_held (h : ∀ q : Port, e.holdings[q] = .none) : e.held = false := by
  rw [Bool.eq_false_iff, ne_eq, held_iff]
  exact fun ⟨q, hq⟩ => hq (h q)

/-- An entry that nobody waits for becomes IDLE, RECALLING or EVICTING without holders (R17, R70). -/
theorem tellLineTable_settles (hn : s.lineRecalled l = false) (he : s.entry? l = some e) (hw : e.waiters = [])
    (ha : e.activity = .recalling ∨ (e.activity = .evicting ∧ ∀ q : Port, e.holdings[q] = .none)) :
    s.tellLineTable l = s.setActivity l .idle := by
  rcases ha with ha | ⟨ha, hh⟩
  · rw [tellLineTable_serves hn he (.inl ha)]
    exact service_noWaiters (setActivity_entry? .idle he) hw
  · simp [State.tellLineTable, hn, he, ha, State.finishEviction, hw, not_held hh]

/-- An EVICTING entry that one port still holds has that holding recalled, with purpose EVICT (R17). -/
theorem tellLineTable_evicts (hn : s.lineRecalled l = false) (he : s.entry? l = some e) (hw : e.waiters = [])
    (ha : e.activity = .evicting) (hp : e.copy ≠ .poisoned) (hh : e.holdings[p] ≠ .none)
    (ho : ∀ q : Port, q ≠ p → e.holdings[q] = .none) :
    s.tellLineTable l = s.recalled { line := l, port := p, kind := .invalidate, purpose := .evict } := by
  have hheld : e.held = true := held_iff.2 ⟨p, hh⟩
  have hone : (ports.filter fun q => e.holdings[q] != .none) = [p] := by
    have : (ports.filter fun q => e.holdings[q] != .none) = ports.filter fun q => q == p :=
      List.filter_congr fun q _ => by
        by_cases hq : q = p
        · subst hq; simpa [-Fin.getElem_fin] using hh
        · simp [-Fin.getElem_fin, ho q hq, hq]
    have hf : ∀ p : Port, (ports.filter fun q => q == p) = [p] := by decide
    rw [this, hf]
  have hpo : e.poisoned = false := by simpa [Entry.poisoned] using hp
  simp only [State.tellLineTable, hn, he, ha, State.finishEviction, hw, hheld, hpo, State.askEvict, hone, recallsFor,
    askRecalls_eq]
  rfl

theorem tellRegionTable_idle (h : s.completing = none) : s.tellRegionTable l p = s := by
  simp only [State.tellRegionTable, h]

theorem tellSession_online (h : s.sessionState p ≠ .closing) : s.tellSession l p = s := by
  simp only [State.tellSession, h, false_and, if_false]

/-- A reader without a right, under the Region Set that is completing, is recalled again with purpose REGION (R145). -/
theorem tellRegionTable_loses (he : s.entry? l = some e) (hh : e.holdings[p] = .read) (hc : s.completing = some i)
    (hl : s.regions[i].contains l = true) (ha : s.regions[i].access[p] = .none) :
    s.tellRegionTable l p = s.recalled { line := l, port := p, kind := .invalidate, purpose := .region } := by
  simp only [State.tellRegionTable, hc, he, hl, hh, ha, if_true, excessRecall, askRecall_eq]

/-- A CLOSING port that still holds the line is recalled again with purpose CLOSE (R174). -/
theorem tellSession_closing (hs : s.sessionState p = .closing) (hh : s.holding l p ≠ .none) :
    s.tellSession l p = s.recalled { line := l, port := p, kind := .invalidate, purpose := .close } := by
  rw [State.tellSession, if_pos ⟨hs, hh⟩, askRecall_eq]

/-- What a port has just been asked for is not asked again: the first block told makes the recall (R63, R70). -/
theorem tellRegionTable_again (k : RecallKind) (u : Purpose) :
    (s.recalled ⟨l, p, k, u⟩).tellRegionTable l p = s.recalled ⟨l, p, k, u⟩ := by
  unfold State.tellRegionTable
  split
  · split
    · split
      · exact askRecall_again ⟨l, p, k, u⟩ ..
      · rfl
    · rfl
  · rfl

theorem tellSession_again (k : RecallKind) (u : Purpose) :
    (s.recalled ⟨l, p, k, u⟩).tellSession l p = s.recalled ⟨l, p, k, u⟩ := by
  unfold State.tellSession
  split
  · exact askRecall_again ⟨l, p, k, u⟩ ..
  · rfl

/-! ## The end of the step -/

theorem holdingCount_pos (he : s.entry? l = some e) (hh : e.holdings[p] ≠ .none) : s.holdingCount p ≠ 0 := by
  unfold State.holdingCount
  exact Nat.ne_of_gt (List.countP_pos_iff.2 ⟨e, (entry?_some he).1, by simpa [-Fin.getElem_fin] using hh⟩)

/-- A Region Set is not complete while a port holds a line of its region in excess (R145). -/
theorem completeRegionSet_excess (he : s.entry? l = some e)
    (h : ∀ i : RegionId, s.completing = some i →
      s.regions[i].contains l = true ∧ (excessRecall s.regions[i].access[p] e.holdings[p]).isSome = true) :
    s.completeRegionSet = s := by
  unfold State.completeRegionSet
  cases hc : s.completing with
  | none => rfl
  | some i =>
    obtain ⟨hl, hx⟩ := h i hc
    have hd : s.regionSetDone i = false := by
      have : (s.table.all fun e => !s.regions[i].contains e.line ||
          ports.all fun p => (excessRecall s.regions[i].access[p] e.holdings[p]).isNone) = false := by
        refine List.all_eq_false.2 ⟨e, (entry?_some he).1, ?_⟩
        rw [(entry?_some he).2, hl, Bool.not_true, Bool.false_or, Bool.not_eq_true]
        exact List.all_eq_false.2 ⟨p, mem_ports p, by rw [Option.isNone_iff_eq_none]; exact Option.isSome_iff_ne_none.1 hx⟩
      rw [State.regionSetDone, this, Bool.false_and, Bool.false_and]
    simp only [hd, Bool.false_eq_true, if_false]

/-- The end of a step that leaves a port a holding for which its Goodbye and the completing Region Set have to wait. -/
theorem settle_holding {before : State} (hi : Idle s) (he : s.entry? l = some e) (hh : e.holdings[p] ≠ .none)
    (hr : ∀ i : RegionId, s.completing = some i →
      s.regions[i].contains l = true ∧ (excessRecall s.regions[i].access[p] e.holdings[p]).isSome = true)
    (hc : ∀ q : Port, q ≠ p → s.sessionState q ≠ .closing) : s.settle before = s := by
  refine settle_idle hi (completeRegionSet_excess he hr) fun q hq => ?_
  by_cases hqp : q = p
  · subst hqp; exact holdingCount_pos he hh
  · exact absurd hq (hc q hqp)

/-- Recalls asked for do not change what the end of a step looks at. -/
theorem settle_recalledInTurn {before : State} (ws : List WaitingRecall) (hi : Idle s) (he : s.entry? l = some e)
    (hh : e.holdings[p] ≠ .none)
    (hr : ∀ i : RegionId, s.completing = some i →
      s.regions[i].contains l = true ∧ (excessRecall s.regions[i].access[p] e.holdings[p]).isSome = true)
    (hc : ∀ q : Port, q ≠ p → s.sessionState q ≠ .closing) : (s.recalledInTurn ws).settle before = s.recalledInTurn ws := by
  obtain ⟨rs, n, wait, ls, hx⟩ := recalledInTurn_frame s ws
  rw [hx]
  exact settle_holding (s := { s with recalls := rs, recallCounter := n, recallWait := wait, links := ls })
    ⟨hi.alloc, hi.space, hi.port⟩ he hh hr hc

/-! ## Entries that nobody waits for -/

/-- The state in which an answer's recall is closed, before any block is told: the entry has changed, and no recall of the line
is outstanding. -/
theorem closeRecall_answered (h : Holding) (d : Option LineData) (hr : OnlyRecall s l p r) :
    (s.answered l p h d).closeRecall l p =
      ((((s.answered l p h d).unrecalled l p).tellLineTable l).tellRegionTable l p).tellSession l p ∧
    ((s.answered l p h d).unrecalled l p).lineRecalled l = false :=
  have ho : OnlyRecall (s.answered l p h d) l p r := hr.congr rfl rfl
  ⟨closeRecall_eq ho, onlyRecall_gone ho⟩

/-- The holding that an answer leaves is its entry's. -/
theorem answered_holding (h : Holding) (d : Option LineData) (he : s.entry? l = some e) :
    ((s.answered l p h d).unrecalled l p).holding l p = h := by
  rw [holding_of (s := (s.answered l p h d).unrecalled l p) (answered_entry? h d he)]
  simp

/-- In ONLINE, with no Region Set completing, the closing recall makes the entry IDLE, and that is all (R17, R70). -/
theorem closeRecall_settles {before : State} (h : Holding) (d : Option LineData) (hr : OnlyRecall s l p r) (hi : Idle s)
    (hs : ∀ q : Port, s.sessionState q ≠ .closing) (hc : s.completing = none) (he : s.entry? l = some e) (hw : e.waiters = [])
    (ha : e.activity = .recalling ∨ (e.activity = .evicting ∧ h = .none ∧ ∀ q : Port, q ≠ p → e.holdings[q] = .none)) :
    ((s.answered l p h d).closeRecall l p).settle before =
      ((s.answered l p h d).setActivity l .idle).unrecalled l p := by
  obtain ⟨hcl, hn⟩ := closeRecall_answered h d hr
  have hta := tellLineTable_settles hn (answered_entry? h d he) hw (ha.imp id fun ⟨ha, hh, ho⟩ => ⟨ha, fun q => by
    by_cases hq : q = p
    · subst hq; simpa using hh
    · simpa [Vector.getElem_set, Fin.val_ne_of_ne (Ne.symm hq)] using ho q hq⟩)
  rw [hcl, hta]
  set t := ((s.answered l p h d).unrecalled l p).setActivity l .idle
  have ht : Quiet t := ⟨hi.alloc, hi.space, hc, hs, hi.port⟩
  rw [tellRegionTable_idle (s := t) hc, tellSession_online (s := t) (hs p), settle_quiet ht]
  rfl

/-- The same, after the answer has left READ, with the entry's change written as one. -/
theorem answered_idle (h : Holding) (d : Option LineData) :
    (s.answered l p h d).setActivity l .idle = s.withTable (s.changed l fun x =>
      { x with holdings := x.holdings.set p h, copy := (d.map HubCopy.dirty).getD x.copy, activity := .idle }) :=
  updateEntry_updateEntry
    (fun x => { x with holdings := x.holdings.set p h, copy := (d.map HubCopy.dirty).getD x.copy }) _ fun _ => rfl

/-- The port loses a line that it holds, once the Region Set of the region is complete (R145). -/
def State.Loses (s : State) (l : Line) (p : Port) (i : RegionId) : Prop :=
  s.regions[i].contains l = true ∧ s.regions[i].access[p] = .none

/-- A reader that loses its line holds it in excess. -/
theorem State.Loses.excess (h : s.Loses l p i) (hh : e.holdings[p] = .read) :
    s.regions[i].contains l = true ∧ (excessRecall s.regions[i].access[p] e.holdings[p]).isSome = true :=
  ⟨h.1, by rw [h.2, hh]; rfl⟩

/-- From an EVICTING entry the READ that an answer has left is recalled again, with purpose EVICT (R17). -/
theorem closeRecall_evicts {before : State} (d : Option LineData) (hr : OnlyRecall s l p r) (hi : Idle s)
    (hs : ∀ q : Port, q ≠ p → s.sessionState q ≠ .closing) (hc : ∀ i : RegionId, s.completing = some i → s.Loses l p i)
    (he : s.entry? l = some e) (hw : e.waiters = []) (ha : e.activity = .evicting) (hp : e.copy ≠ .poisoned)
    (ho : ∀ q : Port, q ≠ p → e.holdings[q] = .none) :
    ((s.answered l p .read d).closeRecall l p).settle before =
      ((s.answered l p .read d).unrecalled l p).recalled ⟨l, p, .invalidate, .evict⟩ := by
  obtain ⟨hcl, hn⟩ := closeRecall_answered .read d hr
  have hen : ((s.answered l p .read d).unrecalled l p).entry? l = _ := answered_entry? (p := p) .read d he
  have hread : (e.holdings.set p .read)[p] = .read := by simp
  have hta := tellLineTable_evicts (p := p) hn hen hw ha (by cases d <;> simp [hp]) (by rw [hread]; decide) fun q hq => by
    simpa [Vector.getElem_set, Fin.val_ne_of_ne (Ne.symm hq)] using ho q hq
  rw [hcl, hta, tellRegionTable_again, tellSession_again]
  exact settle_recalledInTurn (p := p) [_] ⟨hi.alloc, hi.space, hi.port⟩ hen (by rw [hread]; decide)
    (fun i h => (hc i h).excess hread) hs

/-- A RECALLING entry that nobody waits for is IDLE when the region table and session control are told (R70). -/
theorem closeRecall_recallingRead (d : Option LineData) (hr : OnlyRecall s l p r) (he : s.entry? l = some e)
    (hw : e.waiters = []) (ha : e.activity = .recalling) :
    let t := ((s.answered l p .read d).setActivity l .idle).unrecalled l p
    (s.answered l p .read d).closeRecall l p = (t.tellRegionTable l p).tellSession l p ∧
      ∃ x, t.entry? l = some x ∧ x.holdings[p] = .read := by
  obtain ⟨hcl, hn⟩ := closeRecall_answered .read d hr
  have hen := answered_entry? (p := p) .read d he
  refine ⟨?_, _, setActivity_entry? .idle hen, by simp⟩
  rw [hcl, tellLineTable_settles hn hen hw (.inl ha)]
  rfl

/-- From a reader without a right the READ that an answer has left is recalled again, with purpose REGION (R145). -/
theorem closeRecall_region {before : State} (d : Option LineData) (hr : OnlyRecall s l p r) (hi : Idle s)
    (hs : ∀ q : Port, q ≠ p → s.sessionState q ≠ .closing) (hc : s.completing = some i) (hl : s.Loses l p i)
    (he : s.entry? l = some e) (hw : e.waiters = []) (ha : e.activity = .recalling) :
    ((s.answered l p .read d).closeRecall l p).settle before =
      (((s.answered l p .read d).setActivity l .idle).unrecalled l p).recalled ⟨l, p, .invalidate, .region⟩ := by
  obtain ⟨hcl, x, hx, hread⟩ := closeRecall_recallingRead d hr he hw ha
  rw [hcl, tellRegionTable_loses hx hread hc hl.1 hl.2, tellSession_again]
  exact settle_recalledInTurn (p := p) [_] ⟨hi.alloc, hi.space, hi.port⟩ hx (by rw [hread]; decide)
    (fun j h => by cases hc.symm.trans h; exact hl.excess hread) hs

/-- From a CLOSING port the READ that an answer has left is recalled again, with purpose CLOSE (R174). -/
theorem closeRecall_closing {before : State} (d : Option LineData) (hr : OnlyRecall s l p r) (hi : Idle s)
    (hs : ∀ q : Port, q ≠ p → s.sessionState q ≠ .closing) (hc : s.completing = none) (hp : s.sessionState p = .closing)
    (he : s.entry? l = some e) (hw : e.waiters = []) (ha : e.activity = .recalling) :
    ((s.answered l p .read d).closeRecall l p).settle before =
      (((s.answered l p .read d).setActivity l .idle).unrecalled l p).recalled ⟨l, p, .invalidate, .close⟩ := by
  obtain ⟨hcl, x, hx, hread⟩ := closeRecall_recallingRead d hr he hw ha
  rw [hcl, tellRegionTable_idle (by exact hc), tellSession_closing (by exact hp) (by rw [holding_of hx, hread]; decide)]
  exact settle_recalledInTurn (p := p) [_] ⟨hi.alloc, hi.space, hi.port⟩ hx (by rw [hread]; decide)
    (fun j h => by cases hc.symm.trans h) hs

/-- An answer to the only recall of its line, up to the closing of the recall (R66 to R70). -/
theorem exec_recallAnswer_only {o : AnswerOutcome} {h : Holding} {d : Option LineData} (ha : Arrives s p f.seq)
    (hs : s.sessionState p = .online ∨ s.sessionState p = .closing) (hr : OnlyRecall s l p r)
    (hc : s.classOf l ≠ some .writeThrough) (hp : parseRecallAnswer f.payload = some ⟨r.id, l, o⟩)
    (he : answerEffect r.asked.kind (s.holding l p) o = (h, d)) :
    exec (.recallAnswer p f) s =
      .next ((((s.accepted p).answered l p h d).closeRecall l p).settle (s.accepted p)) := by
  rw [exec_recallAnswer_open ha hs hp]
  exact congrArg _ (takeAnswer_only (s := s.accepted p) (hr.congr rfl rfl) hc he)

/-- In ONLINE, with no Region Set completing, an answer to the only recall of a line that nobody waits for has its effect on the
entry, which is IDLE. -/
theorem exec_recallAnswer_settles {o : AnswerOutcome} {h : Holding} {d : Option LineData} (har : Arrives s p f.seq)
    (hi : Idle s) (hon : s.sessionState p = .online) (hso : ∀ q : Port, q ≠ p → s.sessionState q ≠ .closing)
    (hco : s.completing = none) (he : s.entry? l = some e) (hw : e.waiters = []) (hr : OnlyRecall s l p r)
    (hc : s.classOf l ≠ some .writeThrough) (hp : parseRecallAnswer f.payload = some ⟨r.id, l, o⟩)
    (hx : answerEffect r.asked.kind e.holdings[p] o = (h, d))
    (ha : e.activity = .recalling ∨ (e.activity = .evicting ∧ h = .none ∧ ∀ q : Port, q ≠ p → e.holdings[q] = .none)) :
    exec (.recallAnswer p f) s = .next { (s.accepted p).withTable (s.changed l fun x =>
      { x with holdings := x.holdings.set p h, copy := (d.map HubCopy.dirty).getD x.copy, activity := .idle }) with
        recalls := s.recallsWithout l p } := by
  have hs : ∀ q : Port, s.sessionState q ≠ .closing := fun q => by
    by_cases hq : q = p
    · subst hq; rw [hon]; decide
    · exact hso q hq
  rw [← holding_of he p] at hx
  rw [exec_recallAnswer_only har (.inl hon) hr hc hp hx,
    closeRecall_settles (s := s.accepted p) h d (hr.congr rfl rfl) ⟨hi.alloc, hi.space, hi.port⟩ hs hco he hw ha, answered_idle]
  rfl

/-- Settles O24: the answer's effect by kind and outcome, then what the blocks that are told make of it. -/
theorem recallAnswered : Obligations.RecallAnswered := by
  intro p f s l e r har hi hs hso he hw hr hc left settled alone
  refine ⟨?_, ?_⟩
  · intro hon hco answered
    have settles (o : AnswerOutcome) (h : Holding) (d : Option LineData) := exec_recallAnswer_settles (o := o) (h := h) (d := d) har
      hi hon hso hco he hw hr hc
    have none_left (ha : e.activity = .recalling ∨ (e.activity = .evicting ∧ alone)) :
        e.activity = .recalling ∨ (e.activity = .evicting ∧ Holding.none = .none ∧ alone) := ha.imp id fun ⟨a, b⟩ => ⟨a, rfl, b⟩
    refine ⟨fun hk => ⟨fun ha => ⟨fun hp => ?_, fun d hp => ?_⟩, fun ha hp => ?_⟩,
      fun hk ha => ⟨fun hp => ?_, fun d hp => ⟨fun hwr => ?_, fun hnw => ?_⟩⟩⟩
    · exact settles .clean .read none (by rw [hp, parseRecallAnswer_clean]) (by rw [hk]; rfl) (.inl ha)
    · exact settles (.data d) .read (some d) (by rw [hp, parseRecallAnswer_data]) (by rw [hk]; rfl) (.inl ha)
    · exact settles .notHeld .none none (by rw [hp, parseRecallAnswer_notHeld]) (by rw [hk]; rfl) (none_left ha)
    · rcases hp with hp | hp
      · exact settles .clean .none none (by rw [hp, parseRecallAnswer_clean]) (by rw [hk]; rfl) (none_left ha)
      · exact settles .notHeld .none none (by rw [hp, parseRecallAnswer_notHeld]) (by rw [hk]; rfl) (none_left ha)
    · exact settles (.data d) .none (some d) (by rw [hp, parseRecallAnswer_data]) (by rw [hk, hwr]; rfl) (none_left ha)
    · exact settles (.data d) .none none (by rw [hp, parseRecallAnswer_data]) (by rw [hk]; exact if_neg hnw) (none_left ha)
  · intro c hk hf recalls loses
    have hir : Idle (s.accepted p) := ⟨hi.alloc, hi.space, hi.port⟩
    have hrr : OnlyRecall (s.accepted p) l p r := hr.congr rfl rfl
    obtain ⟨o, d, hp, hx, rfl⟩ : ∃ o d, parseRecallAnswer f.payload = some ⟨r.id, l, o⟩ ∧
        answerEffect r.asked.kind (s.holding l p) o = (.read, d) ∧ c = d.map HubCopy.dirty := by
      rcases hf with ⟨hf, rfl⟩ | ⟨d, hf, rfl⟩
      · exact ⟨.clean, none, by rw [hf, parseRecallAnswer_clean], by rw [hk]; rfl, rfl⟩
      · exact ⟨.data d, some d, by rw [hf, parseRecallAnswer_data], by rw [hk]; rfl, rfl⟩
    have hexec := exec_recallAnswer_only har hs hr hc hp hx
    refine ⟨fun ha ho hpo hcl => ?_, fun i ha hco hl => ?_, fun ha hco hcl => ?_⟩
    · show exec _ _ = _
      rw [hexec, closeRecall_evicts (s := s.accepted p) d hrr hir hso hcl he hw ha hpo ho]
      rfl
    · show exec _ _ = _
      rw [hexec, closeRecall_region (s := s.accepted p) d hrr hir hso hco hl he hw ha, answered_idle]
      rfl
    · show exec _ _ = _
      rw [hexec, closeRecall_closing (s := s.accepted p) d hrr hir hso hco hcl he hw ha, answered_idle]
      rfl

end Sys2Proof.Machine

/-! PROOFS. A line handed over to the request that waits for it (R9, R17, R46, R47, R70, R145, R174). -/

namespace Sys2Proof.Machine

variable {s t : State} {p q : Port} {l : Line} {e : Entry} {f : RxFrame} {r : Recall} {i : RegionId} {tag : Byte}

/-- The check of holdings and poison on a present line that is not POISONED (R36, R37). -/
theorem checkLine_unpoisoned {k : Kind} (h : s.entry? l = some e) (hp : e.copy ≠ .poisoned) :
    s.checkLine p k l = holdingCheck k e.holdings[p] (s.holdingCount p) (s.capacity p) := by
  have hb : e.poisoned = false := by simpa [Entry.poisoned] using hp
  simp [State.checkLine, State.checkHolding, State.checkPoison, State.holding, h, hb]

theorem regionOf_contains (h : s.regionOf l = some i) : s.regions[i].contains l = true := by
  have := List.find?_some h
  rw [Bool.and_eq_true] at this
  exact this.2

theorem answered_holdingCount (h : Holding) (d : Option LineData) (hq : q ≠ p) :
    (s.answered l p h d).holdingCount q = s.holdingCount q :=
  holdingCount_updateEntry (fun x => { x with holdings := x.holdings.set p h, copy := (d.map HubCopy.dirty).getD x.copy })
    fun x => by simp [Fin.val_ne_of_ne (Ne.symm hq)]

theorem holdings_set_other (v : Vector Holding 4) (h : Holding) (hq : q ≠ p) : (v.set p h)[q] = v[q] := by
  simp [Fin.val_ne_of_ne (Ne.symm hq)]

/-- The region table asks nothing of a port whose holding is within its right, whatever is completing (R145). -/
theorem tellRegionTable_within (he : s.entry? l = some e)
    (hc : ∀ i : RegionId, s.completing = some i → excessRecall s.regions[i].access[p] e.holdings[p] = none) :
    s.tellRegionTable l p = s := by
  unfold State.tellRegionTable
  split
  · rename_i i x hi hx
    cases he.symm.trans hx
    simp only [hc i hi, ite_self]
  · rfl

/-- Neither the region table nor session control asks anything of a port that is not CLOSING and within its right, once recalls of
another port have been asked for (R70). -/
theorem told_recalledInTurn (ws : List WaitingRecall) (he : s.entry? l = some e) (hs : s.sessionState p ≠ .closing)
    (hc : ∀ i : RegionId, s.completing = some i → excessRecall s.regions[i].access[p] e.holdings[p] = none) :
    ((s.recalledInTurn ws).tellRegionTable l p).tellSession l p = s.recalledInTurn ws := by
  obtain ⟨rs, n, wait, ls, hx⟩ := recalledInTurn_frame s ws
  rw [hx]
  set t : State := { s with recalls := rs, recallCounter := n, recallWait := wait, links := ls }
  rw [tellRegionTable_within (s := t) he hc, tellSession_online (s := t) hs]

/-- The end of a step in which one port has answered a recall and another been granted the line: nothing more is asked, and what
completes is held up by the grant (R70, R145, R174). -/
theorem told_settle (found : State) (ws : List WaitingRecall) (hi : Idle s) (hpq : p ≠ q) (he : s.entry? l = some e)
    (hso : ∀ x : Port, x ≠ q → s.sessionState x ≠ .closing) (hh : e.holdings[q] ≠ .none)
    (hex : ∀ i : RegionId, s.completing = some i → s.regions[i].contains l = true ∧
      s.regions[i].access[q].rank < e.holdings[q].needs.rank ∧ excessRecall s.regions[i].access[p] e.holdings[p] = none) :
    (((s.recalledInTurn ws).tellRegionTable l p).tellSession l p).settle found = s.recalledInTurn ws := by
  rw [told_recalledInTurn ws he (hso p hpq) fun i hc => (hex i hc).2.2]
  refine settle_recalledInTurn (p := q) ws hi he hh (fun i hc => ?_) hso
  obtain ⟨hl, hlt, -⟩ := hex i hc
  exact ⟨hl, by rw [excessRecall_eq, if_pos hlt]; rfl⟩

/-- The entry of a line once it is handed over. -/
def Entry.handed (e : Entry) (p q : Port) (before after : Holding) (c : HubCopy) : Entry :=
  { e with holdings := (e.holdings.set p before).set q after, copy := c, activity := .idle, waiters := [], prefetched := false }

/-- The request that waits alone is served when the recall closes (R9, R17, R70). -/
theorem tellLineTable_hands {req : Req} {before after : Holding} {d : Option LineData} {data : List Byte}
    (hpq : p ≠ q) (he : s.entry? l = some e) (ha : e.activity = .recalling ∨ e.activity = .evicting)
    (hw : e.waiters = [⟨q, tag⟩]) (hn : ((s.answered l p before d).unrecalled l p).lineRecalled l = false)
    (hrq : s.request? ⟨q, tag⟩ = some { id := ⟨q, tag⟩, req := req })
    (hpo : (d.map HubCopy.dirty).getD e.copy ≠ .poisoned)
    (hcheck : holdingCheck req.kind e.holdings[q] (s.holdingCount q) (s.capacity q) = none)
    (hneeds : recallsNeeded { e with holdings := e.holdings.set p before } q req.kind = [])
    (hserve : ∀ (u : State) (x : Entry), x.copy = (d.map HubCopy.dirty).getD e.copy →
      u.serveReq l x ⟨⟨q, tag⟩, req⟩ = (((u.setHolding l q after).serveDone l ⟨q, tag⟩ data).watchGrant l q, true)) :
    ((s.answered l p before d).unrecalled l p).tellLineTable l =
      (((s.withTable (e.handed p q before after ((d.map HubCopy.dirty).getD e.copy) :: s.others l)).unrecalled l p).answer
        ⟨q, tag⟩ .done data).recalledInTurn (s.afterGrant l q e.region after) := by
  have hen := answered_entry? (p := p) before d he
  rw [tellLineTable_serves hn hen (ha.imp id fun h => ⟨h, by rw [hw]; exact List.cons_ne_nil _ _⟩)]
  set b : State := ((s.answered l p before d).unrecalled l p).setActivity l .idle
  have hb : b.entry? l = _ := setActivity_entry? .idle hen
  have hoth : b.others l = s.others l :=
    (updateEntry_others (fun x => { x with activity := .idle }) fun _ => rfl).trans
      (updateEntry_others (fun x => { x with holdings := x.holdings.set p before,
                                             copy := (d.map HubCopy.dirty).getD x.copy }) fun _ => rfl)
  have hcount : b.holdingCount q = s.holdingCount q :=
    (holdingCount_updateEntry (fun x => { x with activity := .idle }) fun _ => rfl).trans
      (answered_holdingCount before d hpq.symm)
  have hchk : b.checkLine q req.kind l = none := by
    rw [checkLine_unpoisoned hb hpo, hcount]
    dsimp only
    rw [holdings_set_other _ _ hpq.symm]
    exact hcheck
  rw [service_grants hb rfl hw hrq hchk hneeds (hserve b _ rfl), hoth]
  rfl

/-- The line is handed over: the answer's target is left `before`, the waiting request is granted `after` and answered, and what
must follow the grant is asked behind the reply. -/
theorem closeRecall_hands {req : Req} {before after : Holding} {d : Option LineData} {data : List Byte} {found : State}
    (hi : Idle s) (hpq : p ≠ q) (hso : ∀ x : Port, x ≠ q → s.sessionState x ≠ .closing)
    (hreg : s.regionOf l = some e.region) (he : s.entry? l = some e)
    (ha : e.activity = .recalling ∨ e.activity = .evicting) (hw : e.waiters = [⟨q, tag⟩]) (hr : OnlyRecall s l p r)
    (hrq : s.request? ⟨q, tag⟩ = some { id := ⟨q, tag⟩, req := req })
    (hex : ∀ i : RegionId, s.completing = some i → i = e.region ∧ s.regions[e.region].access[q].rank < after.needs.rank)
    (hkeep : s.completing = none ∨ excessRecall s.regions[e.region].access[p] before = none) (hafter : after ≠ .none)
    (hpo : (d.map HubCopy.dirty).getD e.copy ≠ .poisoned)
    (hcheck : holdingCheck req.kind e.holdings[q] (s.holdingCount q) (s.capacity q) = none)
    (hneeds : recallsNeeded { e with holdings := e.holdings.set p before } q req.kind = [])
    (hserve : ∀ (u : State) (x : Entry), x.copy = (d.map HubCopy.dirty).getD e.copy →
      u.serveReq l x ⟨⟨q, tag⟩, req⟩ = (((u.setHolding l q after).serveDone l ⟨q, tag⟩ data).watchGrant l q, true)) :
    ((s.answered l p before d).closeRecall l p).settle found =
      (((s.withTable (e.handed p q before after ((d.map HubCopy.dirty).getD e.copy) :: s.others l)).unrecalled l p).answer
        ⟨q, tag⟩ .done data).recalledInTurn (s.afterGrant l q e.region after) := by
  obtain ⟨hcl, hn⟩ := closeRecall_answered before d hr
  rw [hcl, tellLineTable_hands hpq he ha hw hn hrq hpo hcheck hneeds hserve]
  have hq : (e.handed p q before after ((d.map HubCopy.dirty).getD e.copy)).holdings[q] = after := by simp [Entry.handed]
  have hp : (e.handed p q before after ((d.map HubCopy.dirty).getD e.copy)).holdings[p] = before := by
    simp [Entry.handed, Fin.val_ne_of_ne hpq.symm]
  have hl : (e.handed p q before after ((d.map HubCopy.dirty).getD e.copy)).line = l := (entry?_some he).2
  generalize e.handed p q before after ((d.map HubCopy.dirty).getD e.copy) = x at hq hp hl ⊢
  have hx : (((s.withTable (x :: s.others l)).unrecalled l p).answer ⟨q, tag⟩ .done data).entry? l = some x :=
    entry?_head (s := s) hl
  refine told_settle found _ ⟨hi.alloc, hi.space, hi.port⟩ hpq hx hso (by rw [hq]; exact hafter) fun i hc => ?_
  obtain ⟨rfl, hlt⟩ := hex i hc
  rw [hq, hp]
  exact ⟨regionOf_contains hreg, hlt, hkeep.resolve_left fun h => by cases hc.symm.trans h⟩

/-- No right at all is the one that leaves a reader no holding (R140). -/
theorem excessRecall_readNone {a : Access} (h : a ≠ .none) : excessRecall a .read = none := by
  cases a
  · exact absurd rfl h
  · rfl
  · rfl

theorem excessRecall_none (a : Access) : excessRecall a .none = none := by cases a <;> rfl

theorem set_none_others {v : Vector Holding 4} {x : Port} (h : x ≠ p → v[x] = .none) : (v.set p .none)[x] = .none := by
  by_cases hx : x = p
  · subst hx; simp
  · rw [holdings_set_other _ _ hx]; exact h hx

/-- Settles O27: the three requests that wait, each for the answer that lets it be granted. -/
theorem recallAnswerHandsLineOver : Obligations.RecallAnswerHandsLineOver := by
  intro p q f tag s l e r har hi hpq hon hso hreg hcls he ha hw hr hpo right handed
  have hwt : s.classOf l ≠ some .writeThrough := by rw [State.classOf, hreg, Option.map_some, hcls]; decide
  have hir : Idle (s.accepted p) := ⟨hi.alloc, hi.space, hi.port⟩
  have hrr : OnlyRecall (s.accepted p) l p r := hr.congr rfl rfl
  have hx {o : AnswerOutcome} {h : Holding} {d : Option LineData} := exec_recallAnswer_only (o := o) (h := h) (d := d) har
    (.inl hon) hr hwt
  refine ⟨fun d hwr hoth hcount hp => ⟨fun hk => ?_, fun hk hkeep => ?_⟩, fun hrp hrq hoth hk hqc hp => ?_⟩
  · intro hreq hex
    have heff : answerEffect r.asked.kind (s.holding l p) (.data d) = (.none, some d) := by
      rw [hk, holding_of he, hwr]; rfl
    rw [hx (by rw [hp, parseRecallAnswer_data]) heff]
    refine congrArg _ (closeRecall_hands (s := s.accepted p) hir hpq hso hreg he ha hw hrr hreq hex (.inr (excessRecall_none _))
      (by decide) (by simp) ?_ ?_ fun u x hx => ?_)
    · exact holdingCheck_acquire (.inr rfl) (hoth q hpq.symm) hcount
    · exact recallsNeeded_writers (.inr (.inl rfl)) fun x _ => set_none_others (hoth x)
    · show (((u.setHolding l q .write).serveDone l ⟨q, tag⟩ (lineBytes x.copy.data)).watchGrant l q, true) = _
      rw [hx]; rfl
  · intro hreq hex
    have heff : answerEffect r.asked.kind (s.holding l p) (.data d) = (.read, some d) := by rw [hk]; rfl
    rw [hx (by rw [hp, parseRecallAnswer_data]) heff]
    refine congrArg _ (closeRecall_hands (s := s.accepted p) hir hpq hso hreg he ha hw hrr hreq hex
      (hkeep.imp id excessRecall_readNone) (by decide) (by simp) ?_ ?_ fun u x hx => ?_)
    · exact holdingCheck_acquire (.inl rfl) (hoth q hpq.symm) hcount
    · refine recallsNeeded_readers (.inr (.inl rfl)) fun x => ?_
      by_cases hxp : x = p
      · subst hxp; simp
      · rw [holdings_set_other _ _ hxp, hoth x hxp]; decide
    · show (((u.setHolding l q .read).serveDone l ⟨q, tag⟩ (lineBytes x.copy.data)).watchGrant l q, true) = _
      rw [hx]; rfl
  · intro hreq hex
    have heff : answerEffect r.asked.kind (s.holding l p) .clean = (.none, none) := by rw [hk]; rfl
    rw [hx (by rw [hp, parseRecallAnswer_clean]) heff]
    refine congrArg _ (closeRecall_hands (s := s.accepted p) hir hpq hso hreg he ha hw hrr hreq hex (.inr (excessRecall_none _))
      (by decide) hpo ?_ ?_ fun u x hx => rfl)
    · exact holdingCheck_upgrade hrq ..
    · exact recallsNeeded_writers (.inr (.inr rfl)) fun x hx => set_none_others fun hxp => hoth x hxp hx

end Sys2Proof.Machine

/-! PROOFS. The ends of jobs: what a completed or failed access hands to the owner (R24, R25, R91 to R93, R106). -/

namespace Sys2Proof.Machine

variable {s t : State} {j : Job} {e : Entry} {r : FaultRecord} {c : StoreCause} {before after : List FaultRecord}

/-! ## An idle port without work -/

/-- A journal whose entries are all FAULTED has none to give (R90). -/
theorem drainRequested_faulted (h : AllIn s.journal .faulted) : s.drainRequested = false := by
  have hr : s.journal.find? s.retryWaiting = none :=
    List.find?_eq_none.2 fun k hk => by simp [State.retryWaiting, h k hk]
  have he : s.journal.find? s.eligible = none :=
    List.find?_eq_none.2 fun k hk => by simp [State.eligible, h k hk]
  simp [State.drainRequested, State.drainChoice, hr, he]

/-- A quiet hub stays quiet when its job ends and neither a FILL, a DRAIN nor a DIRECT job waits. -/
theorem Quiet.jobless (h : Quiet s) (hn : NoJobs s) (ha : t.allocQueue = s.allocQueue) (hj : t.jspace = s.jspace)
    (hc : t.completing = s.completing) (hs : t.sessions = s.sessions) (hf : t.fillQueue = s.fillQueue)
    (hd : t.directQueue = s.directQueue) (hw : AllIn t.journal .faulted) : Quiet t where
  alloc := ha.trans h.alloc
  space := hj.trans h.space
  region := hc.trans h.region
  sessions p := by have := h.sessions p; unfold State.sessionState at *; rwa [hs]
  port := .inr ⟨hf.trans hn.fills, hd.trans hn.directs, drainRequested_faulted hw⟩

/-! ## The records of jobs -/

/-- The record with an id leaves the fault queue (R135). -/
theorem retireRecord_queued (h : Queued s before r after) : s.retireRecord r.id = { s with faultQueue := before ++ after } := by
  have hf : s.faultQueue.filter (fun x => x.id != r.id) = before ++ after := by
    rw [h.queue, List.filter_append, List.filter_cons, if_neg (by simp), ← List.filter_append]
    exact List.filter_eq_self.2 fun x hx => by simpa using h.others x hx
  rw [State.retireRecord, hf]

/-- The only DRAIN_FAULT record of a journal entry (R118). -/
theorem drainRecord?_only {q : Seq} {l : Line} {n : Nat} {o : Origin} {d : LineData} (h : Queued s before r after)
    (hb : r.body = .drainFault l c n q o d) (ho : ∀ x ∈ before ++ after, ∀ l c n o d, x.body ≠ .drainFault l c n q o d) :
    s.drainRecord? q = some r := by
  refine List.find?_eq_some_iff_append.2 ⟨by simp [hb], before, after, h.queue, fun x hx => ?_⟩
  have hx' := ho x (List.mem_append_left _ hx)
  cases hxb : x.body with
  | drainFault l c n q' o d =>
    have : q' ≠ q := fun hq => hx' l c n o d (by rw [hxb, hq])
    simpa using this
  | fillFault => rfl
  | holderLost => rfl

/-! ## Journal entries (R81) -/

section Entry
variable {older younger : List JournalEntry} {k : JournalEntry}

theorem journalEntry?_only (h : s.journal = older ++ k :: younger) (ho : ∀ x ∈ older ++ younger, x.seq ≠ k.seq) :
    s.journalEntry? k.seq = some k := by
  have hn : (older.find? fun x => x.seq == k.seq) = none :=
    List.find?_eq_none.2 fun x hx => by simpa using ho x (List.mem_append_left _ hx)
  rw [State.journalEntry?, h, List.find?_append, hn]
  simp

theorem journal_without (h : s.journal = older ++ k :: younger) (ho : ∀ x ∈ older ++ younger, x.seq ≠ k.seq) :
    s.journal.filter (fun x => x.seq != k.seq) = older ++ younger := by
  rw [h, List.filter_append, List.filter_cons, if_neg (by simp), ← List.filter_append]
  exact List.filter_eq_self.2 fun x hx => by simpa using ho x hx

theorem journal_changed (h : s.journal = older ++ k :: younger) (ho : ∀ x ∈ older ++ younger, x.seq ≠ k.seq)
    (g : JournalEntry → JournalEntry) :
    (s.journal.map fun x => if x.seq == k.seq then g x else x) = older ++ g k :: younger := by
  have hs : ∀ xs : List JournalEntry, (∀ x ∈ xs, x.seq ≠ k.seq) →
      (xs.map fun x => if x.seq == k.seq then g x else x) = xs := fun xs hx => by
    conv_rhs => rw [← List.map_id xs]
    exact List.map_congr_left fun x hm => by simp [hx x hm]
  rw [h, List.map_append, List.map_cons, hs older fun x hx => ho x (List.mem_append_left _ hx),
    hs younger fun x hx => ho x (List.mem_append_right _ hx)]
  simp

end Entry

/-! ## Jobs that complete (R104, R106) -/

/-- MRDY answers the last access: the port is idle, the outcome goes to the owner, and the step ends. -/
theorem onComplete_last {kind : JobOwner → Bool} {md : HalfWord} (h : LastAccess s j) (hk : kind j.owner = true)
    (hm : j.writing = true ∨ j.modifies = false) :
    s.onComplete kind md = (s.jobDone.completeJob (j.take md)).settle s := by
  have hs : s.strobing = true := by simp [State.strobing, h.resetN, h.job, h.strobed]
  have hl : j.lastAccess = true := by
    rcases hm with hm | hm <;> simp [Job.lastAccess, Job.lastHalfWord, h.index, Config.halfWordsPerLine, hm]
  unfold State.onComplete
  simp only [hs, h.job, hk, hl, Bool.and_self, if_true]
  rfl

@[simp] theorem take_owner (md : HalfWord) : (j.take md).owner = j.owner := by unfold Job.take; split <;> rfl

@[simp] theorem take_line (md : HalfWord) : (j.take md).line = j.line := by unfold Job.take; split <;> rfl

theorem take_buffer {md : HalfWord} (h : LastAccess s j) (hw : j.writing = false) :
    (j.take md).buffer = setHalfWord j.buffer 15 md := by
  simp [Job.take, hw, h.index]

/-- The entry of a line once its FILL is done (R24). -/
def Entry.filled (d : LineData) (x : Entry) : Entry := { x with copy := .clean d, activity := .idle, recordId := none }

theorem fillDone_first {l : Line} (he : s.entry? l = some e) (hr : e.recordId = none) (d : LineData) :
    s.fillDone l d = (s.withTable (s.changed l (Entry.filled d))).service l := by
  simp only [State.fillDone, he, hr]
  rfl

theorem fillDone_retried {l : Line} {id : Byte} (he : s.entry? l = some e) (hr : e.recordId = some id) (d : LineData) :
    s.fillDone l d = ((s.withTable (s.changed l (Entry.filled d))).retireRecord id).service l := by
  simp only [State.fillDone, he, hr]
  rfl

theorem filled_entry? {l : Line} (he : s.entry? l = some e) (d : LineData) :
    (s.withTable (s.changed l (Entry.filled d))).entry? l = some (e.filled d) :=
  updateEntry_entry? (Entry.filled d) (fun _ => rfl) he

/-- A DRAIN done: its entry leaves the journal, which answers what waited for it last; of a RETRY the record leaves too (R91,
R97, R135). -/
theorem drainDone_first {older younger : List JournalEntry} {k : JournalEntry} (h : s.journal = older ++ k :: younger)
    (ho : ∀ x ∈ older ++ younger, x.seq ≠ k.seq) (hk : k.origin ≠ .retry) :
    s.drainDone k.seq = s.removeJournal k.seq false := by
  have hr : s.retriedRecord? k.seq = none := by simp [State.retriedRecord?, journalEntry?_only h ho, hk]
  rw [State.drainDone, hr]

theorem drainDone_retried {older younger : List JournalEntry} {k : JournalEntry} (h : s.journal = older ++ k :: younger)
    (ho : ∀ x ∈ older ++ younger, x.seq ≠ k.seq) (hk : k.origin = .retry) (hr : s.drainRecord? k.seq = some r) :
    s.drainDone k.seq = (s.removeJournal k.seq false).retireRecord r.id := by
  have hr' : s.retriedRecord? k.seq = some r := by simp [State.retriedRecord?, journalEntry?_only h ho, hk, hr]
  rw [State.drainDone, hr']

/-- The state once the entry has left the journal (R91, R97, R98). -/
theorem removeJournal_only {older younger : List JournalEntry} {k : JournalEntry} (h : s.journal = older ++ k :: younger)
    (ho : ∀ x ∈ older ++ younger, x.seq ≠ k.seq) (ab : Bool) :
    s.removeJournal k.seq ab = State.syncsAnswered
      { s with journal := older ++ younger, highAlarm := s.highAlarm || decide ((older ++ younger).length = 16) }
      (s.syncList.map fun i => i.without k.seq ab) := by
  rw [removeJournal_eq, journal_without h ho]
  rfl

/-! ## What each kind of job completes with -/

theorem jobDone_jobless (hq : Quiet s) (hn : NoJobs s) (hj : AllIn s.journal .faulted) : Quiet s.jobDone :=
  hq.jobless hn rfl rfl rfl rfl rfl rfl hj

theorem completeJob_fill (h : j.owner = .fill) : s.completeJob j = s.fillDone j.line j.buffer := by
  simp only [State.completeJob, h]

theorem completeJob_drain {q : Seq} (h : j.owner = .drain q) : s.completeJob j = s.drainDone q := by
  simp only [State.completeJob, h]

theorem completeJob_direct {op : DirectOp} {id : ReqId} {orphan : Bool} (h : j.owner = .direct op id orphan) :
    s.completeJob j = s.directDone op id orphan j.buffer := by
  simp only [State.completeJob, h]

/-- A FILL hands its entry the line that was read (R24). -/
theorem exec_fillComplete {md : HalfWord} (h : LastAccess s j) (ho : j.owner = .fill) (hw : j.writing = false) :
    exec (.fillComplete md) s = .next ((s.jobDone.fillDone j.line (setHalfWord j.buffer 15 md)).settle s) := by
  show Host.Outcome.next (s.onComplete JobOwner.isFill md) = _
  rw [onComplete_last h (by rw [ho]; rfl) (.inr (by simp [Job.modifies, ho])),
    completeJob_fill ((take_owner md).trans ho), take_line, take_buffer h hw]

theorem exec_drainComplete {q : Seq} (h : LastAccess s j) (ho : j.owner = .drain q) (hw : j.writing = true) :
    exec .drainComplete s = .next ((s.jobDone.drainDone q).settle s) := by
  show Host.Outcome.next (s.onComplete JobOwner.isDrain 0) = _
  rw [onComplete_last h (by rw [ho]; rfl) (.inl hw), completeJob_drain ((take_owner 0).trans ho)]

theorem exec_directJobComplete {op : DirectOp} {id : ReqId} {orphan : Bool} {md : HalfWord} (h : LastAccess s j)
    (ho : j.owner = .direct op id orphan) (hm : op = .readModifyWrite → j.writing = true) :
    exec (.directJobComplete md) s = .next ((s.jobDone.directDone op id orphan (j.take md).buffer).settle s) := by
  have hlast : j.writing = true ∨ j.modifies = false := by
    unfold Job.modifies
    rw [ho]
    cases op <;> simp_all
  show Host.Outcome.next (s.onComplete JobOwner.isDirect md) = _
  rw [onComplete_last h (by rw [ho]; rfl) hlast, completeJob_direct ((take_owner md).trans ho)]

/-- A FILL for an entry that nobody waits for (R24), and the record of a RETRY with it (R135). -/
theorem fillDone_idle {l : Line} (he : s.entry? l = some e) (hr : e.recordId = none) (hw : e.waiters = []) (d : LineData) :
    s.fillDone l d = s.withTable (s.changed l (Entry.filled d)) := by
  rw [fillDone_first he hr, service_noWaiters (filled_entry? he d) hw]

theorem fillDone_retires {l : Line} (he : s.entry? l = some e) (hr : e.recordId = some r.id) (hw : e.waiters = [])
    (hb : Queued s before r after) (d : LineData) :
    s.fillDone l d = { s.withTable (s.changed l (Entry.filled d)) with faultQueue := before ++ after } := by
  rw [fillDone_retried he hr, retireRecord_queued (s := s.withTable (s.changed l (Entry.filled d))) ⟨hb.queue, hb.others⟩]
  exact service_noWaiters (filled_entry? he d) hw

/-- A Read Words that waits alone is answered with the words of the line (R9, R42). -/
theorem service_reads {l : Line} {id : ReqId} {first count : Nat} {d : LineData} (he : s.entry? l = some e)
    (hi : e.activity = .idle) (hw : e.waiters = [id]) (hq : s.request? id = some { id := id, req := .readWords l first count })
    (hd : e.copy.data? = some d) (hh : ∀ q : Port, e.holdings[q] ≠ .write) :
    s.service l = (s.withTable ({ e with waiters := [], prefetched := false } :: s.others l)).answer id .done
      (wordBytes d first count) := by
  have hc : s.checkLine id.port .readWords l = none := by
    rw [checkLine_present he hd]
    exact if_neg (hh id.port)
  have hserve : s.serveReq l e { id := id, req := .readWords l first count } =
      (s.serveDone l id (wordBytes d first count), true) := by
    rw [← HubCopy.data_of hd]; rfl
  rw [service_alone he hi hw hq hc (recallsNeeded_readers (.inl rfl) hh), hserve, serveDone_eq id _ he, hw]
  rfl

/-- A FILL for a Read Words that waits alone, which is answered with its words (R9, R24, R42). -/
theorem fillDone_reads {l : Line} {id : ReqId} {first count : Nat} (he : s.entry? l = some e) (hr : e.recordId = none)
    (hw : e.waiters = [id]) (hh : ∀ q : Port, e.holdings[q] = .none)
    (hq : s.request? id = some { id := id, req := .readWords l first count }) (d : LineData) :
    s.fillDone l d = (s.withTable ({ e.filled d with waiters := [], prefetched := false } :: s.others l)).answer id .done
      (wordBytes d first count) := by
  have hoth : (s.withTable (s.changed l (Entry.filled d))).others l = s.others l := updateEntry_others _ fun _ => rfl
  have hwrite : ∀ q : Port, (e.filled d).holdings[q] ≠ .write := fun q => by
    rw [show (e.filled d).holdings[q] = .none from hh q]; decide
  rw [fillDone_first he hr, service_reads (filled_entry? he d) rfl hw hq rfl hwrite, hoth]
  rfl

/-- What a hub is quiet by does not depend on the sync list and its answers. -/
theorem Quiet.syncsAnswered (h : Quiet s) (items : List SyncItem) : Quiet (s.syncsAnswered items) := by
  rw [syncsAnswered_eq]
  exact h.congr rfl rfl rfl rfl rfl rfl rfl rfl rfl

/-- A DIRECT job answers its request DONE, with the data of its kind (R56, R57, R106, R111). -/
theorem exec_directJobComplete_answers {op : DirectOp} {id : ReqId} {q : Req} {md : HalfWord} {data : List Byte} (hq : Quiet s)
    (hn : NoJobs s) (h : LastAccess s j) (ho : j.owner = .direct op id false) (hj : AllIn s.journal .faulted)
    (hr : s.request? id = some { id := id, req := q }) (hm : op = .readModifyWrite → j.writing = true)
    (hd : directData op q (j.take md).buffer = data) :
    exec (.directJobComplete md) s = .next (s.jobDone.answer id .done data) := by
  have hr' : s.jobDone.request? id = some { id := id, req := q } := hr
  have hdone : s.jobDone.directDone op id false (j.take md).buffer = s.jobDone.answer id .done data := by
    simp [State.directDone, hr', hd]
  rw [exec_directJobComplete h ho hm, hdone]
  exact congrArg _ (settle_quiet ((jobDone_jobless hq hn hj).congr rfl rfl rfl rfl rfl rfl rfl rfl rfl))

/-- Settles O57: the outcome of each kind of job, after which nothing is left for the step to do. -/
theorem jobsComplete : Obligations.JobsComplete := by
  intro s j md hq hn hl read
  refine ⟨?_, ?_, ?_, ?_⟩
  · intro e ho hw hj he filled
    have hqd := jobDone_jobless hq hn hj
    have hx := exec_fillComplete (md := md) hl ho hw
    refine ⟨fun hwt => ⟨fun hr => ?_, fun before r after hr hb => ?_⟩, fun id first count hr hwt hh hrq => ?_⟩
    · rw [hx, fillDone_idle (s := s.jobDone) he hr hwt]
      exact congrArg _ (settle_quiet (hqd.updateEntry _))
    · rw [hx, fillDone_retires (s := s.jobDone) he hr hwt ⟨hb.queue, hb.others⟩]
      exact congrArg _ (settle_quiet (hqd.congr rfl rfl rfl rfl rfl rfl rfl rfl rfl))
    · have hnone : ∀ q : Port, e.holdings[q] = .none := fun q => by simp [hh]
      rw [hx, fillDone_reads (s := s.jobDone) he hr hwt hnone hrq]
      exact congrArg _ (settle_quiet (hqd.congr rfl rfl rfl rfl rfl rfl rfl rfl rfl))
  · intro older younger k ho hw hjs hk drained answered
    have hseq : ∀ x ∈ older ++ younger, x.seq ≠ k.seq := fun x hx => (hk x hx).1
    have hx := exec_drainComplete hl ho hw
    have hrem : s.jobDone.removeJournal k.seq false = answered := removeJournal_only (s := s.jobDone) hjs hseq false
    have hqd : Quiet drained := hq.jobless hn rfl rfl rfl rfl rfl rfl fun x hx => (hk x hx).2
    have hqa : Quiet answered := hqd.syncsAnswered _
    refine ⟨fun hko => ?_, fun before r after l c n o d hko hb hbody hoth => ?_⟩
    · rw [hx, drainDone_first (s := s.jobDone) hjs hseq hko, hrem, settle_quiet hqa]
    · have hdr : s.jobDone.drainRecord? k.seq = some r := drainRecord?_only (s := s.jobDone) ⟨hb.queue, hb.others⟩ hbody hoth
      rw [hx, drainDone_retried (s := s.jobDone) hjs hseq hko hdr, hrem, retireRecord_queued (s := answered)
        ⟨by simp [answered, drained]; exact hb.queue, hb.others⟩]
      exact congrArg _ (settle_quiet (hqa.congr rfl rfl rfl rfl rfl rfl rfl rfl rfl))
  · intro op id q ho hj hrq answers
    have done {data : List Byte} := exec_directJobComplete_answers (md := md) (data := data) hq hn hl ho hj hrq
    refine ⟨fun l first count hop hw hq' => ?_, fun hop hw => ?_, fun hop hw => ?_, fun hop hw => ?_⟩
    · subst hop hq'
      exact done nofun (congrArg (wordBytes · first count) (take_buffer hl hw))
    · rcases hop with rfl | rfl <;> exact done (fun _ => hw) rfl
    · subst hop
      exact done nofun (congrArg lineBytes (take_buffer hl hw))
    · subst hop
      exact done nofun rfl
  · intro op id ho hm hj
    rw [exec_directJobComplete hl ho hm]
    exact congrArg _ (settle_quiet (jobDone_jobless hq hn hj))

end Sys2Proof.Machine

/-! PROOFS. Jobs that fail: fault records, the stop record and STORE_FAULT (R25, R58, R92, R93, R118 to R122). -/

namespace Sys2Proof.Machine

variable {s t : State} {j : Job} {e : Entry} {r : FaultRecord} {c : StoreCause} {before after : List FaultRecord} {i : Instr}

/-! ## The access that ends the job (R101, R106) -/

/-- The failure of the access in progress: the port is idle, the outcome goes to the owner, and the step ends. -/
theorem onFailure_canFail {kind : JobOwner → Bool} (h : CanFail s j c) (hk : kind j.owner = true) :
    s.onFailure kind c = ((s.jobFailed c).failJob j c).settle s := by
  cases c with
  | storeError =>
    have hs : s.strobing = true := by simp [State.strobing, h.resetN, h.job, h.strobed rfl]
    simp only [State.onFailure, State.onError, hs, h.job, hk, if_true]
    rfl
  | storeTimeout =>
    simp only [State.onFailure, State.onTimeout, h.resetN, h.job, hk, if_true]
    rfl

/-- The commands under which the job can fail: the one of its owner, and the store timeout. -/
theorem exec_fails {named : Instr} {kind : JobOwner → Bool} (h : CanFail s j c)
    (hn : exec named s = .next (s.onFailure kind c)) (hk : kind j.owner = true)
    (hi : i = named ∨ (i = .storeTimeout ∧ c = .storeTimeout)) :
    exec i s = .next (((s.jobFailed c).failJob j c).settle s) := by
  rcases hi with rfl | ⟨rfl, rfl⟩
  · rw [hn, onFailure_canFail h hk]
  · show Host.Outcome.next (s.onFailure (fun _ => true) .storeTimeout) = _
    rw [onFailure_canFail h rfl]

theorem failJob_fill (h : j.owner = .fill) : s.failJob j c = s.fillLost j.line c := by simp only [State.failJob, h]

theorem failJob_drain {q : Seq} (h : j.owner = .drain q) : s.failJob j c = s.drainLost q c := by simp only [State.failJob, h]

theorem failJob_direct {op : DirectOp} {id : ReqId} {orphan : Bool} (h : j.owner = .direct op id orphan) :
    s.failJob j c = s.directLost id orphan := by
  simp only [State.failJob, h]

/-! ## New records (R115, R118, R119, R122) -/

/-- The id of the next record is the counter's, where no record has it (R115). -/
theorem newRecordId_counter (h0 : s.recordCounter ≠ 0) (hf : ∀ r ∈ s.faultQueue, r.id ≠ s.recordCounter)
    (hs : s.stopRecord = none) : s.newRecordId = s.recordCounter := by
  have : s.recordCounter ∉ (0 : Byte) :: s.recordIds := by
    simp only [State.recordIds, hs, List.mem_cons, List.mem_append, List.mem_map, not_or, not_exists, not_and]
    exact ⟨h0, hf, by simp⟩
  rw [State.newRecordId, firstFree, if_neg this]

/-- A record with a place in the fault queue joins it, and is posted (R118, R119). -/
theorem createRecord_recorded (h : RecordRoom s) (body : RecordBody) : s.createRecord body = s.recorded body := by
  unfold State.createRecord
  rw [newRecordId_counter h.counter h.fresh h.running]
  dsimp only
  rw [if_pos h.room]
  rfl

theorem stopRecord_none (h : FaultUnitOk s) (hm : s.mode = .running) : s.stopRecord = none := by
  have := h.slot
  rw [hm] at this
  simpa using this

/-- A record that finds the fault queue full is the stop record (R118, R122). -/
theorem createRecord_hubStops (hu : FaultUnitOk s) (hm : s.mode = .running) (hl : s.faultQueue.length = 6)
    (h0 : s.recordCounter ≠ 0) (hf : ∀ r ∈ s.faultQueue, r.id ≠ s.recordCounter) (body : RecordBody) :
    s.createRecord body = s.hubStops body := by
  unfold State.createRecord
  rw [newRecordId_counter h0 hf (stopRecord_none hu hm)]
  dsimp only
  rw [if_neg (by show ¬ s.faultQueue.length < 6; omega)]
  rfl

/-- A retry's record that is posted again, in its place (R120). -/
theorem repostRecord_queued (h : Queued s before r after) (c : StoreCause) : s.repostRecord r.id c =
    s.faultPosted (before ++ { r with state := .posted, body := r.body.failAgain c } :: after) := by
  have hs : ∀ (g : FaultRecord → FaultRecord) (xs : List FaultRecord), (∀ x ∈ xs, x.id ≠ r.id) →
      (xs.map fun x => if x.id = r.id then g x else x) = xs := fun g xs hx => by
    conv_rhs => rw [← List.map_id xs]
    exact List.map_congr_left fun x hm => by simp [hx x hm]
  have hq : ∀ g : FaultRecord → FaultRecord,
      (s.faultQueue.map fun x => if x.id = r.id then g x else x) = before ++ g r :: after := fun g => by
    rw [h.queue, List.map_append, List.map_cons, hs g before fun x hx => h.others x (List.mem_append_left _ hx),
      hs g after fun x hx => h.others x (List.mem_append_right _ hx), if_pos rfl]
  unfold State.repostRecord State.updateRecord
  rw [hq]
  rfl

/-! ## What stays quiet -/

theorem Quiet.postNotice (h : Quiet s) (p : Port) (n : Notice) : Quiet (s.postNotice p n) := by
  rw [State.postNotice_eq]
  exact h.congr rfl rfl rfl rfl rfl rfl rfl rfl rfl

theorem Quiet.postAll (h : Quiet s) (n : Notice) : Quiet (s.postAll n) := by
  unfold State.postAll
  induction ports generalizing s with
  | nil => exact h
  | cons p ps ih => exact ih (h.postNotice p n)

theorem Quiet.faultPosted (h : Quiet s) (q : List FaultRecord) : Quiet (s.faultPosted q) := by
  have hq : Quiet { s with faultQueue := q } := h.congr rfl rfl rfl rfl rfl rfl rfl rfl rfl
  exact hq.postNotice ..

theorem Quiet.recorded (h : Quiet s) (b : RecordBody) : Quiet (s.recorded b) := by
  have hq : Quiet { s with recordCounter := if s.recordCounter = 255 then 1 else s.recordCounter + 1 } :=
    h.congr rfl rfl rfl rfl rfl rfl rfl rfl rfl
  exact hq.faultPosted _

/-- A hub that stops grants no DRAIN and no FILL, so it stays quiet where no DIRECT job waits. -/
theorem Quiet.hubStops (h : Quiet s) (hn : NoJobs s) (b : RecordBody) : Quiet (s.hubStops b) := by
  have hq : Quiet { s with recordCounter := if s.recordCounter = 255 then 1 else s.recordCounter + 1,
                           stopRecord := some (s.newRecord b), mode := .stopped, stopOut := true } :=
    ⟨h.alloc, h.space, h.region, h.sessions, .inr ⟨hn.fills, hn.directs, rfl⟩⟩
  exact hq.postAll _

theorem jobFailed_jobless (hq : Quiet s) (hn : NoJobs s) (hj : AllIn s.journal .faulted) : Quiet (s.jobFailed c) :=
  hq.jobless hn rfl rfl rfl rfl rfl rfl hj

/-! ## A FILL that fails (R25) -/

section Fill
variable {l : Line}

theorem fillLost_stopped (hm : s.mode = .stopped) : s.fillLost l c = s := by simp only [State.fillLost, hm]

/-- An entry removed, with no line waiting for journal space (R27, R89). -/
theorem removeEntry_eq (hj : s.jspace = []) : s.removeEntry l = s.withTable (s.others l) := by
  cases s
  simp only [State.removeEntry] at *
  subst hj
  rfl

theorem fillLost_unwaited (hm : s.mode = .running) (he : s.entry? l = some e) (hr : e.recordId = none) (hw : e.waiters = [])
    (hj : s.jspace = []) : s.fillLost l c = s.withTable (s.others l) := by
  simp only [State.fillLost, hm, he, hr, hw, List.isEmpty_nil, if_true, removeEntry_eq hj]

theorem fillLost_held (hm : s.mode = .running) (he : s.entry? l = some e) (hr : e.recordId = none) (hw : e.waiters ≠ [])
    (hid : s.newRecordId = s.recordCounter) :
    s.fillLost l c = (s.withTable (s.changed l fun x =>
      { x with activity := .faultHeld, recordId := some s.recordCounter })).createRecord (.fillFault l c 1) := by
  have hw' : e.waiters.isEmpty = false := by simpa using hw
  simp only [State.fillLost, hm, he, hr, hw', hid]
  rfl

theorem fillLost_retried (hm : s.mode = .running) (he : s.entry? l = some e) (hr : e.recordId = some r.id) :
    s.fillLost l c = (s.withTable (s.changed l fun x => { x with activity := .faultHeld })).repostRecord r.id c := by
  simp only [State.fillLost, hm, he, hr]
  rfl

end Fill

/-! ## A DRAIN that fails (R92, R93) -/

section Drain
variable {older younger : List JournalEntry} {k : JournalEntry}

/-- The state once the entry of a failed DRAIN is FAULTED, in its place (R92). -/
def State.drainFaulted (s : State) (older : List JournalEntry) (k : JournalEntry) (younger : List JournalEntry) : State :=
  { s with journal := older ++ { k with state := .faulted } :: younger }

theorem drainLost_stopped (hm : s.mode = .stopped) (h : s.journal = older ++ k :: younger)
    (ho : ∀ x ∈ older ++ younger, x.seq ≠ k.seq) : s.drainLost k.seq c = s.drainFaulted older k younger := by
  have hj := journal_changed h ho fun x => { x with state := .faulted }
  simp only [State.drainLost, State.drainFaulted, hm, hj]

theorem drainLost_first (hm : s.mode = .running) (h : s.journal = older ++ k :: younger)
    (ho : ∀ x ∈ older ++ younger, x.seq ≠ k.seq) (hk : k.origin ≠ .retry) : s.drainLost k.seq c =
      (s.drainFaulted older k younger).createRecord (.drainFault k.line c 1 k.seq k.origin k.data) := by
  have hj := journal_changed h ho fun x => { x with state := .faulted }
  simp only [State.drainLost, hm, hj, journalEntry?_only h ho, hk, if_false, State.drainFaulted]

theorem drainLost_retried (hm : s.mode = .running) (h : s.journal = older ++ k :: younger)
    (ho : ∀ x ∈ older ++ younger, x.seq ≠ k.seq) (hk : k.origin = .retry) (hr : s.drainRecord? k.seq = some r) :
    s.drainLost k.seq c = (s.drainFaulted older k younger).repostRecord r.id c := by
  have hj := journal_changed h ho fun x => { x with state := .faulted }
  simp only [State.drainLost, hm, hj, journalEntry?_only h ho, hk, if_true, hr, State.drainFaulted]

end Drain

/-! ## Every failed job -/

section Settled
variable {found : State}

theorem settle_recorded (hq : Quiet s) (h : RecordRoom s) (b : RecordBody) :
    (s.createRecord b).settle found = s.recorded b := by
  rw [createRecord_recorded h, settle_quiet (hq.recorded b)]

theorem settle_hubStops (hq : Quiet s) (hn : NoJobs s) (hu : FaultUnitOk s) (hm : s.mode = .running)
    (hl : s.faultQueue.length = 6) (h0 : s.recordCounter ≠ 0) (hf : ∀ r ∈ s.faultQueue, r.id ≠ s.recordCounter) (b : RecordBody) :
    (s.createRecord b).settle found = s.hubStops b := by
  rw [createRecord_hubStops hu hm hl h0 hf, settle_quiet (hq.hubStops hn b)]

theorem settle_reposted (hq : Quiet s) (h : Queued s before r after) :
    (s.repostRecord r.id c).settle found =
      s.faultPosted (before ++ { r with state := .posted, body := r.body.failAgain c } :: after) := by
  rw [repostRecord_queued h, settle_quiet (hq.faultPosted _)]

end Settled

/-- Settles O58: the outcome of each kind of job, by the hub mode, and by whether a retry failed and the fault queue is full. -/
theorem jobsFail : Obligations.JobsFail := by
  intro s j c i hq hn hf fails
  refine ⟨?_, ?_, ?_, ?_⟩
  · intro e hi ho hj he held
    have hqf : Quiet (s.jobFailed c) := jobFailed_jobless hq hn hj
    have hx : exec i s = .next (((s.jobFailed c).fillLost j.line c).settle s) := by
      rw [exec_fails hf rfl (by rw [ho]; rfl) hi, failJob_fill ho]
    have hqh : ∀ id, Quiet (held id) := fun id => hqf.updateEntry _
    refine ⟨fun hm => ?_, fun hm hr => ⟨fun hw => ?_, fun hw hroom => ?_, fun hw hu hl h0 hfr => ?_⟩,
      fun before r after old n hm hr hb hbody => ?_⟩
    · rw [hx, fillLost_stopped (s := s.jobFailed c) hm, settle_quiet hqf]
    · rw [hx, fillLost_unwaited (s := s.jobFailed c) hm he hr hw hq.space]
      exact congrArg _ (settle_quiet (hqf.congr rfl rfl rfl rfl rfl rfl rfl rfl rfl))
    · rw [hx, fillLost_held (s := s.jobFailed c) hm he hr hw (newRecordId_counter hroom.counter hroom.fresh hroom.running)]
      exact congrArg _ (settle_recorded (hqh _) ⟨hroom.room, hroom.counter, hroom.fresh, hroom.running⟩ _)
    · rw [hx, fillLost_held (s := s.jobFailed c) hm he hr hw (newRecordId_counter h0 hfr (stopRecord_none (s := s) hu hm))]
      exact congrArg _ (settle_hubStops (hqh _) ⟨hn.fills, hn.directs⟩ ⟨hu.queue, hu.slot, hu.pinOff, hu.pinOn⟩ hm hl h0 hfr _)
    · have hb' : r.body.failAgain c = .fillFault j.line c (n + 1) := by rw [hbody]; rfl
      rw [hx, fillLost_retried (s := s.jobFailed c) hm he hr, ← hb']
      exact congrArg _ (settle_reposted (hqf.updateEntry _) ⟨hb.queue, hb.others⟩)
  · intro older younger k hi ho hjs hk faulted
    have hseq : ∀ x ∈ older ++ younger, x.seq ≠ k.seq := fun x hx => (hk x hx).1
    have hx : exec i s = .next (((s.jobFailed c).drainLost k.seq c).settle s) := by
      rw [exec_fails hf rfl (by rw [ho]; rfl) hi, failJob_drain ho]
    have hqf : Quiet faulted := hq.jobless hn rfl rfl rfl rfl rfl rfl fun x hx => by
      rcases List.mem_append.1 hx with hx | hx
      · exact (hk x (List.mem_append_left _ hx)).2
      · rcases List.mem_cons.1 hx with rfl | hx
        · rfl
        · exact (hk x (List.mem_append_right _ hx)).2
    refine ⟨fun hm => ?_, fun hm hko hroom => ?_, fun hm hko hu hl h0 hfr => ?_,
      fun before r after l old n o d hm hko hb hbody hoth => ?_⟩
    · rw [hx, drainLost_stopped (s := s.jobFailed c) hm hjs hseq]
      exact congrArg _ (settle_quiet hqf)
    · rw [hx, drainLost_first (s := s.jobFailed c) hm hjs hseq hko]
      exact congrArg _ (settle_recorded hqf ⟨hroom.room, hroom.counter, hroom.fresh, hroom.running⟩ _)
    · rw [hx, drainLost_first (s := s.jobFailed c) hm hjs hseq hko]
      exact congrArg _ (settle_hubStops hqf ⟨hn.fills, hn.directs⟩ ⟨hu.queue, hu.slot, hu.pinOff, hu.pinOn⟩ hm hl h0 hfr _)
    · have hdr : (s.jobFailed c).drainRecord? k.seq = some r :=
        drainRecord?_only (s := s.jobFailed c) ⟨hb.queue, hb.others⟩ hbody hoth
      have hb' : r.body.failAgain c = .drainFault l c (n + 1) k.seq o d := by rw [hbody]; rfl
      rw [hx, drainLost_retried (s := s.jobFailed c) hm hjs hseq hko hdr, ← hb']
      exact congrArg _ (settle_reposted hqf ⟨hb.queue, hb.others⟩)
  · intro op id hi ho hj ⟨q, hrq⟩
    have hrq' : (s.jobFailed c).request? id = some q := hrq
    have hlost : (s.jobFailed c).directLost id false = (s.jobFailed c).answer id .storeFault [] := by
      simp [State.directLost, hrq']
    rw [exec_fails hf rfl (by rw [ho]; rfl) hi, failJob_direct ho, hlost]
    exact congrArg _ (settle_quiet ((jobFailed_jobless (c := c) hq hn hj).congr rfl rfl rfl rfl rfl rfl rfl rfl rfl))
  · intro op id hi ho hj
    rw [exec_fails hf rfl (by rw [ho]; rfl) hi, failJob_direct ho]
    exact congrArg _ (settle_quiet (jobFailed_jobless hq hn hj))

end Sys2Proof.Machine

/-! PROOFS. The steps of the hub's own blocks (R9, R13 to R18, R21, R65, R88, R97). -/

namespace Sys2Proof.Machine

variable {s t : State} {p : Port} {e v : Entry} {l : Line} {id : ReqId} {q : Req} {i : RegionId} {before after : List Entry}

/-! ## What follows a block's work in its step -/

/-- The port is busy and nothing waits for a completion, so that a step ends with its own work. -/
structure Occupied (s : State) : Prop where
  busy     : s.job.isSome = true
  region   : s.completing = none
  sessions : ∀ p : Port, s.sessionState p ≠ .closing

theorem Occupied.congr (h : Occupied s) (hj : t.job = s.job) (hc : t.completing = s.completing)
    (hs : t.sessions = s.sessions) : Occupied t :=
  ⟨hj ▸ h.busy, hc ▸ h.region, fun p => by have := h.sessions p; unfold State.sessionState at *; rwa [hs]⟩

theorem Occupied.quiet (h : Occupied s) (ha : s.allocQueue = []) (hj : s.jspace = []) : Quiet s :=
  ⟨ha, hj, h.region, h.sessions, .inl h.busy⟩

theorem Occupied.complete (h : Occupied s) : s.complete = s := complete_settled h.region h.sessions

theorem Occupied.ends (h : Occupied s) : s.arbitrate.complete = s := by
  rw [arbitrate_settled (.inl h.busy), h.complete]

theorem exec_waiterService (hr : s.resetN = true) (hs : s.service l = t) (ht : Quiet t) :
    exec (.waiterService l) s = .next t := by
  show Host.Outcome.next (if s.resetN then (s.service l).settle s else s) = _
  rw [if_pos hr, hs, settle_quiet ht]

/-- A head that waits for no journal space is examined (R13). -/
theorem exec_allocation (hr : s.resetN = true) (hj : s.jspace = []) (hs : s.serveAlloc = t) (ht : Occupied t) :
    exec .allocation s = .next t := by
  show Host.Outcome.next (if s.resetN && !s.headKept then s.serveAlloc.arbitrate.complete else s) = _
  have hk : s.headKept = false := by simp [State.headKept, hj]
  rw [if_pos (by simp [hr, hk]), hs, ht.ends]

/-! ## Waiter service -/

/-- A waiter is checked again when its turn comes, and answered with what it fails (R9, R39). -/
theorem service_refuses {st : Status} (he : s.entry? l = some e) (hi : e.activity = .idle) (hw : e.waiters = [id])
    (hq : s.request? id = some { id := id, req := q }) (hc : s.checkLine id.port q.kind l = some st) :
    s.service l = (s.dropHead l).answer id st [] := by
  have hh : s.serveHead l = ((s.dropHead l).answer id st [], true) := by
    simp only [State.serveHead, he, hi, hw, hq, hc, ne_eq, not_true_eq_false, if_false]
  simp only [State.service, he, hw, List.length_cons, List.length_nil, Nat.zero_add, State.serviceLoop, hh]

theorem checkLine_ownHolding (he : s.entry? l = some e) (hh : e.holdings[p] = .write) :
    s.checkLine p .readWords l = some .ownHolding := by
  simp only [State.checkLine, State.checkHolding, State.holding, he, hh, holdingCheck, if_true, Option.some_or]

/-! ## The head of the allocation queue (R13) -/

/-- The only request in the allocation queue, whose line is absent, waits for no journal space. -/
structure HeadWaits (s : State) (id : ReqId) (q : Req) (l : Line) : Prop where
  queue   : s.allocQueue = [id]
  space   : s.jspace = []
  request : s.request? id = some { id := id, req := q }
  line    : q.line? = some l
  absent  : s.entry? l = none

/-- The state once the only head has left the allocation queue. -/
def State.headGone (s : State) : State := { s with allocQueue := [] }

theorem popAlloc_only (ha : s.allocQueue = [id]) (hj : s.jspace = []) : s.popAlloc = s.headGone := by
  cases s
  simp only [State.popAlloc, State.headGone] at *
  subst ha hj
  rfl

theorem serveAlloc_takes (h : HeadWaits s id q l) (hx : s.examineAlloc = (t, true)) (ht : t.allocQueue = []) :
    s.serveAlloc = t := by
  have hy : t.examineAlloc = (t, false) := by simp only [State.examineAlloc, ht]
  simp only [State.serveAlloc, h.queue, List.length_nil, List.length_cons, Nat.zero_add, State.allocLoop, hx, hy]

theorem serveAlloc_waits (hx : s.examineAlloc = (t, false)) : s.serveAlloc = t := by
  simp only [State.serveAlloc, State.allocLoop, hx]

/-- A free entry is taken (R13). -/
theorem serveAlloc_free (h : HeadWaits s id q l) (hr : s.table.length < Config.tableSize)
    (ht : s.headGone.createEntry l (some { id := id, req := q }) = t) (hn : t.allocQueue = []) : s.serveAlloc = t := by
  subst ht
  exact serveAlloc_takesFree (popAlloc_only h.queue h.space) h.queue h.request h.line h.absent hr hn

/-- In a full table the victim's entry is taken (R14, R15). -/
theorem serveAlloc_victim (h : HeadWaits s id q l) (hf : s.table.length = Config.tableSize) (hv : s.victim = .take v)
    (ht : (s.headGone.removeVictim v).createEntry l (some { id := id, req := q }) = t) (hn : t.allocQueue = []) :
    s.serveAlloc = t := by
  refine serveAlloc_takes h ?_ hn
  simp only [State.examineAlloc, h.queue, h.request, h.line, h.absent, Option.isSome_none, Bool.false_eq_true, if_false, hf,
    Nat.lt_irrefl, hv,
    popAlloc_only h.queue h.space, ht]

/-- Where no victim's data can be kept, the head joins the journal-space queue (R15). -/
theorem serveAlloc_waitForSpace (h : HeadWaits s id q l) (hf : s.table.length = Config.tableSize)
    (hv : s.victim = .waitForSpace) : s.serveAlloc = { s with jspace := [.allocHead] } := by
  refine serveAlloc_waits ?_
  simp only [State.examineAlloc, h.queue, h.request, h.line, h.absent, Option.isSome_none, Bool.false_eq_true, if_false, hf,
    Nat.lt_irrefl, hv, State.joinSpaceHead, h.space]
  rfl

section NoCandidate

theorem serveAlloc_evicting (h : HeadWaits s id q l) (hf : s.table.length = Config.tableSize) (hv : s.victim = .noCandidate)
    (hx : ∃ x ∈ s.table, x.activity = .evicting) : s.serveAlloc = s := by
  have : s.table.any (fun e => e.activity == .evicting) = true := by simpa using hx
  refine serveAlloc_waits ?_
  simp only [State.examineAlloc, h.queue, h.request, h.line, h.absent, Option.isSome_none, Bool.false_eq_true, if_false, hf,
    Nat.lt_irrefl, hv, this, if_true]

theorem any_evicting (h : ∀ x ∈ s.table, x.activity ≠ .evicting) :
    s.table.any (fun e => e.activity == .evicting) = false := by
  simpa using h

theorem serveAlloc_evicts (h : HeadWaits s id q l) (hf : s.table.length = Config.tableSize) (hv : s.victim = .noCandidate)
    (hx : ∀ x ∈ s.table, x.activity ≠ .evicting) (he : s.table.reverse.find? Entry.evictable = some v) :
    s.serveAlloc = s.evict v := by
  refine serveAlloc_waits ?_
  simp only [State.examineAlloc, h.queue, h.request, h.line, h.absent, Option.isSome_none, Bool.false_eq_true, if_false, hf,
    Nat.lt_irrefl, hv, any_evicting hx, he]

theorem serveAlloc_stays (h : HeadWaits s id q l) (hf : s.table.length = Config.tableSize) (hv : s.victim = .noCandidate)
    (hx : ∀ x ∈ s.table, x.activity ≠ .evicting) (he : ∀ x ∈ s.table, x.evictable = false)
    (hb : ∃ x ∈ s.table, x.faultBound = false) : s.serveAlloc = s := by
  have hfind : s.table.reverse.find? Entry.evictable = none :=
    List.find?_eq_none.2 fun x hm => by simp [he x (List.mem_reverse.1 hm)]
  have hall : s.table.all Entry.faultBound = false := by simpa using hb
  refine serveAlloc_waits ?_
  simp only [State.examineAlloc, h.queue, h.request, h.line, h.absent, Option.isSome_none, Bool.false_eq_true, if_false, hf,
    Nat.lt_irrefl, hv, any_evicting hx, hfind, hall]

/-- When every entry stands for a fault, the head is answered TABLE_FULL (R18). -/
theorem serveAlloc_tableFull (h : HeadWaits s id q l) (hf : s.table.length = Config.tableSize) (hv : s.victim = .noCandidate)
    (hx : ∀ x ∈ s.table, x.activity ≠ .evicting) (he : ∀ x ∈ s.table, x.evictable = false)
    (hb : ∀ x ∈ s.table, x.faultBound = true) : s.serveAlloc = s.headGone.answer id .tableFull [] := by
  have hfind : s.table.reverse.find? Entry.evictable = none :=
    List.find?_eq_none.2 fun x hm => by simp [he x (List.mem_reverse.1 hm)]
  have hall : s.table.all Entry.faultBound = true := by simpa using hb
  refine serveAlloc_takes h ?_ rfl
  simp only [State.examineAlloc, h.queue, h.request, h.line, h.absent, Option.isSome_none, Bool.false_eq_true, if_false, hf,
    Nat.lt_irrefl, hv, any_evicting hx, hfind, hall, if_true,
    popAlloc_only h.queue h.space]

end NoCandidate

/-! ## Victims (R14, R15) -/

/-- An entry without holders and waiters, whose copy is CLEAN or DIRTY, is a candidate (R14). -/
theorem candidate_of {d : LineData} (hi : e.activity = .idle) (hw : e.waiters = []) (hh : ∀ q : Port, e.holdings[q] = .none)
    (hd : e.copy.data? = some d) : e.candidate = true := by
  simp [Entry.candidate, hi, hw, not_held hh, hd]

/-- The candidates, the least recent first, around an entry that is one. -/
theorem candidates_split (ht : s.table = before ++ v :: after) (hv : v.candidate = true) :
    s.table.reverse.filter Entry.candidate =
      after.reverse.filter Entry.candidate ++ v :: before.reverse.filter Entry.candidate := by
  simp [ht, hv]

/-- The least recent candidate is taken, if its data can be kept (R14). -/
theorem victim_leastRecent (ht : s.table = before ++ v :: after) (hv : v.candidate = true)
    (hk : v.copy.isClean = true ∨ s.canInsert v.line = true) (ha : ∀ x ∈ after, x.candidate = false) :
    s.victim = .take v := by
  have hno : after.reverse.filter Entry.candidate = [] :=
    List.filter_eq_nil_iff.2 fun x hx => by simp [ha x (List.mem_reverse.1 hx)]
  have hk' : (v.copy.isClean || s.canInsert v.line) = true := by simpa using hk
  simp only [State.victim, candidates_split ht hv, hno, List.nil_append, hk', if_true]

/-- A DIRTY entry whose data cannot enter the journal (R15). -/
def State.shutOut (s : State) (x : Entry) : Prop := x.copy.isClean = false ∧ s.canInsert x.line = false

theorem shutOut_of {d : LineData} {x : Entry} (hd : x.copy = .dirty d) (hj : s.journal.length = Config.journalSize)
    (hq : ∀ k ∈ s.journal, k.line = x.line → k.state ≠ .queued) : s.shutOut x := by
  refine ⟨by rw [hd]; rfl, ?_⟩
  simpa [State.canInsert, State.hasQueued, State.slotFree, hj] using hq

/-- The least recent CLEAN candidate is taken, when no DIRTY one behind it can enter the journal (R15). -/
theorem victim_clean (ht : s.table = before ++ v :: after) (hv : v.candidate = true) (hc : v.copy.isClean = true)
    (ha : ∀ x ∈ after, x.candidate = true → s.shutOut x) : s.victim = .take v := by
  have hshut : ∀ x ∈ after.reverse.filter Entry.candidate, s.shutOut x := fun x hx => by
    obtain ⟨hm, hcand⟩ := List.mem_filter.1 hx
    exact ha x (List.mem_reverse.1 hm) hcand
  have hs := candidates_split ht hv
  cases hl : after.reverse.filter Entry.candidate with
  | nil =>
    rw [hl, List.nil_append] at hs
    simp only [State.victim, hs, hc, Bool.true_or, if_true]
  | cons x xs =>
    rw [hl] at hs hshut
    obtain ⟨hx, hi⟩ := hshut x List.mem_cons_self
    have hfind : (x :: xs ++ v :: before.reverse.filter Entry.candidate).find? (·.copy.isClean) = some v := by
      have : (x :: xs).find? (·.copy.isClean) = none := List.find?_eq_none.2 fun y hy => by simp [(hshut y hy).1]
      rw [List.find?_append, this, Option.none_or, List.find?_cons_of_pos (by simpa using hc)]
    rw [List.cons_append] at hs hfind
    simp only [State.victim, hs, hx, hi, Bool.or_self, Bool.false_eq_true, if_false, hfind]

/-- Where no candidate's data can be kept, the head waits for journal space (R15). -/
theorem victim_waitForSpace (hv : v ∈ s.table) (hc : v.candidate = true)
    (ha : ∀ x ∈ s.table, x.candidate = true → s.shutOut x) : s.victim = .waitForSpace := by
  have hshut : ∀ x ∈ s.table.reverse.filter Entry.candidate, s.shutOut x := fun x hx => by
    obtain ⟨hm, hcand⟩ := List.mem_filter.1 hx
    exact ha x (List.mem_reverse.1 hm) hcand
  have hmem : v ∈ s.table.reverse.filter Entry.candidate := List.mem_filter.2 ⟨List.mem_reverse.2 hv, hc⟩
  cases hs : s.table.reverse.filter Entry.candidate with
  | nil => rw [hs] at hmem; exact absurd hmem List.not_mem_nil
  | cons x xs =>
    rw [hs] at hshut
    obtain ⟨hx, hi⟩ := hshut x List.mem_cons_self
    have hfind : (x :: xs).find? (·.copy.isClean) = none := List.find?_eq_none.2 fun y hy => by simp [(hshut y hy).1]
    simp only [State.victim, hs, hx, hi, Bool.or_self, Bool.false_eq_true, if_false, hfind]

theorem appended_headGone (d : LineData) (o : Origin) : s.headGone.appended l d o = (s.appended l d o).headGone := by
  rw [appended_congr (t := s.headGone) (s := s) d o rfl rfl rfl rfl rfl rfl rfl]
  conv_rhs => rw [appended_congr (t := s) (s := s) d o rfl rfl rfl rfl rfl rfl rfl]
  rfl

theorem Occupied.appended {d : LineData} {o : Origin} (h : Occupied s) : Occupied (s.appended l d o) :=
  h.congr (by simp) (by simp) (by simp)

/-- What a table without repeated lines holds beside an entry. -/
theorem others_split (hn : (s.table.map Entry.line).Nodup) (ht : s.table = before ++ v :: after) :
    s.others v.line = before ++ after := by
  rw [ht, List.map_append, List.map_cons, List.nodup_middle] at hn
  obtain ⟨hv, -⟩ := List.nodup_cons.1 hn
  have hne : ∀ x ∈ before ++ after, (x.line != v.line) = true := fun x hx =>
    bne_iff_ne.2 fun hxl => hv (by rw [← hxl, ← List.map_append]; exact List.mem_map_of_mem hx)
  have hb := List.filter_eq_self.2 fun x hx => hne x (List.mem_append_left after hx)
  have ha := List.filter_eq_self.2 fun x hx => hne x (List.mem_append_right before hx)
  rw [State.others, ht, List.filter_append, List.filter_cons_of_neg (by simp), hb, ha]

theorem hasQueued_iff : s.hasQueued l = true ↔ ∃ k ∈ s.journal, k.line = l ∧ k.state = .queued := by
  simp [State.hasQueued]

/-- Merging into the journal changes no entry's line. -/
theorem mergeJournal_lines {d : LineData} {o : Origin} {m : Line} (h : ∀ k ∈ s.journal, k.line ≠ l) :
    ∀ k ∈ (s.mergeJournal m d o).journal, k.line ≠ l := by
  intro k hk
  obtain ⟨j, hj, rfl⟩ := List.mem_map.1 hk
  split <;> exact h j hj

theorem removeVictim_clean {d : LineData} (hj : s.jspace = []) (hn : (s.table.map Entry.line).Nodup)
    (ht : s.table = before ++ v :: after) (hd : v.copy = .clean d) : s.removeVictim v = s.withTable (before ++ after) := by
  simp only [State.removeVictim, hd]
  rw [removeEntry_eq hj, others_split hn ht]

theorem removeVictim_dirty {d : LineData} (hj : s.jspace = []) (hn : (s.table.map Entry.line).Nodup)
    (ht : s.table = before ++ v :: after) (hd : v.copy = .dirty d) (hi : s.insertJournal v.line d .evict = t)
    (htj : t.jspace = s.jspace) (htt : t.table = s.table) : s.removeVictim v = t.withTable (before ++ after) := by
  simp only [State.removeVictim, hd, hi]
  rw [removeEntry_eq (htj.trans hj), others_split (by rwa [htt]) (htt.trans ht)]

/-- The head takes the victim's entry, created FILLING, and its FILL is asked for (R13, R14, R20, R23). -/
theorem serveAlloc_replaces (h : HeadWaits s id q l) (hf : s.table.length = Config.tableSize)
    (ht : s.table = before ++ v :: after) (hv : s.victim = .take v)
    (hrem : s.headGone.removeVictim v = t.withTable (before ++ after)) (hta : t.allocQueue = [])
    (htf : t.fillQueue = s.fillQueue) (hr : t.regionOf l = some i) (hj : ∀ k ∈ t.journal, k.line ≠ l)
    (hq : l ∉ s.fillQueue) (hw : ({ id := id, req := q } : Request).fullLine? = none) :
    s.serveAlloc = { t with table := newEntry l i id :: (before ++ after), fillQueue := s.fillQueue ++ [l] } := by
  have hne : ∀ x ∈ before ++ after, x.line ≠ l := fun x hx => by
    refine entry?_none.1 h.absent x ?_
    rw [ht]
    exact List.mem_append.2 ((List.mem_append.1 hx).imp_right (List.mem_cons_of_mem v))
  have hroom : (before ++ after).length < Config.tableSize := by
    rw [← hf, ht]; simp
  refine serveAlloc_victim h hf hv ?_ hta
  have hab : Absent (t.withTable (before ++ after)) l := ⟨entry?_none.2 hne, hroom, hj⟩
  rw [hrem, createEntry_fills hab hr hw (by rwa [State.withTable_fillQueue, htf]), State.withTable_fillQueue, htf]
  rfl

/-- A line in the journal fills its new entry, and a Read Words for it is answered at once (R21, R42). -/
theorem createEntry_fromJournal {first count : Nat} {j : JournalEntry} (he : s.entry? l = none)
    (hr : s.regionOf l = some i) (hj : s.Newest l j)
    (hq : s.request? id = some { id := id, req := .readWords l first count }) :
    s.createEntry l (some { id := id, req := .readWords l first count }) =
      (s.withTable ({ newEntry l i id with copy := .clean j.data, activity := .idle, waiters := [] } :: s.table)).answer id
        .done (wordBytes j.data first count) := by
  let e : Entry := { newEntry l i id with copy := .clean j.data, activity := .idle }
  let t : State := s.withTable (e :: s.table)
  have hcreate : s.createEntry l (some { id := id, req := .readWords l first count }) = t.service l := by
    have hf : Request.fullLine? { id := id, req := .readWords l first count } = none := rfl
    unfold State.createEntry
    rw [freshEntry_request hr, Option.bind_some, hf, newest?_of hj]
    rfl
  have hoth : t.others l = s.table := others_head rfl he
  rw [hcreate, service_reads (s := t) (l := l) (e := e) (d := j.data) (entry?_head rfl) rfl rfl hq rfl
    (fun q => by simp [e, newEntry]), hoth]
  rfl

/-! ## Eviction (R16) -/

theorem evictable_iff : e.evictable = true ↔ e.activity = .idle ∧ e.waiters = [] ∧ ∃ q : Port, e.holdings[q] ≠ .none := by
  simp only [Entry.evictable, Bool.and_eq_true, held_iff, beq_iff_eq, List.isEmpty_iff, and_left_comm, and_comm]

/-- The least recent entry that can be made EVICTING is the one found. -/
theorem find_evictable (ht : s.table = before ++ v :: after) (hv : v.evictable = true)
    (ha : ∀ x ∈ after, x.evictable = false) : s.table.reverse.find? Entry.evictable = some v := by
  have hno : after.reverse.find? Entry.evictable = none :=
    List.find?_eq_none.2 fun x hx => by simp [ha x (List.mem_reverse.1 hx)]
  rw [ht, List.reverse_append, List.reverse_cons, List.append_assoc, List.find?_append, hno, Option.none_or,
    List.singleton_append, List.find?_cons_of_pos hv]

theorem evict_eq : s.evict v =
    (s.withTable (s.changed v.line fun x => { x with activity := .evicting })).recalledInTurn
      (((List.finRange 4).filter fun q => decide (v.holdings[q] ≠ .none)).map fun q =>
        { line := v.line, port := q, kind := .invalidate, purpose := .evict }) := by
  have hf : (ports.filter fun q => v.holdings[q] != .none) =
      (List.finRange 4).filter fun q => decide (v.holdings[q] ≠ .none) :=
    List.filter_congr fun q _ => by rw [decide_not]; rfl
  rw [State.evict, State.askEvict, hf, recallsFor, List.map_map, askRecalls_eq]
  rfl

theorem Occupied.evict (h : Occupied s) : Occupied (s.evict v) := by
  obtain ⟨_, _, _, _, hx⟩ := recalledInTurn_frame (s.setActivity v.line .evicting)
    (recallsFor v.line .evict ((ports.filter fun q => v.holdings[q] != .none).map fun q => (q, .invalidate)))
  rw [State.evict, State.askEvict, askRecalls_eq, hx]
  exact h.congr rfl rfl rfl

/-- An entry that stands for a fault is neither a candidate nor one to evict, and not EVICTING (R14, R16, R18). -/
theorem faultBound_of (h : e.activity = .faultHeld ∨ (e.activity = .idle ∧ e.copy = .poisoned ∧
    ∀ q : Port, e.holdings[q] = .none)) :
    e.faultBound = true ∧ e.candidate = false ∧ e.evictable = false ∧ e.activity ≠ .evicting := by
  rcases h with h | ⟨hi, hp, hh⟩
  · simp [Entry.faultBound, Entry.candidate, Entry.evictable, h]
  · simp [Entry.faultBound, Entry.candidate, Entry.evictable, Entry.poisoned, hi, hp, not_held hh, HubCopy.data?]

theorem not_faultBound (hi : e.activity ≠ .faultHeld) (hp : e.copy ≠ .poisoned) : e.faultBound = false := by
  simp [Entry.faultBound, Entry.poisoned, hi, hp]

/-! ## Journal space (R88) -/

/-- A line whose waiter is reached inserts its DIRTY copy, which is CLEAN then; nobody waits on it (R88). -/
theorem serveSpace_line {d : LineData} {o : Origin} (hs : s.jspace = [.line l o]) (he : s.entry? l = some e)
    (hd : e.copy = .dirty d) (hw : e.waiters = []) (ha : Appends s l) :
    s.serveSpace = { s with
      jspace := []
      table := s.changed l fun x => { x with copy := .clean d } }.appended l d o := by
  let u : State := { s with jspace := [] }
  have hins : u.insertCopy l d o = (u.appended l d o).withTable (u.changed l fun x => { x with copy := .clean d }) :=
    insertCopy_appends (s := u) (ha.congr rfl rfl) rfl d o
  have hfound : ((u.appended l d o).withTable (u.changed l fun x => { x with copy := .clean d })).entry? l =
      some { e with copy := .clean d } := updateEntry_entry? (s := u) (fun x => { x with copy := .clean d }) (fun _ => rfl) he
  have hu : u.serveSpaceLine l o = u.insertCopy l d o := by
    have hue : u.entry? l = some e := he
    have hw' : (u.insertCopy l d o).flushHead l = false := by
      rw [hins, State.flushHead, hfound]
      simp [hw]
    simp only [State.serveSpaceLine, hue, hd, hw', Bool.false_eq_true, if_false]
  have hfree : s.slotFree = true := by simpa [State.slotFree] using ha.room
  have hloop : s.serveSpace = u.serveSpaceLine l o := by
    simp only [State.serveSpace, hs, List.length_cons, List.length_nil, Nat.zero_add, State.spaceLoop, hfree, if_true]
    rfl
  rw [hloop, hu, hins, appended_congr (t := u) (s := s) d o rfl rfl rfl rfl rfl rfl rfl]
  rw [appended_congr (t := { s with jspace := [], table := _ }) (s := s) d o rfl rfl rfl rfl rfl rfl rfl]
  rfl

/-! ## Waiting recalls (R65) -/

theorem openWaiting_opens {w : WaitingRecall} {ws : List WaitingRecall} (hw : s.recallWait = w :: ws)
    (hl : s.recalls.length < Config.recallTableSize) : s.openWaiting = { s with recallWait := ws }.opened w := by
  simp only [State.openWaiting, if_pos hl, hw]
  exact openRecall_opened w hl

theorem openWaiting_none (h : s.recallWait = [] ∨ Config.recallTableSize ≤ s.recalls.length) : s.openWaiting = s := by
  unfold State.openWaiting
  split
  · rw [h.resolve_right (by omega)]
  · rfl

/-! ## The blocks alone -/

section Steps
variable {first count : Nat}

theorem exec_allocation_free (hr : s.resetN = true) (ho : Occupied s) (h : HeadWaits s id q l) (ha : Absent s l)
    (hi : s.regionOf l = some i) (hf : l ∉ s.fillQueue) (hw : ({ id := id, req := q } : Request).fullLine? = none) :
    exec .allocation s = .next { s with
      allocQueue := []
      table := newEntry l i id :: s.table
      fillQueue := s.fillQueue ++ [l] } := by
  have ht := createEntry_fills (s := s.headGone) (w := { id := id, req := q }) ⟨ha.absent, ha.room, ha.journal⟩ hi hw hf
  exact exec_allocation hr h.space (serveAlloc_free h ha.room ht rfl) (ho.congr rfl rfl rfl)

theorem exec_allocation_journal {j : JournalEntry} (hr : s.resetN = true) (ho : Occupied s)
    (h : HeadWaits s id (.readWords l first count) l) (hroom : s.table.length < Config.tableSize)
    (hi : s.regionOf l = some i) (hj : s.Newest l j) :
    exec .allocation s = .next ({ s with
      allocQueue := []
      table := { newEntry l i id with copy := .clean j.data, activity := .idle, waiters := [] } :: s.table }.answer id .done
        (wordBytes j.data first count)) := by
  have ht := createEntry_fromJournal (s := s.headGone) (j := j) h.absent hi hj h.request
  exact exec_allocation hr h.space (serveAlloc_free h hroom ht rfl) (ho.congr rfl rfl rfl)

end Steps

/-- A full table, the line absent from it and from the journal, with an entry that is IDLE, without waiters and holders. -/
structure Replaceable (s : State) (l : Line) (i : RegionId) (before : List Entry) (v : Entry) (after : List Entry) : Prop where
  lines    : (s.table.map Entry.line).Nodup
  full     : s.table.length = Config.tableSize
  journal  : ∀ k ∈ s.journal, k.line ≠ l
  region   : s.regionOf l = some i
  fill     : l ∉ s.fillQueue
  split    : s.table = before ++ v :: after
  idle     : v.activity = .idle
  unwaited : v.waiters = []
  unheld   : ∀ q : Port, v.holdings[q] = .none

theorem Replaceable.candidate {d : LineData} (hp : Replaceable s l i before v after) (hd : v.copy.data? = some d) :
    v.candidate = true := candidate_of hp.idle hp.unwaited hp.unheld hd

section Replaces
variable {d : LineData} (hr : s.resetN = true) (ho : Occupied s) (h : HeadWaits s id q l)
  (hp : Replaceable s l i before v after) (hw : ({ id := id, req := q } : Request).fullLine? = none)
include hr ho h hp hw

omit ho in
/-- A victim is replaced, given what becomes of the rest of the state when it is removed. -/
theorem exec_allocation_replaces (hv : s.victim = .take v)
    (hrem : s.headGone.removeVictim v = t.headGone.withTable (before ++ after)) (htf : t.fillQueue = s.fillQueue)
    (hto : Occupied t) (hi : t.regionOf l = some i) (hj : ∀ k ∈ t.journal, k.line ≠ l) :
    exec .allocation s = .next { t with
      allocQueue := []
      table := newEntry l i id :: (before ++ after)
      fillQueue := s.fillQueue ++ [l] } :=
  exec_allocation hr h.space (serveAlloc_replaces h hp.full hp.split hv hrem rfl htf hi hj hp.fill hw) (hto.congr rfl rfl rfl)

/-- A CLEAN victim, no DIRTY candidate behind it able to enter the journal (R14, R15). -/
theorem exec_allocation_clean (hd : v.copy = .clean d) (ha : ∀ x ∈ after, x.candidate = true → s.shutOut x) :
    exec .allocation s = .next { s with
      allocQueue := []
      table := newEntry l i id :: (before ++ after)
      fillQueue := s.fillQueue ++ [l] } :=
  exec_allocation_replaces hr h hp hw
    (victim_clean hp.split (hp.candidate (d := d) (by rw [hd]; rfl)) (by rw [hd]; rfl) ha)
    (removeVictim_clean h.space hp.lines hp.split hd) rfl ho hp.region hp.journal

/-- A DIRTY victim that the journal's QUEUED entry of its line takes in (R14, R82). -/
theorem exec_allocation_merges (hd : v.copy = .dirty d) (hq : s.hasQueued v.line = true)
    (ha : ∀ x ∈ after, x.candidate = false) :
    exec .allocation s = .next { s.mergeJournal v.line d .evict with
      allocQueue := []
      table := newEntry l i id :: (before ++ after)
      fillQueue := s.fillQueue ++ [l] } := by
  have hc := hp.candidate (d := d) (by rw [hd]; rfl)
  have hins : s.headGone.insertJournal v.line d .evict = (s.mergeJournal v.line d .evict).headGone := if_pos hq
  exact exec_allocation_replaces (t := s.mergeJournal v.line d .evict) hr h hp hw
    (victim_leastRecent hp.split hc (.inr (by rw [State.canInsert, hq, Bool.true_or])) ha)
    (removeVictim_dirty h.space hp.lines hp.split hd hins rfl rfl) rfl (ho.congr rfl rfl rfl) hp.region
    (mergeJournal_lines hp.journal)

/-- A DIRTY victim whose data enters the journal as a new entry (R14, R81). -/
theorem exec_allocation_appends (hd : v.copy = .dirty d) (hap : Appends s v.line) (ha : ∀ x ∈ after, x.candidate = false) :
    exec .allocation s = .next { s.appended v.line d .evict with
      allocQueue := []
      table := newEntry l i id :: (before ++ after)
      fillQueue := s.fillQueue ++ [l] } := by
  have hc := hp.candidate (d := d) (by rw [hd]; rfl)
  have hne : v.line ≠ l := entry?_none.1 h.absent v (by rw [hp.split]; simp)
  have hins := (insertJournal_appends (s := s.headGone) (hap.congr rfl rfl) d .evict).trans (appended_headGone d .evict)
  have hreg : (s.appended v.line d .evict).regionOf l = some i := by
    rw [← hp.region]; simp [State.regionOf]
  have hjs : ∀ k ∈ (s.appended v.line d .evict).journal, k.line ≠ l := by
    rw [State.appended_journal]
    intro k hk
    rcases List.mem_append.1 hk with hk | hk
    · exact hp.journal k hk
    · rw [List.mem_singleton.1 hk]; exact hne
  exact exec_allocation_replaces hr h hp hw
    (victim_leastRecent hp.split hc (.inr (canInsert_appends hap)) ha)
    (removeVictim_dirty h.space hp.lines hp.split hd hins (State.appended_jspace ..) (State.appended_table ..))
    (State.appended_fillQueue ..) ho.appended hreg hjs

omit hw in
/-- No victim whose data can be kept: the head waits for journal space (R15). -/
theorem exec_allocation_waits (hd : v.copy = .dirty d) (ha : ∀ x ∈ s.table, x.candidate = true → s.shutOut x) :
    exec .allocation s = .next { s with jspace := [.allocHead] } :=
  have hv := victim_waitForSpace (by rw [hp.split]; simp) (hp.candidate (d := d) (by rw [hd]; rfl)) ha
  exec_allocation hr h.space (serveAlloc_waitForSpace h hp.full hv) (ho.congr rfl rfl rfl)

end Replaces

theorem exec_journalSpaceService_line {d : LineData} {o : Origin} (hr : s.resetN = true) (ho : Occupied s)
    (ha : s.allocQueue = []) (hj : s.jspace = [.line l o]) (he : s.entry? l = some e) (hd : e.copy = .dirty d)
    (hw : e.waiters = []) (hap : Appends s l) :
    exec .journalSpaceService s = .next ({ s with
      jspace := []
      table := s.changed l fun x => { x with copy := .clean d } }.appended l d o) := by
  let u : State := { s with jspace := [], table := s.changed l fun x => { x with copy := .clean d } }
  have hs : s.serveSpace = u.appended l d o := serveSpace_line hj he hd hw hap
  have hu : Occupied u := ho.congr rfl rfl rfl
  have hau : (u.appended l d o).allocQueue = [] := (State.appended_allocQueue ..).trans ha
  show Host.Outcome.next (if s.resetN then s.settle s else s) = _
  rw [if_pos hr, State.settle, hs, rouseHead_nil _ hau, hu.appended.ends]

/-- Settles O60: the work of each block, after which nothing follows in the step. -/
theorem blocksServe : Obligations.BlocksServe := by
  intro s hr hb hcp hse
  have ho : Occupied s := ⟨hb, hcp, hse⟩
  refine ⟨?_, ?_, ?_, ?_, ?_, ?_⟩
  · intro l e p tag first count ha hj he hi hw hq
    have hqt := ho.quiet ha hj
    refine ⟨fun d hd hh => ?_, fun hh => ?_⟩
    · exact exec_waiterService hr (service_reads he hi hw hq hd hh) (hqt.congr rfl rfl rfl rfl rfl rfl rfl rfl rfl)
    · exact exec_waiterService hr (service_refuses he hi hw hq (checkLine_ownHolding he hh))
        (hqt.congr rfl rfl rfl rfl rfl rfl rfl rfl rfl)
  · intro l i id first count ha hj hq he
    have h : HeadWaits s id (.readWords l first count) l := ⟨ha, hj, hq, rfl, he⟩
    refine ⟨fun hab hi hf => exec_allocation_free hr ho h hab hi hf rfl,
      fun j hroom hi hn => exec_allocation_journal hr ho h hroom hi hn, ?_, ?_, ?_⟩
    · intro before after v htok hfull hno hi hf ht hvi hvw hvh taken shut
      have hp : Replaceable s l i before v after := ⟨htok.lines, hfull, hno, hi, hf, ht, hvi, hvw, hvh⟩
      have hshut : ∀ x, x.candidate = false ∨ shut x → x.candidate = true → s.shutOut x := fun x hx hc => by
        obtain ⟨⟨d, hd⟩, hl, hk⟩ := hx.resolve_left (by simp [hc])
        exact shutOut_of hd hl hk
      refine ⟨fun d hd ha => exec_allocation_clean hr ho h hp rfl hd fun x hx => hshut x (ha x hx),
        fun d hd ha => ⟨fun hk => exec_allocation_merges hr ho h hp rfl hd (hasQueued_iff.2 hk) ha,
          fun hap => exec_allocation_appends hr ho h hp rfl hd hap ha⟩, fun hsv ha => ?_⟩
      obtain ⟨d, hd⟩ := hsv.1
      refine exec_allocation_waits hr ho h hp hd fun x hx => hshut x ?_
      rw [ht, List.mem_append, List.mem_cons] at hx
      rcases hx with hx | rfl | hx
      · exact ha x (List.mem_append_left _ hx)
      · exact .inr hsv
      · exact ha x (List.mem_append_right _ hx)
    · intro hfull hnc held
      have hv := victim_noCandidate hnc
      have hheld (x : Entry) : x.evictable = true ↔ held x := evictable_iff
      refine ⟨fun hx => exec_allocation hr hj (serveAlloc_evicting h hfull hv hx) ho,
        fun hx => ⟨fun before after v ht hv' hafter => ?_, fun hno ⟨x, hxm, hxf, hxp⟩ => ?_⟩⟩
      · have hfind := find_evictable ht ((hheld v).2 hv') fun x hx => by simpa using mt (hheld x).1 (hafter x hx)
        rw [← evict_eq]
        exact exec_allocation hr hj (serveAlloc_evicts h hfull hv hx hfind) ho.evict
      · exact exec_allocation hr hj (serveAlloc_stays h hfull hv hx (fun x hx => by simpa using mt (hheld x).1 (hno x hx))
          ⟨x, hxm, not_faultBound hxf hxp⟩) ho
    · intro hfull hall
      refine exec_allocation hr hj (serveAlloc_tableFull h hfull (victim_noCandidate fun x hx => ?_) (fun x hx => ?_)
        (fun x hx => ?_) fun x hx => ?_) (ho.congr rfl rfl rfl)
      all_goals
        obtain ⟨_, _, _, _⟩ := faultBound_of (hall x hx)
        assumption
  · intro l o e d ha hj he hd hw hap
    exact exec_journalSpaceService_line hr ho ha hj he hd hw hap
  · show Host.Outcome.next (if s.resetN then s.examineSync.complete else s) = _
    rw [if_pos hr, examineSync_eq, Occupied.complete]
    rw [syncsAnswered_eq]
    exact ho.congr rfl rfl rfl
  · intro w ws hw hl
    show Host.Outcome.next (if s.resetN then s.openWaiting else s) = _
    rw [if_pos hr, openWaiting_opens hw hl]
  · intro h
    show Host.Outcome.next (if s.resetN then s.openWaiting else s) = _
    rw [if_pos hr, openWaiting_none h]

end Sys2Proof.Machine

/-! PROOFS. Write Words' merge, and the Sync (R43, R55, R96). -/

namespace Sys2Proof.Machine

/-- Settles O17: the fold over the 32 bytes sets each enabled byte once. -/
theorem mergeTakesEnabledBytes : Obligations.MergeTakesEnabledBytes := fun old new en i hi =>
  byteAt_mergeBytes old new en i hi

variable {s : State} {p : Port} {f : RxFrame}

theorem exec_sync_admits (h : Admits s p f .sync) (hp : f.payload = []) :
    exec (.sync p f) s = .next ((s.accepted p).takeSync ⟨p, f.tag⟩) :=
  congrArg _ (onRequest_admits h (a := ()) (by rw [hp]; rfl) _)

/-- Settles O23: by whether the journal has a youngest entry. -/
theorem syncTaken : Obligations.SyncTaken := by
  intro p f s had hp
  rw [exec_sync_admits had hp]
  refine ⟨fun hj => congrArg _ ?_, fun older j hj => congrArg _ ?_⟩
  · have hlast : (s.accepted p).journal.getLast? = none := by rw [State.accepted_journal, hj]; rfl
    rw [State.takeSync, hlast]
    exact accepted_reply ..
  · have hlast : (s.accepted p).journal.getLast? = some j := by
      rw [State.accepted_journal, hj, List.getLast?_concat]
    rw [State.takeSync, hlast]
    rfl

end Sys2Proof.Machine

/-! PROOFS. Data requests that are served in the step of their admission (R41 to R47, R72). -/

namespace Sys2Proof.Machine

variable {s t : State} {p : Port} {l : Line} {e : Entry} {d : LineData} {f : RxFrame} {k : Kind} {q : Req} {need : Access}
  {job : Option DirectJob} {data : List Byte} {g : Entry → Entry}

/-- A change of an entry by a service that is neither of its line nor of its waiters. -/
structure Serving (g : Entry → Entry) : Prop where
  line    : ∀ x, (g x).line = x.line
  waiters : ∀ x w, g { x with waiters := w } = { g x with waiters := w }

theorem serving_id : Serving id := ⟨fun _ => rfl, fun _ _ => rfl⟩

theorem serving_holding (p : Port) (h : Holding) : Serving fun x => { x with holdings := x.holdings.set p h } :=
  ⟨fun _ => rfl, fun _ _ => rfl⟩

theorem serving_copy (c : HubCopy) : Serving fun x => { x with copy := c } := ⟨fun _ => rfl, fun _ _ => rfl⟩

theorem serving_written (p : Port) (h : Holding) (c : HubCopy) :
    Serving fun x => { x with holdings := x.holdings.set p h, copy := c } := ⟨fun _ => rfl, fun _ _ => rfl⟩

/-- The state in which an admitted request has joined the waiters of its line's entry (R8). -/
def State.joined (s : State) (p : Port) (tag : Byte) (q : Req) (l : Line) : State :=
  (s.asked p tag q).joinWaiters l ⟨p, tag⟩

/-- The state once a request is served with data: the entry changed and at the most-recent end, the request answered DONE. -/
def State.served (s : State) (p : Port) (tag : Byte) (data : List Byte) (l : Line) (x : Entry) : State :=
  (s.replied p tag .done data).withTable (x :: s.others l)

theorem Quiet.served (h : Quiet s) (tag : Byte) (data : List Byte) (x : Entry) : Quiet (s.served p tag data l x) :=
  h.congr rfl rfl rfl rfl rfl rfl rfl rfl rfl

/-- The end of a request's service, when the service has changed its entry (R9). -/
theorem serveDone_joined (hg : Serving g) (hm : MayAsk s p k f.tag) (hv : Serves s p l need e d) :
    ((s.joined p f.tag q l).updateEntry l g).serveDone l ⟨p, f.tag⟩ data =
      s.served p f.tag data l { g e with prefetched := false } := by
  refine (serveDone_asked (q := q) g hg.line hm hv.present hv.noWaiters data).trans ?_
  have hw : (g e).waiters = [] := (congrArg Entry.waiters (hg.waiters e e.waiters)).trans hv.noWaiters
  rw [hg.waiters e [⟨p, f.tag⟩], List.tail_cons, ← hw]
  rfl

/-- A request that is served at once leaves what its service does, and its step does no more. -/
theorem takeLineRequest_served (hq : Quiet t) (ha : Admits s p f k) (hv : Serves s p l need e d) (hk : q.kind = k)
    (hc : holdingCheck k e.holdings[p] (s.holdingCount p) (s.capacity p) = none) (hr : recallsNeeded e p k = [])
    (hs : ((s.joined p f.tag q l).serveReq l { e with waiters := [⟨p, f.tag⟩] } ⟨⟨p, f.tag⟩, q⟩).1 = t) :
    (s.accepted p).takeLineRequest ⟨p, f.tag⟩ q l need job = t := by
  rw [takeLineRequest_serves ha hv hk hc hr]
  exact (congrArg (State.settle · _) hs).trans (settle_quiet hq)

/-- Settles O1: the service of a Read Words answers, and does not change the entry. -/
theorem readWordsServed : Obligations.ReadWordsServed := by
  intro p f s l e d first count had hq hv hp hf h1 h8 hh
  obtain ⟨job, hx⟩ := exec_readWords_admits had (by rw [hp]; exact parseReadWords_bytes l hf h1 h8)
  rw [hx]
  refine congrArg _ (takeLineRequest_served (hq.served ..) had hv rfl (holdingCheck_words (.inl rfl) (hh p) ..)
    (recallsNeeded_readers (.inl rfl) hh) ?_)
  have h := serveDone_joined (q := .readWords l first count) (data := wordBytes d first count) serving_id had.may hv
  rw [updateEntry_id] at h
  rw [← HubCopy.data_of hv.data] at h ⊢
  exact h

/-! ## Grants (R45 to R47) -/

/-- A granted holding within the port's right leaves the entry with it, and the answer (R45 to R47, R145, R174). -/
theorem serveGrant_joined {h : Holding} (ha : Admits s p f k) (hon : s.sessionState p = .online) (hv : Serves s p l need e d)
    (hx : excessRecall s.regions[e.region].access[p] h = none) :
    (((s.joined p f.tag q l).setHolding l p h).serveDone l ⟨p, f.tag⟩ data).watchGrant l p =
      s.served p f.tag data l { e with holdings := e.holdings.set p h, prefetched := false } := by
  have hsd := serveDone_joined (q := q) (data := data) (serving_holding p h) ha.may hv
  rw [State.setHolding, hsd]
  refine watchGrant_within (e := { e with holdings := e.holdings.set p h, prefetched := false })
    (entry?_head (entry?_some hv.present).2) ?_ ?_
  · show excessRecall s.regions[e.region].access[p] (e.holdings.set p h)[p] = none
    simpa using hx
  · show s.sessionState p ≠ .closing
    rw [hon]
    decide

/-- Settles O3: each grant is within the right that its kind needs. -/
theorem acquiresServed : Obligations.AcquiresServed := by
  refine ⟨fun p f s l e d had hq hv hp hn hc hh => ?_, fun p f s l e d had hq hv hp hh hc => ?_,
    fun p f s l e d had hq hv hp hr hh => ?_⟩
  · rw [exec_acquireRead_admits had hp]
    refine congrArg _ (takeLineRequest_served (hq.served ..) had hv rfl (holdingCheck_acquire (.inl rfl) hn hc)
      (recallsNeeded_readers (.inr (.inl rfl)) hh) ?_)
    rw [← HubCopy.data_of hv.data]
    exact serveGrant_joined had (online_of_checkSession had.may.session rfl rfl nofun) hv (excessRecall_read hv.use.right)
  · rw [exec_acquireWrite_admits had hp]
    refine congrArg _ (takeLineRequest_served (hq.served ..) had hv rfl (holdingCheck_acquire (.inr rfl) (hh p) hc)
      (recallsNeeded_writers (.inr (.inl rfl)) fun q _ => hh q) ?_)
    rw [← HubCopy.data_of hv.data]
    exact serveGrant_joined had (online_of_checkSession had.may.session rfl rfl nofun) hv (excessRecall_full hv.use.right _)
  · rw [exec_upgrade_admits had hp]
    refine congrArg _ (takeLineRequest_served (hq.served ..) had hv rfl (holdingCheck_upgrade hr ..)
      (recallsNeeded_writers (.inr (.inr rfl)) hh) ?_)
    exact serveGrant_joined had (online_of_checkSession had.may.session rfl rfl nofun) hv (excessRecall_full hv.use.right _)


/-! ## Write Words (R43, R44, R72) -/

/-- A recall is no matter of a request's checks, nor of whether its line's entry serves it. -/
theorem MayAsk.recalls (h : MayAsk s p k f.tag) (rs : List Recall) : MayAsk { s with recalls := rs } p k f.tag :=
  ⟨h.session, h.permitted, h.tagFree, h.room, h.mode⟩

theorem Serves.recalls (h : Serves s p l need e d) (rs : List Recall) : Serves { s with recalls := rs } p l need e d :=
  ⟨⟨h.use.region, h.use.cached, h.use.right⟩, h.present, h.idle, h.noWaiters, h.data⟩

/-- A TRACKED line's copy is owed to nobody when it becomes DIRTY (R86, R139). -/
theorem Serves.notOwed (h : Serves s p l need e d) (hc : s.regions[e.region].cls = .tracked) :
    s.classOf l ≠ some .writeThrough := by
  rw [classOf_mayUse h.use, hc]
  decide

/-- The merge of a Write Words on a TRACKED line whose port has dropped its READ (R43, R44). -/
theorem serveDone_dropped (new : LineData) (hm : MayAsk s p k f.tag) (hv : Serves s p l need e d)
    (hc : s.regions[e.region].cls = .tracked) :
    ((((s.joined p f.tag q l).setHolding l p .none).makeDirty l new .through).serveDone l ⟨p, f.tag⟩ data) =
      s.served p f.tag data l { e with copy := .dirty new, holdings := e.holdings.set p .none, prefetched := false } := by
  rw [makeDirty_tracked new .through (s := (s.joined p f.tag q l).setHolding l p .none) (hv.notOwed hc), setHolding_setCopy]
  exact serveDone_joined (serving_written p .none (.dirty new)) hm hv

/-- The same where its port holds nothing. -/
theorem serveDone_unheld (new : LineData) (hm : MayAsk s p k f.tag) (hv : Serves s p l need e d)
    (hc : s.regions[e.region].cls = .tracked) (hh : e.holdings[p] = .none) :
    ((s.joined p f.tag q l).makeDirty l new .through).serveDone l ⟨p, f.tag⟩ data =
      s.served p f.tag data l { e with copy := .dirty new, holdings := e.holdings.set p .none, prefetched := false } := by
  have hset : e.holdings.set p .none = e.holdings := by rw [← hh]; exact Vector.set_getElem_self ..
  rw [makeDirty_tracked new .through (s := s.joined p f.tag q l) (hv.notOwed hc), hset]
  exact serveDone_joined (serving_copy (.dirty new)) hm hv

/-- The state in which a Write Words has dropped its port's own READ, and closed the only recall of it (R44, R72). -/
theorem dropOwnRead_recalled {r : Recall} (hr : OnlyRecall s l p r) :
    s.dropOwnRead l p = (s.unrecalled l p).setHolding l p .none := by
  have ho : (s.setHolding l p .none).recallOutstanding l p = true := onlyRecall_outstanding (hr.congr rfl rfl)
  rw [State.dropOwnRead, if_pos ho]
  exact removeRecall_eq hr.unsent

theorem dropOwnRead_unrecalled (ho : s.recallOutstanding l p = false) : s.dropOwnRead l p = s.setHolding l p .none := by
  have h : (s.setHolding l p .none).recallOutstanding l p = false := ho
  rw [State.dropOwnRead, h]
  rfl

/-- An admitted Write Words that its line's entry serves: what is left is that its service leads to the state claimed. -/
theorem exec_writeWords_served {first count : Nat} {en : Enables} {new : LineData} (hq : Quiet t) (ha : Admits s p f .writeWords)
    (hv : Serves s p l .full e d)
    (hp : f.payload = le16 l ++ [count8 first, count8 count] ++ le32 en ++ wordBytes new first count)
    (hf : first ≤ 7) (h1 : 1 ≤ count) (h8 : first + count ≤ 8) (hen : en ≠ 0) (hin : enablesInside en first count = true)
    (hh : ∀ q : Port, q ≠ p → e.holdings[q] = .none) (hw : e.holdings[p] ≠ .write)
    (hs : ∀ q, ((if e.holdings[p] = .read then (s.joined p f.tag q l).dropOwnRead l p else s.joined p f.tag q l).makeDirty l
      (mergeBytes d new en) .through).serveDone l ⟨p, f.tag⟩ [bit (e.holdings[p] == .read)] = t) :
    exec (.writeWords p f) s = .next t := by
  obtain ⟨job, hx⟩ := exec_writeWords_admits ha (by rw [hp]; exact parseWriteWords_bytes l new hf h1 h8 hen hin)
  rw [hx]
  refine congrArg _ (takeLineRequest_served hq ha hv rfl (holdingCheck_words (.inr (.inl rfl)) hw ..)
    (recallsNeeded_writers (.inl rfl) hh) ?_)
  rw [← mergeBytes_wordsField d new hin, ← HubCopy.data_of hv.data] at hs
  simp only [← beq_iff_eq (a := e.holdings[p])] at hs
  exact hs _

/-- Settles O2: by whether the port holds the line READ, and whether that READ is recalled. -/
theorem writeWordsServed : Obligations.WriteWordsServed := by
  intro p f s l e d new first count en had hq hv hc hp hf h1 h8 hen hin hh hw written
  have hwq : Quiet written := hq.served ..
  refine ⟨fun ho => ?_, fun r hr hrec => ?_⟩
  · refine exec_writeWords_served hwq had hv hp hf h1 h8 hen hin hh hw fun q => ?_
    by_cases hpr : e.holdings[p] = .read
    · have hdrop : (s.joined p f.tag q l).dropOwnRead l p = _ := dropOwnRead_unrecalled ho
      rw [if_pos hpr, hdrop]
      exact serveDone_dropped _ had.may hv hc
    · have hnone : e.holdings[p] = .none := by cases hx : e.holdings[p] <;> simp_all
      rw [if_neg hpr]
      exact serveDone_unheld _ had.may hv hc hnone
  · refine exec_writeWords_served (t := { written with recalls := s.recallsWithout l p })
      (hwq.congr rfl rfl rfl rfl rfl rfl rfl rfl rfl) had hv hp hf h1 h8 hen hin hh hw fun q => ?_
    have hdrop : (s.joined p f.tag q l).dropOwnRead l p = _ := dropOwnRead_recalled (hrec.congr rfl rfl)
    rw [if_pos hr, hdrop]
    exact serveDone_dropped (s := s.unrecalled l p) _ (had.may.recalls _) (hv.recalls _) hc

end Sys2Proof.Machine

/-! PROOFS. Checks 1 to 5 of admission, for every kind of request (R33, R34, R123, R179, R189). -/

namespace Sys2Proof.Machine

variable {s : State} {p : Port} {f : RxFrame} {k : Kind} {a : Action} {bs : List Byte}

/-! ## Check 1 (R34) -/

theorem checkSession_takes (h : s.sessionTakes p k) : s.checkSession p k = none := by
  unfold State.checkSession
  unfold State.sessionTakes at h
  cases hs : s.sessionState p <;> simp_all

theorem checkSession_refuses (h : ¬ s.sessionTakes p k) : s.checkSession p k = some (refusalIn (s.sessionState p)) := by
  unfold State.checkSession
  unfold State.sessionTakes at h
  cases hs : s.sessionState p <;> simp_all [refusalIn]

/-- What is left of admission when check 1 lets the kind through (R33). -/
theorem admission_takes (h : s.sessionTakes p k) (tag : Byte) (g : Bool) : s.admission p k tag g =
    if k.supervisorOnly && p != s.supervisor then some .notPermitted
    else if !g then some .badFormat
    else if (s.outstanding p).any (fun r => r.id.tag == tag) then some .tagBusy
    else if 8 ≤ (s.outstanding p).length then some .tooMany
    else if s.mode == .stopped && !k.inStopped then some .hubStopped
    else none := by
  rw [State.admission, checkSession_takes h]
  rfl

/-! ## The format of a Resolve (R127; log entry 13) -/

/-- A payload is read as a Resolve of the action that it carries only. -/
theorem parseResolve_other (h : carriesAction a bs = false) : parseResolve a bs = none := by
  match bs with
  | [] => rfl
  | [_] => rfl
  | _ :: act :: data =>
    have hne : act ≠ a.code := by simpa [carriesAction, actionByte?] using h
    cases data <;> simp [parseResolve, hne]

theorem carriesAction_one {b : Action} (h : carriesAction a bs = true) (hb : b ≠ a) : carriesAction b bs = false := by
  have ha := carriesAction_eq h
  cases a <;> cases b <;> simp_all [carriesAction, Action.code]

/-- The format of a Resolve frame that carries no action but this. -/
theorem goodFormat_resolve (s : State) (p : Port) (h : ∀ b ≠ a, carriesAction b bs = false) :
    s.goodFormat p .resolve bs = (parseResolve a bs).isSome := by
  have hn : ∀ b ≠ a, parseResolve b bs = none := fun b hb => parseResolve_other (h b hb)
  unfold State.goodFormat
  cases a <;> simp [hn]

/-- A Resolve frame is taken by the row of the one action it can carry. -/
theorem exec_resolveCommand (p : Port) (f : RxFrame) (s : State) : ∃ a effect,
    exec (resolveCommand p f) s = .next (s.onResolve a p f effect) ∧ ∀ b ≠ a, carriesAction b f.payload = false := by
  by_cases h : ∃ a, carriesAction a f.payload = true
  · obtain ⟨a, ha⟩ := h
    rw [resolveCommand_of ha]
    cases a <;> exact ⟨_, _, rfl, fun b hb => carriesAction_one ha hb⟩
  · have hn : ∀ b, carriesAction b f.payload = false := by simpa using h
    rw [resolveCommand_retry (by simp [carriesOther, hn])]
    exact ⟨.retry, _, rfl, fun b _ => hn b⟩

/-! ## Refusals (R33) -/

/-- Whatever its kind, a request that admission refuses is answered with the status alone, and changes nothing else. -/
theorem exec_command_refused {st : Status} (h : Arrives s p f.seq)
    (ha : s.admission p k f.tag (s.goodFormat p k f.payload) = some st) :
    exec (k.command p f) s = .next (s.replied p f.tag st []) := by
  cases k
  case resolve =>
    obtain ⟨a, effect, hx, hb⟩ := exec_resolveCommand p f s
    rw [goodFormat_resolve s p hb] at ha
    exact hx.trans (congrArg _ (onRequest_refused h ha _))
  all_goals exact congrArg _ (onRequest_refused h ha _)

/-- Settles O18: the first check that fails decides what admission answers. -/
theorem admissionInOrder : Obligations.AdmissionInOrder := by
  intro k p f s har refused
  have refuse {st : Status} (ha : s.admission p k f.tag (s.goodFormat p k f.payload) = some st) : refused st :=
    exec_command_refused har ha
  refine ⟨fun hs => refuse (by rw [State.admission, checkSession_refuses hs]), fun hs => ?_⟩
  simp only [admission_takes hs] at refuse
  refine ⟨fun ho hp => refuse (by simp [ho, hp]), fun hp => ?_⟩
  have hperm : (k.supervisorOnly && p != s.supervisor) = false := by simpa using hp
  simp only [hperm, Bool.false_eq_true, if_false] at refuse
  refine ⟨fun hg => refuse (by simp [hg]), fun hg => ?_⟩
  simp only [hg, Bool.not_true, Bool.false_eq_true, if_false] at refuse
  refine ⟨fun ht => refuse (if_pos (by simpa using ht)), fun ht => ?_⟩
  have hfree : (s.outstanding p).any (fun r => r.id.tag == f.tag) = false := by simpa using ht
  simp only [hfree, Bool.false_eq_true, if_false] at refuse
  exact ⟨fun hn => refuse (if_pos hn), fun hn hm hk => refuse (by simp [Nat.not_le.2 hn, hm, hk])⟩

end Sys2Proof.Machine

/-! PROOFS. Checks 6 to 8 of a data request, and PLAIN lines (R35 to R38, R56, R57). -/

namespace Sys2Proof.Machine

variable {s : State} {p : Port} {l : Line} {f : RxFrame} {k : Kind} {i : RegionId} {need : Access} {st : Status}
  {plainGood : Bool}

/-! ## Check 6 (R35) -/

theorem checkRegion_outside (h : s.regionOf l = none) : s.checkRegion p l need plainGood = .error .outOfImage := by
  simp only [State.checkRegion, h]

theorem checkRegion_noAccess (h : s.regionOf l = some i) (hr : s.regions[i].access[p].rank < need.rank) :
    s.checkRegion p l need plainGood = .error .noAccess := by
  simp only [State.checkRegion, h, hr, if_true]

/-- In a region with the right needed, only a PLAIN line can be refused (R35). -/
theorem checkRegion_right (h : s.regionOf l = some i) (hr : need.rank ≤ s.regions[i].access[p].rank) :
    s.checkRegion p l need plainGood =
      if s.regions[i].cls == .plain && !plainGood then .error .notCacheable else .ok s.regions[i].cls := by
  simp only [State.checkRegion, h, Nat.not_lt.2 hr, if_false]

/-! ## Checks 6 to 8 together (R35 to R37) -/

theorem checkData_outside (h : s.regionOf l = none) : s.checkData p k l need plainGood = .error .outOfImage := by
  rw [State.checkData, checkRegion_outside h]

theorem checkData_noAccess (h : s.regionOf l = some i) (hr : s.regions[i].access[p].rank < need.rank) :
    s.checkData p k l need plainGood = .error .noAccess := by
  rw [State.checkData, checkRegion_noAccess h hr]

theorem checkData_notCacheable (h : s.regionOf l = some i) (hr : need.rank ≤ s.regions[i].access[p].rank)
    (hc : s.regions[i].cls = .plain) : s.checkData p k l need false = .error .notCacheable := by
  rw [State.checkData, checkRegion_right h hr, hc]
  rfl

/-- A PLAIN line that a port does not hold is good for the kinds that take one (R35, R38). -/
theorem checkData_plain (h : s.regionOf l = some i) (hr : need.rank ≤ s.regions[i].access[p].rank)
    (hc : s.regions[i].cls = .plain) (hk : k = .readWords ∨ k = .writeWords ∨ k = .flush) (hh : s.holding l p = .none) :
    s.checkData p k l need true = .ok .plain := by
  have hcheck : s.checkHolding p k l = none := by
    rw [State.checkHolding, hh, holdingCheck_words hk (by decide)]
  rw [State.checkData, checkRegion_right h hr, hc]
  simp [hcheck]

/-- On a TRACKED or WRITE_THROUGH line the first of checks 7 and 8 that fails decides (R36, R37). -/
theorem checkData_refused (h : s.regionOf l = some i) (hr : need.rank ≤ s.regions[i].access[p].rank)
    (hc : s.regions[i].cls ≠ .plain) (hl : s.checkLine p k l = some st) :
    s.checkData p k l need plainGood = .error st := by
  have hb : (s.regions[i].cls == .plain) = false := by simpa using hc
  rw [State.checkData, checkRegion_right h hr, hb]
  simp only [Bool.false_and, Bool.false_eq_true, if_false, hc, hl]

theorem checkLine_holding (h : s.checkHolding p k l = some st) : s.checkLine p k l = some st := by
  rw [State.checkLine, h]; rfl

theorem checkLine_poisoned (h : s.checkHolding p k l = none) (hp : ∃ e, s.entry? l = some e ∧ e.copy = .poisoned) :
    s.checkLine p k l = some .linePoisoned := by
  obtain ⟨e, he, hc⟩ := hp
  simp [State.checkLine, h, State.checkPoison, he, Entry.poisoned, hc]

/-! ## Requests that the checks refuse (R33) -/

theorem takeLineRequest_refused {q : Req} {job : Option DirectJob} (hk : q.kind = k)
    (h : s.checkData p k l need job.isSome = .error st) (tag : Byte) :
    (s.accepted p).takeLineRequest ⟨p, tag⟩ q l need job = s.replied p tag st [] := by
  have h' : (s.accepted p).checkData p q.kind l need job.isSome = .error st := by rw [hk]; exact h
  rw [State.takeLineRequest, h']
  exact accepted_reply ..

/-- A data request that checks 6 to 8 refuse is answered with the status alone, and changes nothing else (R33). -/
theorem exec_command_checked (hk : k.checksLine = true) (ha : Admits s p f k) (hl : k.lineNamed f.payload = some l)
    (hc : s.checkData p k l k.needs k.takesPlain = .error st) :
    exec (k.command p f) s = .next (s.replied p f.tag st []) := by
  cases k <;> cases hk
  case readWords =>
    obtain ⟨x, hx, rfl⟩ := Option.map_eq_some_iff.1 hl
    exact congrArg _ ((onRequest_admits ha hx _).trans (takeLineRequest_refused rfl hc _))
  case writeWords =>
    obtain ⟨x, hx, rfl⟩ := Option.map_eq_some_iff.1 hl
    exact congrArg _ ((onRequest_admits ha hx _).trans (takeLineRequest_refused rfl hc _))
  case prefetch =>
    refine congrArg _ ((onRequest_admits ha hl _).trans ?_)
    have hc' : (s.accepted p).checkData p .prefetch l .read false = .error st := hc
    rw [State.takePrefetch, hc']
    exact accepted_reply ..
  case flush =>
    refine congrArg _ ((onRequest_admits ha hl _).trans ?_)
    have hc' : (s.accepted p).checkData p .flush l .read true = .error st := hc
    rw [State.takeFlush, hc']
    exact accepted_reply ..
  all_goals exact congrArg _ ((onRequest_admits ha hl _).trans (takeLineRequest_refused rfl hc _))

/-- Settles O8: the first of checks 6 to 8 that fails decides the status. -/
theorem dataRequestRefused : Obligations.DataRequestRefused := by
  intro k p f s l hk had hl
  have refused {st : Status} (hc : s.checkData p k l k.needs k.takesPlain = .error st) :
      exec (k.command p f) s = .next (s.replied p f.tag st []) := exec_command_checked hk had hl hc
  refine ⟨fun ho => refused (checkData_outside ho), fun i hi => ⟨fun hr => refused (checkData_noAccess hi hr), fun hr =>
    ⟨fun hc hp => refused (by rw [hp]; exact checkData_notCacheable hi hr hc), fun hc => ?_⟩⟩⟩
  have held {st : Status} (h : s.checkHolding p k l = some st) : exec (k.command p f) s = .next (s.replied p f.tag st []) :=
    refused (checkData_refused hi hr hc (checkLine_holding h))
  refine ⟨fun hh hk' => held ?_, fun hh hk' => held ?_, fun hh hn hk' => held ?_, fun hh hk' => held ?_,
    fun hh hp => refused (checkData_refused hi hr hc (checkLine_poisoned hh hp))⟩
  · rcases hk' with rfl | rfl | rfl <;> simp [State.checkHolding, holdingCheck, hh]
  · rcases hk' with rfl | rfl <;> simp [State.checkHolding, holdingCheck, hh]
  · rcases hk' with rfl | rfl <;> simp [State.checkHolding, holdingCheck, hh, hn]
  · subst hk'
    simp [State.checkHolding, holdingCheck, hh]

/-! ## PLAIN lines (R38, R56, R57, R107) -/

/-- With the port busy, a request on a PLAIN line waits for it as a DIRECT job, and nothing else changes (R38, R107). -/
theorem takeLineRequest_direct {q : Req} {job : DirectJob} (hq : Quiet s) (hb : s.job.isSome = true)
    (hi : s.regionOf l = some i) (hr : need.rank ≤ s.regions[i].access[p].rank) (hc : s.regions[i].cls = .plain)
    (he : s.entry? l = none) (hk : q.kind = .readWords ∨ q.kind = .writeWords ∨ q.kind = .flush) (tag : Byte) :
    (s.accepted p).takeLineRequest ⟨p, tag⟩ q l need (some job) =
      { s.asked p tag q with directQueue := s.directQueue ++ [job] } := by
  have hh : s.holding l p = .none := by simp only [State.holding, he]
  have hd : (s.accepted p).checkData p q.kind l need true = .ok .plain := checkData_plain hi hr hc hk hh
  have hx : (s.accepted p).takeLineRequest ⟨p, tag⟩ q l need (some job) =
      ((s.asked p tag q).handDirect job).settle (s.accepted p) := by
    simp only [State.takeLineRequest, Option.isSome_some, hd]
    rfl
  rw [hx]
  exact settle_quiet (hq.busy hb rfl rfl rfl rfl)

/-- Settles O7: each kind needs its right, and hands over its own job. -/
theorem plainLineBecomesDirect : Obligations.PlainLineBecomesDirect := by
  intro p f s l i hq hb hi hc he
  refine ⟨fun first count had hr hp => ?_, fun x had hr hp hx => ?_⟩
  · refine congrArg _ ((onRequest_admits had hp _).trans (takeLineRequest_direct hq hb hi ?_ hc he (.inl rfl) f.tag))
    cases ha : s.regions[i].access[p] <;> simp_all [Access.rank]
  · subst hx
    refine congrArg _ ((onRequest_admits had hp _).trans
      (takeLineRequest_direct hq hb hi ?_ hc he (.inr (.inl rfl)) f.tag))
    rw [hr]

end Sys2Proof.Machine

/-! PROOFS. Release (R36, R49). -/

namespace Sys2Proof.Machine

variable {s : State} {p : Port} {l : Line} {f : RxFrame} {data : Option LineData} {tag : Byte} {es : List Entry}

/-! ## The operand of a Release (R49) -/

theorem releaseOperand_line (h : f.payload = le16 l) : s.releaseOperand p f.payload = some (l, none) := by
  rw [State.releaseOperand, h, parseRelease_line]

theorem releaseOperand_data {d : LineData} (h : f.payload = le16 l ++ lineBytes d) :
    s.releaseOperand p f.payload = if s.holding l p = .write then some (l, some d) else none := by
  rw [State.releaseOperand, h, parseRelease_data]

theorem exec_release_admits (h : Admits s p f .release) (hp : s.releaseOperand p f.payload = some (l, data)) :
    exec (.release p f) s = .next ((s.accepted p).takeRelease p f.tag l data) :=
  congrArg _ (onRequest_admits h (a := (l, data)) hp _)

/-! ## A Release taken (R49, R71) -/

/-- A port gives up its holding of a line, with the data it sends. -/
def State.givenUp (s : State) (l : Line) (p : Port) (data : Option LineData) : State :=
  match data with
  | some d => (s.setHolding l p .none).makeDirty l d .through
  | none => s.setHolding l p .none

theorem takeRelease_notHeld (h : s.holding l p = .none) : s.takeRelease p tag l data = s.reply p tag .notHeld [] := by
  have hc : s.checkHolding p .release l = some .notHeld := by rw [State.checkHolding, h]; rfl
  rw [State.takeRelease, hc]

theorem takeRelease_held (h : s.holding l p ≠ .none) : s.takeRelease p tag l data =
    (if ((s.givenUp l p data).reply p tag .done []).recallOutstanding l p
      then ((s.givenUp l p data).reply p tag .done []).closeRecall l p
      else (s.givenUp l p data).reply p tag .done []).settle s := by
  have hc : s.checkHolding p .release l = none := by
    cases hh : s.holding l p <;> simp_all [State.checkHolding, holdingCheck]
  rw [State.takeRelease, hc]
  cases data <;> rfl

/-- A Release of a line that is not recalled changes the line table and is answered, and its step does no more (R49). -/
theorem takeRelease_unrecalled (hq : Quiet s) (ho : s.recallOutstanding l p = false) (hh : s.holding l p ≠ .none)
    (hg : (s.accepted p).givenUp l p data = (s.accepted p).withTable es) :
    (s.accepted p).takeRelease p tag l data = (s.replied p tag .done []).withTable es := by
  have hr : ((s.accepted p).withTable es).reply p tag .done [] = (s.replied p tag .done []).withTable es :=
    reply_behind (t := (s.accepted p).withTable es) rfl ..
  have ho' : ((s.replied p tag .done []).withTable es).recallOutstanding l p = false := ho
  have hquiet : Quiet ((s.replied p tag .done []).withTable es) := hq.congr rfl rfl rfl rfl rfl rfl rfl rfl rfl
  rw [takeRelease_held (s := s.accepted p) hh, hg, hr, ho']
  exact settle_quiet hquiet

/-- Settles O19: by what the Release carries, and the holding that it finds. -/
theorem releaseAnswered : Obligations.ReleaseAnswered := by
  refine ⟨fun p f s l had hq ho => ⟨fun hp hh => ?_, fun d hp hh hc => ?_⟩,
    fun p f s l had => ⟨fun d hp hh => ?_, fun hp hh => ?_⟩⟩
  · rw [exec_release_admits had (releaseOperand_line hp)]
    exact congrArg _ (takeRelease_unrecalled hq ho hh rfl)
  · rw [exec_release_admits had ((releaseOperand_data hp).trans (if_pos hh))]
    refine congrArg _ (takeRelease_unrecalled hq ho (by rw [hh]; decide) ?_)
    exact (makeDirty_tracked (s := (s.accepted p).setHolding l p .none) d .through hc).trans (setHolding_setCopy ..)
  · exact congrArg _ (onRequest_badFormat had ((releaseOperand_data (s := s.accepted p) hp).trans (if_neg hh)) _)
  · rw [exec_release_admits had (releaseOperand_line hp), takeRelease_notHeld (s := s.accepted p) hh, accepted_reply]

end Sys2Proof.Machine

/-! PROOFS. Fences and lost links leave nothing of their port (R59, R60, R74 to R78, R122, R165, R167, R171, R172, R176). -/

namespace Sys2Proof.Machine

variable {s t v : State} {p : Port} {c : Instr} {cause : Cause}

theorem isOpen_iff {x : SessionState} : x.isOpen = true ↔ x = .online ∨ x = .closing := by cases x <;> decide

/-! ## What a frame changes before its meaning is taken -/

/-- Only the links changed, and what stood in their transmit queues stands at the front. -/
structure LinksOnly (s v : State) : Prop where
  same  : v = { s with links := v.links }
  keeps : Keeps s v

theorem LinksOnly.refl (s : State) : LinksOnly s s := ⟨rfl, Keeps.refl s⟩

theorem LinksOnly.trans {u : State} (a : LinksOnly s v) (b : LinksOnly v u) : LinksOnly s u :=
  ⟨b.same.trans (by rw [a.same]), a.keeps.trans b.keeps⟩

theorem restartKeepalive_linksOnly (s : State) (p : Port) : LinksOnly s (s.restartKeepalive p) :=
  ⟨by rw [restartKeepalive_eq]; rfl, restartKeepalive_keeps s p⟩

theorem acceptedReply_linksOnly (s : State) (p : Port) (tag : Byte) (st : Status) (d : List Byte) :
    LinksOnly s ((s.accepted p).reply p tag st d) := by
  refine ⟨rfl, Keeps.trans ?_ (reply_keeps ..)⟩
  rw [← accept_eq]
  exact (restartKeepalive_keeps s p).trans (acceptSeq_keeps _ p)

/-! ## What a revocation does to the fault unit (R75, R76, R78, R122) -/

/-- The fault unit is the same in both states. -/
def SameUnit (s t : State) : Prop := t.faultQueue = s.faultQueue ∧ t.stopRecord = s.stopRecord ∧ t.mode = s.mode

theorem SameUnit.trans {u : State} (a : SameUnit s t) (b : SameUnit t u) : SameUnit s u := by
  obtain ⟨aq, as, am⟩ := a
  obtain ⟨bq, bs, bm⟩ := b
  exact ⟨bq.trans aq, bs.trans as, bm.trans am⟩

theorem KeepsIf.sameUnit {x y : Prop} (h : KeepsIf x y True s t) : SameUnit s t := h.unit trivial

/-- The lines of a HOLDER_LOST record are POISONED, and name it (R76). -/
theorem RecordsOk.poisoned {r : FaultRecord} {q : Port} {lost : List Line} (h : RecordsOk s) (hr : r ∈ s.faultRecords)
    (hb : r.body = .holderLost q cause lost) :
    ∀ l ∈ lost, ∃ e ∈ s.table, e.line = l ∧ e.copy = .poisoned ∧ e.recordId = some r.id := by
  intro l hl
  obtain ⟨e, he, hline, hid, hfits⟩ := h.lines r hr l (by rw [hb]; exact hl)
  rw [FaultRecord.Fits, hb] at hfits
  exact ⟨e, he, hline, hfits, hid⟩

/-- A hub in order that leaves the fault unit as the revocation of a port's holdings left it has revoked them: the lines lost are
those of the new record, and the laws of records say what their entries are. -/
theorem revokes_of_unit (a : State) (ha : a = { s with links := a.links, sessions := a.sessions }) (hs : InOrder s)
    (ht : InOrder t) (hr : t.resetN = true) (hu : SameUnit (a.revokeHoldings p cause) t) : s.Revokes t p cause := by
  have hfull : s.faultQueue.length ≤ 6 := hs.faults.queue
  rw [ha] at hu
  obtain ⟨lost, hasc, hmem, hnone, hsome⟩ :=
    revokeHoldings_unit { s with links := a.links, sessions := a.sessions } p cause hfull hs.tables.lines
  obtain ⟨hqueue, hstop, hmode⟩ := hu
  rw [← hqueue, ← hstop, ← hmode] at hnone hsome
  refine ⟨lost, hasc, hmem, hnone, fun h => ?_⟩
  obtain ⟨hroom, hno⟩ := hsome h
  have hr' : (⟨s.freeRecordId, .posted, s.hubTime, .holderLost p cause lost⟩ : FaultRecord) ∈ t.faultRecords := by
    rcases Nat.lt_or_eq_of_le hfull with h6 | h6
    · obtain ⟨hq, -, -⟩ := hroom h6
      rw [State.faultRecords, hq]
      exact List.mem_append_left _ (List.mem_append_right _ (List.mem_singleton.2 rfl))
    · obtain ⟨-, hs', -⟩ := hno h6
      rw [State.faultRecords, hs']
      exact List.mem_append_right _ (List.mem_singleton.2 rfl)
  refine ⟨ht.records.poisoned hr' rfl, hroom, fun h6 => ?_⟩
  obtain ⟨hq, hs', hm⟩ := hno h6
  exact ⟨hq, hs', hm, ht.faults.pinOn hm hr⟩

/-! ## Fences (R172) -/

/-- A command that fences the port, when no more than links changed before, leaves what the statement says. -/
theorem fenced_leavesNothing {found : State} (hv : LinksOnly s v) (hr : s.resetN = true)
    (ho : (s.sessionState p).isOpen = true) (hx : exec c s = .next ((v.fencePort p cause).settle found)) :
    ∃ t, exec c s = .next t ∧ t.sessions[p] = { s.sessions[p] with state := .fenced } ∧
      t.links[p].keepalive = none ∧ NothingOf t p ∧
      (s.links[p].up = true → ∃ (n : Byte) (earlier later : List Frame),
        t.links[p].tx = s.links[p].tx ++ earlier ++ fencedReplies n (s.outstanding p) ++ later) ∧
      (InOrder s → s.Revokes t p cause) := by
  have hsess : v.sessions = s.sessions := by rw [hv.same]
  have hout : v.outstanding p = s.outstanding p := by rw [hv.same]; rfl
  have hov : (v.sessionState p).isOpen = true := by rw [State.sessionState, hsess]; exact ho
  obtain ⟨hfenced, hkeep, hnothing⟩ := fencePort_settled found cause hov
  rw [hsess] at hfenced
  refine ⟨_, hx, hfenced, hkeep, hnothing, fun hup => ?_, fun hs => ?_⟩
  · obtain ⟨n, earlier, later, hl⟩ := fencePort_lane found cause hov ((hv.keeps.linkUp p).trans hup)
    obtain ⟨front, hf⟩ := hv.keeps.lanes trivial p
    refine ⟨n, front ++ earlier, later, ?_⟩
    rw [hl, ← hf, hout, List.append_assoc s.links[p].tx]
  · refine revokes_of_unit (v.fencing p) (by rw [hv.same]; rfl) hs (exec_keeps_inOrder c hx hs) ?_ ?_
    · rw [(settle_keeps _ found).resetN, (fencePort_keeps v p cause).resetN, hv.keeps.resetN, hr]
    · exact (revoke_after _ p cause true).sameUnit.trans
        ((fencePort_after v p cause hov).sameUnit.trans (settle_keeps _ found).sameUnit)

theorem takeDeadline_reached {r : Recall} (is : r ∈ s.recalls) (only : ∀ x ∈ s.recalls, x.id = r.id → x = r)
    (running : s.mode = .running) (due : s.hubTime = r.deadline) :
    s.takeDeadline r.id = (s.fencePort r.asked.port .recallTimeout).settle s := by
  have hfind : s.recalls.find? (fun x => x.id == r.id) = some r := by
    cases hf : s.recalls.find? (fun x => x.id == r.id) with
    | none => simpa using List.find?_eq_none.1 hf r is
    | some x => rw [only x (List.mem_of_find?_eq_some hf) (by simpa using List.find?_some hf)]
  rw [State.takeDeadline, hfind]
  exact if_pos ⟨running, by simp [reached, due]⟩

theorem takeExpiry_reached (running : s.mode = .running) (due : s.links[p].keepalive = some s.hubTime) :
    s.takeExpiry p = (s.fencePort p .keepaliveExpired).settle s := by
  rw [State.takeExpiry, due]
  exact if_pos ⟨running, by simp [reached]⟩

/-- A Replay Request for a frame that is neither in the replay buffer nor the next to be sent fences an open port (R165). -/
theorem takeReplay_lost {n : Byte} (ho : (s.sessionState p).isOpen = true) (lost : ∀ x ∈ s.links[p].replay, x.seq ≠ n)
    (unsent : n ≠ s.links[p].sendNum) : s.takeReplay p n = (s.fencePort p .replayLost).settle s := by
  have hnone : s.links[p].replayFrom n = none := by
    have hall : s.links[p].replay.dropWhile (fun x => x.seq != n) = [] := by simpa using lost
    rw [LinkUnit.replayFrom, hall]
  rw [State.takeReplay, hnone]
  dsimp only
  rw [if_neg unsent, if_pos ho]

theorem takeFence_open {q : Port} (tag : Byte) (ho : (s.sessionState q).isOpen = true) (hq : q ≠ s.supervisor) :
    s.takeFence p tag q = ((s.reply p tag .done []).fencePort q .supervisorFence).settle s := by
  rw [State.takeFence, if_neg hq, if_pos ho]

theorem exec_recallTimeout (id : Byte) (hr : s.resetN = true) : exec (.recallTimeout id) s = .next (s.takeDeadline id) :=
  congrArg Host.Outcome.next (if_pos hr)

theorem exec_keepaliveExpired (hr : s.resetN = true) : exec (.keepaliveExpired p) s = .next (s.takeExpiry p) :=
  congrArg Host.Outcome.next (if_pos hr)

theorem receives_iff : s.receives p = true ↔ s.resetN = true ∧ s.links[p].up = true := by simp [State.receives]

theorem exec_replayRequest (n : Byte) (h : s.receives p = true) :
    exec (.replayRequest p [n]) s = .next ((s.restartKeepalive p).takeReplay p n) :=
  congrArg Host.Outcome.next (if_pos h)

theorem exec_fence_admits {f : RxFrame} {q : Port} (h : Admits s p f .fence) (hp : f.payload = [portByte q]) :
    exec (.fence p f) s = .next ((s.accepted p).takeFence p f.tag q) :=
  congrArg Host.Outcome.next (onRequest_admits h (a := q) (by rw [hp]; exact parsePort_byte q) _)

/-- Every command that fences an open port fences it behind what its frame changed of the links (R74, R165, R171, R182). -/
theorem exec_fences (h : Fences s p c cause) (hr : s.resetN = true) (ho : (s.sessionState p).isOpen = true) :
    ∃ v found, LinksOnly s v ∧ exec c s = .next ((v.fencePort p cause).settle found) := by
  cases h with
  | recallTimeout r is only target running due =>
    refine ⟨s, s, .refl s, ?_⟩
    rw [exec_recallTimeout _ hr, takeDeadline_reached is only running due, target]
  | keepaliveExpired running due =>
    refine ⟨s, s, .refl s, ?_⟩
    rw [exec_keepaliveExpired hr, takeExpiry_reached running due]
  | replayRequest n up lost unsent =>
    have hv := restartKeepalive_linksOnly s p
    have hso : ((s.restartKeepalive p).sessionState p).isOpen = true := by rw [hv.same]; exact ho
    have hlost : ∀ x ∈ (s.restartKeepalive p).links[p].replay, x.seq ≠ n := by
      rw [restartKeepalive_eq]; simpa using lost
    have hunsent : n ≠ (s.restartKeepalive p).links[p].sendNum := by rw [restartKeepalive_eq]; simpa using unsent
    refine ⟨_, s.restartKeepalive p, hv, ?_⟩
    rw [exec_replayRequest n (receives_iff.2 ⟨hr, up⟩), takeReplay_lost hso hlost hunsent]
  | fence sup f admits payload other =>
    refine ⟨_, s.accepted sup, acceptedReply_linksOnly s sup f.tag .done [], ?_⟩
    rw [exec_fence_admits admits payload, takeFence_open (s := s.accepted sup) f.tag ho other]

/-- Settles O45: whatever fences the port, it is a fence of `State.fencePort`. -/
theorem fenceLeavesNothing : Obligations.FenceLeavesNothing := by
  intro p s c cause hr hs hf
  have ho := isOpen_iff.2 hs
  obtain ⟨v, found, hv, hx⟩ := exec_fences hf hr ho
  exact fenced_leavesNothing hv hr ho hx

/-! ## Lost and restarted links (R167, R176) -/

/-- A port whose session is over with its link: what the end of its step has to leave alone. -/
structure SessionOver (s : State) (p : Port) (x : Session) (l : LinkUnit) : Prop where
  session : s.sessions[p] = x
  notices : s.notices[p] = NoticeUnit.reset
  link    : s.links[p] = l
  nothing : NothingOf s p

/-- The end of the step leaves alone a port that has no session (R169). -/
theorem SessionOver.settled {x : Session} {l : LinkUnit} (h : SessionOver s p x l) (hx : x.state.hasSession = false)
    (found : State) :
    SessionOver (s.settle found) p x l := by
  have hl := settle_leaves found h.nothing
  have hs : (s.sessionState p).hasSession = false := by rw [State.sessionState, h.session]; exact hx
  have hc : s.sessionState p ≠ .closing := fun hc => by rw [hc] at hs; cases hs
  exact ⟨(hl.session hc).trans h.session, (hl.notices hs).trans h.notices, (hl.link hs).trans h.link, hl.nothing h.nothing⟩

/-- The end of a session with another link unit left on its port (R176). -/
theorem endSession_ended {next : SessionState} (ho : (s.sessionState p).isOpen = true) (l : LinkUnit) :
    SessionOver ((s.endSession p next).setLink p l) p { state := next, capacity := none, number := none } l := by
  obtain ⟨hsess, hnot, -, hn⟩ := endSession_gone (next := next) ho
  exact ⟨hsess, hnot, by simp [State.setLink], { hn with }⟩

/-- After the holdings are revoked, the end of a session leaves the fault unit alone, and so does what follows it. -/
theorem endSession_unit (ho : (s.sessionState p).isOpen = true) (next : SessionState) (l : LinkUnit) (found : State) :
    SameUnit (s.revokeHoldings p .linkLost) (((s.endSession p next).setLink p l).settle found) := by
  have hend : s.endingSession p = s.revoke p .linkLost false := if_pos ho
  have hafter := endSession_after s p next
  rw [hend] at hafter
  have hset : SameUnit (s.endSession p next) ((s.endSession p next).setLink p l) := ⟨rfl, rfl, rfl⟩
  exact (((revoke_after s p .linkLost false).sameUnit.trans hafter.sameUnit).trans hset).trans (settle_keeps _ found).sameUnit

/-- A command that ends the session of an open port, when no more than links changed before, and leaves it this link. -/
theorem ended_leavesNothing {found : State} {next : SessionState} {l : LinkUnit} (hv : LinksOnly s v) (hr : s.resetN = true)
    (ho : (s.sessionState p).isOpen = true) (hn : next.hasSession = false)
    (hx : exec c s = .next (((v.endSession p next).setLink p l).settle found)) :
    ∃ t, exec c s = .next t ∧ t.sessions[p] = { state := next, capacity := none, number := none } ∧
      t.notices[p] = NoticeUnit.reset ∧ t.links[p] = l ∧ NothingOf t p ∧ (InOrder s → s.Revokes t p .linkLost) := by
  have hov : (v.sessionState p).isOpen = true := by rw [hv.same]; exact ho
  obtain ⟨hsess, hnot, hlink, hnothing⟩ := (endSession_ended (next := next) hov l).settled hn found
  refine ⟨_, hx, hsess, hnot, hlink, hnothing, fun hs => ?_⟩
  refine revokes_of_unit v (by rw [hv.same]) hs (exec_keeps_inOrder c hx hs) ?_ (endSession_unit hov next l found)
  have hset : ((v.endSession p next).setLink p l).resetN = (v.endSession p next).resetN := rfl
  rw [(settle_keeps _ found).resetN, hset, (endSession_keeps v p next).resetN, hv.keeps.resetN, hr]

theorem exec_linkDown (h : s.receives p = true) :
    exec (.linkDown p) s = .next (((s.endSession p .down).setLink p LinkUnit.reset).settle s) :=
  congrArg Host.Outcome.next (if_pos h)

/-- The link unit of a restarted link: reset but UP, with the hub's Link Restart and the Session End to be sent
(R158, R167, R168). -/
def LinkUnit.restartedWith (no : SessionNo) : LinkUnit :=
  { LinkUnit.reset with
    up := true
    tx := [linkFrame linkRestartKind 0 [1], linkFrame sessionEndKind 0 (3 :: le16 no)] }

/-- A link frame created behind a change of its link. -/
theorem sendLink_setLink (l : LinkUnit) (kind tag : Byte) (payload : List Byte) :
    (s.setLink p l).sendLink p kind tag payload = s.setLink p (l.sendLink kind tag payload) := by
  simp [State.sendLink, State.setLink]

/-- A Link Restart of an open port resets its link behind the end of its session (R167). -/
theorem takeLinkRestart_open {no : SessionNo} (ho : (s.sessionState p).isOpen = true) (hup : s.links[p].up = true)
    (hn : s.sessions[p].number = some no) :
    s.takeLinkRestart p = ((s.endSession p .idle).setLink p (.restartedWith no)).settle s := by
  have hlink : (s.endSession p .idle).links[p].up = true := ((endSession_keeps s p .idle).linkUp p).trans hup
  rw [State.takeLinkRestart, if_pos ho]
  dsimp only
  rw [hn]
  rw [State.answerLinkRestart, State.sendSessionEnd, sendLink_setLink, sendLink_setLink, LinkUnit.restarted, hlink]
  rfl

theorem exec_linkRestart {b : Byte} (h : s.receives p = true) (hb : b.getLsbD 0 = false) :
    exec (.linkRestart p [b]) s = .next ((s.restartKeepalive p).takeLinkRestart p) := by
  have hf : parseAnswerFlag [b] = some false := by rw [parseAnswerFlag, hb]
  refine congrArg Host.Outcome.next ((if_pos h).trans ?_)
  rw [hf]

/-- Settles O47: either way the session ends, and only the link unit that is left on the port differs. -/
theorem lostLinkLeavesNothing : Obligations.LostLinkLeavesNothing := by
  intro p s hrec hs ends
  obtain ⟨hr, hup⟩ := receives_iff.1 hrec
  have ho := isOpen_iff.2 hs
  refine ⟨ended_leavesNothing (.refl s) hr ho rfl (exec_linkDown hrec), fun b no hb hn => ?_⟩
  have hv := restartKeepalive_linksOnly s p
  have hov : ((s.restartKeepalive p).sessionState p).isOpen = true := by rw [hv.same]; exact ho
  have hnv : (s.restartKeepalive p).sessions[p].number = some no := by rw [hv.same]; exact hn
  have hupv : (s.restartKeepalive p).links[p].up = true := (hv.keeps.linkUp p).trans hup
  refine ended_leavesNothing hv hr ho rfl (found := s.restartKeepalive p) ?_
  rw [exec_linkRestart hrec hb, takeLinkRestart_open hov hupv hnv]
  rfl

end Sys2Proof.Machine

/-! PROOFS. Flush (R51 to R53, R84, R85, R87, R96, R98). -/

namespace Sys2Proof.Machine

variable {s u : State} {p : Port} {l : Line} {e : Entry} {d : LineData} {f : RxFrame} {i : RegionId} {tag : Byte} {id : ReqId}
  {j : JournalEntry}

/-! ## Lines without an entry (R51) -/

theorem takeFlush_plain (hi : s.regionOf l = some i) (hr : s.regions[i].access[p] ≠ .none) (hc : s.regions[i].cls = .plain)
    (hh : s.holding l p = .none) : (s.accepted p).takeFlush ⟨p, tag⟩ l = s.replied p tag .done [] := by
  have hright : Access.rank .read ≤ (s.regions[i].access[p]).rank := by
    cases ha : s.regions[i].access[p] <;> simp_all [Access.rank]
  have hd : (s.accepted p).checkData p .flush l .read true = .ok .plain :=
    checkData_plain hi hright hc (.inr (.inr rfl)) hh
  rw [State.takeFlush, hd]
  exact accepted_reply ..

/-- A Flush of an absent line waits on its newest journal entry, if it has one (R51). -/
theorem takeFlush_absent (hu : MayUse s p l .read i) (he : s.entry? l = none) : (s.accepted p).takeFlush ⟨p, tag⟩ l =
    ((s.newest? l).map fun j => (s.asked p tag (.flush l)).waitFlush ⟨p, tag⟩ j.seq).getD (s.replied p tag .done []) := by
  have hcl : s.checkLine p .flush l = none := by rw [checkLine_absent he]; rfl
  have hd : (s.accepted p).checkData p .flush l .read true = .ok s.regions[i].cls :=
    checkData_mayUse (s := s.accepted p) (i := i) ⟨hu.region, hu.cached, hu.right⟩ true hcl
  have he' : (s.accepted p).entry? l = none := he
  have hn : (s.accepted p).newest? l = s.newest? l := rfl
  have hp : s.regions[i].cls ≠ .plain := hu.cached
  rw [State.takeFlush, hd]
  cases hcls : s.regions[i].cls with
  | plain => exact absurd hcls hp
  | tracked | writeThrough =>
    simp only [he', Option.isSome_none, Bool.false_eq_true, if_false, hn, accepted_reply]
    cases s.newest? l <;> rfl

/-! ## The service of a Flush (R52, R53) -/

theorem serveFlush_clean (hc : e.copy = .clean d) : s.serveFlush l e id =
    (((s.newest? l).map fun j => (s.dropHead l).waitFlush id j.seq).getD ((s.dropHead l).answer id .done []), true) := by
  rw [State.serveFlush, hc]
  cases s.newest? l <;> rfl

theorem serveFlush_inserts (hc : e.copy = .dirty d) (hi : s.canInsert l = true) (hu : s.insertCopy l d .flush = u)
    (hj : u.newest? l = some j) : s.serveFlush l e id = ((u.dropHead l).waitFlush id j.seq, true) := by
  simp only [State.serveFlush, hc, hi, if_true, hu, hj]

theorem serveFlush_shutOut (hc : e.copy = .dirty d) (hi : s.canInsert l = false) :
    s.serveFlush l e id = (s.joinSpace l .flush, false) := by
  simp only [State.serveFlush, hc, hi, Bool.false_eq_true, if_false]

theorem joinSpace_empty (h : s.jspace = []) (o : Origin) : s.joinSpace l o = { s with jspace := [.line l o] } := by
  simp [State.joinSpace, State.inSpace, h]

/-- A Flush of a line that serves it is served at once, if no port holds the line WRITE (R51, R52). -/
theorem exec_flush_serves (had : Admits s p f .flush) (hp : f.payload = le16 l) (hv : Serves s p l .read e d)
    (hh : ∀ q : Port, e.holdings[q] ≠ .write) : exec (.flush p f) s =
      .next (((s.joined p f.tag (.flush l) l).serveFlush l e ⟨p, f.tag⟩).1.settle (s.accepted p)) := by
  have hcl : s.checkLine p .flush l = none :=
    (checkLine_present hv.present hv.data).trans (holdingCheck_words (.inr (.inr rfl)) (hh p) ..)
  rw [exec_flush_admits had hp, takeFlush_present hv.use hv.present hcl,
    enterLine_alone (s := s.asked p f.tag (.flush l)) hv.present hv.idle hv.noWaiters (asked_request? had.may _) hcl
      (recallsNeeded_readers (.inr (.inr rfl)) hh)]
  rfl

/-! ## The entry of a Flush that has left its waiters -/

/-- A change of the entry that a Flush has joined is one change of the entry as it was. -/
theorem joined_changed {q : Req} (hn : (s.table.map Entry.line).Nodup) (hv : Serves s p l .read e d) (g h : Entry → Entry)
    (hg : g { e with waiters := [⟨p, tag⟩] } = h e) : (s.joined p tag q l).changed l g = s.changed l h := by
  have hj : (s.joined p tag q l).changed l g = s.changed l fun x => g { x with waiters := x.waiters ++ [⟨p, tag⟩] } :=
    changed_changed (s := s.asked p tag q) (fun x => { x with waiters := x.waiters ++ [⟨p, tag⟩] }) g fun _ => rfl
  rw [hj]
  refine changed_congr hv.present hn ?_
  rw [hv.noWaiters]
  exact hg

theorem joined_dropHead {q : Req} (hn : (s.table.map Entry.line).Nodup) (hv : Serves s p l .read e d) :
    (s.joined p tag q l).dropHead l = s.asked p tag q := by
  have hid : (s.joined p tag q l).changed l (fun x => { x with waiters := x.waiters.tail }) = s.table := by
    rw [joined_changed hn hv _ (fun x => x) (by rw [List.tail_cons, ← hv.noWaiters])]
    exact changed_same hv.present hn rfl
  rw [State.dropHead, updateEntry_eq, hid]
  rfl

/-- A Flush leaves the waiters of its line's entry, whose copy has become CLEAN. -/
theorem cleaned_dropHead {q : Req} (hn : (s.table.map Entry.line).Nodup) (hv : Serves s p l .read e d) :
    (u.withTable ((s.joined p tag q l).changed l fun x => { x with copy := .clean d })).dropHead l =
      u.withTable (s.changed l fun x => { x with copy := .clean d }) := by
  have ht : (u.withTable ((s.joined p tag q l).changed l fun x => { x with copy := .clean d })).changed l
      (fun x => { x with waiters := x.waiters.tail }) =
      (s.joined p tag q l).changed l fun x => { x with copy := .clean d, waiters := x.waiters.tail } :=
    changed_changed (s := s.joined p tag q l) (fun x => { x with copy := .clean d }) _ fun _ => rfl
  have hw : ({ e with copy := .clean d, waiters := [] } : Entry) = { e with copy := .clean d } := by rw [← hv.noWaiters]
  rw [State.dropHead, updateEntry_eq, ht, joined_changed hn hv
    (fun x => { x with copy := .clean d, waiters := x.waiters.tail }) (fun x => { x with copy := .clean d }) hw]
  rfl

/-! ## Flushes that wait (R52, R53, R87, R96) -/

/-- A DIRTY copy that enters the journal leaves the Flush waiting on its entry (R53, R96). -/
theorem exec_flush_inserts {k : JournalEntry} (had : Admits s p f .flush) (hp : f.payload = le16 l) (ht : TablesOk s)
    (hv : Serves s p l .read e d) (hh : ∀ q : Port, e.holdings[q] ≠ .write) (hc : e.copy = .dirty d)
    (hi : s.canInsert l = true)
    (hu : (s.joined p f.tag (.flush l) l).insertCopy l d .flush =
      u.withTable ((s.joined p f.tag (.flush l) l).changed l fun x => { x with copy := .clean d }))
    (hk : u.newest? l = some k) (hq : Quiet u) :
    exec (.flush p f) s =
      .next ((u.withTable (s.changed l fun x => { x with copy := .clean d })).waitFlush ⟨p, f.tag⟩ k.seq) := by
  have hi' : (s.joined p f.tag (.flush l) l).canInsert l = true := hi
  have hk' : (u.withTable ((s.joined p f.tag (.flush l) l).changed l fun x => { x with copy := .clean d })).newest? l =
    some k := hk
  rw [exec_flush_serves had hp hv hh, serveFlush_inserts hc hi' hu hk', cleaned_dropHead ht.lines hv]
  exact congrArg _ (settle_quiet (hq.congr rfl rfl rfl rfl rfl rfl rfl rfl rfl))

/-- A full journal that has no QUEUED entry of the line takes nothing of it (R83). -/
theorem canInsert_full (hl : s.journal.length = 32) (hn : ∀ k ∈ s.journal, k.line = l → k.state ≠ .queued) :
    s.canInsert l = false := by
  simpa [State.canInsert, State.hasQueued, State.slotFree, hl, Config.journalSize] using hn

/-- On a full journal the end of a step serves nobody of the journal-space queue (R88). -/
theorem serveSpace_full (hl : s.journal.length = 32) : s.serveSpace = s := by
  have hf : s.slotFree = false := by simp [State.slotFree, hl, Config.journalSize]
  cases hj : s.jspace with
  | nil => exact serveSpace_nil hj
  | cons w ws => simp [State.serveSpace, hj, State.spaceLoop, hf]

theorem exec_flush_shutOut (had : Admits s p f .flush) (hp : f.payload = le16 l) (ht : TablesOk s) (hq : Quiet s)
    (hv : Serves s p l .read e d) (hh : ∀ q : Port, e.holdings[q] ≠ .write) (hc : e.copy = .dirty d)
    (hb : s.job.isSome = true) (hl : s.journal.length = 32) (hn : ∀ k ∈ s.journal, k.line = l → k.state ≠ .queued) :
    exec (.flush p f) s = .next { (s.asked p f.tag (.flush l)).withTable
      (s.changed l fun x => { x with waiters := [⟨p, f.tag⟩] }) with jspace := [.line l .flush] } := by
  have hfull : (s.joined p f.tag (.flush l) l).canInsert l = false := canInsert_full hl hn
  have hjoined : s.joined p f.tag (.flush l) l =
      (s.asked p f.tag (.flush l)).withTable (s.changed l fun x => { x with waiters := [⟨p, f.tag⟩] }) :=
    congrArg (s.asked p f.tag (.flush l)).withTable (changed_congr hv.present ht.lines (by rw [hv.noWaiters]; rfl))
  have hspace : (s.joined p f.tag (.flush l) l).jspace = [] := hq.space
  rw [exec_flush_serves had hp hv hh, serveFlush_shutOut hc hfull, joinSpace_empty hspace, hjoined]
  refine congrArg _ (settle_served ?_ (.inl hb) hq.region hq.sessions)
  rw [serveSpace_full (by exact hl), rouseHead_nil _ (by exact hq.alloc)]

/-- A line's one QUEUED entry takes the data of a merge, and no other entry changes (R84). -/
theorem mergeJournal_only {older younger : List JournalEntry} (hj : s.journal = older ++ j :: younger) (hl : j.line = l)
    (hs : j.state = .queued) (hy : ∀ k ∈ younger, k.line ≠ l) (ho : ∀ k ∈ older, k.line = l → k.state ≠ .queued) (o : Origin) :
    s.mergeJournal l d o = { s with journal := older ++ { j with data := d, origin := o } :: younger } := by
  have hold : older.map (fun k => if k.line == l && k.state == .queued then { k with data := d, origin := o } else k) = older :=
    (List.map_congr_left fun k hk => if_neg (by simpa using ho k hk)).trans (List.map_id _)
  have hyoung : younger.map (fun k => if k.line == l && k.state == .queued then { k with data := d, origin := o } else k) =
      younger := (List.map_congr_left fun k hk => if_neg (by simp [hy k hk])).trans (List.map_id _)
  rw [State.mergeJournal, hj, List.map_append, List.map_cons, hold, hyoung, if_pos (by simp [hl, hs])]

theorem appended_newest (o : Origin) : (s.appended l d o).Newest l ⟨l, d, s.seqCounter, o, .queued⟩ :=
  ⟨s.journal, [], State.appended_journal .., rfl, nofun⟩

/-- A new entry of the journal has nothing to do with the line table. -/
theorem appended_joined {q : Req} (es : List Entry) (o : Origin) :
    ((s.joined p tag q l).appended l d o).withTable es = ((s.asked p tag q).withTable es).appended l d o := by
  rw [appended_congr (t := s.joined p tag q l) (s := s.asked p tag q) d o rfl rfl rfl rfl rfl rfl rfl,
    appended_congr (t := (s.asked p tag q).withTable es) (s := s.asked p tag q) d o rfl rfl rfl rfl rfl rfl rfl]
  rfl

/-- Settles O22: by whether the line is PLAIN or absent, its copy CLEAN or DIRTY, and whether the journal can take it. -/
theorem flushTaken : Obligations.FlushTaken := by
  intro p f s l had hp
  refine ⟨fun i hi hc hr hh => ?_, fun i hu he hn => ?_, fun i j hu he hn => ?_, fun e d ht hq hv hh =>
    ⟨fun hc hn => ?_, fun j hc hn => ?_, fun hc hb hl hn => exec_flush_shutOut had hp ht hq hv hh hc hb hl hn,
      fun older younger j hc hb hj hl hs hy ho => ?_, fun hc hb ha => ?_⟩⟩
  · rw [exec_flush_admits had hp, takeFlush_plain hi hr hc hh]
  · rw [exec_flush_admits had hp, takeFlush_absent hu he, newest?_none hn]
    rfl
  · rw [exec_flush_admits had hp, takeFlush_absent hu he, newest?_of hn]
    rfl
  · have hnew : (s.joined p f.tag (.flush l) l).newest? l = none := newest?_none hn
    rw [exec_flush_serves had hp hv hh, serveFlush_clean hc, hnew, joined_dropHead ht.lines hv]
    have hans := answer_askedAlone (r := .flush l) had.may .done []
    exact congrArg _ ((congrArg (State.settle · (s.accepted p)) hans).trans (settle_quiet (hq.replied f.tag .done [])))
  · have hnew : (s.joined p f.tag (.flush l) l).newest? l = some j := newest?_of hn
    rw [exec_flush_serves had hp hv hh, serveFlush_clean hc, hnew, joined_dropHead ht.lines hv]
    exact congrArg _ (settle_quiet (hq.congr rfl rfl rfl rfl rfl rfl rfl rfl rfl))
  · have hqueued : s.hasQueued l = true := hasQueued_iff.2 ⟨j, by rw [hj]; simp, hl, hs⟩
    have hins := insertCopy_merges (s := s.joined p f.tag (.flush l) l) hqueued hq.space d .flush
    have hmerged := mergeJournal_only (s := s.joined p f.tag (.flush l) l) (d := d) hj hl hs hy ho .flush
    have hnew : ((s.joined p f.tag (.flush l) l).mergeJournal l d .flush).newest? l =
        some { j with data := d, origin := .flush } :=
      newest?_of ⟨older, younger, congrArg State.journal hmerged, hl, hy⟩
    have hquiet : Quiet ((s.joined p f.tag (.flush l) l).mergeJournal l d .flush) :=
      hq.busy (by rw [State.mergeJournal_job]; exact hb) (State.mergeJournal_allocQueue ..) (State.mergeJournal_jspace ..)
        (State.mergeJournal_completing ..) (State.mergeJournal_sessions ..)
    rw [exec_flush_inserts had hp ht hv hh hc (by simp [State.canInsert, hqueued]) hins hnew hquiet, hmerged]
    rfl
  · have hins := insertCopy_appends (s := s.joined p f.tag (.flush l) l) (ha.congr rfl rfl) hq.space d .flush
    have hquiet : Quiet ((s.joined p f.tag (.flush l) l).appended l d .flush) :=
      hq.busy (by rw [State.appended_job]; exact hb) (State.appended_allocQueue ..) (State.appended_jspace ..)
        (State.appended_completing ..) (State.appended_sessions ..)
    rw [exec_flush_inserts had hp ht hv hh hc (canInsert_appends ha) hins (newest?_of (appended_newest .flush)) hquiet]
    rw [appended_joined, State.waitFlush, State.joinSync, State.appended_syncList]
    rfl

end Sys2Proof.Machine

/-! PROOFS. Answers that match no recall, and bad ones (R66, R67). -/

namespace Sys2Proof.Machine

variable {s : State} {p : Port} {f : RxFrame}

theorem exec_recallAnswer_arrives (ha : Arrives s p f.seq) :
    exec (.recallAnswer p f) s = .next ((s.accepted p).onAnswer p f) :=
  congrArg _ (onSequenced_arrives ha _)

/-- A bad answer in a session that is open is refused (R66). -/
theorem onAnswer_bad (hs : s.sessionState p = .online ∨ s.sessionState p = .closing)
    (hp : parseRecallAnswer f.payload = none) : s.onAnswer p f = s.reply p f.tag .badFormat [] := by
  unfold State.onAnswer
  rcases hs with h | h <;> simp only [h, hp]

/-- A good answer that no open recall waits for is discarded (R67). -/
theorem takeAnswer_unmatched {a : AnswerOperand}
    (h : ∀ r ∈ s.recalls, ¬ (r.id = a.id ∧ r.asked.line = a.line ∧ r.asked.port = p)) : s.takeAnswer p a = s := by
  have hnone : s.matchRecall p a = none := List.find?_eq_none.2 fun r hr hm => by
    simp only [Bool.and_eq_true, beq_iff_eq, and_assoc] at hm
    exact h r hr hm
  rw [State.takeAnswer, hnone]

/-- Settles O25: by the session state, and by whether the payload is an answer. -/
theorem recallAnswerDiscarded : Obligations.RecallAnswerDiscarded := by
  intro p f s ha
  refine ⟨fun hs => ⟨fun hp => ?_, fun a hp hr => ?_⟩, fun hs => ?_, fun hs => ?_⟩
  · rw [exec_recallAnswer_arrives ha, onAnswer_bad (s := s.accepted p) hs hp, accepted_reply]
  · rw [exec_recallAnswer_open ha hs hp, takeAnswer_unmatched (s := s.accepted p) hr]
  · have hon : (s.accepted p).onAnswer p f = (s.accepted p).reply p f.tag .fenced [] := by
      rw [State.onAnswer, show (s.accepted p).sessionState p = .fenced from hs]
    rw [exec_recallAnswer_arrives ha, hon, accepted_reply]
  · have hon : (s.accepted p).onAnswer p f = (s.accepted p).reply p f.tag .noSession [] := by
      rw [State.onAnswer, show (s.accepted p).sessionState p = .idle from hs]
    rw [exec_recallAnswer_arrives ha, hon, accepted_reply]

end Sys2Proof.Machine

/-! PROOFS. Resets, hub time and the timers that it runs out (R74, R114, R171, R178, R186, R187). -/

namespace Sys2Proof.Machine

variable {s t u : State} {p : Port}

/-! ## Deadlines and expiries that are not taken (R74, R171) -/

theorem takeDeadline_rests {id : Byte}
    (h : s.mode = .stopped ∨ ∀ r ∈ s.recalls, r.id = id → r.deadline ≠ s.hubTime) : s.takeDeadline id = s := by
  unfold State.takeDeadline
  split
  · rfl
  · rename_i r hr
    refine if_neg fun ⟨hm, hd⟩ => ?_
    have hdue : s.hubTime = r.deadline := by simpa [reached] using hd
    rcases h with h | h
    · rw [h] at hm; cases hm
    · exact h r (List.mem_of_find?_eq_some hr) (by simpa using List.find?_some hr) hdue.symm

theorem takeExpiry_rests (h : s.mode = .stopped ∨ s.links[p].keepalive ≠ some s.hubTime) : s.takeExpiry p = s := by
  unfold State.takeExpiry
  split
  · rename_i x hx
    refine if_neg fun ⟨hm, hd⟩ => ?_
    have hdue : s.hubTime = x := by simpa [reached] using hd
    rcases h with h | h
    · rw [h] at hm; cases hm
    · exact h (by rw [hx, hdue])
  · rfl

/-- With nothing reached, or while STOPPED, a tick takes no deadline and no expiry (R74, R171). -/
theorem takeReached_rests (h : s.mode = .stopped ∨ ((∀ r ∈ s.recalls, r.deadline ≠ s.hubTime) ∧
    ∀ p : Port, s.links[p].keepalive ≠ some s.hubTime)) : s.takeReached = s := by
  have hd : (s.recalls.map (·.id)).foldl State.takeDeadline s = s :=
    List.foldl_fixed' (fun _ => takeDeadline_rests (h.imp_right fun h r hr _ => h.1 r hr)) _
  rw [State.takeReached, hd]
  exact List.foldl_fixed' (fun _ => takeExpiry_rests (h.imp_right fun h => h.2 _)) _

/-- Settles O46: neither mode nor timers let one be taken, whether RESET_N is high or low. -/
theorem timersRest : Obligations.TimersRest := by
  intro s p id
  refine ⟨fun h => ?_, fun h => ?_⟩
  · have hd : s.takeDeadline id = s := takeDeadline_rests (h.imp_right fun h r hr hid => absurd hid (h r hr))
    exact congrArg Host.Outcome.next ((congrArg (ite _ · s) hd).trans (ite_self s))
  · have he : s.takeExpiry p = s := takeExpiry_rests (h.imp_right fun h => by rw [h]; nofun)
    exact congrArg Host.Outcome.next ((congrArg (ite _ · s) he).trans (ite_self s))

/-! ## The tick of hub time (R187) -/

theorem Runs.append {cs ds : List Instr} (a : Runs cs s t) (b : Runs ds t u) : Runs (cs ++ ds) s u := by
  induction cs generalizing s with
  | nil => cases a; exact b
  | cons c cs ih =>
    obtain ⟨v, hv, hcs⟩ := a
    exact ⟨v, hv, ih hcs⟩

/-- Commands that each have their effect while RESET_N is high, and leave it high, run one after another. -/
theorem runs_foldl {α : Type} {c : α → Instr} {g : State → α → State}
    (hx : ∀ s a, s.resetN = true → exec (c a) s = .next (g s a)) (hg : ∀ s a, (g s a).resetN = s.resetN)
    (as : List α) (hr : s.resetN = true) : Runs (as.map c) s (as.foldl g s) := by
  induction as generalizing s with
  | nil => rfl
  | cons a as ih => exact ⟨g s a, hx s a hr, ih ((hg s a).trans hr)⟩

/-- What a tick takes, the commands for the deadlines and the expiries take one after another (R74, R171). -/
theorem runs_takeReached (hr : s.resetN = true) :
    Runs (s.recalls.map (fun r => .recallTimeout r.id) ++ (List.finRange 4).map .keepaliveExpired) s s.takeReached := by
  have hd : ∀ ids : List Byte, (ids.foldl State.takeDeadline s).resetN = true := fun ids =>
    ((KeepsMost.foldl takeDeadline_keeps ids s).resetN).trans hr
  have hrecalls := runs_foldl (fun _ id h => exec_recallTimeout id h) (fun t id => (takeDeadline_keeps t id).resetN)
    (s.recalls.map (·.id)) hr
  have hkeep := runs_foldl (fun _ _ h => exec_keepaliveExpired h) (fun t q => (takeExpiry_keeps t q).resetN)
    (List.finRange 4) (hd (s.recalls.map (·.id)))
  rw [List.map_map] at hrecalls
  exact hrecalls.append hkeep

theorem exec_hubTimeAdvance (hr : s.resetN = true) :
    exec .hubTimeAdvance s = .next { s.takeReached with hubTime := s.takeReached.hubTime + 1 } :=
  congrArg Host.Outcome.next (if_pos hr)

/-- Settles O43: the levels of the straps give the port number, and a tick runs the timers that it has reached. -/
theorem resetEvents : Obligations.ResetEvents := by
  intro s
  refine ⟨fun a b => ?_, rfl, fun hr => ⟨⟨_, runs_takeReached hr, exec_hubTimeAdvance hr⟩, fun h => ?_⟩, fun hr => ?_⟩
  · cases a <;> cases b <;> rfl
  · refine ⟨s.hubTime + 1, ?_, BitVec.toNat_add ..⟩
    rw [exec_hubTimeAdvance hr, takeReached_rests h]
  · exact congrArg Host.Outcome.next (if_neg (by simp [hr]))

end Sys2Proof.Machine

/-! PROOFS. A Release that is the answer to a recall (R70, R71). -/

namespace Sys2Proof.Machine

/-- Settles O26: the Release leaves the recall the only one of its line, and it closes behind the reply. -/
theorem releaseAnswersRecall : Obligations.ReleaseAnswersRecall := by
  intro p f s l e r had hq he ha hw hh hr hp
  set t : State := ((s.accepted p).setHolding l p .none).reply p f.tag .done []
  have hgiven : t = (s.replied p f.tag .done []).withTable
      (s.changed l fun x => { x with holdings := x.holdings.set p .none }) :=
    reply_behind (t := (s.accepted p).setHolding l p .none) rfl ..
  have hrt : OnlyRecall t l p r := hr.congr rfl rfl
  have het : t.entry? l = some { e with holdings := e.holdings.set p .none } :=
    updateEntry_entry? (fun x => { x with holdings := x.holdings.set p .none }) (fun _ => rfl) he
  have hqt : Quiet t := hq.congr rfl rfl rfl rfl rfl rfl rfl rfl rfl
  have htake : (s.accepted p).takeRelease p f.tag l none = (t.closeRecall l p).settle (s.accepted p) := by
    have hhold : (s.accepted p).holding l p ≠ .none := by rw [holding_of (s := s.accepted p) he]; exact hh
    rw [takeRelease_held hhold]
    exact congrArg (State.settle · _) (if_pos (onlyRecall_outstanding hrt))
  rw [exec_release_admits had (releaseOperand_line hp), htake, closeRecall_settle hrt het ha hw hqt, hgiven]
  refine congrArg (fun es => Host.Outcome.next { (s.replied p f.tag .done []).withTable es with
    recalls := s.recallsWithout l p }) ?_
  exact changed_changed (fun x => { x with holdings := x.holdings.set p .none }) _ fun _ => rfl

end Sys2Proof.Machine

/-! PROOFS. Goodbye (R61 to R64, R156, R174, R175). -/

namespace Sys2Proof.Machine

variable {s : State} {p : Port} {f : RxFrame} {tag : Byte}

/-! ## The lines a port holds -/

theorem holdingCount_eq_zero : s.holdingCount p = 0 ↔ s.holdsNothing p := by
  simp [State.holdingCount, State.holdsNothing]

theorem heldBy_nothing (h : s.holdsNothing p) : s.heldBy p = [] := by
  have hf : s.table.filter (fun e => e.holdings[p] != .none) = [] :=
    List.filter_eq_nil_iff.2 fun e he => by simpa using h e he
  rw [State.heldBy, hf]
  rfl

/-- The lines a port holds, ascending, are those of the entries that say so. -/
theorem heldBy_held (h : TablesOk s) : (s.heldBy p).Pairwise (fun a b => a.toNat < b.toNat) ∧
    ∀ l : Line, l ∈ s.heldBy p ↔ ∃ e ∈ s.table, e.line = l ∧ e.holdings[p] ≠ .none := by
  obtain ⟨hasc, hmem⟩ := sortLines_filter (s := s) (P := fun e => e.holdings[p] != .none) h.lines
  exact ⟨hasc, fun l => (hmem l).trans (by simp only [bne_iff_ne])⟩

/-! ## Completion (R175) -/

/-- A Goodbye completes when it is all that is outstanding and the port holds nothing. -/
theorem completeGoodbye_last (hc : s.sessionState p = .closing) (hn : s.holdsNothing p)
    (ho : s.outstanding p = [{ id := ⟨p, tag⟩, req := .goodbye }]) :
    s.completeGoodbye p = (s.answer ⟨p, tag⟩ .done []).closeSession p := by
  rw [State.completeGoodbye, if_pos ⟨hc, holdingCount_eq_zero.2 hn⟩, ho]
  exact if_pos rfl

/-- A port that is not CLOSING, holds a line or has more outstanding does not complete. -/
theorem completeGoodbye_waits (h : s.sessionState p ≠ .closing ∨ ¬ s.holdsNothing p ∨ 2 ≤ (s.outstanding p).length) :
    s.completeGoodbye p = s := by
  unfold State.completeGoodbye
  split
  · rename_i hc
    obtain ⟨hclosing, hcount⟩ := hc
    rcases h with h | h | h
    · exact absurd hclosing h
    · exact absurd (holdingCount_eq_zero.1 hcount) h
    · split
      · rename_i q hq
        rw [hq] at h
        exact absurd h (by simp)
      · rfl
  · rfl

/-- What a completed Goodbye leaves: its reply, and the port between sessions (R156, R175). -/
theorem answer_closeSession : (s.answer ⟨p, tag⟩ .done []).closeSession p = { s with
    requests := s.requests.filter fun r => r.id != ⟨p, tag⟩
    links := s.links.set p { s.links[p].sendSeq replyKind tag (replyPayload .done []) with keepalive := none }
    sessions := s.sessions.set p Session.idle
    notices := s.notices.set p NoticeUnit.reset } := by
  simp [State.closeSession, State.answer, reply_eq, State.setLink, State.setSession, State.setNotices, Session.idle]

theorem exec_goodbyeCompletion (h : s.resetN = true) : exec (.goodbyeCompletion p) s = .next (s.completeGoodbye p) :=
  congrArg Host.Outcome.next (if_pos h)

/-! ## The Goodbye taken (R174) -/

/-- The state once a Goodbye is admitted and its port is CLOSING, before anything is recalled. -/
def State.leaving (s : State) (p : Port) (tag : Byte) : State :=
  { s.asked p tag .goodbye with sessions := s.sessions.set p { s.sessions[p] with state := .closing } }

theorem leaving_closing : (s.leaving p tag).sessionState p = .closing := by simp [State.leaving, State.sessionState]

theorem leaving_outstanding : (s.leaving p tag).outstanding p = s.outstanding p ++ [{ id := ⟨p, tag⟩, req := .goodbye }] := by
  simp [State.leaving, State.outstanding, State.asked, State.admitReq]

theorem exec_goodbye_admits (h : Admits s p f .goodbye) (hp : f.payload = []) : exec (.goodbye p f) s =
    .next (((s.leaving p f.tag).recalledInTurn
      ((s.heldBy p).map fun l => { line := l, port := p, kind := .invalidate, purpose := .close })).completeGoodbye p) := by
  have htake := onRequest_admits (a := ()) h (operand := fun _ => parseEmpty f.payload) (by rw [hp]; rfl)
    fun t _ => t.takeGoodbye ⟨p, f.tag⟩
  refine congrArg Host.Outcome.next (htake.trans ?_)
  rw [State.takeGoodbye, askRecalls_eq]
  rfl

/-- A Goodbye of a port that holds nothing asks for no recall (R174). -/
theorem exec_goodbye_nothing (h : Admits s p f .goodbye) (hp : f.payload = []) (hn : s.holdsNothing p) :
    exec (.goodbye p f) s = .next ((s.leaving p f.tag).completeGoodbye p) := by
  rw [exec_goodbye_admits h hp, heldBy_nothing hn]
  rfl

/-- With nothing else outstanding, the Goodbye of a port that holds nothing is answered and the port between sessions in the same
step (R175). -/
theorem leaving_completes (h : MayAsk s p .goodbye tag) (hn : s.holdsNothing p) (ho : s.outstanding p = []) :
    (s.leaving p tag).completeGoodbye p = { s with
      links := s.links.set p { s.linkReplied p tag .done [] with keepalive := none }
      sessions := s.sessions.set p Session.idle
      notices := s.notices.set p NoticeUnit.reset } := by
  have hreq : (s.leaving p tag).requests.filter (fun r => r.id != ⟨p, tag⟩) = s.requests :=
    requests_filter_fresh h .goodbye
  rw [completeGoodbye_last leaving_closing hn (by rw [leaving_outstanding, ho]; rfl), answer_closeSession, hreq]
  simp [State.leaving, State.asked, State.accepted, State.admitReq, State.linkReplied]

/-- Settles O35: by whether the port holds a line, and what else it has outstanding. -/
theorem goodbyeAnswered : Obligations.GoodbyeAnswered := by
  refine ⟨?_, fun p s hr => ⟨fun tag hc hn ho => ?_, fun h => ?_⟩⟩
  · intro p f s had hp closing
    refine ⟨fun hn ho => ?_, fun hn ho => ?_, fun hn ht => ?_⟩
    · rw [exec_goodbye_nothing had hp hn, leaving_completes had.may hn ho]
    · have htwo : 2 ≤ ((s.leaving p f.tag).outstanding p).length := by
        have := List.length_pos_iff.2 ho
        rw [leaving_outstanding, List.length_append, List.length_singleton]
        omega
      rw [exec_goodbye_nothing had hp hn, completeGoodbye_waits (.inr (.inr htwo))]
      rfl
    · obtain ⟨hasc, hmem⟩ := heldBy_held (p := p) ht
      refine ⟨s.heldBy p, hasc, hmem, ?_⟩
      obtain ⟨_, _, _, _, hx⟩ := recalledInTurn_frame (s.leaving p f.tag)
        ((s.heldBy p).map fun l => { line := l, port := p, kind := .invalidate, purpose := .close })
      rw [exec_goodbye_admits had hp, completeGoodbye_waits (.inr (.inl (by rw [hx]; exact hn)))]
      rfl
  · rw [exec_goodbyeCompletion hr, completeGoodbye_last hc hn ho, answer_closeSession]
  · rw [exec_goodbyeCompletion hr, completeGoodbye_waits h]

end Sys2Proof.Machine

/-! PROOFS. Notices posted, port by port (R149 to R152). -/

namespace Sys2Proof.Machine

variable {s t : State} {p q : Port} {n : Notice} {u : NoticeUnit} {x : SessionState}

/-- The notice unit of a port in this session state, once a notice was posted for it and what can be sent is sent. -/
def NoticeUnit.posted (x : SessionState) (u : NoticeUnit) (n : Notice) : NoticeUnit :=
  if n.kind.receivedIn x then ((u.enqueue n).next.map Prod.fst).getD (u.enqueue n) else u

theorem deliverNotice_own : (s.deliverNotice p).notices[p] = (s.notices[p].next.map Prod.fst).getD s.notices[p] := by
  unfold State.deliverNotice
  split
  · rename_i u sent h
    rw [h]
    simp [State.sendNotice, State.sendSeq, State.setNotices]
  · rename_i h
    rw [h]
    rfl

theorem setNotices_other (h : q ≠ p) : (s.setNotices p u).notices[q] = s.notices[q] := by
  simp [State.setNotices, Fin.val_ne_of_ne (Ne.symm h)]

theorem deliverNotice_other (h : q ≠ p) : (s.deliverNotice p).notices[q] = s.notices[q] := by
  unfold State.deliverNotice
  split
  · exact setNotices_other h
  · rfl

theorem postNotice_own : (s.postNotice p n).notices[p] = s.notices[p].posted (s.sessionState p) n := by
  unfold State.postNotice NoticeUnit.posted
  split
  · rw [deliverNotice_own]
    simp [State.setNotices]
  · rfl

theorem postNotice_other (h : q ≠ p) : (s.postNotice p n).notices[q] = s.notices[q] := by
  unfold State.postNotice
  split
  · rw [deliverNotice_other h, setNotices_other h]
  · rfl

/-- What notices posted for a port make of its unit depends on its session state and on the unit alone. -/
theorem posts_own (ns : List Notice) : (ns.foldl (fun u n => u.postNotice p n) s).notices[p] =
    ns.foldl (NoticeUnit.posted (s.sessionState p)) s.notices[p] := by
  induction ns generalizing s with
  | nil => rfl
  | cons n ns ih =>
    have hs : (s.postNotice p n).sessionState p = s.sessionState p := by
      rw [State.sessionState, State.postNotice_sessions, State.sessionState]
    rw [List.foldl_cons, ih, hs, postNotice_own, List.foldl_cons]

/-- A notice posted for each of some ports reaches each of them once. -/
theorem posts_each {qs : List Port} (hn : qs.Nodup) : (qs.foldl (fun t q => t.postNotice q n) s).notices[p] =
    if p ∈ qs then s.notices[p].posted (s.sessionState p) n else s.notices[p] := by
  induction qs generalizing s with
  | nil => rfl
  | cons q qs ih =>
    obtain ⟨hq, hqs⟩ := List.nodup_cons.1 hn
    have hs : (s.postNotice q n).sessionState p = s.sessionState p := by
      rw [State.sessionState, State.postNotice_sessions, State.sessionState]
    rw [List.foldl_cons, ih hqs, hs]
    by_cases hp : p = q
    · subst hp
      simp only [hq, if_false, List.mem_cons_self, if_true, postNotice_own]
    · simp only [postNotice_other hp, List.mem_cons, hp, false_or]

theorem postAll_each : (s.postAll n).notices[p] = s.notices[p].posted (s.sessionState p) n :=
  (posts_each (by decide)).trans (if_pos (mem_ports p))

/-- Some notice is sent while a sendable one waits (R152). -/
theorem bestNotice_isSome {th : Nat} {ns : List Notice} (h : ∃ n ∈ ns, n.sendable th = true) :
    (bestNotice th ns).isSome = true := by
  induction ns with
  | nil => simp at h
  | cons m ms ih =>
    unfold bestNotice
    split
    · rename_i hnone
      obtain ⟨n, hn, hs⟩ := h
      rcases List.mem_cons.1 hn with rfl | hn
      · rw [hs]; rfl
      · rw [hnone] at ih
        exact absurd (ih ⟨n, hn, hs⟩) (by decide)
    · split <;> rfl

/-- A notice that meets the queue stands there, with its kind. -/
theorem enqueue_kind (u : NoticeUnit) (n : Notice) : ∃ w ∈ (u.enqueue n).queue, w.kind = n.kind := by
  unfold NoticeUnit.enqueue
  split
  · rename_i h
    obtain ⟨w, hw, hk⟩ := List.any_eq_true.1 h
    have hkind : w.kind = n.kind := by
      simp only [Notice.sameKey, Bool.and_eq_true, beq_iff_eq] at hk
      exact hk.1
    refine ⟨w.refresh n, List.mem_map.2 ⟨w, hw, if_pos hk⟩, ?_⟩
    unfold Notice.refresh
    split <;> exact hkind
  · exact ⟨n, by simp, rfl⟩

/-- HUB_STOPPED, which no threshold holds back, leaves the unit with one more notice sent unless one is in flight (R149, R152). -/
theorem posted_hubStopped (hn : n.kind = .hubStopped) (hx : x.hasSession = true) :
    (u.posted x n).threshold = u.threshold ∧
      (u.posted x n).counter = u.counter + if u.inFlight = none then 1 else 0 := by
  have hr : n.kind.receivedIn x = true := by
    rw [hn]
    cases x with
    | online | closing | fenced => rfl
    | down | idle => cases hx
  have he : (u.enqueue n).threshold = u.threshold ∧ (u.enqueue n).counter = u.counter ∧
      (u.enqueue n).inFlight = u.inFlight := by
    unfold NoticeUnit.enqueue
    split <;> exact ⟨rfl, rfl, rfl⟩
  obtain ⟨ht, hc, hi⟩ := he
  have hs : (bestNotice (u.enqueue n).threshold (u.enqueue n).queue).isSome = true := by
    obtain ⟨w, hw, hk⟩ := enqueue_kind u n
    exact bestNotice_isSome ⟨w, hw, by simp [Notice.sendable, hk, hn, NoticeKind.priority, Config.topPriority]⟩
  obtain ⟨m, hm⟩ := Option.isSome_iff_exists.1 hs
  rw [NoticeUnit.posted, if_pos hr, NoticeUnit.next, hi, hm]
  cases u.inFlight with
  | none => exact ⟨ht, congrArg (· + 1) hc⟩
  | some y => exact ⟨ht, by simpa using hc⟩

end Sys2Proof.Machine

/-! PROOFS. What a revocation leaves in a calm hub (R76, R78, R118, R119, R122, R155, R165, R171, R172, R176). -/

namespace Sys2Proof.Machine

variable {s t u v : State} {p q : Port} {c : Instr} {cause : Cause}

/-! ## The line table (R76, R78) -/

/-- An entry once the holdings of a port are revoked (R76, R78). -/
def State.revokedEntry (s : State) (p : Port) (e : Entry) : Entry :=
  { e with
    holdings := e.holdings.set p .none
    copy := if s.mode = .running ∧ e.holdings[p] = .write then .poisoned else e.copy
    recordId := if s.mode = .running ∧ e.holdings[p] = .write then some s.freeRecordId else e.recordId }

/-- The lines that a revocation loses: those the port holds WRITE, ascending, and none while STOPPED (R76, R78). -/
def State.lostLines (s : State) (p : Port) : List Line := if s.mode = .running then s.writtenBy p else []

theorem lostLines_running (h : s.lostLines p ≠ []) : s.mode = .running := by
  by_contra hm
  exact h (if_neg hm)

/-- An entry's line is lost when the port holds it WRITE while RUNNING. -/
theorem mem_lostLines {e : Entry} (hn : (s.table.map Entry.line).Nodup) (he : e ∈ s.table) :
    e.line ∈ s.lostLines p ↔ s.mode = .running ∧ e.holdings[p] = .write := by
  have hw : e.line ∈ s.writtenBy p ↔ e.holdings[p] = .write := by
    rw [State.writtenBy, (sortLines_filter (P := fun x => x.holdings[p] == .write) hn).2]
    constructor
    · rintro ⟨x, hx, hl, hh⟩
      rw [← List.inj_on_of_nodup_map hn hx he hl]
      exact beq_iff_eq.1 hh
    · exact fun h => ⟨e, he, rfl, beq_iff_eq.2 h⟩
  unfold State.lostLines
  split
  · rename_i hm
    simp only [hw, hm, true_and]
  · rename_i hm
    simp [hm]

/-- The holdings revoked, and the lines lost on one new record (R76, R78). -/
theorem revokeHoldings_eq (hl : s.faultQueue.length ≤ 6) : s.revokeHoldings p cause =
    if s.lostLines p = [] then s.dropHoldings p
    else ((s.dropHoldings p).markPoisoned (s.lostLines p) s.freeRecordId).createRecord (.holderLost p cause (s.lostLines p)) := by
  have hid : (s.dropHoldings p).newRecordId = s.freeRecordId := newRecordId_free (s.dropHoldings p) hl
  rw [State.revokeHoldings, hid]
  rfl

/-- The table without the holdings of the port, its WRITE lines POISONED while RUNNING (R76, R78). -/
theorem dropHoldings_table : (s.dropHoldings p).table = s.table.map fun e =>
    { e with holdings := e.holdings.set p .none
             copy := if s.mode = .running ∧ e.holdings[p] = .write then .poisoned else e.copy } := by
  simp only [State.dropHoldings, Bool.and_eq_true, beq_iff_eq, and_comm]

theorem revokeHoldings_table (hl : s.faultQueue.length ≤ 6) (hn : (s.table.map Entry.line).Nodup) :
    (s.revokeHoldings p cause).table = s.table.map (s.revokedEntry p) := by
  rw [revokeHoldings_eq hl]
  split
  · rename_i hlost
    refine dropHoldings_table.trans (List.map_congr_left fun e he => ?_)
    have hno : ¬ (s.mode = .running ∧ e.holdings[p] = .write) := by
      rw [← mem_lostLines hn he, hlost]
      exact List.not_mem_nil
    simp only [State.revokedEntry, if_neg hno]
  · rw [(createRecord_aside (p := p) _).table, State.markPoisoned, dropHoldings_table]
    refine (List.map_map ..).trans (List.map_congr_left fun e he => ?_)
    simp only [Function.comp_apply, State.revokedEntry, List.contains_iff_mem, mem_lostLines hn he]
    split <;> rfl

/-! ## The notices of a new record (R118, R119, R122) -/

/-- The notices of the record that a revocation has made on the way to a state: HUB_STOPPED for every port where it stopped the
hub, FAULT_POSTED for the supervisor where it joined the fault queue (R119, R122). -/
def State.recordNotices (s t : State) (q : Port) : List Notice :=
  if t.mode ≠ s.mode then [{ kind := .hubStopped, subject := none, data := RecordKind.holderLost.code }]
  else if q = s.supervisor ∧ t.faultQueue ≠ s.faultQueue then
    [{ kind := .faultPosted, subject := none, data := BitVec.ofNat 8 (t.faultQueue.countP fun r => r.state == .posted) }]
  else []

/-- A HOLDER_LOST record that a RUNNING hub creates posts its notices, and no other (R118, R119, R122). -/
theorem createRecord_notices {lost : List Line} (hm : s.mode = .running) :
    (s.createRecord (.holderLost p cause lost)).notices[q] =
      (s.recordNotices (s.createRecord (.holderLost p cause lost)) q).foldl (NoticeUnit.posted (s.sessionState q))
        s.notices[q] := by
  unfold State.createRecord
  dsimp only
  split
  · have hmode : ∀ x : State, x.postFaultPosted.mode = x.mode := fun x => State.postNotice_mode ..
    have hqueue : ∀ x : State, x.postFaultPosted.faultQueue = x.faultQueue := fun x => State.postNotice_faultQueue ..
    simp only [State.recordNotices, hmode, hqueue, ne_eq, not_true_eq_false, if_false, List.append_right_eq_self,
      List.cons_ne_nil, not_false_eq_true, and_true]
    by_cases hq : q = s.supervisor
    · subst hq
      rw [if_pos rfl]
      exact postNotice_own
    · rw [if_neg hq]
      exact postNotice_other hq
  · have hmode : ∀ x : State, ∀ n, (x.postAll n).mode = x.mode := fun x n => ((postAll_keeps x n).unit trivial).2.2
    simp only [State.recordNotices, hmode, hm, ne_eq, reduceCtorEq, not_false_eq_true, if_true]
    exact postAll_each

theorem revokeHoldings_notices (hl : s.faultQueue.length ≤ 6) : (s.revokeHoldings p cause).notices[q] =
    (s.recordNotices (s.revokeHoldings p cause) q).foldl (NoticeUnit.posted (s.sessionState q)) s.notices[q] := by
  rw [revokeHoldings_eq hl]
  split
  · simp [State.recordNotices, State.dropHoldings]
  · rename_i hlost
    have hm : s.mode = .running := lostLines_running hlost
    exact createRecord_notices (s := (s.dropHoldings p).markPoisoned (s.lostLines p) s.freeRecordId) hm

/-! ## What a new record leaves alone -/

theorem postAll_frame (n : Notice) : ∃ ns ls, s.postAll n = { s with notices := ns, links := ls } := by
  have h : ∀ (qs : List Port) (t : State), ∃ ns ls, qs.foldl (fun t q => t.postNotice q n) t =
      { t with notices := ns, links := ls } := by
    intro qs
    induction qs with
    | nil => exact fun t => ⟨_, _, rfl⟩
    | cons q qs ih =>
      intro t
      obtain ⟨ns, ls, hx⟩ := ih (t.postNotice q n)
      exact ⟨ns, ls, hx.trans (by rw [State.postNotice_eq])⟩
  exact h ports s

/-- A new record changes the fault unit, the notices and the links, and STOPPED is the only mode it leads to. -/
theorem createRecord_frame (body : RecordBody) : ∃ n fq sr m so ns ls, s.createRecord body =
    { s with recordCounter := n, faultQueue := fq, stopRecord := sr, mode := m, stopOut := so, notices := ns, links := ls } ∧
    (m = s.mode ∨ m = .stopped) := by
  unfold State.createRecord
  dsimp only
  split
  · exact ⟨_, _, _, _, _, _, _, State.postNotice_eq .., .inl rfl⟩
  · obtain ⟨ns, ls, hx⟩ := postAll_frame (s := { s with
        recordCounter := nextRecordId s.newRecordId
        stopRecord := some ⟨s.newRecordId, .posted, s.hubTime, body⟩
        mode := .stopped
        stopOut := true }) (hubStoppedNotice body.kind)
    exact ⟨_, _, _, _, _, _, _, hx, .inr rfl⟩

/-- The revocation of holdings changes the table, the fault unit, the notices and the links. -/
theorem revokeHoldings_frame (hj : s.jspace = []) : ∃ tb n fq sr m so ns ls, s.revokeHoldings p cause =
    { s with table := tb, recordCounter := n, faultQueue := fq, stopRecord := sr, mode := m, stopOut := so, notices := ns,
             links := ls } ∧ (m = s.mode ∨ m = .stopped) := by
  have hmark : ∀ ls id, ∃ tb, (s.dropHoldings p).markPoisoned ls id = { s with table := tb } := fun ls id =>
    ⟨_, by simp only [State.markPoisoned, State.dropHoldings, hj, List.filter_nil]; rw [← hj]⟩
  unfold State.revokeHoldings
  dsimp only
  generalize (if s.mode = HubMode.running then s.writtenBy p else []) = lost
  split
  · exact ⟨_, _, _, _, _, _, _, _, rfl, .inl rfl⟩
  · obtain ⟨tb, hx⟩ := hmark lost (s.dropHoldings p).newRecordId
    rw [hx]
    obtain ⟨n, fq, sr, m, so, ns, ls, hc, hm⟩ := createRecord_frame (s := { s with table := tb }) (.holderLost p cause lost)
    exact ⟨tb, n, fq, sr, m, so, ns, ls, hc, hm⟩

/-- A hub that is STOPPED, or goes on as before, does not ask for a DRAIN that it has not asked for before (R93, R107). -/
theorem portSettled_mode {m : HubMode} (h : s.portSettled) (hm : m = s.mode ∨ m = .stopped) :
    ({ s with mode := m } : State).portSettled := by
  rcases hm with rfl | rfl
  · exact h
  · exact h.imp_right fun ⟨hf, hd, _⟩ => ⟨hf, hd, rfl⟩

theorem revokeHoldings_quiet (hq : Quiet s) : Quiet (s.revokeHoldings p cause) := by
  obtain ⟨tb, n, fq, sr, m, so, ns, ls, hx, hm⟩ := revokeHoldings_frame (p := p) (cause := cause) hq.space
  rw [hx]
  exact ⟨hq.alloc, hq.space, hq.region, hq.sessions, portSettled_mode hq.port hm⟩

/-! ## The rest of a revocation, where nothing waits (R77) -/

/-- In a calm hub every entry is IDLE and nobody waits for it. -/
def State.Calm (s : State) : Prop := Quiet s ∧ ∀ e ∈ s.table, e.activity = .idle ∧ e.waiters = []

/-- What a statement about a calm hub speaks of, and the end of a step looks at, is the same in both states, but for the sessions
and the notices. -/
structure Stands (s t : State) : Prop where
  table      : t.table = s.table
  journal    : t.journal = s.journal
  requests   : t.requests = s.requests
  allocQueue : t.allocQueue = s.allocQueue
  jspace     : t.jspace = s.jspace
  completing : t.completing = s.completing
  supervisor : t.supervisor = s.supervisor
  faultQueue : t.faultQueue = s.faultQueue
  stopRecord : t.stopRecord = s.stopRecord
  mode       : t.mode = s.mode
  port       : s.portSettled → t.portSettled

theorem Stands.refl (s : State) : Stands s s := ⟨rfl, rfl, rfl, rfl, rfl, rfl, rfl, rfl, rfl, rfl, id⟩

theorem Stands.trans (a : Stands s t) (b : Stands t u) : Stands s u where
  table := b.table.trans a.table
  journal := b.journal.trans a.journal
  requests := b.requests.trans a.requests
  allocQueue := b.allocQueue.trans a.allocQueue
  jspace := b.jspace.trans a.jspace
  completing := b.completing.trans a.completing
  supervisor := b.supervisor.trans a.supervisor
  faultQueue := b.faultQueue.trans a.faultQueue
  stopRecord := b.stopRecord.trans a.stopRecord
  mode := b.mode.trans a.mode
  port := b.port ∘ a.port

/-- The end of a step changes nothing where nothing waits, and no port is CLOSING. -/
theorem Stands.settles (a : Stands s t) (hq : Quiet s) (hs : ∀ q : Port, t.sessionState q ≠ .closing) (found : State) :
    t.settle found = t :=
  settle_quiet ⟨a.allocQueue.trans hq.alloc, a.jspace.trans hq.space, a.completing.trans hq.region, hs, a.port hq.port⟩

/-- The sessions and the notices are the same too. -/
structure Untouched (s t : State) : Prop extends Stands s t where
  sessions : t.sessions = s.sessions
  notices  : t.notices = s.notices

theorem Untouched.trans (a : Untouched s t) (b : Untouched t u) : Untouched s u :=
  ⟨a.toStands.trans b.toStands, b.sessions.trans a.sessions, b.notices.trans a.notices⟩

theorem openAllWaiting_untouched (n : Nat) : Untouched s (s.openAllWaiting n) := by
  induction n generalizing s with
  | zero => exact ⟨.refl s, rfl, rfl⟩
  | succ n ih =>
    refine Untouched.trans (t := s.openWaiting) ?_ ih
    unfold State.openWaiting
    split
    · split
      · exact ⟨.refl s, rfl, rfl⟩
      · exact ⟨⟨rfl, rfl, rfl, rfl, rfl, rfl, rfl, rfl, rfl, rfl, id⟩, rfl, rfl⟩
    · exact ⟨.refl s, rfl, rfl⟩

theorem closeRecallsTo_untouched : Untouched s (s.closeRecallsTo p) := by
  refine Untouched.trans ?_ (openAllWaiting_untouched _)
  exact ⟨⟨rfl, rfl, rfl, rfl, rfl, rfl, rfl, rfl, rfl, rfl, id⟩, rfl, rfl⟩

/-- A port whose requests wait nowhere but in the DIRECT queue leaves a settled port settled (R59, R106). -/
theorem unplaced_settled (h : s.portSettled) : (s.unplaced p).portSettled := by
  cases hj : s.job with
  | some j => exact .inl (by simp [State.unplaced, hj])
  | none =>
    obtain ⟨hf, hd, hr⟩ := h.resolve_left (by simp [hj])
    have hjob : (s.unplaced p).job = s.job := by simp [State.unplaced, hj]
    have hdrain : (s.unplaced p).draining? = s.draining? := by simp only [State.draining?, hjob]
    have hretry : (s.unplaced p).retryWaiting = s.retryWaiting := by
      funext j
      simp only [State.retryWaiting, hdrain]
    have hchoice : (s.unplaced p).drainChoice = s.drainChoice := by
      rw [State.drainChoice, hretry]
      rfl
    refine .inr ⟨hf, by simp [State.unplaced, hd], ?_⟩
    rw [State.drainRequested, hchoice]
    exact hr

theorem leavePlaces_untouched (h : s.Calm) : Untouched s (s.leavePlaces p) := by
  obtain ⟨hq, he⟩ := h
  have hunplaced : Untouched s (s.unplaced p) := by
    refine ⟨⟨?_, rfl, rfl, ?_, ?_, rfl, rfl, rfl, rfl, rfl, unplaced_settled⟩, rfl, rfl⟩
    · refine (List.map_congr_left fun e hm => ?_).trans (List.map_id _)
      rw [(he e hm).2, List.filter_nil, ← (he e hm).2, id_eq]
    · simp [State.unplaced, hq.alloc]
    · simp [State.unplaced, State.leaveFlushSpace, hq.space]
  refine hunplaced.trans (t := s.unplaced p) ?_
  have hclear : Untouched (s.unplaced p) (s.unplaced p).clearPass := by
    unfold State.clearPass
    split
    · exact ⟨⟨rfl, rfl, rfl, rfl, rfl, rfl, rfl, rfl, rfl, rfl, id⟩, rfl, rfl⟩
    · exact ⟨.refl _, rfl, rfl⟩
  exact hclear

/-- Entries that are IDLE and that nobody waits for have nothing to go on with (R77). -/
theorem resumeEntries_calm (h : ∀ e ∈ s.table, e.activity = .idle ∧ e.waiters = []) : s.resumeEntries = s := by
  refine List.foldl_fixed' (fun l => ?_) _
  unfold State.resumeEntry
  split
  · rename_i e he
    obtain ⟨hi, hw⟩ := h e (entry?_some he).1
    rw [if_pos hi, service_noWaiters he hw]
  · rfl

theorem Untouched.calm (a : Untouched s t) (h : s.Calm) : t.Calm := by
  obtain ⟨hq, he⟩ := h
  refine ⟨⟨a.allocQueue.trans hq.alloc, a.jspace.trans hq.space, a.completing.trans hq.region, fun q => ?_,
    a.port hq.port⟩, ?_⟩
  · rw [State.sessionState, a.sessions]
    exact hq.sessions q
  · rw [a.table]
    exact he

/-- After the holdings, the revocation of a port without outstanding requests finds nothing to do in a calm hub (R77). -/
theorem revoke_untouched (h : (s.revokeHoldings p cause).Calm) (ho : s.outstanding p = []) (fenced : Bool) :
    Untouched (s.revokeHoldings p cause) (s.revoke p cause fenced) := by
  have hreq : (s.revokeHoldings p cause).requests = s.requests := revokeHoldings_requests cause
  unfold State.revoke
  dsimp only
  generalize s.revokeHoldings p cause = w at h hreq ⊢
  have hclosed := closeRecallsTo_untouched (s := w) (p := p)
  have hplaces := hclosed.trans (leavePlaces_untouched (p := p) (hclosed.calm h))
  generalize (w.closeRecallsTo p).leavePlaces p = x at hplaces ⊢
  have hnone : x.outstanding p = [] := by rw [State.outstanding, hplaces.requests, hreq]; exact ho
  have hsame : (if fenced = true then x.answerFenced p else x.discardRequests p) = x := by
    cases fenced with
    | true => rw [if_pos rfl, State.answerFenced, hnone]; rfl
    | false =>
      have hall : x.requests.filter (fun r => r.id.port != p) = x.requests := List.filter_eq_self.2 fun r hr => by
        simpa using List.filter_eq_nil_iff.1 hnone r hr
      rw [if_neg (by decide), State.discardRequests, hall]
  rw [hsame, resumeEntries_calm (hplaces.calm h).2]
  exact hplaces

end Sys2Proof.Machine

/-! PROOFS. The revocation of an ONLINE port in a calm hub, by a fence or with its link (R76, R78, R155, R172, R176). -/

namespace Sys2Proof.Machine

variable {s t u v : State} {p q : Port} {c : Instr} {cause : Cause} {told : List Notice}

/-! ## What the revocation leaves -/

/-- What a revocation leaves of the line table, the journal, the requests and the other ports' notices, where these are told. -/
structure RevokedCalmly (s t : State) (p : Port) (told : List Notice) : Prop where
  table    : t.table = s.table.map (s.revokedEntry p)
  journal  : t.journal = s.journal
  requests : t.requests = s.requests
  notices  : ∀ q : Port, q ≠ p → t.notices[q] =
    ((s.recordNotices t q ++ if q = s.supervisor then told else []).foldl (fun u n => u.postNotice q n) s).notices[q]

/-- A calm hub in which a port's requests are none. -/
structure CalmFor (s : State) (p : Port) : Prop where
  calm   : s.Calm
  alone  : s.outstanding p = []
  faults : s.faultQueue.length ≤ 6
  lines  : (s.table.map Entry.line).Nodup

theorem CalmFor.congr (h : CalmFor s p) (hs : t = { s with links := t.links, sessions := t.sessions })
    (hc : ∀ q : Port, t.sessionState q ≠ .closing) : CalmFor t p := by
  obtain ⟨⟨hq, he⟩, ho, hf, hl⟩ := h
  generalize t.links = ls at hs
  generalize hxs : t.sessions = xs at hs
  subst hs
  exact ⟨⟨⟨hq.alloc, hq.space, hq.region, hc, hq.port⟩, he⟩, ho, hf, hl⟩

theorem revokeHoldings_calm (h : CalmFor s p) : (s.revokeHoldings p cause).Calm := by
  refine ⟨revokeHoldings_quiet h.calm.1, fun e he => ?_⟩
  rw [revokeHoldings_table h.faults h.lines] at he
  obtain ⟨x, hx, rfl⟩ := List.mem_map.1 he
  exact h.calm.2 x hx

/-- From the state in which the holdings are revoked on, only notices that are told are posted for the other ports. -/
theorem revokedCalmly_of (h : CalmFor v p) (hs : v = { s with links := v.links, sessions := v.sessions })
    (hx : ∀ q : Port, q ≠ p → v.sessionState q = s.sessionState q) (ht : Stands (v.revokeHoldings p cause) t)
    (hn : ∀ q : Port, q ≠ p → t.notices[q] =
      (if q = s.supervisor then told else []).foldl (NoticeUnit.posted (s.sessionState q))
        (v.revokeHoldings p cause).notices[q]) :
    RevokedCalmly s t p told := by
  obtain ⟨_, _, _, _, _, _, _, _, hframe, -⟩ := revokeHoldings_frame (p := p) (cause := cause) h.calm.1.space
  refine ⟨?_, ?_, ?_, fun q hq => ?_⟩
  · rw [ht.table, revokeHoldings_table h.faults h.lines, hs]
    rfl
  · rw [ht.journal, hframe, hs]
  · rw [ht.requests, hframe, hs]
  · have hrec : v.recordNotices (v.revokeHoldings p cause) q = s.recordNotices t q := by
      have hmode : v.mode = s.mode := by rw [hs]
      have hsup : v.supervisor = s.supervisor := by rw [hs]
      have hqueue : v.faultQueue = s.faultQueue := by rw [hs]
      rw [State.recordNotices, State.recordNotices, ht.mode, ht.faultQueue, hmode, hsup, hqueue]
    have hunit : v.notices[q] = s.notices[q] := by rw [hs]
    rw [hn q hq, revokeHoldings_notices h.faults, posts_own, List.foldl_append, hrec, hx q hq, hunit]

/-! ## A fence (R155, R172) -/

theorem setLink_stands (l : LinkUnit) : Stands s (s.setLink p l) := ⟨rfl, rfl, rfl, rfl, rfl, rfl, rfl, rfl, rfl, rfl, id⟩

theorem setSession_stands (x : Session) : Stands s (s.setSession p x) :=
  ⟨rfl, rfl, rfl, rfl, rfl, rfl, rfl, rfl, rfl, rfl, id⟩

theorem setNotices_stands (u : NoticeUnit) : Stands s (s.setNotices p u) :=
  ⟨rfl, rfl, rfl, rfl, rfl, rfl, rfl, rfl, rfl, rfl, id⟩

theorem deliverNotice_stands : Stands s (s.deliverNotice p) := by
  unfold State.deliverNotice
  split
  · exact (setNotices_stands _).trans (setLink_stands _)
  · exact .refl s

theorem postNotice_stands (n : Notice) : Stands s (s.postNotice p n) := by
  unfold State.postNotice
  split
  · exact (setNotices_stands _).trans deliverNotice_stands
  · exact .refl s

theorem fenceNotices_stands : Stands s (s.fenceNotices p cause) := (setNotices_stands _).trans deliverNotice_stands

theorem deliverNotice_sessions : (s.deliverNotice p).sessions = s.sessions := by
  unfold State.deliverNotice
  split <;> rfl

theorem fenceNotices_other (h : q ≠ p) : (s.fenceNotices p cause).notices[q] = s.notices[q] :=
  (deliverNotice_other h).trans (setNotices_other h)

/-- SESSION_FENCED at the head of the queue goes before HUB_STOPPED, which has the same priority (R149, R152). -/
theorem next_sessionFenced (u : NoticeUnit) {n : Notice} (hn : n.kind = .sessionFenced) {waiting : List Notice}
    (hw : ∀ w ∈ waiting, w.kind = .hubStopped) (hl : waiting.length ≤ 1) :
    NoticeUnit.next { u with queue := n :: waiting, inFlight := none } =
      some ({ u with queue := waiting, inFlight := some { number := u.counter, notice := n }, counter := u.counter + 1 },
        { number := u.counter, notice := n }) := by
  match waiting, hw, hl with
  | [], _, _ => simp [NoticeUnit.next, bestNotice, Notice.sendable, hn, NoticeKind.priority, Config.topPriority]
  | [w], hw, _ => simp [NoticeUnit.next, bestNotice, Notice.sendable, hn, hw w, NoticeKind.priority, Config.topPriority]

/-- The HUB_STOPPED that waits while STOPPED (R155, R157). -/
def State.stopNotices (s : State) : List Notice :=
  s.stopRecord.toList.map fun r => { kind := .hubStopped, subject := none, data := r.body.kind.code }

theorem fenceNotices_eq (h : s.stopRecord.isSome = true → s.mode = .stopped) : s.fenceNotices p cause =
    (s.setNotices p { s.notices[p] with
      queue := { kind := .sessionFenced, subject := none, data := cause.code } :: s.stopNotices
      inFlight := none }).deliverNotice p := by
  unfold State.fenceNotices State.stopNotices
  cases hr : s.stopRecord with
  | none => rfl
  | some r =>
    have hm : s.mode = .stopped := h (by rw [hr]; rfl)
    simp only [hm, if_true]
    rfl

/-- On the fenced port SESSION_FENCED is in flight, and HUB_STOPPED waits behind it while STOPPED (R155). -/
theorem fenceNotices_own (h : s.stopRecord.isSome = true → s.mode = .stopped) : (s.fenceNotices p cause).notices[p] =
    { s.notices[p] with
      queue := s.stopNotices
      inFlight := some {
        number := s.notices[p].counter
        notice := { kind := .sessionFenced, subject := none, data := cause.code } }
      counter := s.notices[p].counter + 1 } := by
  have hown : ∀ u : NoticeUnit, (s.setNotices p u).notices[p] = u := fun u => by simp [State.setNotices]
  have hkind : ∀ w ∈ s.stopNotices, w.kind = .hubStopped := by simp [State.stopNotices]
  have hone : s.stopNotices.length ≤ 1 := by
    cases hr : s.stopRecord <;> simp [State.stopNotices, hr]
  rw [fenceNotices_eq h, deliverNotice_own, hown, next_sessionFenced s.notices[p] rfl hkind hone]
  rfl

theorem fenceNotices_sessions : (s.fenceNotices p cause).sessions = s.sessions := deliverNotice_sessions

/-- What a fence does once it has revoked: the notices of the port, then AGENT_FENCED for the supervisor's (R155, R172). -/
def State.fenceTold (s : State) (p : Port) (cause : Cause) : State :=
  (s.fenceNotices p cause).postNotice s.supervisor { kind := .agentFenced, subject := some p, data := cause.code }

theorem fenceTold_stands : Stands s (s.fenceTold p cause) := fenceNotices_stands.trans (postNotice_stands _)

theorem fenceTold_sessions : (s.fenceTold p cause).sessions = s.sessions :=
  (State.postNotice_sessions ..).trans fenceNotices_sessions

/-- Of the other ports, the supervisor's is told of the fence (R172). -/
theorem fenceTold_other (hq : q ≠ p) : (s.fenceTold p cause).notices[q] =
    (if q = s.supervisor then [{ kind := .agentFenced, subject := some p, data := cause.code }] else []).foldl
      (NoticeUnit.posted (s.sessionState q)) s.notices[q] := by
  have hsess : (s.fenceNotices p cause).sessionState q = s.sessionState q := by
    rw [State.sessionState, fenceNotices_sessions, State.sessionState]
  unfold State.fenceTold
  by_cases hs : q = s.supervisor
  · rw [if_pos hs, ← hs, postNotice_own, fenceNotices_other hq, hsess]
    rfl
  · rw [if_neg hs, postNotice_other hs, fenceNotices_other hq]
    rfl

/-- The notices of the fenced port (R155). -/
theorem fenceTold_own (hp : p ≠ s.supervisor) (h : s.stopRecord.isSome = true → s.mode = .stopped) :
    (s.fenceTold p cause).notices[p] = { s.notices[p] with
      queue := s.stopNotices
      inFlight := some {
        number := s.notices[p].counter
        notice := { kind := .sessionFenced, subject := none, data := cause.code } }
      counter := s.notices[p].counter + 1 } :=
  (postNotice_other hp).trans (fenceNotices_own h)

/-- A fence of a port that is not the supervisor's revokes, and tells (R172). -/
theorem fencePort_eq (ho : (s.sessionState p).isOpen = true) (hp : p ≠ s.supervisor) :
    s.fencePort p cause = ((s.fencing p).revoke p cause true).fenceTold p cause := by
  have hsup : ((s.fencing p).revoke p cause true).supervisor = s.supervisor := (revoke_keeps _ p cause true).supervisor
  have hfence : s.fencePort p cause =
      (let u := ((s.fencing p).revoke p cause true).fenceNotices p cause
       if p = u.supervisor then u
       else u.postNotice u.supervisor { kind := .agentFenced, subject := some p, data := cause.code }) := if_pos ho
  rw [hfence]
  generalize (s.fencing p).revoke p cause true = r at hsup ⊢
  dsimp only
  rw [(fenceNotices_keeps r p cause).supervisor, if_neg (hsup ▸ hp)]
  rfl

theorem fencing_other (h : q ≠ p) : (s.fencing p).sessionState q = s.sessionState q := by
  simp [State.fencing, State.sessionState, State.setSession, Fin.val_ne_of_ne (Ne.symm h)]

theorem fencing_own : (s.fencing p).sessionState p = .fenced := by
  simp [State.fencing, State.sessionState, State.setSession]

/-- HUB_STOPPED is the one notice that a record can bring a port that is not the supervisor's: it leaves the counter one further
when it finds nothing in flight (R119, R122). -/
theorem recordNotices_unit {x : SessionState} {n : NoticeUnit} (hp : p ≠ s.supervisor) (hx : x.hasSession = true) :
    ((s.recordNotices t p).foldl (NoticeUnit.posted x) n).threshold = n.threshold ∧
    ((s.recordNotices t p).foldl (NoticeUnit.posted x) n).counter =
      n.counter + if t.mode ≠ s.mode ∧ n.inFlight = none then 1 else 0 := by
  unfold State.recordNotices
  by_cases hm : t.mode = s.mode
  · simp [hm, hp]
  · have := posted_hubStopped (u := n) (n := { kind := .hubStopped, subject := none, data := RecordKind.holderLost.code }) rfl hx
    simpa [hm] using this

theorem CalmFor.fencing (h : CalmFor s p) : CalmFor (s.fencing p) p := by
  refine h.congr rfl fun q => ?_
  by_cases hq : q = p
  · subst hq
    rw [fencing_own]
    decide
  · rw [fencing_other hq]
    exact h.calm.1.sessions q

/-- Behind the revoked holdings, the revocation of a fence finds nothing to do. -/
theorem CalmFor.fence_untouched (h : CalmFor s p) :
    Untouched ((s.fencing p).revokeHoldings p cause) ((s.fencing p).revoke p cause true) :=
  revoke_untouched (revokeHoldings_calm h.fencing) h.fencing.alone true

/-- What has happened to a calm hub when a fence has revoked: behind the revoked holdings nothing. -/
structure FenceRevoked (s r : State) (p : Port) (cause : Cause) : Prop where
  behind     : Untouched ((s.fencing p).revokeHoldings p cause) r
  sessions   : r.sessions = (s.fencing p).sessions
  supervisor : r.supervisor = s.supervisor

/-- The fence of a port that is not the supervisor's, in a calm hub, revokes the holdings and tells. -/
theorem fencePort_calm (h : CalmFor s p) (ho : (s.sessionState p).isOpen = true) (hp : p ≠ s.supervisor) :
    ∃ r, FenceRevoked s r p cause ∧ s.fencePort p cause = r.fenceTold p cause := by
  have hr := h.fence_untouched (cause := cause)
  exact ⟨_, ⟨hr, hr.sessions.trans (revokeHoldings_stays cause).sessions, (revoke_keeps _ p cause true).supervisor⟩,
    fencePort_eq ho hp⟩

theorem FenceRevoked.settles (h : FenceRevoked s t p cause) (hs : CalmFor s p) (found : State) :
    (t.fenceTold p cause).settle found = t.fenceTold p cause := by
  refine (h.behind.toStands.trans fenceTold_stands).settles (revokeHoldings_calm hs.fencing).1 (fun q => ?_) found
  rw [State.sessionState, fenceTold_sessions, h.sessions]
  exact hs.fencing.calm.1.sessions q

/-- The other ports hear of the new record, then the supervisor's of the fence. -/
theorem FenceRevoked.revokedCalmly (h : FenceRevoked v t p cause) (hv : LinksOnly s v) (hc : CalmFor v p) :
    RevokedCalmly s (t.fenceTold p cause) p [{ kind := .agentFenced, subject := some p, data := cause.code }] := by
  have hsess : ∀ q : Port, q ≠ p → (v.fencing p).sessionState q = s.sessionState q := fun q hq => by
    rw [fencing_other hq, hv.same]
    rfl
  refine revokedCalmly_of hc.fencing (by rw [hv.same]; rfl) hsess (h.behind.toStands.trans fenceTold_stands) fun q hq => ?_
  have hq' : t.sessionState q = s.sessionState q := by
    rw [← hsess q hq, State.sessionState, h.sessions, State.sessionState]
  have hsup : t.supervisor = s.supervisor := by rw [h.supervisor, hv.same]
  rw [fenceTold_other hq, hq', hsup, h.behind.notices]

/-- On the fenced port every notice has given way to SESSION_FENCED, whose number is one further if HUB_STOPPED was sent first
(R155; log entry 23). -/
theorem FenceRevoked.notices (h : FenceRevoked s t p cause) (hs : CalmFor s p) (hp : p ≠ s.supervisor)
    (hunit : FaultUnitOk (t.fenceTold p cause)) :
    let n : Byte := s.notices[p].counter +
      if (t.fenceTold p cause).mode ≠ s.mode ∧ s.notices[p].inFlight = none then 1 else 0
    (t.fenceTold p cause).notices[p] = { s.notices[p] with
      queue := (t.fenceTold p cause).stopNotices
      inFlight := some { number := n, notice := { kind := .sessionFenced, subject := none, data := cause.code } }
      counter := n + 1 } := by
  have htold := fenceTold_stands (s := t) (p := p) (cause := cause)
  have hslot := hunit.slot.1
  have hmode := htold.mode
  rw [htold.stopRecord, hmode] at hslot
  have hstop : (t.fenceTold p cause).stopNotices = t.stopNotices := by rw [State.stopNotices, htold.stopRecord, State.stopNotices]
  obtain ⟨hthreshold, hcounter⟩ := recordNotices_unit (s := s.fencing p) (t := t) (p := p) (x := .fenced) (n := s.notices[p])
    hp rfl
  have hunit : t.notices[p] = ((s.fencing p).recordNotices t p).foldl (NoticeUnit.posted .fenced) s.notices[p] := by
    have hrec : (s.fencing p).recordNotices ((s.fencing p).revokeHoldings p cause) p = (s.fencing p).recordNotices t p := by
      rw [State.recordNotices, State.recordNotices, h.behind.mode, h.behind.faultQueue]
    rw [h.behind.notices, revokeHoldings_notices hs.fencing.faults, hrec, fencing_own]
    rfl
  rw [← hunit] at hthreshold hcounter
  have hfencing : (s.fencing p).mode = s.mode := rfl
  rw [fenceTold_own (h.supervisor ▸ hp) hslot, hstop]
  dsimp only
  rw [hcounter, hthreshold, hmode, hfencing]

/-! ## The end of a session (R176) -/

/-- A session that ends, with another link unit left on its port, in a calm hub: only the port's own session, notices and
link have changed since its holdings were revoked. -/
theorem endSession_stands (h : CalmFor s p) (ho : (s.sessionState p).isOpen = true) (next : SessionState) (l : LinkUnit) :
    Stands (s.revokeHoldings p .linkLost) ((s.endSession p next).setLink p l) ∧
    (∀ q : Port, q ≠ p → ((s.endSession p next).setLink p l).notices[q] = (s.revokeHoldings p .linkLost).notices[q]) ∧
    ((s.endSession p next).setLink p l).sessions = s.sessions.set p { state := next, capacity := none, number := none } := by
  have hrevoke := revoke_untouched (revokeHoldings_calm (cause := .linkLost) h) h.alone false
  have hsess : (s.revoke p .linkLost false).sessions = s.sessions :=
    hrevoke.sessions.trans (revokeHoldings_stays (p := p) _).sessions
  unfold State.endSession
  dsimp only
  rw [if_pos ho]
  generalize s.revoke p .linkLost false = r at hrevoke hsess ⊢
  have hended : Stands r ((((r.setSession p { state := next, capacity := none, number := none }).setNotices p
      NoticeUnit.reset).setLink p { r.links[p] with keepalive := none }).setLink p l) :=
    (((setSession_stands _).trans (setNotices_stands _)).trans (setLink_stands _)).trans (setLink_stands _)
  refine ⟨hrevoke.toStands.trans hended, fun q hq => ?_, ?_⟩
  · rw [← hrevoke.notices]
    exact setNotices_other hq
  · rw [← hsess]
    rfl

theorem endSession_settles (h : CalmFor s p) (ho : (s.sessionState p).isOpen = true) {next : SessionState}
    (hn : next ≠ .closing) (l : LinkUnit) (found : State) :
    ((s.endSession p next).setLink p l).settle found = (s.endSession p next).setLink p l := by
  obtain ⟨hstands, -, hsess⟩ := endSession_stands h ho next l
  refine hstands.settles (revokeHoldings_calm h).1 (fun q => ?_) found
  rw [State.sessionState, hsess]
  by_cases hq : q = p
  · subst hq
    simpa using hn
  · have hother : (s.sessions.set p { state := next, capacity := none, number := none })[q] = s.sessions[q] := by
      simp [Fin.val_ne_of_ne (Ne.symm hq)]
    rw [hother]
    exact h.calm.1.sessions q

/-- A Link Restart of an open port leaves it IDLE, with a link unit of its own (R167). -/
theorem takeLinkRestart_ends (ho : (s.sessionState p).isOpen = true) :
    ∃ l, s.takeLinkRestart p = ((s.endSession p .idle).setLink p l).settle s := by
  rw [State.takeLinkRestart, if_pos ho]
  dsimp only
  rw [State.answerLinkRestart, State.sendSessionEnd, sendLink_setLink, sendLink_setLink]
  exact ⟨_, rfl⟩

/-- Either way a link is lost, its port's session ends behind what its frame changed of the links (R167, R176). -/
theorem exec_linkLost (hr : s.resetN = true) (hup : s.links[p].up = true) (ho : (s.sessionState p).isOpen = true)
    (hc : c = .linkDown p ∨ ∃ b : Byte, b.getLsbD 0 = false ∧ c = .linkRestart p [b]) :
    ∃ v found next l, LinksOnly s v ∧ next.hasSession = false ∧
      exec c s = .next (((v.endSession p next).setLink p l).settle found) := by
  have hrec := receives_iff.2 ⟨hr, hup⟩
  rcases hc with rfl | ⟨b, hb, rfl⟩
  · exact ⟨s, s, .down, LinkUnit.reset, .refl s, rfl, exec_linkDown hrec⟩
  · have hv := restartKeepalive_linksOnly s p
    obtain ⟨l, hl⟩ := takeLinkRestart_ends (s := s.restartKeepalive p) (p := p) (by rw [hv.same]; exact ho)
    exact ⟨_, _, .idle, l, hv, rfl, by rw [exec_linkRestart hrec hb, hl]⟩

/-- A hub that is calm stays so for a port when only links have changed. -/
theorem CalmFor.behind (h : CalmFor s p) (hv : LinksOnly s v) : CalmFor v p :=
  h.congr (by rw [hv.same]) fun q => by
    rw [hv.same]
    exact h.calm.1.sessions q

/-- Every command that fences the port does so in the same way in a calm hub (R155, R172). -/
theorem exec_fences_calm (hf : Fences s p c cause) (hr : s.resetN = true) (hord : InOrder s) (h : CalmFor s p)
    (ho : (s.sessionState p).isOpen = true) (hp : p ≠ s.supervisor) :
    ∃ t, exec c s = .next t ∧ s.Revokes t p cause ∧
      RevokedCalmly s t p [{ kind := .agentFenced, subject := some p, data := cause.code }] ∧
      let n : Byte := s.notices[p].counter + if t.mode ≠ s.mode ∧ s.notices[p].inFlight = none then 1 else 0
      t.notices[p] = { s.notices[p] with
        queue := t.stopNotices
        inFlight := some { number := n, notice := { kind := .sessionFenced, subject := none, data := cause.code } }
        counter := n + 1 } := by
  obtain ⟨v, found, hv, hx⟩ := exec_fences hf hr ho
  have hvc := h.behind hv
  have hvo : (v.sessionState p).isOpen = true := by rw [hv.same]; exact ho
  have hvp : p ≠ v.supervisor := by rw [hv.same]; exact hp
  obtain ⟨t, ht, -, -, -, -, hrevokes⟩ := fenced_leavesNothing hv hr ho hx
  obtain ⟨r, hrev, hfence⟩ := fencePort_calm (cause := cause) hvc hvo hvp
  rw [hfence, hrev.settles hvc found] at hx
  cases hx.symm.trans ht
  have hown := hrev.notices hvc hvp (exec_keeps_inOrder c hx hord).faults
  have hnotices : v.notices = s.notices := by rw [hv.same]
  have hmode : v.mode = s.mode := by rw [hv.same]
  rw [hnotices, hmode] at hown
  exact ⟨_, hx, hrevokes hord, hrev.revokedCalmly hv hvc, hown⟩

/-- However the link of the port is lost, no port is told more in a calm hub than of the record (R176). -/
theorem exec_linkLost_calm (hr : s.resetN = true) (hup : s.links[p].up = true) (hord : InOrder s) (h : CalmFor s p)
    (ho : (s.sessionState p).isOpen = true)
    (hc : c = .linkDown p ∨ ∃ b : Byte, b.getLsbD 0 = false ∧ c = .linkRestart p [b]) :
    ∃ t, exec c s = .next t ∧ s.Revokes t p .linkLost ∧ RevokedCalmly s t p [] := by
  obtain ⟨v, found, next, l, hv, hn, hx⟩ := exec_linkLost hr hup ho hc
  have hvc := h.behind hv
  have hvo : (v.sessionState p).isOpen = true := by rw [hv.same]; exact ho
  obtain ⟨t, ht, -, -, -, -, hrevokes⟩ := ended_leavesNothing hv hr ho hn hx
  obtain ⟨hstands, hnot, -⟩ := endSession_stands hvc hvo next l
  rw [endSession_settles hvc hvo (by rintro rfl; cases hn)] at hx
  cases hx.symm.trans ht
  refine ⟨_, hx, hrevokes hord,
    revokedCalmly_of hvc (by rw [hv.same]) (fun q _ => by rw [hv.same]; rfl) hstands fun q hq => ?_⟩
  rw [hnot q hq, ite_self]
  rfl

/-- Settles O48: behind the revoked holdings nothing goes on in a calm hub, and what is posted depends on session states and
notice units alone. -/
theorem fencePoisonsWrittenLines : Obligations.FencePoisonsWrittenLines := by
  intro p s hr hord hq hon hp ho hidle revokes
  have hopen : (s.sessionState p).isOpen = true := isOpen_iff.2 (.inl hon)
  have hcalm : CalmFor s p := ⟨⟨hq, hidle⟩, ho, hord.faults.queue, hord.tables.lines⟩
  have left {t : State} {cause : Cause} {told : List Notice} (hrev : s.Revokes t p cause) (h : RevokedCalmly s t p told) :
      revokes t cause told := ⟨hrev, h.table, h.journal, h.requests, h.notices⟩
  refine ⟨fun c cause hf => ?_, fun hup c hc => ?_⟩
  · obtain ⟨t, hx, hrev, ht, hown⟩ := exec_fences_calm hf hr hord hcalm hopen hp
    exact ⟨t, hx, left hrev ht, hown⟩
  · obtain ⟨t, hx, hrev, ht⟩ := exec_linkLost_calm hr hup hord hcalm hopen hc
    exact ⟨t, hx, left hrev ht⟩

end Sys2Proof.Machine

/-! PROOFS. The grants of the arbiter (R90, R100, R101, R103, R107 to R109, R112). -/

namespace Sys2Proof.Machine

variable {s : State} {l : Line} {ls : List Line} {d : DirectJob} {ds : List DirectJob} {before after : List JournalEntry}
  {k : JournalEntry}

/-! ## An access begun (R100, R101) -/

/-- No half-word address of R100 wraps. -/
theorem halfAddr_eq (l : Line) (j : Nat) : halfAddr l j = BitVec.ofNat 20 (16 * l.toNat + j) := by
  have hl := l.isLt
  refine BitVec.eq_of_toNat_eq ?_
  simp only [halfAddr, BitVec.toNat_add, BitVec.toNat_shiftLeft, BitVec.toNat_setWidth, BitVec.toNat_ofNat, Nat.shiftLeft_eq]
  omega

theorem halfWordAt_eq (d : LineData) (j : Nat) : halfWordAt d j = byteAt d (2 * j + 1) ++ byteAt d (2 * j) := by
  refine BitVec.eq_of_getLsbD_eq fun i hi => ?_
  rw [halfWordAt, BitVec.getLsbD_extractLsb', BitVec.getLsbD_append, decide_eq_true hi, Bool.true_and]
  split
  · rw [getLsbD_byteAt _ _ _ ‹_›]
    congr 1
    omega
  · rw [getLsbD_byteAt _ _ _ (by omega)]
    congr 1
    omega

theorem bus_strobes (j : Job) : j.bus = j.strobes := by
  rw [Job.bus, Job.strobes, Job.drives, halfAddr_eq, halfWordAt_eq]

theorem beginAccess_begun (j : Job) : s.beginAccess j = s.begun j := by
  unfold State.beginAccess State.begun
  dsimp only
  rw [bus_strobes]
  cases s.mrdy <;> cases s.merr <;> rfl

/-! ## Grants made (R103, R107, R109) -/

/-- A FILL or DRAIN that is granted passes a DIRECT job that waits (R109). -/
theorem countPass_eq : s.countPass = { s with passCount := if s.directQueue = [] then s.passCount else s.passCount + 1 } := by
  unfold State.countPass
  by_cases h : s.directQueue = []
  · rw [if_pos (List.isEmpty_iff.2 h), if_pos h]
  · rw [if_neg (mt List.isEmpty_iff.1 h), if_neg h]

theorem grantFill_granted (h : s.fillQueue = l :: ls) : s.grantFill l = s.fillGranted l ls := by
  rw [State.grantFill, countPass_eq, beginAccess_begun, h]
  rfl

theorem grantDrain_granted (h : s.journal = before ++ k :: after) (hs : ∀ x ∈ before ++ after, x.seq ≠ k.seq) :
    s.grantDrain k = s.drainGranted before k after := by
  rw [State.grantDrain, journal_changed h hs fun x => { x with state := .writing }, countPass_eq, beginAccess_begun]
  rfl

/-- A DIRECT job that stands behind others in the DIRECT queue, none of them like it, leaves it. -/
theorem grantDirect_granted {others : List DirectJob} (h : s.directQueue = others ++ d :: ds) (hd : d ∉ others) :
    s.grantDirect d = s.directGranted d (others ++ ds) := by
  have hw : d.op.writesFirst = (d.op == .write || d.op == .storeWrite) := by cases d.op <;> rfl
  rw [State.grantDirect, beginAccess_begun, h, List.erase_append_right _ hd, List.erase_cons_head, hw]
  rfl

/-! ## The journal's choice (R90) -/

/-- With the port idle every retried entry waits for its grant (R94). -/
theorem retryWaiting_iff (hj : s.job = none) : s.retryWaiting k = true ↔ k.retried := by
  simp [State.retryWaiting, State.draining?, hj, JournalEntry.retried]

theorem eligible_iff : s.eligible k = true ↔ s.Eligible k := by
  simp [State.eligible, State.Eligible]

/-- The first of a list that has a property. -/
theorem find?_first {α : Type} {P : α → Bool} {xs ys zs : List α} {x : α} (h : xs = ys ++ x :: zs) (hx : P x = true)
    (hy : ∀ y ∈ ys, ¬ P y = true) : xs.find? P = some x :=
  List.find?_eq_some_iff_append.2 ⟨hx, ys, zs, h, fun y hm => by simpa using hy y hm⟩

theorem drainChoice_next (hj : s.job = none) (h : DrainNext s before k after) : s.drainChoice = some k := by
  unfold State.drainChoice
  cases h with
  | retried hat his hold =>
    rw [find?_first hat ((retryWaiting_iff hj).2 his) fun x hx => mt (retryWaiting_iff hj).1 (hold x hx)]
  | eligible hat hnone his hold =>
    have hr : s.journal.find? s.retryWaiting = none :=
      List.find?_eq_none.2 fun x hx => mt (retryWaiting_iff hj).1 (hnone x hx)
    rw [hr]
    exact find?_first hat (eligible_iff.2 his) fun x hx => mt eligible_iff.1 (hold x hx)

theorem drainGrant_next (hj : s.job = none) (hm : s.mode = .running) (h : DrainNext s before k after) :
    s.drainGrant = some (.drain k) := by
  simp [State.drainGrant, State.drainRequested, hm, drainChoice_next hj h]

theorem drainGrant_none (hj : s.job = none) (h : s.NoDrain) : s.drainGrant = none := by
  have hr : s.journal.find? s.retryWaiting = none :=
    List.find?_eq_none.2 fun x hx => mt (retryWaiting_iff hj).1 (h x hx).1
  have he : s.journal.find? s.eligible = none := List.find?_eq_none.2 fun x hx => mt eligible_iff.1 (h x hx).2
  simp [State.drainGrant, State.drainRequested, State.drainChoice, hr, he]

/-! ## The arbiter's choice (R108, R112) -/

theorem oldestFill_cons (h : s.fillQueue = l :: ls) : s.oldestFill = some (.fill l) := by rw [State.oldestFill, h]; rfl

theorem oldestFill_nil (h : s.fillQueue = []) : s.oldestFill = none := by rw [State.oldestFill, h]; rfl

theorem oldestDirect_cons (h : s.directQueue = d :: ds) : s.oldestDirect = some (.direct d) := by rw [State.oldestDirect, h]; rfl

theorem oldestDirect_nil (h : s.directQueue = []) : s.oldestDirect = none := by rw [State.oldestDirect, h]; rfl

/-- In RUNNING the choice goes by the pass count, then by the journal count (R108). -/
theorem arbiterChoice_running (hm : s.mode = .running) : s.arbiterChoice =
    if s.directQueue ≠ [] ∧ 8 ≤ s.passCount then s.oldestDirect
    else if s.journal.length < 24 then s.oldestFill.or (s.drainGrant.or s.oldestDirect)
    else s.drainGrant.or (s.oldestFill.or s.oldestDirect) := by
  have hp : (!s.directQueue.isEmpty && decide (Config.passLimit ≤ s.passCount)) = true ↔
      s.directQueue ≠ [] ∧ 8 ≤ s.passCount := by
    rw [Bool.and_eq_true, decide_eq_true_iff, Bool.not_eq_true', List.isEmpty_eq_false_iff]
    rfl
  simp only [State.arbiterChoice, hm, hp]
  rfl

/-- In STOPPED it is the oldest supervisor job (R112). -/
theorem arbiterChoice_stopped (hm : s.mode = .stopped) :
    s.arbiterChoice = (s.directQueue.find? DirectJob.isStore).map .direct := by
  simp only [State.arbiterChoice, hm]

theorem isStore_iff : d.isStore = true ↔ d.op = .storeRead ∨ d.op = .storeWrite := by simp [DirectJob.isStore]

/-! ## The command (R108) -/

/-- The state in which a job of the arbiter's choice is granted. -/
def State.granted (s : State) : Option Grant → State
  | none => s
  | some (.fill l) => s.grantFill l
  | some (.drain j) => s.grantDrain j
  | some (.direct d) => s.grantDirect d

/-- With RESET_N high and the port idle, GRANT grants what the arbiter chooses. -/
theorem exec_grant_idle {c : Option Grant} (hr : s.resetN = true) (hj : s.job = none) (hc : s.arbiterChoice = c) :
    exec .grant s = .next (s.granted c) := by
  have ha : s.arbitrate = s.granted c := by
    rw [State.arbitrate, hj, hc]
    rcases c with _ | _ | _ | _ <;> rfl
  exact congrArg Host.Outcome.next ((if_pos hr).trans ha)

theorem exec_grant_busy (hr : s.resetN = true) (hj : s.job ≠ none) : exec .grant s = .next s := by
  have ha : s.arbitrate = s := arbitrate_settled (.inl (Option.isSome_iff_ne_none.2 hj))
  exact congrArg Host.Outcome.next ((if_pos hr).trans ha)

theorem exec_grant_fill (hr : s.resetN = true) (hj : s.job = none) (h : s.fillQueue = l :: ls)
    (hc : s.arbiterChoice = some (.fill l)) : exec .grant s = .next (s.fillGranted l ls) := by
  rw [exec_grant_idle hr hj hc, State.granted, grantFill_granted h]

theorem exec_grant_drain (hr : s.resetN = true) (hj : s.job = none) (h : DrainNext s before k after)
    (hs : ∀ x ∈ before ++ after, x.seq ≠ k.seq) (hc : s.arbiterChoice = some (.drain k)) :
    exec .grant s = .next (s.drainGranted before k after) := by
  have hat : s.journal = before ++ k :: after := by cases h <;> assumption
  rw [exec_grant_idle hr hj hc, State.granted, grantDrain_granted hat hs]

theorem exec_grant_direct {others : List DirectJob} (hr : s.resetN = true) (hj : s.job = none)
    (h : s.directQueue = others ++ d :: ds) (hd : d ∉ others) (hc : s.arbiterChoice = some (.direct d)) :
    exec .grant s = .next (s.directGranted d (others ++ ds)) := by
  rw [exec_grant_idle hr hj hc, State.granted, grantDirect_granted h hd]

/-- Settles O59: by the arbiter's case, and by what waits in it. -/
theorem grantsInOrder : Obligations.GrantsInOrder := by
  intro s hr
  refine ⟨exec_grant_busy hr, ?_, ?_⟩
  · intro hj hm passed fill drain direct
    have hch := arbiterChoice_running hm
    have granted (hc : ∀ d ds, s.directQueue = d :: ds → s.arbiterChoice = some (.direct d)) : direct := fun d ds h =>
      exec_grant_direct (others := []) hr hj h List.not_mem_nil (hc d ds h)
    refine ⟨fun hp => ?_, fun hp hl => ?_, fun hp hl => ?_, fun hf hn hd => ?_⟩
    · rw [if_pos hp] at hch
      exact granted fun d ds h => hch.trans (oldestDirect_cons h)
    · rw [if_neg hp, if_pos hl] at hch
      refine ⟨fun l ls h => exec_grant_fill hr hj h ?_, fun hf before k after h hs => exec_grant_drain hr hj h hs ?_,
        fun hf hn => granted fun d ds h => ?_⟩
      · rw [hch, oldestFill_cons h, Option.some_or]
      · rw [hch, oldestFill_nil hf, drainGrant_next hj hm h, Option.none_or, Option.some_or]
      · rw [hch, oldestFill_nil hf, drainGrant_none hj hn, oldestDirect_cons h, Option.none_or, Option.none_or]
    · rw [if_neg hp, if_neg (Nat.not_lt.2 hl)] at hch
      refine ⟨fun before k after h hs => exec_grant_drain hr hj h hs ?_, fun hn l ls h => exec_grant_fill hr hj h ?_,
        fun hn hf => granted fun d ds h => ?_⟩
      · rw [hch, drainGrant_next hj hm h, Option.some_or]
      · rw [hch, drainGrant_none hj hn, oldestFill_cons h, Option.none_or, Option.some_or]
      · rw [hch, oldestFill_nil hf, drainGrant_none hj hn, oldestDirect_cons h, Option.none_or, Option.none_or]
    · refine exec_grant_idle (c := none) hr hj ?_
      rw [hch, oldestFill_nil hf, drainGrant_none hj hn, oldestDirect_nil hd]
      simp only [Option.or_none, ite_self]
  · intro hj hm store
    have hch := arbiterChoice_stopped hm
    refine ⟨fun others d ds hq hd ho => exec_grant_direct hr hj hq (fun h => ho d h hd) ?_,
      fun hn => exec_grant_idle (c := none) hr hj ?_⟩
    · rw [hch, find?_first hq (isStore_iff.2 hd) fun x hx => mt isStore_iff.1 (ho x hx)]
      rfl
    · rw [hch, List.find?_eq_none.2 fun x hx => mt isStore_iff.1 (hn x hx)]
      rfl

end Sys2Proof.Machine

/-! PROOFS. Resolve of a DRAIN_FAULT record (R94, R95, R97, R98, R128, R131, R132). -/

namespace Sys2Proof.Machine

variable {s : State} {p : Port} {f : RxFrame} {before after : List FaultRecord} {r : FaultRecord} {a : Action}
  {data : Option LineData} {l : Line} {c : StoreCause} {n : Nat} {q : Seq} {o : Origin} {d : LineData}
  {older younger : List JournalEntry} {j : JournalEntry}

/-! ## A record of the fault queue (R117, R128) -/

theorem queuedRecord?_queued (h : Queued s before r after) : s.queuedRecord? r.id = some r :=
  find?_first h.queue (beq_self_eq_true _) fun x hx => by simpa using h.others x (List.mem_append_left _ hx)

/-- A record that is changed keeps its place (R117). -/
theorem updateRecord_queued (h : Queued s before r after) (g : FaultRecord → FaultRecord) :
    s.updateRecord r.id g = { s with faultQueue := before ++ g r :: after } := by
  have same (xs : List FaultRecord) (hx : ∀ x ∈ xs, x.id ≠ r.id) : (xs.map fun x => if x.id = r.id then g x else x) = xs :=
    (List.map_congr_left fun x hm => if_neg (hx x hm)).trans (List.map_id _)
  rw [State.updateRecord, h.queue, List.map_append, List.map_cons, same before fun x hx => h.others x (List.mem_append_left _ hx),
    same after fun x hx => h.others x (List.mem_append_right _ hx), if_pos rfl]

theorem Queued.accepted (h : Queued s before r after) : Queued (s.accepted p) before r after := ⟨h.queue, h.others⟩

/-- Checks 4 to 8 let an action on an OPEN record of its kind pass, with data where it is SUPPLY (R128). -/
theorem checkResolve_opened (ho : r.state = .opened) (hk : r.body.kind.takes a = true) (hd : data.isSome = (a == .supply))
    (hn : a = .retry → r.body.attempts < 4) : r.checkResolve a data.isSome = none := by
  have hlimit : ¬ (a = .retry ∧ Config.attemptLimit ≤ r.body.attempts) := fun ⟨ha, hl⟩ => Nat.not_le.2 (hn ha) hl
  simp [FaultRecord.checkResolve, ho, hk, hd, hlimit]

/-- A Resolve that passes its checks has its action's effect, is answered, and its step ends (R128). -/
theorem onResolve_takes {effect : State → FaultRecord → Option LineData → State} (had : Admits s p f .resolve)
    (hp : parseResolve a f.payload = some (r.id, data)) (hq : Queued s before r after)
    (hc : r.checkResolve a data.isSome = none) :
    s.onResolve a p f effect = ((effect (s.accepted p) r data).reply p f.tag .done []).settle (s.accepted p) := by
  refine (onRequest_admits had hp _).trans ?_
  simp only [State.takeResolve, queuedRecord?_queued hq.accepted, hc]

theorem parseResolve_action (a : Action) (id : Byte) : parseResolve a [id, a.code] = some (id, none) := if_pos rfl

/-! ## The effects on a DRAIN_FAULT record (R94, R95) -/

theorem retryRecord_drain (hq : Queued s before r after) (hb : r.body = .drainFault l c n j.seq o d)
    (hj : s.journal = older ++ j :: younger) (hs : ∀ k ∈ older ++ younger, k.seq ≠ j.seq) :
    s.retryRecord r none = { s with
      faultQueue := before ++ { r with state := .retrying } :: after
      journal := older ++ { j with state := .writing, origin := .retry } :: younger } := by
  simp only [State.retryRecord, hb, updateRecord_queued hq fun x => { x with state := .retrying },
    journal_changed hj hs fun k => { k with state := .writing, origin := .retry }]

theorem dropRecord_drain (hq : Queued s before r after) (hb : r.body = .drainFault l c n j.seq o d)
    (hj : s.journal = older ++ j :: younger) (hs : ∀ k ∈ older ++ younger, k.seq ≠ j.seq) (abandoned : Bool) :
    s.dropRecord abandoned r none = State.syncsAnswered
      { s with
        journal := older ++ younger
        highAlarm := s.highAlarm || decide ((older ++ younger).length = 16)
        faultQueue := before ++ after } (s.syncList.map fun i => i.without j.seq abandoned) := by
  have hq' : Queued (s.removeJournal j.seq abandoned) before r after := by
    rw [removeJournal_only hj hs]
    exact ⟨(syncsAnswered_faultQueue _).trans hq.queue, hq.others⟩
  simp only [State.dropRecord, hb]
  rw [retireRecord_queued hq', removeJournal_only hj hs]
  exact (syncsAnswered_records _ _).symm

/-- Settles O53: by the action, of which each has one effect, that leaves nothing for the end of the step. -/
theorem drainFaultResolved : Obligations.DrainFaultResolved := by
  intro p f s before after r l c n o d older younger j had hq hb hqr ho hbody hj _ hs dropped
  have takes {a : Action} (ha : RecordKind.drainFault.takes a = true) (hp : f.payload = [r.id, a.code])
      (hn : a = .retry → n < 4) (effect : State → FaultRecord → Option LineData → State) :
      s.onResolve a p f effect = ((effect (s.accepted p) r none).reply p f.tag .done []).settle (s.accepted p) := by
    refine onResolve_takes had (by rw [hp, parseResolve_action]) hqr (checkResolve_opened ho ?_ ?_ ?_)
    · rw [hbody]; exact ha
    · revert ha; cases a <;> decide
    · rw [hbody]; exact hn
  refine ⟨fun hp hn => ?_, fun action i hi hp => ?_⟩
  · set retried : State := { s.accepted p with
      faultQueue := before ++ { r with state := .retrying } :: after
      journal := older ++ { j with state := .writing, origin := .retry } :: younger }
    have hquiet : Quiet retried := hq.busy hb rfl rfl rfl rfl
    refine congrArg Host.Outcome.next ((takes (a := .retry) rfl hp (fun _ => hn) _).trans ?_)
    rw [retryRecord_drain hqr.accepted hbody hj hs, settle_quiet (hquiet.reply ..),
      reply_behind (s := s) (t := retried) rfl]
    rfl
  · have hquiet : Quiet (dropped (s.accepted p)) := hq.busy hb rfl rfl rfl rfl
    have drops (abandoned : Bool) : (((s.accepted p).dropRecord abandoned r none).reply p f.tag .done []).settle (s.accepted p) =
        ((dropped (s.accepted p)).syncsAnswered (s.syncList.map fun i => i.without j.seq abandoned)).reply p f.tag .done [] := by
      rw [dropRecord_drain hqr.accepted hbody hj hs]
      exact settle_quiet ((hquiet.syncsAnswered _).reply ..)
    rcases hi with ⟨rfl, rfl⟩ | ⟨rfl, rfl⟩
    · exact congrArg Host.Outcome.next ((takes (a := .complete) rfl hp nofun _).trans (drops false))
    · exact congrArg Host.Outcome.next ((takes (a := .abandon) rfl hp nofun _).trans (drops true))

end Sys2Proof.Machine

/-! PROOFS. Copies that become DIRTY in a WRITE_THROUGH region (R83 to R87, R98, R139). -/

namespace Sys2Proof.Machine

variable {s t u v found : State} {p : Port} {l : Line} {e : Entry} {d old : LineData} {o : Origin} {c : HubCopy} {f : RxFrame}
  {before after : List FaultRecord} {r : FaultRecord} {g : Entry → Entry}

/-! ## The journal that takes a copy, or does not -/

/-- The state with the journal of another, with what follows from a new entry, and with its journal-space queue. -/
def State.journaledAs (s v : State) : State :=
  { s with
    journal := v.journal
    seqCounter := v.seqCounter
    highAlarm := v.highAlarm
    notices := v.notices
    links := v.links
    jspace := v.jspace }

/-- The states agree in the journal, and in what a new entry depends on. -/
structure SameJournal (s t : State) : Prop where
  journal    : t.journal = s.journal
  seqCounter : t.seqCounter = s.seqCounter
  highAlarm  : t.highAlarm = s.highAlarm
  notices    : t.notices = s.notices
  links      : t.links = s.links
  jspace     : t.jspace = s.jspace
  supervisor : t.supervisor = s.supervisor
  sessions   : t.sessions = s.sessions

/-- A copy owed to the journal of a state: what the copy becomes, and a state with what the journal and its queue become (R83 to
R87). -/
inductive Owing (s : State) (l : Line) (d : LineData) (o : Origin) : HubCopy → State → Prop where
  | merged (queued : s.hasQueued l = true) : Owing s l d o (.clean d) (s.mergeJournal l d o)
  | appended (room : Appends s l) : Owing s l d o (.clean d) (s.appended l d o)
  | waiting (full : s.journal.length = 32) (shut : ∀ j ∈ s.journal, j.line = l → j.state ≠ .queued) :
      Owing s l d o (.dirty d) { s with jspace := [.line l o] }

theorem SameJournal.merged (h : SameJournal s t) (l : Line) (d : LineData) (o : Origin) :
    t.mergeJournal l d o = t.journaledAs (s.mergeJournal l d o) := by
  obtain ⟨hj, hc, ha, hn, hl, hw, -, -⟩ := h
  simp only [State.journaledAs, State.mergeJournal, ← hj, ← hc, ← ha, ← hn, ← hl, ← hw]

theorem SameJournal.appended (h : SameJournal s t) (l : Line) (d : LineData) (o : Origin) :
    t.appended l d o = t.journaledAs (s.appended l d o) := by
  obtain ⟨hj, hc, ha, hn, hl, hw, hp, hs⟩ := h
  rw [appended_congr (t := t) d o hj hc ha hp hs hn hl, State.journaledAs, State.appended_jspace, ← hw]

theorem SameJournal.waiting (h : SameJournal s t) (w : List SpaceWaiter) :
    ({ t with jspace := w } : State) = t.journaledAs { s with jspace := w } := by
  obtain ⟨hj, hc, ha, hn, hl, -, -, -⟩ := h
  simp only [State.journaledAs, ← hj, ← hc, ← ha, ← hn, ← hl]

/-- On a full journal without a QUEUED entry of the line the copy stays DIRTY, and the line waits for journal space (R83, R86). -/
theorem makeDirty_waits (hc : s.classOf l = some .writeThrough) (hj : s.jspace = []) (hl : s.journal.length = 32)
    (hn : ∀ j ∈ s.journal, j.line = l → j.state ≠ .queued) :
    s.makeDirty l d o = { s.setCopy l (.dirty d) with jspace := [.line l o] } := by
  have hi : (s.setCopy l (.dirty d)).canInsert l = false := canInsert_full hl hn
  simp only [State.makeDirty, hc, if_true, hi, Bool.false_eq_true, if_false]
  exact joinSpace_empty (by exact hj) o

/-- In a WRITE_THROUGH region what becomes of a copy that becomes DIRTY goes by the journal (R86). -/
theorem makeDirty_owing (h : Owing s l d o c v) (hs : SameJournal s t) (hc : t.classOf l = some .writeThrough)
    (hj : s.jspace = []) : t.makeDirty l d o = (t.setCopy l c).journaledAs v := by
  have hj' : t.jspace = [] := hs.jspace.trans hj
  cases h with
  | merged queued =>
    have hq : t.hasQueued l = true := by rw [State.hasQueued, hs.journal]; exact queued
    rw [makeDirty_merges hc hq hj', hs.merged]
    rfl
  | appended room =>
    rw [makeDirty_appends hc (room.congr hs.journal hs.seqCounter) hj', hs.appended]
    rfl
  | waiting full shut =>
    rw [makeDirty_waits hc hj' (by rw [hs.journal]; exact full) (by rw [hs.journal]; exact shut)]
    exact SameJournal.waiting (t := t.setCopy l (.dirty d))
      ⟨hs.journal, hs.seqCounter, hs.highAlarm, hs.notices, hs.links, hs.jspace, hs.supervisor, hs.sessions⟩ _

/-- A command that leaves what becomes of the owed copy satisfies what is claimed of it. -/
theorem owed_of {with_ : HubCopy → State} {reply : State → State} {run : State → Prop}
    (hs : ∀ c, SameJournal s (with_ c)) (hj : u.journal = s.journal) (hc : u.seqCounter = s.seqCounter)
    (h : ∀ c v, Owing s l d o c v → run (reply ((with_ c).journaledAs v))) : u.Owed l d o with_ reply run := by
  refine ⟨fun hq => ?_, fun ha => ?_, fun hl hn => ?_⟩
  · rw [hj] at hq ⊢
    have hx := (hs (.clean d)).merged l d o
    rw [State.mergeJournal, (hs (.clean d)).journal] at hx
    rw [hx]
    exact h _ _ (.merged (hasQueued_iff.2 hq))
  · rw [(hs (.clean d)).appended]
    exact h _ _ (.appended (ha.congr hj.symm hc.symm))
  · rw [hj] at hl hn
    rw [(hs (.dirty d)).waiting]
    exact h _ _ (.waiting hl hn)

/-- With the port busy and no head of the allocation queue, the end of the step serves nobody: the journal-space queue is empty, or
the journal is full (R88). -/
theorem Owing.settles (h : Owing s l d o c v) (hq : Quiet s) (hb : s.job.isSome = true) (hjob : t.job = s.job)
    (hc : t.completing = s.completing) (hse : t.sessions = s.sessions) (ha : t.allocQueue = s.allocQueue)
    (hj : t.journal = v.journal) (hw : t.jspace = v.jspace) : t.settle found = t := by
  have ho : Occupied t := Occupied.congr ⟨hb, hq.region, hq.sessions⟩ hjob hc hse
  have hspace : t.serveSpace = t := by
    cases h with
    | merged => exact serveSpace_nil (hw.trans hq.space)
    | appended => exact serveSpace_nil (by rw [hw, State.appended_jspace, hq.space])
    | waiting full => exact serveSpace_full (by rw [hj]; exact full)
  rw [State.settle, hspace, rouseHead_nil _ (ha.trans hq.alloc), ho.ends]

/-! ## Release (R49, R86) -/

theorem takeRelease_owed (hq : Quiet s) (hb : s.job.isSome = true) (hcl : s.classOf l = some .writeThrough)
    (ho : s.recallOutstanding l p = false) (hh : s.holding l p = .write) (h : Owing s l d .through c v) (tag : Byte) :
    s.takeRelease p tag l (some d) = ((s.withTable
      (s.changed l fun x => { x with holdings := x.holdings.set p .none, copy := c })).journaledAs v).reply p tag .done [] := by
  have hgiven : s.givenUp l p (some d) = (s.withTable
      (s.changed l fun x => { x with holdings := x.holdings.set p .none, copy := c })).journaledAs v := by
    rw [← setHolding_setCopy]
    exact makeDirty_owing (t := s.setHolding l p .none) h ⟨rfl, rfl, rfl, rfl, rfl, rfl, rfl, rfl⟩ hcl hq.space
  rw [takeRelease_held (by rw [hh]; decide), hgiven, if_neg]
  · exact h.settles hq hb rfl rfl rfl rfl rfl rfl
  · show ¬ s.recallOutstanding l p = true
    rw [ho]
    decide

/-! ## Write Words (R43, R44, R86) -/

/-- The end of the service of a Write Words whose data is owed. -/
theorem serveDone_owed {k : Kind} {q : Req} {need : Access} (hg : Serving g) (hm : MayAsk s p k f.tag)
    (hv : Serves s p l need e old) (data : List Byte) :
    (((s.joined p f.tag q l).updateEntry l g).journaledAs v).serveDone l ⟨p, f.tag⟩ data =
      (((s.accepted p).withTable ({ g e with prefetched := false } :: s.others l)).journaledAs v).reply p f.tag .done data := by
  have he : (((s.joined p f.tag q l).updateEntry l g).journaledAs v).entry? l = some (g { e with waiters := [⟨p, f.tag⟩] }) :=
    updateEntry_entry? g hg.line (asked_joined (q := q) hv.present hv.noWaiters)
  have ho : (((s.joined p f.tag q l).updateEntry l g).journaledAs v).others l = s.others l :=
    (updateEntry_others g hg.line).trans (joinWaiters_others _)
  have hw : (g e).waiters = [] := (congrArg Entry.waiters (hg.waiters e e.waiters)).trans hv.noWaiters
  have hx : ({ g { e with waiters := [⟨p, f.tag⟩] } with
      waiters := (g { e with waiters := [⟨p, f.tag⟩] }).waiters.tail, prefetched := false } : Entry) =
      { g e with prefetched := false } := by
    rw [hg.waiters e [⟨p, f.tag⟩], List.tail_cons, ← hw]
  rw [serveDone_eq _ _ he, ho, hx]
  exact congrArg (fun rs => State.reply
    { ((s.accepted p).withTable ({ g e with prefetched := false } :: s.others l)).journaledAs v with requests := rs }
    p f.tag .done data) (requests_filter_fresh hm q)

/-- The service of a Write Words whose data is owed: its port's READ is dropped, the owed copy is handed to the journal, and the
answer goes behind what that brings about (R43, R44, R86). -/
theorem serveWrite_owed {k : Kind} {q : Req} {need : Access} (hq : Quiet s) (hcl : s.classOf l = some .writeThrough)
    (hm : MayAsk s p k f.tag) (hv : Serves s p l need e old) (hw : e.holdings[p] ≠ .write)
    (ho : s.recallOutstanding l p = false) (h : Owing (s.accepted p) l d .through c v) (data : List Byte) :
    ((if e.holdings[p] = .read then (s.joined p f.tag q l).dropOwnRead l p else s.joined p f.tag q l).makeDirty l d
      .through).serveDone l ⟨p, f.tag⟩ data =
    (((s.accepted p).withTable ({ e with copy := c, holdings := e.holdings.set p .none, prefetched := false } ::
      s.others l)).journaledAs v).reply p f.tag .done data := by
  by_cases hr : e.holdings[p] = .read
  · have hdrop : (s.joined p f.tag q l).dropOwnRead l p = (s.joined p f.tag q l).setHolding l p .none :=
      dropOwnRead_unrecalled ho
    rw [if_pos hr, hdrop, makeDirty_owing (t := (s.joined p f.tag q l).setHolding l p .none) h
      ⟨rfl, rfl, rfl, rfl, rfl, rfl, rfl, rfl⟩ hcl hq.space, setHolding_setCopy]
    exact serveDone_owed (serving_written p .none c) hm hv data
  · have hnone : e.holdings[p] = .none := by cases hx : e.holdings[p] <;> simp_all
    have hset : e.holdings.set p .none = e.holdings := by rw [← hnone]; exact Vector.set_getElem_self ..
    rw [if_neg hr, makeDirty_owing (t := s.joined p f.tag q l) h ⟨rfl, rfl, rfl, rfl, rfl, rfl, rfl, rfl⟩ hcl hq.space, hset]
    exact serveDone_owed (serving_copy c) hm hv data

/-- An admitted Write Words that its line's entry serves, also where it leaves the line waiting for journal space: what is left is
that its service leads to the state claimed, in which the end of the step does nothing. -/
theorem exec_writeWords_settles {first count : Nat} {en : Enables} {new : LineData} (ha : Admits s p f .writeWords)
    (hv : Serves s p l .full e old)
    (hp : f.payload = le16 l ++ [count8 first, count8 count] ++ le32 en ++ wordBytes new first count)
    (hf : first ≤ 7) (h1 : 1 ≤ count) (h8 : first + count ≤ 8) (hen : en ≠ 0) (hin : enablesInside en first count = true)
    (hh : ∀ q : Port, q ≠ p → e.holdings[q] = .none) (hw : e.holdings[p] ≠ .write) (ht : t.settle (s.accepted p) = t)
    (hs : ∀ q, ((if e.holdings[p] = .read then (s.joined p f.tag q l).dropOwnRead l p else s.joined p f.tag q l).makeDirty l
      (mergeBytes old new en) .through).serveDone l ⟨p, f.tag⟩ [bit (e.holdings[p] == .read)] = t) :
    exec (.writeWords p f) s = .next t := by
  obtain ⟨job, hx⟩ := exec_writeWords_admits ha (by rw [hp]; exact parseWriteWords_bytes l new hf h1 h8 hen hin)
  rw [hx, takeLineRequest_serves ha hv rfl (holdingCheck_words (.inr (.inl rfl)) hw ..) (recallsNeeded_writers (.inl rfl) hh)]
  refine congrArg Host.Outcome.next ((congrArg (State.settle · _) ?_).trans ht)
  rw [← mergeBytes_wordsField old new hin, ← HubCopy.data_of hv.data] at hs
  simp only [← beq_iff_eq (a := e.holdings[p])] at hs
  exact hs _

/-! ## Recall Answer (R68, R69, R86) -/

/-- Data from the WRITE holder that a recall names, whatever the kind of the recall (R68, R69). -/
theorem answerEffect_data (k : RecallKind) (d : LineData) :
    answerEffect k .write (.data d) = (if k = .downgrade then .read else .none, some d) := by cases k <;> rfl

theorem takeAnswer_owed {r : Recall} (hq : Quiet s) (hb : s.job.isSome = true) (hcl : s.classOf l = some .writeThrough)
    (hr : OnlyRecall s l p r) (he : s.entry? l = some e) (ha : e.activity = .recalling) (hw : e.waiters = [])
    (hh : e.holdings[p] = .write) (h : Owing s l d .through c v) :
    s.takeAnswer p ⟨r.id, l, .data d⟩ = ({ s.withTable (s.changed l fun x => { x with
      holdings := x.holdings.set p (if r.asked.kind = .downgrade then .read else .none), copy := c, activity := .idle }) with
        recalls := s.recallsWithout l p } : State).journaledAs v := by
  set left : Holding := if r.asked.kind = .downgrade then .read else .none
  set written : State :=
    (s.withTable (s.changed l fun x => { x with holdings := x.holdings.set p left, copy := c })).journaledAs v
  have hdirty : (s.setHolding l p left).makeDirty l d .through = written := by
    rw [makeDirty_owing (t := s.setHolding l p left) h ⟨rfl, rfl, rfl, rfl, rfl, rfl, rfl, rfl⟩ hcl hq.space,
      setHolding_setCopy]
  have hent : written.entry? l = some { e with holdings := e.holdings.set p left, copy := c } :=
    updateEntry_entry? (fun x => { x with holdings := x.holdings.set p left, copy := c }) (fun _ => rfl) he
  have hchanged : written.changed l (fun x => { x with activity := .idle }) =
      s.changed l fun x => { x with holdings := x.holdings.set p left, copy := c, activity := .idle } :=
    changed_changed (fun x => { x with holdings := x.holdings.set p left, copy := c }) _ fun _ => rfl
  have hclose := closeRecall_recalling (s := written) (hr.congr rfl rfl) hent ha hw hq.region (hq.sessions p)
  rw [hchanged] at hclose
  have heff : answerEffect r.asked.kind (s.holding l p) (.data d) = (left, some d) := by
    rw [holding_of he, hh]; exact answerEffect_data ..
  simp only [State.takeAnswer, matchRecall_only hr, heff, hdirty, hclose]
  exact h.settles hq hb rfl rfl rfl rfl rfl rfl

/-! ## Resolve SUPPLY and Supply Line (R86, R130, R134) -/

theorem parseResolve_supply (id : Byte) (d : LineData) : parseResolve .supply ([id, 2] ++ lineBytes d) = some (id, some d) := by
  obtain ⟨b, bs, h⟩ := lineBytes_cons d
  have hp := parseData_lineBytes d
  rw [h] at hp ⊢
  simp [parseResolve, Action.code, hp]

theorem supplyRecord_owed {x : StoreCause} {n : Nat} (hj : s.jspace = []) (hcl : s.classOf l = some .writeThrough)
    (hr : Queued s before r after) (hb : r.body = .fillFault l x n) (he : s.entry? l = some e) (hw : e.waiters = [])
    (h : Owing s l d .supply c v) :
    s.supplyRecord r (some d) = ({ s.withTable (s.changed l fun x => { x with copy := c, activity := .idle, recordId := none }) with
      faultQueue := before ++ after } : State).journaledAs v := by
  have hfreed : (s.updateEntry l fun e => { e with activity := .idle, recordId := none }).setCopy l c =
      s.withTable (s.changed l fun x => { x with copy := c, activity := .idle, recordId := none }) :=
    updateEntry_updateEntry (fun e => { e with activity := .idle, recordId := none }) _ fun _ => rfl
  have hdirty := makeDirty_owing (t := s.updateEntry l fun e => { e with activity := .idle, recordId := none }) h
    ⟨rfl, rfl, rfl, rfl, rfl, rfl, rfl, rfl⟩ hcl hj
  rw [hfreed] at hdirty
  have hq : Queued ((s.withTable (s.changed l fun x => { x with copy := c, activity := .idle, recordId := none })).journaledAs v)
      before r after := ⟨hr.queue, hr.others⟩
  simp only [State.supplyRecord, hb, hdirty]
  rw [retireRecord_queued hq]
  exact service_noWaiters
    (updateEntry_entry? (fun x => { x with copy := c, activity := .idle, recordId := none }) (fun _ => rfl) he) hw

/-- The record of lost lines without one of them: retired with its last line (R121, R134). -/
def FaultRecord.leaves (r : FaultRecord) (q : Port) (x : Cause) (left : List Line) : List FaultRecord :=
  if left = [] then [] else [{ r with body := .holderLost q x left }]

theorem dropLine_holderLost (q : Port) (x : Cause) (lines : List Line) :
    (RecordBody.holderLost q x lines).dropLine l = .holderLost q x (lines.filter fun x => decide (x ≠ l)) :=
  congrArg (RecordBody.holderLost q x) (List.filter_congr fun _ _ => by rw [bne, decide_not, beq_eq_decide])

theorem supplyLine_owed {q : Port} {x : Cause} {lines : List Line} (hj : s.jspace = [])
    (hcl : s.classOf l = some .writeThrough) (hr : Queued s before r after) (hb : r.body = .holderLost q x lines)
    (h : Owing s l d .supply c v) :
    s.supplyLine r l d = ({ s.withTable (s.changed l fun x => { x with copy := c, recordId := none }) with
      faultQueue := before ++ r.leaves q x (lines.filter fun x => decide (x ≠ l)) ++ after } : State).journaledAs v := by
  have hfreed : (s.updateEntry l fun e => { e with recordId := none }).setCopy l c =
      s.withTable (s.changed l fun x => { x with copy := c, recordId := none }) :=
    updateEntry_updateEntry (fun e => { e with recordId := none }) _ fun _ => rfl
  have hdirty := makeDirty_owing (t := s.updateEntry l fun e => { e with recordId := none }) h
    ⟨rfl, rfl, rfl, rfl, rfl, rfl, rfl, rfl⟩ hcl hj
  rw [hfreed] at hdirty
  have hq : Queued ((s.withTable (s.changed l fun x => { x with copy := c, recordId := none })).journaledAs v) before r after :=
    ⟨hr.queue, hr.others⟩
  simp only [State.supplyLine, hdirty, hb, dropLine_holderLost, RecordBody.lostLines, FaultRecord.leaves, List.isEmpty_iff]
  split
  · rw [retireRecord_queued hq, List.append_nil]
    rfl
  · rw [updateRecord_queued hq, hb, dropLine_holderLost, List.append_assoc, List.singleton_append]
    rfl

theorem checkSupply_listed {q : Port} {x : Cause} {lines : List Line} (hs : r.state ≠ .posted)
    (hb : r.body = .holderLost q x lines) (hl : l ∈ lines) : r.checkSupply l = none := by
  simp [FaultRecord.checkSupply, hs, hb, RecordBody.kind, RecordBody.lostLines, hl]

/-- An admitted Supply Line of a line that its record lists takes effect, and answers how many lines remain (R134). -/
theorem exec_supplyLine_takes (had : Admits s p f .supplyLine) (hp : f.payload = r.id :: le16 l ++ lineBytes d)
    (hr : Queued s before r after) (hc : r.checkSupply l = none) :
    exec (.supplyLine p f) s = .next ((((s.accepted p).supplyLine r l d).reply p f.tag .done
      (count16 (r.body.dropLine l).lostLines.length)).settle (s.accepted p)) := by
  refine congrArg Host.Outcome.next ((onRequest_admits had (a := (r.id, l, d)) ?_ _).trans ?_)
  · rw [hp]; exact parseSupplyLine_bytes r.id l d
  · simp only [State.takeSupplyLine, queuedRecord?_queued hr.accepted, hc]

/-- Settles O20: each command hands its data to the journal in the state that its frame has left. -/
theorem writeThroughOwed : Obligations.WriteThroughOwed := by
  intro p f s l d hq hb hcl
  have hqa : Quiet (s.accepted p) := hq.accepted
  have hba : (s.accepted p).job.isSome = true := hb
  refine ⟨?_, ?_, ?_, ?_, ?_⟩
  · intro had ho hp hh
    refine owed_of (s := s.accepted p) (fun c => ⟨rfl, rfl, rfl, rfl, rfl, rfl, rfl, rfl⟩) rfl rfl fun c v h => ?_
    rw [exec_release_admits had ((releaseOperand_data hp).trans (if_pos hh))]
    exact congrArg _ (takeRelease_owed hqa hba hcl ho hh h f.tag)
  · intro e old new first count en had hv hp hf h1 h8 hen hin hoth hw ho hd
    subst hd
    refine owed_of (s := s.accepted p) (fun c => ⟨rfl, rfl, rfl, rfl, rfl, rfl, rfl, rfl⟩) rfl rfl fun c v h => ?_
    exact exec_writeWords_settles had hv hp hf h1 h8 hen hin hoth hw
      (h.settles hqa hba rfl rfl rfl rfl rfl rfl)
      fun q => serveWrite_owed hq hcl had.may hv hw ho h _
  · intro e r har hs he ha hw hr hh hp
    refine owed_of (s := s.accepted p) (fun c => ⟨rfl, rfl, rfl, rfl, rfl, rfl, rfl, rfl⟩) rfl rfl fun c v h => ?_
    rw [exec_recallAnswer_open har (.inl hs) (by rw [hp]; exact parseRecallAnswer_data r.id l d)]
    exact congrArg _ (takeAnswer_owed (s := s.accepted p) hqa hba hcl (hr.congr rfl rfl) he ha hw hh h)
  · intro before after r x n e had hr ho hbody he _ hw hp
    refine owed_of (s := s.accepted p) (fun c => ⟨rfl, rfl, rfl, rfl, rfl, rfl, rfl, rfl⟩) rfl rfl fun c v h => ?_
    have htake := onResolve_takes (a := .supply) (effect := State.supplyRecord) had
      (by rw [hp]; exact parseResolve_supply r.id d) hr (checkResolve_opened ho (by rw [hbody]; rfl) rfl nofun)
    refine congrArg Host.Outcome.next (htake.trans ?_)
    rw [supplyRecord_owed (s := s.accepted p) hqa.space hcl hr.accepted hbody he hw h]
    exact h.settles hqa hba rfl rfl rfl rfl rfl rfl
  · intro before after r q x lines had hp hr hs hbody hl left
    refine owed_of (s := s.accepted p) (fun c => ⟨rfl, rfl, rfl, rfl, rfl, rfl, rfl, rfl⟩) rfl rfl fun c v h => ?_
    rw [exec_supplyLine_takes had hp hr (checkSupply_listed hs hbody hl), hbody, dropLine_holderLost,
      supplyLine_owed (s := s.accepted p) hqa.space hcl hr.accepted hbody h]
    exact congrArg _ (h.settles hqa hba rfl rfl rfl rfl rfl rfl)

end Sys2Proof.Machine

/-! PROOFS. Store Read and Store Write at the backing store port (R107, R108, R110, R112). -/

namespace Sys2Proof.Machine

variable {s : State} {p : Port} {f : RxFrame} {l : Line} {i : RegionId} {d : DirectJob} {q : Req} {tag : Byte}

/-! ## The check of the line (R110) -/

theorem isTracked_of_ne_plain (hi : s.regionOf l = some i) (hc : s.regions[i].cls ≠ .plain) : s.isTracked l = true := by
  unfold State.isTracked State.classOf
  rw [hi]
  cases hx : s.regions[i].cls <;> simp_all

theorem isTracked_eq_false (h : s.regionOf l = none ∨ (s.regionOf l = some i ∧ s.regions[i].cls = .plain)) :
    s.isTracked l = false := by
  unfold State.isTracked State.classOf
  rcases h with h | ⟨h, hc⟩
  · rw [h]; rfl
  · rw [h, Option.map_some, hc]

/-- The check refuses nothing in STOPPED, and outside the tracked regions (R110, R112). -/
theorem store_passes
    (h : s.mode = .stopped ∨ s.regionOf l = none ∨ (s.regionOf l = some i ∧ s.regions[i].cls = .plain)) :
    ¬ (s.mode = .running ∧ s.isTracked l = true) := by
  rintro ⟨hm, ht⟩
  rcases h with h | h
  · cases hm.symm.trans h
  · cases ht.symm.trans (isTracked_eq_false h)

/-! ## A supervisor job handed to the port (R107, R108) -/

/-- With the port busy the job waits, and nothing else follows. -/
theorem handDirect_waits {before : State} (hq : Quiet s) (hb : s.job.isSome = true) :
    (s.handDirect d).settle before = { s with directQueue := s.directQueue ++ [d] } :=
  settle_quiet (hq.busy hb rfl rfl rfl rfl)

/-- A supervisor job that waits alone is the arbiter's choice in either mode (R108, R112). -/
theorem arbiterChoice_onlyStore (hf : s.fillQueue = []) (hd : s.directQueue = [d]) (hw : s.drainRequested = false)
    (hs : d.isStore = true) : s.arbiterChoice = some (.direct d) := by
  have hdrain : s.drainGrant = none := by simp [State.drainGrant, hw]
  cases hm : s.mode with
  | running =>
    rw [arbiterChoice_running hm, oldestFill_nil hf, hdrain, oldestDirect_cons hd]
    simp only [Option.none_or, ite_self]
  | stopped => simp [arbiterChoice_stopped hm, hd, hs]

/-- With the port idle and nothing else waiting the job begins in the same step, and nothing else follows. -/
theorem handDirect_begins {before : State} (hq : Quiet s) (hj : s.job = none) (hs : d.isStore = true) :
    (s.handDirect d).settle before = s.directGranted d [] := by
  obtain ⟨hf, hd, hw⟩ := hq.port.resolve_left (by simp [hj])
  have hqueue : (s.handDirect d).directQueue = [d] := by simp [State.handDirect, hd]
  have hchoice : (s.handDirect d).arbiterChoice = some (.direct d) := arbiterChoice_onlyStore hf hqueue hw hs
  have hgrant : (s.handDirect d).arbitrate = s.directGranted d [] := by
    have hidle : (s.handDirect d).job.isSome = false := by simp [State.handDirect, hj]
    rw [State.arbitrate, hidle, hchoice]
    exact grantDirect_granted (others := []) hqueue List.not_mem_nil
  have hframe : (s.directGranted d []).completing = s.completing ∧ (s.directGranted d []).sessions = s.sessions := by
    unfold State.directGranted State.begun
    split <;> exact ⟨rfl, rfl⟩
  have hsessions : ∀ p : Port, (s.directGranted d []).sessionState p ≠ .closing := fun p => by
    have := hq.sessions p
    unfold State.sessionState at *
    rwa [hframe.2]
  rw [State.settle, serveSpace_nil (s := s.handDirect d) hq.space, rouseHead_nil (s := s.handDirect d) _ hq.alloc, hgrant,
    complete_settled (hframe.1.trans hq.region) hsessions]

/-! ## A store request taken (R110) -/

theorem Quiet.asked (h : Quiet s) (tag : Byte) (q : Req) : Quiet (s.asked p tag q) :=
  h.congr rfl rfl rfl rfl rfl rfl rfl rfl rfl

theorem takeStore_tracked (hm : s.mode = .running) (hi : s.regionOf d.line = some i) (hc : s.regions[i].cls ≠ .plain) :
    (s.accepted p).takeStore ⟨p, tag⟩ q d = s.replied p tag .lineTracked [] := by
  have ht : (s.accepted p).mode = .running ∧ (s.accepted p).isTracked d.line = true :=
    ⟨hm, isTracked_of_ne_plain (s := s.accepted p) hi hc⟩
  rw [State.takeStore, if_pos ht]
  exact accepted_reply ..

theorem takeStore_handed
    (h : s.mode = .stopped ∨ s.regionOf d.line = none ∨ (s.regionOf d.line = some i ∧ s.regions[i].cls = .plain)) :
    (s.accepted p).takeStore ⟨p, tag⟩ q d = ((s.asked p tag q).handDirect d).settle (s.accepted p) :=
  if_neg (store_passes (s := s.accepted p) h)

/-- The three outcomes of an admitted store request, which is known by its job. -/
theorem takeStore_outcomes {c : Instr} (hs : d.isStore = true) (hl : d.line = l)
    (hx : exec c s = .next ((s.accepted p).takeStore ⟨p, tag⟩ q d)) :
    let passes : Prop := s.mode = .stopped ∨ s.regionOf l = none ∨ (s.regionOf l = some i ∧ s.regions[i].cls = .plain)
    (s.mode = .running → s.regionOf l = some i → s.regions[i].cls ≠ .plain →
      exec c s = .next (s.replied p tag .lineTracked [])) ∧
    (passes → Quiet s → s.job.isSome = true →
      exec c s = .next { s.asked p tag q with directQueue := s.directQueue ++ [d] }) ∧
    (passes → Quiet s → s.job = none → exec c s = .next ((s.asked p tag q).directGranted d [])) := by
  subst hl
  rw [hx]
  refine ⟨fun hm hi hc => ?_, fun h hq hb => ?_, fun h hq hj => ?_⟩
  · rw [takeStore_tracked hm hi hc]
  · rw [takeStore_handed h, handDirect_waits (hq.asked tag q) hb]
    rfl
  · rw [takeStore_handed h, handDirect_begins (hq.asked tag q) hj hs]

/-- Settles O55: both kinds take the check of the line, and hand over their own job. -/
theorem storeRequestsTaken : Obligations.StoreRequestsTaken := by
  intro p f s l i d read write passes
  refine ⟨fun had hp => takeStore_outcomes rfl rfl (congrArg _ (onRequest_admits (a := l) had ?_ _)),
    fun had hp => takeStore_outcomes rfl rfl (congrArg _ (onRequest_admits (a := (l, d)) had ?_ _))⟩
  · rw [hp, parseLine_le16]
  · rw [hp, parseStoreWrite_bytes]

end Sys2Proof.Machine

/-! PROOFS. The half-words of a job on the bus (R100 to R102, R104, R105). -/

namespace Sys2Proof.Machine

variable {s : State} {j : Job} {md : HalfWord}

/-! ## The next access of a job (R104, R105) -/

theorem lastHalfWord_iff : j.lastHalfWord = true ↔ j.index = 15 := by
  simp [Job.lastHalfWord, Config.halfWordsPerLine]

theorem lastAccess_before (h : j.index < 15) : j.lastAccess = false := by
  have hl : j.lastHalfWord = false := Bool.eq_false_iff.2 (mt lastHalfWord_iff.1 (Nat.ne_of_lt h))
  rw [Job.lastAccess, hl, Bool.false_and]

/-- A write follows the read of a read-modify-write (R105). -/
theorem lastAccess_modifying {id : ReqId} {orphan : Bool} (hw : j.writing = false)
    (ho : j.owner = .direct .readModifyWrite id orphan) : j.lastAccess = false := by
  simp [Job.lastAccess, Job.modifies, hw, ho]

theorem take_reading (hw : j.writing = false) : j.take md = { j with buffer := setHalfWord j.buffer j.index md } :=
  if_neg (by simp [hw])

theorem advance_take_reading (h : j.index < 15) (hw : j.writing = false) :
    (j.take md).advance = { j with buffer := setHalfWord j.buffer j.index md, index := j.index + 1 } := by
  rw [take_reading hw]
  exact if_neg (mt lastHalfWord_iff.1 (Nat.ne_of_lt h))

theorem advance_take_writing (h : j.index < 15) (hw : j.writing = true) :
    (j.take md).advance = { j with index := j.index + 1 } := by
  rw [show j.take md = j from if_pos hw]
  exact if_neg (mt lastHalfWord_iff.1 (Nat.ne_of_lt h))

/-- The write of a read-modify-write takes the line read, with its last half-word (R105). -/
theorem advance_take_last (h : j.index = 15) (hw : j.writing = false) :
    let taken : LineData := setHalfWord j.buffer j.index md
    (j.take md).advance =
      { j with buffer := taken, writing := true, index := 0, data := mergeBytes taken j.data j.enables } := by
  rw [take_reading hw]
  exact if_pos (lastHalfWord_iff.2 h)

/-! ## MRDY and MERR with a strobe asserted, and with none (R101, R102) -/

theorem strobing_of (hr : s.resetN = true) (hj : s.job = some j) (hs : j.strobed = true) : s.strobing = true := by
  simp [State.strobing, hr, hj, hs]

theorem strobing_eq_false (h : s.resetN = false ∨ ∀ j, s.job = some j → j.strobed = false) : s.strobing = false := by
  rcases h with h | h
  · simp [State.strobing, h]
  · have hn : s.job.any (·.strobed) = false := by
      rw [Option.any_eq_false]
      exact fun j hj => by simp [h j hj]
    rw [State.strobing, hn, Bool.and_false]

/-- MRDY, asserted still, keeps the next access of the job waiting. -/
theorem exec_halfWordAnswered_goesOn (hr : s.resetN = true) (hj : s.job = some j) (hs : j.strobed = true)
    (hl : j.lastAccess = false) :
    exec (.halfWordAnswered md) s = .next { s with
      mrdy := true
      job := some { (j.take md).advance with strobed := false, timeout := s.timers.storeTenths }
      bus := Bus.quiet } := by
  show Host.Outcome.next (s.onHalfWord md) = _
  have hx : s.onHalfWord md = { s with mrdy := true }.beginAccess (j.take md).advance := by
    simp only [State.onHalfWord, strobing_of hr hj hs, hj, hl, Bool.false_eq_true, if_false]
  rw [hx, beginAccess_begun]
  exact congrArg _ (if_neg nofun)

theorem onHalfWord_unstrobed (h : s.strobing = false) : s.onHalfWord md = { s with mrdy := true } := by
  simp only [State.onHalfWord, h]

theorem onComplete_unstrobed {kind : JobOwner → Bool} (h : s.strobing = false) :
    s.onComplete kind md = { s with mrdy := true } := by
  simp only [State.onComplete, h]

theorem onError_unstrobed {kind : JobOwner → Bool} (h : s.strobing = false) :
    s.onError kind = { s with merr := true } := by
  simp only [State.onError, h]

/-! ## MRDY and MERR inactive (R101, R102) -/

/-- An access that waits is strobed. -/
theorem onMemoryQuiet_strobes (hr : s.resetN = true) (hj : s.job = some j) (hs : j.strobed = false) :
    s.onMemoryQuiet = { s with
      mrdy := false
      merr := false
      job := some { j with strobed := true, timeout := s.timers.storeTenths }
      bus := j.strobes } := by
  simp only [State.onMemoryQuiet, hr, hj, hs, Bool.false_eq_true, if_false]
  rw [beginAccess_begun]
  exact if_pos ⟨rfl, rfl⟩

theorem onMemoryQuiet_levels (h : s.resetN = false ∨ ∀ j, s.job = some j → j.strobed = true) :
    s.onMemoryQuiet = { s with mrdy := false, merr := false } := by
  unfold State.onMemoryQuiet
  split
  · rename_i j hr hj
    exact if_pos (h.resolve_left (by simp [hr]) j hj)
  · rfl

/-- Settles O56: by where in its job the answered access stands, and whether a strobe is asserted. -/
theorem halfWordsTransferred : Obligations.HalfWordsTransferred := by
  intro s md
  refine ⟨?_, fun h => ?_, fun j hr hj hs _ => congrArg _ (onMemoryQuiet_strobes hr hj hs),
    fun h => congrArg _ (onMemoryQuiet_levels h)⟩
  · intro j hr hj hs goesOn taken
    have on {k : Job} (hl : j.lastAccess = false) (hk : (j.take md).advance = k) : goesOn k :=
      hk ▸ exec_halfWordAnswered_goesOn hr hj hs hl
    exact ⟨fun h hw => on (lastAccess_before h) (advance_take_reading h hw),
      fun h hw => on (lastAccess_before h) (advance_take_writing h hw),
      fun id orphan h hw ho => on (lastAccess_modifying hw ho) (advance_take_last h hw)⟩
  · have hn := strobing_eq_false h
    simp only [List.forall_mem_cons, List.not_mem_nil, false_imp_iff, implies_true, and_true]
    exact ⟨⟨congrArg _ (onHalfWord_unstrobed hn), congrArg _ (onComplete_unstrobed hn),
      congrArg _ (onComplete_unstrobed hn), congrArg _ (onComplete_unstrobed hn)⟩,
      congrArg _ (onError_unstrobed hn), congrArg _ (onError_unstrobed hn), congrArg _ (onError_unstrobed hn)⟩

end Sys2Proof.Machine

/-! PROOFS. STOPPED, which only Restart and power-on reset leave (R114, R118, R124). -/

namespace Sys2Proof.Machine

/-- Settles O13: it is part of what every other command keeps. -/
theorem stoppedUntilReset : Obligations.StoppedUntilReset := fun c _ _ hs hx hr hp =>
  have h := exec_follows c hr hp hx
  ⟨h.stopped hs, h.records hs, h.stopId hs⟩

end Sys2Proof.Machine

/-! PROOFS. Fault List and Fault Read (R117, R124 to R126, section 11.6). -/

namespace Sys2Proof.Machine

variable {s : State} {p : Port} {f : RxFrame} {before after : List FaultRecord} {r : FaultRecord} {id part tag : Byte}
  {n : Nat} {stop : Bool}

/-! ## Fault List (R125) -/

theorem flag_or_eq_add (x : RecordState) : x.code ||| 0x80 = x.code + 0x80 := by cases x <;> rfl

/-- The records of the queue in its order, then the stop record with its flag (section 11.4). -/
theorem faultList_eq (s : State) : s.faultList =
    count8 (s.faultQueue.length + s.stopRecord.toList.length) ::
      (s.faultQueue.map fun r => [r.id, r.body.kind.code, r.state.code]).flatten ++
      (s.stopRecord.toList.map fun r => [r.id, r.body.kind.code, r.state.code + 0x80]).flatten := by
  have hqueue : listItem false = fun r => [r.id, r.body.kind.code, r.state.code] := by
    funext r; simp [listItem]
  have hstop : listItem true = fun r => [r.id, r.body.kind.code, r.state.code + 0x80] := by
    funext r; exact congrArg (fun x => [r.id, r.body.kind.code, x]) (flag_or_eq_add r.state)
  rw [State.faultList, hqueue, hstop, List.flatMap_def, List.flatMap_def, List.cons_append]

/-- Fault List passes check 1 in ONLINE, and in FENCED from the supervisor's port (R34, R179). -/
theorem faultList_sessionTakes (h : s.sessionState p = .online ∨ (s.sessionState p = .fenced ∧ p = s.supervisor)) :
    s.sessionTakes p .faultList := by
  unfold State.sessionTakes
  rcases h with h | ⟨h, hp⟩ <;> rw [h]
  · exact nofun
  · exact .inr ⟨rfl, hp⟩

/-- At most six records of the queue and the stop record are listed (R114). -/
theorem listed_le (h : FaultUnitOk s) : s.faultQueue.length + s.stopRecord.toList.length ≤ 7 := by
  have hq : s.faultQueue.length ≤ 6 := h.queue
  have hs : s.stopRecord.toList.length ≤ 1 := by cases s.stopRecord <;> simp
  omega

/-- Settles O39: checks 1 to 5 in their order, then the list. -/
theorem faultListed : Obligations.FaultListed := by
  intro p f s har
  refine ⟨fun hp ho => ?_, fun hp hs => ⟨fun hf => ?_, fun hf ht hn => ?_⟩, listed_le⟩
  · refine exec_command_refused (k := .faultList) har ?_
    rw [admission_takes (faultList_sessionTakes (.inl ho)), if_pos (by simpa [Kind.supervisorOnly] using hp)]
  · have hformat : s.goodFormat p .faultList f.payload = false := by
      cases hx : f.payload with
      | nil => exact absurd hx hf
      | cons => rfl
    refine exec_command_refused (k := .faultList) har ?_
    rw [admission_takes (faultList_sessionTakes (hs.imp_right (⟨·, hp⟩))), hformat, if_neg (by simp [hp])]
    rfl
  · have had : Admits s p f .faultList :=
      { arrives := har
        may :=
          { session := checkSession_takes (faultList_sessionTakes (hs.imp_right (⟨·, hp⟩)))
            permitted := fun _ => hp
            tagFree := ht
            room := hn
            mode := .inr rfl } }
    refine congrArg Host.Outcome.next ((onRequest_admits had (a := ()) (by rw [hf]; rfl) _).trans ?_)
    rw [accepted_reply, ← faultList_eq]
    rfl

/-! ## The record that is read (R117, R126) -/

theorem queuedRecord?_none (h : ∀ x ∈ s.faultQueue, x.id ≠ id) : s.queuedRecord? id = none :=
  List.find?_eq_none.2 fun x hx => by simpa using h x hx

theorem record?_queued (h : Queued s before r after) : s.record? r.id = some (r, false) := by
  simp only [State.record?, queuedRecord?_queued h]

theorem record?_stop (h : s.stopRecord = some r) (hq : ∀ x ∈ s.faultQueue, x.id ≠ r.id) :
    s.record? r.id = some (r, true) := by
  simp only [State.record?, queuedRecord?_none hq, h, if_true]

theorem record?_none (hq : ∀ x ∈ s.faultQueue, x.id ≠ id) (h : ∀ x, s.stopRecord = some x → x.id ≠ id) :
    s.record? id = none := by
  unfold State.record?
  rw [queuedRecord?_none hq]
  cases hs : s.stopRecord with
  | none => rfl
  | some x => exact if_neg (h x hs)

/-- POSTED becomes OPEN, and each other state stays (R117). -/
theorem opened_eq (r : FaultRecord) : r.opened = { r with state := if r.state = .posted then .opened else r.state } := by
  unfold FaultRecord.opened
  split <;> rfl

/-- A record of the queue becomes OPEN in its place. -/
theorem openRecord_queued (h : Queued s before r after) (hs : ∀ x, s.stopRecord = some x → x.id ≠ r.id) :
    s.openRecord r.id = { s with faultQueue := before ++ r.opened :: after } := by
  have hstop : (s.stopRecord.map fun x => if x.id = r.id then x.opened else x) = s.stopRecord := by
    cases hx : s.stopRecord with
    | none => rfl
    | some x => exact congrArg some (if_neg (hs x hx))
  rw [State.openRecord, hstop, updateRecord_queued h]

/-- The stop record becomes OPEN in its slot (R124). -/
theorem openRecord_stop (h : s.stopRecord = some r) (hq : ∀ x ∈ s.faultQueue, x.id ≠ r.id) :
    s.openRecord r.id = { s with stopRecord := some r.opened } := by
  have hqueue : (s.faultQueue.map fun x => if x.id = r.id then x.opened else x) = s.faultQueue :=
    (List.map_congr_left fun x hx => if_neg (hq x hx)).trans (List.map_id _)
  rw [State.openRecord, State.updateRecord, hqueue, h, Option.map_some, if_pos rfl]

/-! ## The parts (R126, section 11.6) -/

theorem exec_faultRead_admits (had : Admits s p f .faultRead) (hp : f.payload = [id, part]) :
    exec (.faultRead p f) s = .next ((s.accepted p).takeFaultRead p f.tag id part.toNat) :=
  congrArg _ (onRequest_admits had (a := (id, part.toNat)) (by rw [hp]; rfl) _)

theorem takeFaultRead_absent (h : s.record? id = none) :
    (s.accepted p).takeFaultRead p tag id n = s.replied p tag .noRecord [] := by
  have hx : (s.accepted p).record? id = none := h
  rw [State.takeFaultRead, hx]
  exact accepted_reply ..

/-- Part 0 is answered with the record before it is opened. -/
theorem takeFaultRead_header (h : s.record? id = some (r, stop)) : (s.accepted p).takeFaultRead p tag id 0 =
    (s.replied p tag .done (recordHeader r stop ++ s.recordBytes r.body)).openRecord id := by
  have hx : (s.accepted p).record? id = some (r, stop) := h
  have hb : (s.accepted p).recordBytes r.body = s.recordBytes r.body := by cases r.body <;> rfl
  simp only [State.takeFaultRead, hx, if_true, accepted_reply, hb]

theorem takeFaultRead_lines (h : s.record? id = some (r, stop)) (hn : n ≠ 0) (hp : n ≤ r.body.parts) :
    (s.accepted p).takeFaultRead p tag id n = s.replied p tag .done (linePart r.body n) := by
  have hx : (s.accepted p).record? id = some (r, stop) := h
  simp only [State.takeFaultRead, hx, if_neg hn, if_pos hp, accepted_reply]

theorem takeFaultRead_noPart (h : s.record? id = some (r, stop)) (hp : r.body.parts < n) :
    (s.accepted p).takeFaultRead p tag id n = s.replied p tag .badFormat [] := by
  have hx : (s.accepted p).record? id = some (r, stop) := h
  simp only [State.takeFaultRead, hx, if_neg (Nat.ne_zero_of_lt hp), if_neg (Nat.not_le.2 hp), accepted_reply]

/-- A record of another kind than HOLDER_LOST has part 0 only. -/
theorem parts_lt (hn : n ≠ 0) (h : ∀ q c ls, r.body = .holderLost q c ls → (ls.length + 99) / 100 < n) :
    r.body.parts < n := by
  cases hb : r.body with
  | holderLost q c ls => exact h q c ls hb
  | fillFault => exact Nat.pos_of_ne_zero hn
  | drainFault => exact Nat.pos_of_ne_zero hn

/-- Settles O40: both places of a record are read alike, and differ in the flag and in where the record is opened. -/
theorem faultReadAnswered : Obligations.FaultReadAnswered := by
  intro p f s id part had hp reads read answers
  have hexec := exec_faultRead_admits had hp
  have answered {r : FaultRecord} {stop : Bool} {flag : Byte} {opens : State → State} (hid : r.id = id) (hf : bit stop = flag)
      (hr : s.record? id = some (r, stop))
      (ho : ∀ data, (s.replied p f.tag .done data).openRecord id = opens (s.replied p f.tag .done data)) :
      answers r flag opens := by
    have headed {data : List Byte} (hz : part = 0) (hd : recordHeader r stop ++ s.recordBytes r.body = data) :
        reads data opens := by
      show exec _ s = _
      rw [hexec, hz, ← hd, ← ho]
      exact congrArg _ (takeFaultRead_header hr)
    subst hid hf
    refine ⟨fun hz => ⟨fun l c n hb => headed hz ?_, fun l c n q o d hb => headed hz ?_, fun q c ls hb => headed hz ?_⟩,
      fun hz => ⟨fun q c ls hb hle => ?_, fun hgt => ?_⟩⟩
    · rw [hb, State.recordBytes, recordHeader, hb, List.flatMap_def]
      simp only [List.append_assoc]
      rfl
    · rw [hb, State.recordBytes, recordHeader, hb]
      simp only [List.append_assoc]
    · rw [hb, State.recordBytes, recordHeader, hb]
      simp only [List.append_assoc]
      rfl
    · have hn : part.toNat ≠ 0 := fun h => hz (BitVec.eq_of_toNat_eq h)
      show exec _ s = _
      rw [hexec, takeFaultRead_lines hr hn (by rw [hb]; exact hle), hb, linePart, List.flatMap_def]
      rfl
    · have hn : part.toNat ≠ 0 := fun h => hz (BitVec.eq_of_toNat_eq h)
      rw [hexec, takeFaultRead_noPart hr (parts_lt hn hgt)]
  refine ⟨fun hq hs => by rw [hexec, takeFaultRead_absent (record?_none hq hs)], fun before after r hq hid hb hs => ?_,
    fun r hs hid hq => ?_⟩
  · subst hid
    have hr : Queued s before r after := ⟨hq, hb⟩
    refine answered (opens := fun t => { t with faultQueue := before ++ read r :: after }) rfl rfl
      (record?_queued hr) fun data => ?_
    rw [openRecord_queued (s := s.replied p f.tag .done data) ⟨hq, hb⟩ hs, opened_eq]
  · subst hid
    refine answered (opens := fun t => { t with stopRecord := some (read r) }) rfl rfl (record?_stop hs hq) fun data => ?_
    rw [openRecord_stop (s := s.replied p f.tag .done data) hs hq, opened_eq]

end Sys2Proof.Machine

/-! PROOFS. Resolve refused (R127, R128; log entry 13). -/

namespace Sys2Proof.Machine

variable {s : State} {p : Port} {f : RxFrame} {before after : List FaultRecord} {r : FaultRecord} {id : Byte} {a : Action}
  {bs : List Byte} {data : Option LineData} {st : Status}

/-! ## The format (R127) -/

/-- A payload with data has exactly 32 bytes of it. -/
theorem parseResolve_length (h2 : bs.length ≠ 2) (h34 : bs.length ≠ 34) : parseResolve a bs = none := by
  match bs with
  | [] | [_] => rfl
  | [_, _] => exact absurd rfl h2
  | _ :: _ :: b :: rest =>
    have hdata : parseData (b :: rest) = none := if_neg fun h => h34 (by simpa using h)
    simp [parseResolve, hdata]

theorem carriesAction_unlisted {b : Byte} (hb : bs[1]? = some b) (hn : b = 0 ∨ 7 ≤ b.toNat) (a : Action) :
    carriesAction a bs = false := by
  have hne : b ≠ a.code := by rintro rfl; revert hn; cases a <;> decide
  simpa [carriesAction, actionByte?, hb] using hne

/-- A payload that is none of the actions' is refused, whatever its row. -/
theorem exec_resolve_badFormat (had : Admits s p f .resolve) (h : ∀ a, parseResolve a f.payload = none) :
    exec (resolveCommand p f) s = .next (s.replied p f.tag .badFormat []) := by
  obtain ⟨a, effect, hx, -⟩ := exec_resolveCommand p f s
  exact hx.trans (congrArg _ (onRequest_badFormat had (h a) _))

/-- An action with no data, or with 32 bytes of it. -/
theorem parseResolve_bytes (a : Action) (id : Byte) (h : bs.length = 0 ∨ bs.length = 32) :
    ∃ data, parseResolve a (id :: a.code :: bs) = some (id, data) ∧ (data.isSome = true ↔ bs ≠ []) := by
  match bs with
  | [] => exact ⟨none, parseResolve_action a id, by simp⟩
  | b :: rest =>
    have hdata : parseData (b :: rest) = some (lineOfBytes (b :: rest)) := if_pos (h.resolve_left (by simp))
    exact ⟨some (lineOfBytes (b :: rest)), by simp [parseResolve, hdata], by simp⟩

/-- A Resolve in good format meets check 3 with its own action (R128). -/
theorem exec_resolve_admits (had : Admits s p f .resolve) (hp : f.payload = id :: a.code :: bs)
    (h : bs.length = 0 ∨ bs.length = 32) : ∃ data effect, (data.isSome = true ↔ bs ≠ []) ∧
      exec (resolveCommand p f) s = .next ((s.accepted p).takeResolve a p f.tag id data effect) := by
  obtain ⟨b, effect, hx, honly⟩ := exec_resolveCommand p f s
  have hb : b = a := by
    by_contra hne
    have hcarries : carriesAction a f.payload = true := by simp [carriesAction, actionByte?, hp]
    simp [honly a (Ne.symm hne)] at hcarries
  subst hb
  obtain ⟨data, hparse, hdata⟩ := parseResolve_bytes b id h
  rw [← hp] at hparse
  exact ⟨data, effect, hdata, hx.trans (congrArg _ (onRequest_admits had (a := (id, data)) hparse _))⟩

/-! ## The checks (R128) -/

theorem takeResolve_absent (h : ∀ x ∈ s.faultQueue, x.id ≠ id) (tag : Byte)
    (effect : State → FaultRecord → Option LineData → State) :
    (s.accepted p).takeResolve a p tag id data effect = s.replied p tag .noRecord [] := by
  have hx : (s.accepted p).queuedRecord? id = none := queuedRecord?_none (s := s.accepted p) h
  rw [State.takeResolve, hx]
  exact accepted_reply ..

theorem takeResolve_refused (h : Queued s before r after) (hc : r.checkResolve a data.isSome = some st) (tag : Byte)
    (effect : State → FaultRecord → Option LineData → State) :
    (s.accepted p).takeResolve a p tag r.id data effect = s.replied p tag st [] := by
  simp only [State.takeResolve, queuedRecord?_queued h.accepted, hc, accepted_reply]

theorem checkResolve_retrying (h : r.state = .retrying) (b : Bool) : r.checkResolve a b = some .recordBusy := if_pos h

theorem checkResolve_posted (h : r.state = .posted) (b : Bool) : r.checkResolve a b = some .unread := by
  simp [FaultRecord.checkResolve, h]

theorem checkResolve_wrongAction (h : r.state = .opened) (hk : r.body.kind.takes a = false) (b : Bool) :
    r.checkResolve a b = some .wrongAction := by
  simp [FaultRecord.checkResolve, h, hk]

/-- SUPPLY alone carries data. -/
theorem checkResolve_badFormat (h : r.state = .opened) (hk : r.body.kind.takes a = true) {b : Bool}
    (hb : b ≠ (a == .supply)) : r.checkResolve a b = some .badFormat := by
  simp [FaultRecord.checkResolve, h, hk, hb]

theorem checkResolve_retryLimit (h : r.state = .opened) (hk : r.body.kind.takes .retry = true)
    (hn : 4 ≤ r.body.attempts) : r.checkResolve .retry false = some .retryLimit := by
  have hlimit : Config.attemptLimit ≤ r.body.attempts := hn
  simp [FaultRecord.checkResolve, h, hk, hlimit]

/-- Settles O51: by the first check that fails. -/
theorem resolveRefused : Obligations.ResolveRefused := by
  intro p f s had refused actions
  have htakes (k : RecordKind) (a : Action) : a ∈ actions k ↔ k.takes a = true := by
    cases k <;> cases a <;> simp [actions, RecordKind.takes]
  refine ⟨fun h2 h34 => exec_resolve_badFormat had fun a => parseResolve_length h2 h34,
    fun b hb hn => exec_resolve_badFormat had fun a => parseResolve_other (carriesAction_unlisted hb hn a),
    fun id a bytes hp hlen => ?_⟩
  obtain ⟨data, effect, hdata, hx⟩ := exec_resolve_admits had hp hlen
  refine ⟨fun hno => hx.trans (congrArg _ (takeResolve_absent hno _ _)), fun before after r hq hid => ?_⟩
  subst hid
  have refuse {st : Status} (hc : r.checkResolve a data.isSome = some st) : refused st :=
    hx.trans (congrArg _ (takeResolve_refused hq hc _ _))
  refine ⟨fun h => refuse (checkResolve_retrying h _), fun h => refuse (checkResolve_posted h _), fun ho =>
    ⟨fun hno => refuse (checkResolve_wrongAction ho ?_ _), fun ha => ⟨fun hno => refuse (checkResolve_badFormat ho ?_ ?_),
      fun hr hempty => ?_⟩⟩⟩
  · simpa [htakes] using hno
  · exact (htakes _ _).1 ha
  · intro he
    have hsupply : data.isSome = true ↔ a = .supply := by rw [he, beq_iff_eq]
    exact not_iff_self ((hdata.symm.trans hsupply).trans hno)
  · subst hr
    have hnone : data.isSome = false := by simpa [hempty] using hdata
    have limit (hn : 4 ≤ r.body.attempts) : refused .retryLimit :=
      refuse (by rw [hnone]; exact checkResolve_retryLimit ho ((htakes _ _).1 ha) hn)
    exact ⟨fun l c n hb hn => limit (by rw [hb]; exact hn), fun l c n q o d hb hn => limit (by rw [hb]; exact hn)⟩

end Sys2Proof.Machine

/-! PROOFS. Resolve of a FILL_FAULT record (R107, R128 to R130, R135). -/

namespace Sys2Proof.Machine

variable {s : State} {p : Port} {f : RxFrame} {before after : List FaultRecord} {r : FaultRecord} {l : Line} {c : StoreCause}
  {n first count : Nat} {e : Entry} {d : LineData} {id : ReqId}

/-! ## RETRY (R129) -/

theorem retryRecord_fill (hq : Queued s before r after) (hb : r.body = .fillFault l c n) (hf : l ∉ s.fillQueue) :
    s.retryRecord r none = { s.withTable (s.changed l fun x => { x with activity := .filling }) with
      faultQueue := before ++ { r with state := .retrying } :: after
      fillQueue := s.fillQueue ++ [l] } := by
  simp only [State.retryRecord, hb, updateRecord_queued hq fun x => { x with state := .retrying }]
  exact if_neg (by simpa using hf)

/-! ## SUPPLY (R130) -/

/-- The state once SUPPLY has made its data the DIRTY copy and retired the record, before the waiters are served. -/
def State.supplied (s : State) (l : Line) (d : LineData) (records : List FaultRecord) : State :=
  { s.withTable (s.changed l fun x => { x with copy := .dirty d, activity := .idle, recordId := none }) with
    faultQueue := records }

theorem supplied_entry? (he : s.entry? l = some e) (records : List FaultRecord) :
    (s.supplied l d records).entry? l = some { e with copy := .dirty d, activity := .idle, recordId := none } :=
  updateEntry_entry? (fun x => { x with copy := .dirty d, activity := .idle, recordId := none }) (fun _ => rfl) he

theorem supplied_others (records : List FaultRecord) : (s.supplied l d records).others l = s.others l :=
  updateEntry_others (fun x => { x with copy := .dirty d, activity := .idle, recordId := none }) fun _ => rfl

theorem Quiet.supplied (h : Quiet s) (records : List FaultRecord) : Quiet (s.supplied l d records) :=
  h.congr rfl rfl rfl rfl rfl rfl rfl rfl rfl

theorem Quiet.answer (h : Quiet s) (id : ReqId) (st : Status) (data : List Byte) : Quiet (s.answer id st data) :=
  h.congr rfl rfl rfl rfl rfl rfl rfl rfl rfl

/-- Outside a WRITE_THROUGH region the data is owed to nobody, and the waiters are served with it. -/
theorem supplyRecord_serves (hq : Queued s before r after) (hb : r.body = .fillFault l c n)
    (hcl : s.classOf l ≠ some .writeThrough) :
    s.supplyRecord r (some d) = (s.supplied l d (before ++ after)).service l := by
  have hfreed : (s.updateEntry l fun e => { e with activity := .idle, recordId := none }).makeDirty l d .supply =
      s.withTable (s.changed l fun x => { x with copy := .dirty d, activity := .idle, recordId := none }) := by
    rw [makeDirty_tracked (s := s.updateEntry l _) d .supply hcl]
    exact updateEntry_updateEntry (fun e => { e with activity := .idle, recordId := none }) _ fun _ => rfl
  have hq' : Queued (s.withTable (s.changed l fun x => { x with copy := .dirty d, activity := .idle, recordId := none }))
      before r after := ⟨hq.queue, hq.others⟩
  simp only [State.supplyRecord, hb, hfreed]
  rw [retireRecord_queued hq']
  rfl

/-- A Read Words that waits alone on an entry nobody holds is answered with the words supplied (R9, R41, R42). -/
theorem supplied_service (he : s.entry? l = some e) (hw : e.waiters = [id]) (hh : e.holdings = Vector.replicate 4 .none)
    (hr : s.request? id = some { id := id, req := .readWords l first count }) (records : List FaultRecord) :
    (s.supplied l d records).service l = ({ s.withTable ({ e with
        copy := .dirty d, activity := .idle, recordId := none, waiters := [], prefetched := false } :: s.others l) with
          faultQueue := records } : State).answer id .done (wordBytes d first count) := by
  have hentry := supplied_entry? (d := d) he records
  have hnone (q : Port) : e.holdings[q] ≠ .write := by simp [hh]
  have hcheck : (s.supplied l d records).checkLine id.port .readWords l = none := by
    rw [checkLine_present hentry rfl]
    exact holdingCheck_words (.inl rfl) (hnone _) ..
  rw [service_alone hentry rfl hw hr hcheck (recallsNeeded_readers (.inl rfl) hnone)]
  show State.serveDone _ l id (wordBytes d first count) = _
  rw [serveDone_eq _ _ hentry, supplied_others]
  simp only [hw]
  rfl

/-! ## FAIL (R130) -/

/-- Requests answered leave all but the outstanding requests and the links as it was. -/
theorem answers_eq (ids : List ReqId) (st : Status) :
    let t := ids.foldl (fun (t : State) id => t.answer id st []) s
    t = { s with requests := t.requests, links := t.links } := by
  induction ids generalizing s with
  | nil => rfl
  | cons id ids ih => exact ih (s := s.answer id st [])

theorem failRecord_fill (hj : s.jspace = []) (hq : Queued s before r after) (hb : r.body = .fillFault l c n)
    (he : s.entry? l = some e) : s.failRecord r none =
      { e.waiters.foldl (fun (t : State) id => t.answer id .storeFault []) s with
        table := s.others l
        faultQueue := before ++ after } := by
  have hframe := answers_eq (s := s) e.waiters .storeFault
  simp only [State.failRecord, hb, he, Option.elim_some]
  generalize e.waiters.foldl (fun (t : State) id => t.answer id .storeFault []) s = t at hframe ⊢
  have ht : t.jspace = [] := by rw [hframe]; exact hj
  have hq' : Queued (t.withTable (t.others l)) before r after := ⟨by rw [hframe]; exact hq.queue, hq.others⟩
  have ho : t.others l = s.others l := by rw [hframe]; rfl
  rw [removeEntry_eq ht, retireRecord_queued hq', ho]
  rfl

/-- Settles O52: by the action, of which each has one effect, that leaves nothing for the end of the step. -/
theorem fillFaultResolved : Obligations.FillFaultResolved := by
  intro p f s before after r l c n e had hq hb hqr ho hbody he _
  have hqa : Quiet (s.accepted p) := hq.accepted
  have takes {a : Action} {data : Option LineData} (ha : RecordKind.fillFault.takes a = true)
      (hp : parseResolve a f.payload = some (r.id, data)) (hd : data.isSome = (a == .supply)) (hn : a = .retry → n < 4)
      (effect : State → FaultRecord → Option LineData → State) :
      s.onResolve a p f effect = ((effect (s.accepted p) r data).reply p f.tag .done []).settle (s.accepted p) := by
    refine onResolve_takes had hp hqr (checkResolve_opened ho ?_ hd ?_)
    · rw [hbody]; exact ha
    · rw [hbody]; exact hn
  refine ⟨fun hp hn hf => congrArg Host.Outcome.next ?_, fun d hp hcl => ?_, fun hp => congrArg Host.Outcome.next ?_⟩
  · rw [takes (a := .retry) rfl (by rw [hp]; exact parseResolve_action ..) rfl (fun _ => hn),
      retryRecord_fill hqr.accepted hbody hf]
    refine (settle_quiet (Quiet.reply ?_ ..)).trans (reply_behind (s := s) ?_ ..)
    · exact hq.busy hb rfl rfl rfl rfl
    · rfl
  · have hsupply := takes (a := .supply) (data := some d) rfl (by rw [hp]; exact parseResolve_supply r.id d) rfl nofun
      State.supplyRecord
    rw [supplyRecord_serves hqr.accepted hbody hcl] at hsupply
    refine ⟨fun hw => congrArg Host.Outcome.next (hsupply.trans ?_), fun id first count hw hh hr =>
      congrArg Host.Outcome.next (hsupply.trans ?_)⟩
    · rw [service_noWaiters (supplied_entry? (s := s.accepted p) he _) hw, settle_quiet ((hqa.supplied _).reply ..)]
      exact reply_behind (s := s) (t := (s.accepted p).supplied l d (before ++ after)) rfl ..
    · rw [supplied_service (s := s.accepted p) he hw hh hr]
      refine settle_quiet (Quiet.reply (Quiet.answer ?_ ..) ..)
      exact hqa.congr rfl rfl rfl rfl rfl rfl rfl rfl rfl
  · rw [takes (a := .fail) rfl (by rw [hp]; exact parseResolve_action ..) rfl nofun,
      failRecord_fill hqa.space hqr.accepted hbody he]
    refine settle_quiet (Quiet.reply ?_ ..)
    have hframe := answers_eq (s := s.accepted p) e.waiters .storeFault
    rw [hframe]
    exact hqa.congr rfl rfl rfl rfl rfl rfl rfl rfl rfl

end Sys2Proof.Machine

/-! PROOFS. Resolve REVERT and Supply Line on a HOLDER_LOST record (R121, R133 to R135). -/

namespace Sys2Proof.Machine

variable {s : State} {p q : Port} {f : RxFrame} {before after : List FaultRecord} {r : FaultRecord} {l : Line} {c : Cause}
  {lines : List Line} {d : LineData} {id : Byte} {st : Status}

/-! ## REVERT (R133) -/

/-- Lines that lose their entries, with none of them waiting for journal space (R27, R89). -/
theorem removeEntries_eq (hj : s.jspace = []) (lines : List Line) :
    lines.foldl State.removeEntry s = s.withTable (s.table.filter fun e => decide (e.line ∉ lines)) := by
  induction lines generalizing s with
  | nil => simp [State.withTable]
  | cons l ls ih =>
    have hkeep (e : Entry) : (e.line != l && decide (e.line ∉ ls)) = decide (e.line ∉ l :: ls) := by
      rw [Bool.eq_iff_iff]; simp
    rw [List.foldl_cons, removeEntry_eq hj, ih (s := s.withTable (s.others l)) hj]
    simp only [State.withTable, State.others, List.filter_filter, Bool.and_comm (decide _), hkeep]

theorem revertRecord_lost (hj : s.jspace = []) (hr : Queued s before r after) (hb : r.body = .holderLost q c lines) :
    s.revertRecord r none = { s with
      table := s.table.filter fun e => decide (e.line ∉ lines)
      faultQueue := before ++ after } := by
  have hr' : Queued (s.withTable (s.table.filter fun e => decide (e.line ∉ lines))) before r after := ⟨hr.queue, hr.others⟩
  simp only [State.revertRecord, hb, removeEntries_eq hj]
  rw [retireRecord_queued hr']
  rfl

/-! ## Supply Line refused (R134) -/

/-- A Supply Line in good format meets check 1 (R134). -/
theorem exec_supplyLine_admits (had : Admits s p f .supplyLine) (hp : f.payload = id :: le16 l ++ lineBytes d) :
    exec (.supplyLine p f) s = .next ((s.accepted p).takeSupplyLine p f.tag id l d) :=
  congrArg _ (onRequest_admits had (a := (id, l, d)) (by rw [hp]; exact parseSupplyLine_bytes id l d) _)

theorem takeSupplyLine_absent (h : ∀ x ∈ s.faultQueue, x.id ≠ id) (tag : Byte) :
    (s.accepted p).takeSupplyLine p tag id l d = s.replied p tag .noRecord [] := by
  have hx : (s.accepted p).queuedRecord? id = none := queuedRecord?_none (s := s.accepted p) h
  simp only [State.takeSupplyLine, hx, accepted_reply]

theorem takeSupplyLine_refused (hr : Queued s before r after) (hc : r.checkSupply l = some st) (tag : Byte) :
    (s.accepted p).takeSupplyLine p tag r.id l d = s.replied p tag st [] := by
  simp only [State.takeSupplyLine, queuedRecord?_queued hr.accepted, hc, accepted_reply]

theorem checkSupply_posted (h : r.state = .posted) : r.checkSupply l = some .unread := if_pos h

theorem checkSupply_wrongAction (h : r.state ≠ .posted) (hk : r.body.kind ≠ .holderLost) :
    r.checkSupply l = some .wrongAction := by
  rw [FaultRecord.checkSupply, if_neg h, if_pos hk]

theorem checkSupply_notListed (h : r.state ≠ .posted) (hb : r.body = .holderLost q c lines) (hl : l ∉ lines) :
    r.checkSupply l = some .notListed := by
  simp [FaultRecord.checkSupply, h, hb, RecordBody.kind, RecordBody.lostLines, hl]

/-! ## Supply Line taken (R134, R135) -/

/-- Outside a WRITE_THROUGH region the data is owed to nobody. -/
theorem supplyLine_listed (hcl : s.classOf l ≠ some .writeThrough) (hr : Queued s before r after)
    (hb : r.body = .holderLost q c lines) :
    s.supplyLine r l d = { s.withTable (s.changed l fun x => { x with copy := .dirty d, recordId := none }) with
      faultQueue := before ++ r.leaves q c (lines.filter fun x => decide (x ≠ l)) ++ after } := by
  have hfreed : (s.updateEntry l fun e => { e with recordId := none }).makeDirty l d .supply =
      s.withTable (s.changed l fun x => { x with copy := .dirty d, recordId := none }) := by
    rw [makeDirty_tracked (s := s.updateEntry l _) d .supply hcl]
    exact updateEntry_updateEntry (fun e => { e with recordId := none }) _ fun _ => rfl
  have hr' : Queued (s.withTable (s.changed l fun x => { x with copy := .dirty d, recordId := none })) before r after :=
    ⟨hr.queue, hr.others⟩
  simp only [State.supplyLine, hfreed, hb, dropLine_holderLost, RecordBody.lostLines, FaultRecord.leaves, List.isEmpty_iff]
  split
  · rw [retireRecord_queued hr', List.append_nil]
  · rw [updateRecord_queued hr', hb, dropLine_holderLost, List.append_assoc, List.singleton_append]

/-- Settles O54: REVERT, then Supply Line by the first check that fails, and where none does by what it changes. -/
theorem lostLinesResolved : Obligations.LostLinesResolved := by
  refine ⟨?_, ?_⟩
  · intro p f s before after r q c lines had hq hb hr ho hbody hp
    have htake := onResolve_takes (a := .revert) (effect := State.revertRecord) had
      (by rw [hp]; exact parseResolve_action ..) hr (checkResolve_opened ho (by rw [hbody]; rfl) rfl nofun)
    rw [revertRecord_lost (s := s.accepted p) hq.space hr.accepted hbody] at htake
    refine congrArg Host.Outcome.next (htake.trans ((settle_quiet (Quiet.reply ?_ ..)).trans (reply_behind (s := s) ?_ ..)))
    · exact hq.busy hb rfl rfl rfl rfl
    · rfl
  · intro p f s id l d had hp refused
    have hx := exec_supplyLine_admits had hp
    refine ⟨fun hno => hx.trans (congrArg _ (takeSupplyLine_absent hno _)), fun before after r hr hid => ?_⟩
    subst hid
    have refuse {st : Status} (hc : r.checkSupply l = some st) : refused st :=
      hx.trans (congrArg _ (takeSupplyLine_refused hr hc _))
    refine ⟨fun hs => refuse (checkSupply_posted hs), fun hs hk => refuse (checkSupply_wrongAction hs hk),
      fun q c lines hs hbody => ⟨fun hl => refuse (checkSupply_notListed hs hbody hl), fun hl hq hcl => ?_⟩⟩
    intro left
    rw [exec_supplyLine_takes had hp hr (checkSupply_listed hs hbody hl), hbody, dropLine_holderLost,
      supplyLine_listed (s := s.accepted p) hcl hr.accepted hbody]
    refine congrArg Host.Outcome.next ((settle_quiet (Quiet.reply ?_ ..)).trans (reply_behind (s := s) ?_ ..))
    · exact hq.congr rfl rfl rfl rfl rfl rfl rfl rfl rfl
    · rfl

end Sys2Proof.Machine

/-! PROOFS. The control registers and the commands that write them (R136, R159, R169, R178, R181, R185, R187). -/

namespace Sys2Proof.Machine

variable {s t u : State} {p : Port}

/-- From `s` to `t` nothing changed of what Restart keeps, but for the memory's levels and the transmit queues (R185). -/
structure OutlivesRestart (s t : State) : Prop where
  pending        : t.pending = s.pending
  supervisor     : t.supervisor = s.supervisor
  resetN         : t.resetN = s.resetN
  hubTime        : t.hubTime = s.hubTime
  sessionCounter : t.sessionCounter = s.sessionCounter
  linkUp         : ∀ p : Port, t.links[p].up = s.links[p].up

theorem KeepsIf.outlives {c d f : Prop} (h : KeepsIf c d f s t) : OutlivesRestart s t :=
  ⟨h.pending, h.supervisor, h.resetN, h.hubTime, h.sessionCounter, h.linkUp⟩

theorem OutlivesRestart.trans (a : OutlivesRestart s t) (b : OutlivesRestart t u) : OutlivesRestart s u where
  pending := b.pending.trans a.pending
  supervisor := b.supervisor.trans a.supervisor
  resetN := b.resetN.trans a.resetN
  hubTime := b.hubTime.trans a.hubTime
  sessionCounter := b.sessionCounter.trans a.sessionCounter
  linkUp p := (b.linkUp p).trans (a.linkUp p)

theorem afterRestart_outlives (s : State) : OutlivesRestart s s.afterRestart :=
  ⟨rfl, rfl, rfl, rfl, rfl, fun p => by simp [State.afterRestart]⟩

theorem endForRestart_keeps (s : State) (p : Port) : Keeps s (s.endForRestart p) := by
  unfold State.endForRestart
  split
  · exact sendSessionEnd_keeps ..
  · exact Keeps.refl s

theorem restartHub_outlives (s : State) : OutlivesRestart s s.restartHub :=
  (Keeps.foldl endForRestart_keeps _ _).outlives.trans (afterRestart_outlives _)

/-- A request's frame ends with the link layer and admission, or is taken behind them; they keep all that `Keeps` names. -/
theorem onRequest_cases {α : Type} (s : State) (p : Port) (f : RxFrame) (k : Kind) (operand : State → Option α)
    (take : State → α → State) :
    ∃ t, Keeps s t ∧ (s.onRequest p f k operand take = t ∨ ∃ a, s.onRequest p f k operand take = take t a) := by
  unfold State.onRequest State.onSequenced State.onGoodFrame
  split
  · have hr := restartKeepalive_keeps s p
    dsimp only
    split
    · have ha := hr.trans (acceptSeq_keeps _ p)
      split
      · exact ⟨_, ha.trans (reply_keeps ..), .inl rfl⟩
      · exact ⟨_, ha, .inr ⟨_, rfl⟩⟩
      · exact ⟨_, ha, .inl rfl⟩
    · exact ⟨_, hr.trans (rejectSeq_keeps ..), .inl rfl⟩
  · exact ⟨s, Keeps.refl s, .inl rfl⟩

theorem exec_restart_outlives {f : RxFrame} (hx : exec (.restart p f) s = .next t) : OutlivesRestart s t := by
  cases hx
  obtain ⟨u, hu, h | ⟨_, h⟩⟩ := onRequest_cases s p f .restart (fun _ => parseEmpty f.payload)
    fun t _ => (t.reply p f.tag .done []).restartHub
  · exact h ▸ hu.outlives
  · exact h ▸ (hu.trans (reply_keeps ..)).outlives.trans (restartHub_outlives _)

/-- Settles O14: Restart keeps what outlives it, and what every other command keeps names the writer of each register. -/
theorem controlRegistersWritten : Obligations.ControlRegistersWritten := by
  intro c s t hx hp
  by_cases hr : ∃ p f, c = .restart p f
  · obtain ⟨p, f, rfl⟩ := hr
    have h := exec_restart_outlives hx
    exact ⟨h.pending, h.supervisor, fun _ => h.resetN, fun _ => h.hubTime, fun _ => h.sessionCounter,
      fun q _ _ => h.linkUp q, fun hno => absurd rfl (hno p f)⟩
  · have h := exec_follows c (fun p f e => hr ⟨p, f, e⟩) hp hx
    exact ⟨h.pending, h.supervisor, h.resetN, h.hubTime, h.sessionCounter, h.linkUp, fun _ => ⟨h.timers, h.regions⟩⟩

end Sys2Proof.Machine

/-! PROOFS. Region Query (R148, section 11.3). -/

namespace Sys2Proof.Machine

/-- The two flags of a descriptor stand in different bits (section 11.3). -/
theorem bit_or_shift_eq_add (a b : Bool) : bit a ||| (bit b <<< 1) = bit a + 2 * bit b := by cases a <;> cases b <;> rfl

theorem parseRegion_none {bs : List Byte} (h : bs.length ≠ 1 ∨ ∃ b : Byte, bs = [b] ∧ 8 ≤ b.toNat) : parseRegion bs = none := by
  rcases h with h | ⟨b, rfl, hb⟩
  · match bs, h with
    | [], _ | _ :: _ :: _, _ => rfl
  · exact dif_neg (Nat.not_lt.2 hb)

/-- Settles O37: by whether the payload is the index of a descriptor. -/
theorem regionQueryAnswered : Obligations.RegionQueryAnswered := by
  intro p f s had
  refine ⟨fun i hp => ?_, fun h => congrArg Host.Outcome.next (onRequest_badFormat had (parseRegion_none h) _)⟩
  refine congrArg Host.Outcome.next ((onRequest_admits had (a := i) (by rw [hp]; exact parseRegion_byte i) _).trans ?_)
  rw [accepted_reply, descriptorBytes, bit_or_shift_eq_add]
  rfl

end Sys2Proof.Machine

/-! PROOFS. Region Set and its completion (R136, R137, R140 to R147). -/

namespace Sys2Proof.Machine

variable {s : State} {p : Port} {f : RxFrame} {tag : Byte} {i : RegionId} {r : Region}

/-! ## The operand (R136, section 11.3) -/

/-- The access byte spells the four rights (section 11.3). -/
theorem parseAccess_accessByte (a : Vector Access 4) : parseAccess (accessByte a) = some a := by
  have spelt : ∀ w x y z : Access, parseAccess (accessByte #v[w, x, y, z]) = some #v[w, x, y, z] := by
    intro w x y z
    cases w <;> cases x <;> cases y <;> cases z <;> rfl
  have ha : a = #v[a[0], a[1], a[2], a[3]] := by
    ext k hk
    interval_cases k <;> rfl
  rw [ha]
  exact spelt ..

theorem RegionClass.ofCode_code (c : RegionClass) : RegionClass.ofCode c.code = some c := by cases c <;> rfl

/-- The ranges of a descriptor (R136, R141): the bound of its count follows from that of its last line. -/
theorem inRange_iff : r.inRange = true ↔ r.first.toNat + r.count ≤ 65536 ∧ (r.enabled = true → 1 ≤ r.count) := by
  simp only [Region.inRange, Bool.and_eq_true, Bool.or_eq_true, Bool.not_eq_true', decide_eq_true_eq]
  exact ⟨fun ⟨⟨_, hlast⟩, hcount⟩ => ⟨hlast, fun he => hcount.resolve_left (by simp [he])⟩,
    fun ⟨hlast, hcount⟩ => ⟨⟨(Nat.le_add_left ..).trans hlast, hlast⟩, (Bool.eq_false_or_eq_true _).symm.imp_right hcount⟩⟩

/-- The payload of a Region Set spells its descriptor, when that is in range (R136, section 11.3). -/
theorem parseRegionSet_bytes {flags : Byte} (hf : flags.getLsbD 0 = r.enabled) (hr : r.first.toNat + r.count ≤ 65536)
    (hc : r.enabled = true → 1 ≤ r.count) :
    parseRegionSet ([count8 i.val, flags] ++ le16 r.first ++ le32 (BitVec.ofNat 32 r.count) ++
      [r.cls.code, accessByte r.access]) = some (i, r) := by
  have hcount : (BitVec.ofNat 32 r.count).toNat = r.count := by
    rw [BitVec.toNat_ofNat]; exact Nat.mod_eq_of_lt (by omega)
  have hin : r.inRange = true := inRange_iff.2 ⟨hr, hc⟩
  have hflag : flags[0] = r.enabled := hf
  simp [parseRegionSet, le16, le32, of16_le16, of32_le32, regionOfByte_byte, RegionClass.ofCode_code,
    parseAccess_accessByte, hcount, hflag, hin]

theorem exec_regionSet_admits (h : Admits s p f .regionSet) (hp : parseRegionSet f.payload = some (i, r)) :
    exec (.regionSet p f) s = .next ((s.accepted p).takeRegionSet ⟨p, f.tag⟩ i r) :=
  congrArg Host.Outcome.next (onRequest_admits h (a := (i, r)) hp _)

/-! ## The three checks (R142) -/

/-- Two ranges overlap when a line lies in both. -/
theorem overlaps_iff (a b : Region) : a.overlaps b = true ↔ ∃ l : Line, a.contains l = true ∧ b.contains l = true := by
  simp only [Region.overlaps, Region.contains, Bool.and_eq_true, decide_eq_true_eq]
  constructor
  · rintro ⟨⟨⟨ha, hb⟩, hab⟩, hba⟩
    rcases Nat.le_total a.first.toNat b.first.toNat with h | h
    · exact ⟨b.first, ⟨h, hba⟩, Nat.le_refl _, by omega⟩
    · exact ⟨a.first, ⟨Nat.le_refl _, by omega⟩, h, hab⟩
  · rintro ⟨l, ⟨ha, ha'⟩, hb, hb'⟩
    omega

theorem overlapsOther_iff : s.overlapsOther i r = true ↔ ∃ j : RegionId, j ≠ i ∧ s.regions[j].enabled = true ∧
    ∃ l : Line, r.contains l = true ∧ s.regions[j].contains l = true := by
  have hall : ∀ j : RegionId, j ∈ regionIds := by decide
  simp only [State.overlapsOther, List.any_eq_true, Bool.and_eq_true, bne_iff_ne, overlaps_iff, hall, true_and, and_assoc]

/-- A change touches the access values only when they are all that the two descriptors differ in. -/
theorem accessOnly_iff (old new : Region) :
    old.accessOnly new = true ↔ ({ old with access := new.access } : Region) = new := by
  cases old
  cases new
  simp [Region.accessOnly, and_assoc]

/-- The places of R142 that make a region in use, each as the list or register that names it. -/
theorem regionInUse_iff : s.regionInUse r = true ↔ r.enabled = true ∧ s.InUse r := by
  have halloc : s.allocLines.any r.contains = true ↔
      ∃ id ∈ s.allocQueue, ∃ q l, s.request? id = some q ∧ q.req.line? = some l ∧ r.contains l = true := by
    simp only [State.allocLines, List.any_eq_true, List.mem_filterMap, Option.bind_eq_some_iff]
    exact ⟨fun ⟨l, ⟨id, hid, q, hq, hl⟩, hc⟩ => ⟨id, hid, q, l, hq, hl, hc⟩,
      fun ⟨id, hid, q, l, hq, hl, hc⟩ => ⟨l, ⟨id, hid, q, hq, hl⟩, hc⟩⟩
  have hjob : (s.job.bind Job.dataLine?).toList.any r.contains = true ↔
      ∃ j op id orphan, s.job = some j ∧ j.owner = .direct op id orphan ∧ op.isData = true ∧ r.contains j.line = true := by
    simp only [List.any_eq_true, Option.mem_toList, Option.bind_eq_some_iff]
    constructor
    · rintro ⟨l, ⟨j, hj, hl⟩, hc⟩
      unfold Job.dataLine? at hl
      split at hl
      · rename_i op id orphan ho
        split at hl
        · cases hl
          exact ⟨j, op, id, orphan, hj, ho, ‹_›, hc⟩
        · cases hl
      · cases hl
    · rintro ⟨j, op, id, orphan, hj, ho, hd, hc⟩
      exact ⟨j.line, ⟨j, hj, by simp only [Job.dataLine?, ho, hd, if_true]⟩, hc⟩
  simp only [State.regionInUse, State.InUse, Bool.and_eq_true, Bool.or_eq_true, halloc, hjob, List.any_eq_true, or_assoc]

theorem checkRegionSet_busy (h : s.completing ≠ none) : s.checkRegionSet i r = some .regionBusy :=
  if_pos (Option.isSome_iff_ne_none.2 h)

theorem checkRegionSet_overlap (h : s.completing = none) (he : r.enabled = true) (ho : s.overlapsOther i r = true) :
    s.checkRegionSet i r = some .overlap := by
  simp [State.checkRegionSet, h, he, ho]

/-- Behind checks 1 and 2 a change beyond the access values meets check 3. -/
theorem checkRegionSet_last (h : s.completing = none) (ho : r.enabled = true → s.overlapsOther i r = false) :
    s.checkRegionSet i r = if !s.regions[i].accessOnly r && s.regionInUse s.regions[i] then some .regionInUse else none := by
  have hov : (r.enabled && s.overlapsOther i r) = false := by
    cases he : r.enabled
    · rfl
    · exact ho he
  simp only [State.checkRegionSet, h, hov, Option.isSome_none, Bool.false_eq_true, if_false]

/-! ## The recalls of excess holdings (R137, R140, R144) -/

/-- The recalls that the holdings of a line take under a descriptor, in the order of the ports (R140, R144). -/
def State.excessOf (s : State) (r : Region) (l : Line) : List WaitingRecall :=
  ((List.finRange 4).filter fun q => decide (r.access[q].rank < (s.holding l q).needs.rank)).map fun q =>
    ⟨l, q, if r.access[q] = .none then .invalidate else .downgrade, .region⟩

/-- The recalls of an entry are those of its line. -/
theorem excessRecalls_eq {e : Entry} {l : Line} (h : s.entry? l = some e) : excessRecalls r e = s.excessOf r l := by
  have hl := (entry?_some h).2
  have each : ∀ qs : List Port,
      (qs.filterMap fun q => (excessRecall r.access[q] e.holdings[q]).map fun k =>
        ({ line := e.line, port := q, kind := k, purpose := .region } : WaitingRecall)) =
      (qs.filter fun q => decide (r.access[q].rank < (s.holding l q).needs.rank)).map fun q =>
        ⟨l, q, if r.access[q] = .none then .invalidate else .downgrade, .region⟩ := by
    intro qs
    induction qs with
    | nil => rfl
    | cons q qs ih =>
      rw [List.filterMap_cons, ih, List.filter_cons, excessRecall_eq, holding_of h, hl]
      by_cases hx : r.access[q].rank < e.holdings[q].needs.rank
      · simp only [hx, if_true, decide_true, Option.map_some, List.map_cons]
      · simp only [hx, if_false, decide_false, Option.map_none, Bool.false_eq_true]
  exact each ports

/-- A line that is not present has no holding, and takes no recall. -/
theorem excessOf_absent {l : Line} (h : s.entry? l = none) : s.excessOf r l = [] := by
  have hf : (List.finRange 4).filter (fun q => decide (r.access[q].rank < (s.holding l q).needs.rank)) = [] :=
    List.filter_eq_nil_iff.2 fun q _ => by simp [State.holding, h, Holding.needs, Access.rank]
  rw [State.excessOf, hf]
  rfl

theorem mem_excessOf {l : Line} {w : WaitingRecall} (h : w ∈ s.excessOf r l) :
    r.access[w.port].rank < (s.holding l w.port).needs.rank := by
  obtain ⟨q, hq, rfl⟩ := List.mem_map.1 h
  simpa using (List.mem_filter.1 hq).2

/-- The lines of a descriptor that are present, ascending. -/
def State.linesIn (s : State) (r : Region) : List Line :=
  sortLines ((s.table.filter fun e => r.enabled && r.contains e.line).map (·.line))

theorem mem_linesIn {l : Line} : l ∈ s.linesIn r ↔ r.enabled = true ∧ r.contains l = true ∧ ∃ e ∈ s.table, e.line = l := by
  rw [State.linesIn, mem_sortLines]
  simp only [List.mem_map, List.mem_filter, Bool.and_eq_true]
  constructor
  · rintro ⟨e, ⟨he, hr, hc⟩, rfl⟩; exact ⟨hr, hc, e, he, rfl⟩
  · rintro ⟨hr, hc, e, he, rfl⟩; exact ⟨e, ⟨he, hr, hc⟩, rfl⟩

theorem linesIn_sorted (h : TablesOk s) : (s.linesIn r).Pairwise fun a b => a.toNat < b.toNat :=
  (sortLines_filter h.lines).1

/-- The recalls of a Region Set are those of the lines of its descriptor, in their order (R144). -/
theorem regionRecalls_eq : s.regionRecalls r = (s.linesIn r).flatMap (s.excessOf r) := by
  have each : ∀ ls : List Line, (ls.filterMap s.entry?).flatMap (excessRecalls r) = ls.flatMap (s.excessOf r) := by
    intro ls
    induction ls with
    | nil => rfl
    | cons l ls ih =>
      rw [List.filterMap_cons, List.flatMap_cons]
      cases h : s.entry? l with
      | none => rw [excessOf_absent h, ← ih]; rfl
      | some e => rw [← excessRecalls_eq h, ← ih]; rfl
  exact each _

/-- A disabled descriptor, and one that no holding exceeds, takes no recall (R137, R144). -/
theorem regionRecalls_none (h : r.enabled = false ∨ s.NoExcess r) : s.regionRecalls r = [] := by
  rw [regionRecalls_eq, List.flatMap_eq_nil_iff]
  intro l hl
  obtain ⟨hr, hc, -⟩ := mem_linesIn.1 hl
  have hno : s.NoExcess r := h.resolve_left (by simp [hr])
  cases he : s.entry? l with
  | none => exact excessOf_absent he
  | some e =>
    obtain ⟨hmem, rfl⟩ := entry?_some he
    refine List.eq_nil_iff_forall_not_mem.2 fun w hw => hno e hmem hc w.port ?_
    have := mem_excessOf hw
    rwa [holding_of he] at this

/-- An enabled descriptor that a holding exceeds takes a recall (R144). -/
theorem regionRecalls_some (hr : r.enabled = true) (ht : TablesOk s) (h : ¬ s.NoExcess r) : s.regionRecalls r ≠ [] := by
  intro hnil
  refine h fun e he hc q hx => ?_
  rw [regionRecalls_eq, List.flatMap_eq_nil_iff] at hnil
  have hline := hnil e.line (mem_linesIn.2 ⟨hr, hc, e, he, rfl⟩)
  refine List.filter_eq_nil_iff.1 (List.map_eq_nil_iff.1 hline) q (List.mem_finRange q) ?_
  rw [holding_of (entry?_mem ht.lines he)]
  exact decide_eq_true hx

/-! ## A Region Set taken (R143, R144, R147) -/

theorem takeRegionSet_refused {st : Status} (h : s.checkRegionSet i r = some st) :
    (s.accepted p).takeRegionSet ⟨p, tag⟩ i r = s.replied p tag st [] := by
  have hc : (s.accepted p).checkRegionSet i r = some st := h
  rw [State.takeRegionSet, hc]
  exact accepted_reply ..

/-- The recalls that a Region Set asks for: of an access-only change, those of the excess holdings (R144). -/
def State.setRecalls (s : State) (i : RegionId) (r : Region) : List WaitingRecall :=
  if s.regions[i].accessOnly r then s.regionRecalls r else []

/-- One that passes the checks is answered at once where it asks for no recall, else it is completing. -/
theorem takeRegionSet_taken {id : ReqId} (h : s.checkRegionSet i r = none) :
    s.takeRegionSet id i r =
      if (s.setRecalls i r).isEmpty then
        ({ s with regions := s.regions.set i r }.reply id.port id.tag .done []).postAll (regionNotice i)
      else
        ({ s.admitReq id (.regionSet i) with regions := s.regions.set i r, completing := some i }.askRecalls
          (s.setRecalls i r)).postAll (regionNotice i) := by
  rw [State.takeRegionSet, h]
  rfl

/-- Without a recall it is answered at once (R143). -/
theorem takeRegionSet_done (h : s.checkRegionSet i r = none) (hn : s.setRecalls i r = []) :
    (s.accepted p).takeRegionSet ⟨p, tag⟩ i r =
      { s.replied p tag .done [] with regions := s.regions.set i r }.postAll (regionNotice i) := by
  have hr : (s.accepted p).setRecalls i r = [] := hn
  rw [takeRegionSet_taken (s := s.accepted p) h, hr]
  exact congrArg (State.postAll · _) (reply_behind (t := { s.accepted p with regions := s.regions.set i r }) rfl ..)

/-- Otherwise the recalls are asked for, and it is completing (R144). -/
theorem takeRegionSet_completing (h : s.checkRegionSet i r = none) (hn : s.setRecalls i r ≠ []) :
    (s.accepted p).takeRegionSet ⟨p, tag⟩ i r =
      ({ s.asked p tag (.regionSet i) with regions := s.regions.set i r, completing := some i }.recalledInTurn
        (s.setRecalls i r)).postAll (regionNotice i) := by
  have hr : (s.accepted p).setRecalls i r = s.setRecalls i r := rfl
  rw [takeRegionSet_taken (s := s.accepted p) h, hr, if_neg (mt List.isEmpty_iff.1 hn), askRecalls_eq]
  rfl

/-! ## Completion (R145, R146) -/

/-- A holding within its port's right takes no recall (R140). -/
theorem excessRecall_isNone (a : Access) (h : Holding) : (excessRecall a h).isNone = true ↔ ¬ a.rank < h.needs.rank := by
  rw [excessRecall_eq]
  split <;> simp [*]

/-- A Region Set is complete when no holding is in excess and no recall of its purpose is outstanding (R145). -/
theorem regionSetDone_iff : s.regionSetDone i = true ↔ s.NoExcess s.regions[i] ∧ ¬ s.RegionRecalled s.regions[i] := by
  have hexcess : (s.table.all fun e => !s.regions[i].contains e.line ||
      ports.all fun q => (excessRecall s.regions[i].access[q] e.holdings[q]).isNone) = true ↔ s.NoExcess s.regions[i] := by
    simp only [List.all_eq_true, Bool.or_eq_true, Bool.not_eq_true', State.NoExcess, Region.Excess, mem_ports, true_imp_iff,
      excessRecall_isNone, ← Bool.not_eq_true, ← imp_iff_not_or]
  simp only [State.regionSetDone, Bool.and_eq_true, hexcess, and_assoc, State.RegionRecalled, not_or, not_exists, not_and,
    List.all_eq_true, Bool.not_eq_true', Bool.and_eq_false_imp, beq_iff_eq, Bool.not_eq_true]

theorem completeRegionSet_waits (hc : s.completing = some i) (h : ¬ s.regionSetDone i = true) : s.completeRegionSet = s := by
  simp only [State.completeRegionSet, hc, if_neg h]

/-- With no Region Set outstanding, only the completion record changes (R146). -/
theorem completeRegionSet_unasked (hc : s.completing = some i) (h : s.regionSetDone i = true)
    (hq : ∀ q ∈ s.requests, q.req.kind ≠ .regionSet) : s.completeRegionSet = { s with completing := none } := by
  have hnone : ({ s with completing := none } : State).regionSetRequest? = none :=
    List.find?_eq_none.2 fun q hm => by simpa using hq q hm
  simp only [State.completeRegionSet, hc, if_pos h, hnone]

/-- The Region Set that is outstanding is answered DONE (R145). -/
theorem completeRegionSet_answers {before after : List Request} {id : ReqId} {x : RegionId} (hc : s.completing = some i)
    (h : s.regionSetDone i = true) (hq : s.requests = before ++ { id := id, req := .regionSet x } :: after)
    (ho : ∀ q ∈ before ++ after, q.req.kind ≠ .regionSet ∧ q.id ≠ id) :
    s.completeRegionSet =
      ({ s with completing := none, requests := before ++ after } : State).reply id.port id.tag .done [] := by
  have hfound : ({ s with completing := none } : State).regionSetRequest? = some { id := id, req := .regionSet x } :=
    find?_first hq rfl fun q hm => by simpa using (ho q (List.mem_append_left _ hm)).1
  have hleft : s.requests.filter (fun q => q.id != id) = before ++ after := by
    rw [hq, List.filter_append, List.filter_cons, if_neg (by simp), ← List.filter_append]
    exact List.filter_eq_self.2 fun q hm => by simpa using (ho q hm).2
  simp only [State.completeRegionSet, hc, if_pos h, hfound, State.answer, hleft]

/-- With no port CLOSING a Region Set is all that can complete. -/
theorem complete_notClosing (h : ∀ q : Port, s.sessionState q ≠ .closing) : s.complete = s.completeRegionSet := by
  have hs : s.completeRegionSet.sessions = s.sessions := by
    unfold State.completeRegionSet
    split
    · rfl
    · split
      · dsimp only; split <;> rfl
      · rfl
  refine List.foldl_fixed' (fun q => completeGoodbye_notClosing ?_) _
  rw [State.sessionState, hs]
  exact h q

theorem exec_regionSetCompletion (hr : s.resetN = true) (h : ∀ q : Port, s.sessionState q ≠ .closing) :
    exec .regionSetCompletion s = .next s.completeRegionSet :=
  congrArg Host.Outcome.next ((if_pos hr).trans (complete_notClosing h))

/-- Settles O50: the checks in their order, then what is taken by whether a holding is in excess; completion by whether its
request is outstanding. -/
theorem regionSetAnswered : Obligations.RegionSetAnswered := by
  refine ⟨?_, fun s i hr hclosing hc => ?_⟩
  · intro p f s i flags r had access hp hflags hrange hcount old shares accessOnly taken completing
    have hx := exec_regionSet_admits had (i := i) (r := r) (by rw [hp]; exact parseRegionSet_bytes hflags hrange hcount)
    have refused {st : Status} (h : s.checkRegionSet i r = some st) :
        exec (.regionSet p f) s = .next (s.replied p f.tag st []) := hx.trans (congrArg _ (takeRegionSet_refused h))
    refine ⟨fun h => refused (checkRegionSet_busy h), fun hc => ⟨fun he ho =>
      refused (checkRegionSet_overlap hc he (overlapsOther_iff.2 ho)), fun hno => ?_⟩⟩
    have hlast := checkRegionSet_last (i := i) hc fun he => by simpa using mt overlapsOther_iff.1 (hno he)
    have done (h : s.checkRegionSet i r = none) (hn : s.setRecalls i r = []) : exec (.regionSet p f) s = .next taken :=
      hx.trans (congrArg _ (takeRegionSet_done h hn))
    by_cases ha : accessOnly
    · have honly : s.regions[i].accessOnly r = true := (accessOnly_iff _ _).2 ha
      have hnone : s.checkRegionSet i r = none := hlast.trans (by rw [honly]; rfl)
      have hset : s.setRecalls i r = s.regionRecalls r := if_pos honly
      refine ⟨fun h => absurd ha h, fun h => absurd ha h, fun _ hn => done hnone (hset.trans (regionRecalls_none hn)),
        fun _ he ht hn => ⟨s.linesIn r, linesIn_sorted ht, fun l => by simp [mem_linesIn, he], ?_⟩⟩
      rw [hx, takeRegionSet_completing hnone (by rw [hset]; exact regionRecalls_some he ht hn), hset, regionRecalls_eq]
      rfl
    · have hmore : s.regions[i].accessOnly r = false := Bool.eq_false_iff.2 (mt (accessOnly_iff _ _).1 ha)
      have hset : s.setRecalls i r = [] := if_neg (Bool.eq_false_iff.1 hmore)
      refine ⟨fun _ he hu => refused ?_, fun _ hu => done ?_ hset, fun h => absurd h ha, fun h => absurd h ha⟩
      · rw [hlast, hmore, regionInUse_iff.2 ⟨he, hu⟩]
        rfl
      · have hfree : s.regionInUse s.regions[i] = false :=
          Bool.eq_false_iff.2 fun h => have ⟨he, hused⟩ := regionInUse_iff.1 h; hu he hused
        rw [hlast, hfree, Bool.and_false]
        rfl
  · have hx := exec_regionSetCompletion hr hclosing
    refine ⟨fun before after id x h hq ho => ?_, fun h hq => ?_, fun h => ?_⟩
    · rw [hx, completeRegionSet_answers hc (regionSetDone_iff.2 h) hq ho]
    · rw [hx, completeRegionSet_unasked hc (regionSetDone_iff.2 h) hq]
    · rw [hx, completeRegionSet_waits hc (mt regionSetDone_iff.1 h)]

end Sys2Proof.Machine

/-! PROOFS. The delivery step of the notice unit, Notice Ack and Set Threshold (R152 to R154). -/

namespace Sys2Proof.Machine

variable {s : State} {p : Port} {f : RxFrame} {tag b : Byte} {th : Nat} {u : NoticeUnit} {n : Notice}
  {ns queue before after : List Notice}

/-! ## The notice chosen (R152) -/

theorem bestNotice_some {m : Notice} (h : bestNotice th ns = some m) : m ∈ ns ∧ m.sendable th = true := by
  induction ns with
  | nil => cases h
  | cons n ns ih =>
    unfold bestNotice at h
    split at h
    · split at h
      · cases h
        exact ⟨List.mem_cons_self, ‹_›⟩
      · cases h
    · rename_i x hx
      split at h
      · rename_i hn
        cases h
        exact ⟨List.mem_cons_self, (Bool.and_eq_true_iff.1 hn).1⟩
      · cases h
        obtain ⟨hm, hs⟩ := ih hx
        exact ⟨List.mem_cons_of_mem _ hm, hs⟩

/-- No notice is sent from a queue without a sendable one. -/
theorem bestNotice_none (h : ∀ n ∈ ns, n.sendable th = false) : bestNotice th ns = none := by
  refine Option.eq_none_iff_forall_ne_some.2 fun m hm => ?_
  obtain ⟨hmem, hs⟩ := bestNotice_some hm
  rw [h m hmem] at hs
  cases hs

/-- The scan of the queue from its tail finds the notice that R152 describes: one in front of it yields to it, and it
yields to none behind it. -/
theorem Chosen.best (h : Chosen th queue before n after) : bestNotice th queue = some n := by
  obtain ⟨rfl, hs, holder, hyounger⟩ := h
  induction before with
  | nil =>
    rw [List.nil_append, bestNotice]
    cases hb : bestNotice th after with
    | none => exact if_pos hs
    | some m =>
      obtain ⟨hm, hms⟩ := bestNotice_some hb
      exact if_pos (Bool.and_eq_true_iff.2 ⟨hs, decide_eq_true (hyounger m hm hms)⟩)
  | cons x xs ih =>
    rw [List.cons_append, bestNotice, ih fun m hm => holder m (List.mem_cons_of_mem _ hm)]
    refine if_neg fun hx => ?_
    obtain ⟨hxs, hle⟩ := Bool.and_eq_true_iff.1 hx
    exact Nat.not_le.2 (holder x List.mem_cons_self hxs) (of_decide_eq_true hle)

/-- The chosen notice leaves the queue, and no equal one in front of it does. -/
theorem Chosen.erase (h : Chosen th queue before n after) : queue.erase n = before ++ after := by
  have hn : n ∉ before := fun hm => Nat.lt_irrefl _ (h.older n hm h.sendable)
  rw [h.queue, List.erase_append_right _ hn, List.erase_cons_head]

/-! ## The delivery step (R152) -/

theorem NoticeUnit.next_sends (hi : u.inFlight = none) (hc : Chosen u.threshold u.queue before n after) :
    u.next = some (u.sends n (before ++ after), { number := u.counter, notice := n }) := by
  simp only [NoticeUnit.next, hi, hc.best, hc.erase, NoticeUnit.sends]

theorem NoticeUnit.next_rests (h : u.inFlight ≠ none ∨ ∀ m ∈ u.queue, m.sendable u.threshold = false) : u.next = none := by
  unfold NoticeUnit.next
  split
  · rfl
  · rename_i hi
    rw [bestNotice_none (h.resolve_left fun hne => hne hi)]

theorem withNotices_own : (s.withNotices p u).notices[p] = u := by simp [State.withNotices]

theorem withNotices_self : s.withNotices p s.notices[p] = s := by
  have h : s.notices.set p s.notices[p] = s.notices := by simp
  rw [State.withNotices, h]

/-- A notice unit without a notice in flight sends the chosen one (R152). -/
theorem deliverNotice_sends (hi : u.inFlight = none) (hc : Chosen u.threshold u.queue before n after) :
    (s.withNotices p u).deliverNotice p = s.notified p u n (before ++ after) := by
  rw [State.deliverNotice, withNotices_own, NoticeUnit.next_sends hi hc]
  simp [State.withNotices, State.setNotices, State.sendNotice, State.sendSeq, State.setLink, State.notified]

/-- A notice unit with one in flight, or without a sendable one, sends nothing (R152). -/
theorem deliverNotice_rests (h : u.inFlight ≠ none ∨ ∀ m ∈ u.queue, m.sendable u.threshold = false) :
    (s.withNotices p u).deliverNotice p = s.withNotices p u := by
  rw [State.deliverNotice, withNotices_own, NoticeUnit.next_rests h]

theorem exec_notice (hr : s.resetN = true) : exec (.notice p) s = .next ((s.withNotices p s.notices[p]).deliverNotice p) := by
  rw [withNotices_self]
  exact congrArg Host.Outcome.next (if_pos hr)

/-! ## Notice Ack and Set Threshold (R153, R154) -/

/-- A notice unit changed in an accepted request's step, and the reply behind it. -/
theorem setNotices_reply (st : Status) (d : List Byte) :
    ((s.accepted p).setNotices p u).reply p tag st d = (s.replied p tag st d).withNotices p u :=
  reply_behind (t := (s.accepted p).setNotices p u) rfl ..

theorem exec_noticeAck_admits (h : Admits s p f .noticeAck) (hp : f.payload = [b]) :
    exec (.noticeAck p f) s = .next ((s.accepted p).takeNoticeAck p f.tag b) :=
  congrArg Host.Outcome.next (onRequest_admits h (a := b) (by rw [hp]; rfl) _)

/-- The number in flight is acknowledged: DONE, and the unit without its notice in flight sends what it can (R153). -/
theorem takeNoticeAck_current {x : SentNotice} (hx : s.notices[p].inFlight = some x) (hn : x.number = b) :
    (s.accepted p).takeNoticeAck p tag b =
      ((s.replied p tag .done []).withNotices p { s.notices[p] with inFlight := none }).deliverNotice p := by
  have hxa : (s.accepted p).notices[p].inFlight = some x := hx
  rw [← setNotices_reply, State.takeNoticeAck, hxa]
  exact if_pos hn

theorem takeNoticeAck_other (h : ∀ x : SentNotice, s.notices[p].inFlight = some x → x.number ≠ b) :
    (s.accepted p).takeNoticeAck p tag b = s.replied p tag .noNotice [] := by
  rw [← accepted_reply, State.takeNoticeAck]
  split
  · rename_i x hx
    exact if_neg (h x hx)
  · rfl

theorem exec_setThreshold_admits (h : Admits s p f .setThreshold) (hp : f.payload = [b]) (hb : b.toNat ≤ 7) :
    exec (.setThreshold p f) s =
      .next (((s.replied p f.tag .done []).withNotices p { s.notices[p] with threshold := b.toNat }).deliverNotice p) := by
  rw [← setNotices_reply]
  exact congrArg Host.Outcome.next (onRequest_admits h (a := b.toNat) (by rw [hp]; exact if_pos hb) _)

/-- Settles O36: each command ends with the delivery step on a notice unit, which sends or rests. -/
theorem noticesDelivered : Obligations.NoticesDelivered := by
  refine ⟨fun p s hr => ?_, ?_, ?_⟩
  · rw [exec_notice hr]
    refine ⟨fun before after n hi hc => ?_, fun h => ?_⟩
    · rw [deliverNotice_sends hi hc]
    · rw [deliverNotice_rests h, withNotices_self]
  · intro p f s n had hp u
    rw [exec_noticeAck_admits had hp]
    refine ⟨fun x hx hn => ?_, fun h => ?_⟩
    · rw [takeNoticeAck_current hx hn]
      refine ⟨fun before after m hc => ?_, fun h => ?_⟩
      · rw [deliverNotice_sends rfl hc]
      · rw [deliverNotice_rests (.inr h)]
    · rw [takeNoticeAck_other h]
  · intro p f s b had hp hb u
    rw [exec_setThreshold_admits had hp hb]
    refine ⟨fun before after m hi hc => ?_, fun h => ?_⟩
    · rw [deliverNotice_sends hi hc]
    · rw [deliverNotice_rests h]

end Sys2Proof.Machine

/-! PROOFS. A notice that meets the queue of its port (R149 to R152). -/

namespace Sys2Proof.Machine

variable {s : State} {p : Port} {u : NoticeUnit} {n w : Notice} {before after : List Notice}

/-- The session states that receive a kind (R149). -/
theorem receivedIn_iff (k : NoticeKind) (x : SessionState) : k.receivedIn x = true ↔
    (x = .online ∧ k ≠ .sessionFenced) ∨ (x = .closing ∧ k ≠ .sessionFenced ∧ k ≠ .regionChanged) ∨
      (x = .fenced ∧ k ≠ .regionChanged) := by
  cases k <;> cases x <;> decide

theorem sameKey_iff : w.sameKey n = true ↔ w.kind = n.kind ∧ w.subject = n.subject := by
  simp only [Notice.sameKey, Bool.and_eq_true, beq_iff_eq]

/-- A waiting notice takes the data of one of its own kind: the union for REGION_CHANGED (R151). -/
theorem refresh_sameKind (h : w.kind = n.kind) :
    w.refresh n = { w with data := if n.kind = .regionChanged then w.data ||| n.data else n.data } := by
  unfold Notice.refresh
  split
  · rename_i hk
    rw [if_pos (h ▸ hk)]
  · rename_i hk
    rw [if_neg fun hn => hk (h.trans hn)]

/-- The only match of a new notice takes its data and keeps its place (R150). -/
theorem enqueue_match (hq : u.queue = before ++ w :: after) (hw : w.sameKey n = true)
    (ho : ∀ x ∈ before ++ after, ¬ x.sameKey n = true) :
    u.enqueue n = { u with queue := before ++ w.refresh n :: after } := by
  have kept : ∀ xs : List Notice, (∀ x ∈ xs, ¬ x.sameKey n = true) →
      xs.map (fun x => if x.sameKey n then x.refresh n else x) = xs :=
    fun xs h => (List.map_congr_left fun x hx => if_neg (h x hx)).trans (List.map_id' xs)
  have hany : u.queue.any (·.sameKey n) = true := List.any_eq_true.2 ⟨w, by rw [hq]; simp, hw⟩
  rw [NoticeUnit.enqueue, if_pos hany, hq, List.map_append, List.map_cons, if_pos hw,
    kept before fun x hx => ho x (List.mem_append_left _ hx), kept after fun x hx => ho x (List.mem_append_right _ hx)]

/-- A notice without a match joins the tail (R150). -/
theorem enqueue_new (h : ∀ x ∈ u.queue, ¬ x.sameKey n = true) : u.enqueue n = { u with queue := u.queue ++ [n] } := by
  rw [NoticeUnit.enqueue, if_neg (by simpa using h)]

theorem postNotice_dropped (h : ¬ n.kind.receivedIn (s.sessionState p) = true) : s.postNotice p n = s := if_neg h

theorem postNotice_received (h : n.kind.receivedIn (s.sessionState p) = true) :
    s.postNotice p n = (s.withNotices p (s.notices[p].enqueue n)).deliverNotice p := if_pos h

/-- The delivery step on a unit whose queue alone is new. -/
theorem deliverNotice_taken (queue : List Notice) :
    s.NoticeTaken ((s.withNotices p { s.notices[p] with queue := queue }).deliverNotice p) p queue :=
  ⟨fun _ _ _ hi hc => deliverNotice_sends hi hc, deliverNotice_rests⟩

/-- Settles O49: by whether the port receives the notice's kind, and whether a match of it waits. -/
theorem noticePosted : Obligations.NoticePosted := by
  intro p s n received same
  have hreceived : n.kind.receivedIn (s.sessionState p) = true ↔ received := receivedIn_iff ..
  refine ⟨fun h => postNotice_dropped (mt hreceived.1 h), fun h => ?_⟩
  rw [postNotice_received (hreceived.2 h)]
  refine ⟨fun before after w hq hw ho => ?_, fun ho => ?_⟩
  · rw [enqueue_match hq (sameKey_iff.2 hw) fun x hx => mt sameKey_iff.1 (ho x hx), refresh_sameKind hw.1]
    exact deliverNotice_taken _
  · rw [enqueue_new fun x hx => mt sameKey_iff.1 (ho x hx)]
    exact deliverNotice_taken _

end Sys2Proof.Machine

/-! PROOFS. Hello (R157, R169 to R171). -/

namespace Sys2Proof.Machine

variable {s : State} {p : Port} {f : RxFrame} {tag revision : Byte} {capacity : Nat} {r : FaultRecord}

theorem nextSession_counter : nextSession s.sessionCounter = s.nextSessionNo := by
  have h : s.sessionCounter + 1 = 0 ↔ s.sessionCounter = 65535 := by constructor <;> intro h <;> bv_omega
  simp only [nextSession, State.nextSessionNo, h]

/-- The state in which a Hello has been answered with the Welcome, before HUB_STOPPED can follow (R170). -/
def State.welcomed (s : State) (p : Port) (tag : Byte) (capacity : Nat) : State :=
  let no := nextSession s.sessionCounter
  let t := { s with sessionCounter := no }.setSession p { state := .online, capacity := some capacity, number := some no }
  let u := t.setLink p { t.links[p] with keepalive := some t.keepaliveExpiry }
  u.reply p tag .done (u.welcome p no capacity)

theorem accepted_welcomed : (s.accepted p).welcomed p tag capacity = s.sessionOpened p tag capacity := by
  simp [State.welcomed, nextSession_counter, State.sessionOpened, reply_eq, State.setSession, State.setLink,
    State.accepted, State.welcome, State.keepaliveExpiry, count8, Config.outstandingLimit, Config.maxPayload,
    Config.replayDepth]

/-- While RUNNING the Welcome is all (R170). -/
theorem openSession_running (h : s.mode = .running) : s.openSession p tag capacity = s.welcomed p tag capacity := by
  have hm : (s.welcomed p tag capacity).mode ≠ .stopped := fun hs => by cases h.symm.trans hs
  dsimp only [State.openSession]
  split
  · exact if_neg hm
  · rfl

/-- While STOPPED HUB_STOPPED is posted behind the Welcome (R157, R170). -/
theorem openSession_stopped (hm : s.mode = .stopped) (hr : s.stopRecord = some r) :
    s.openSession p tag capacity = (s.welcomed p tag capacity).postNotice p (hubStoppedNotice r.body.kind) := by
  have hrec : (s.welcomed p tag capacity).stopRecord = some r := hr
  dsimp only [State.openSession]
  split
  · rename_i x hx
    cases hrec.symm.trans hx
    exact if_pos hm
  · rename_i hx
    cases hrec.symm.trans hx

theorem sessionOpened_online : (s.sessionOpened p tag capacity).sessionState p = .online := by
  simp [State.sessionState, State.sessionOpened]

/-- HUB_STOPPED, the only notice of a port between sessions, is chosen whatever the threshold (R152). -/
theorem chosen_hubStopped (th : Nat) (k : RecordKind) : Chosen th [hubStoppedNotice k] [] (hubStoppedNotice k) [] where
  queue := rfl
  sendable := by simp [Notice.sendable, hubStoppedNotice, NoticeKind.priority, Config.topPriority]
  older _ hm := nomatch hm
  younger _ hm := nomatch hm

theorem sessionOpened_hubStopped (hn : s.notices[p] = NoticeUnit.reset) (k : RecordKind) :
    (s.sessionOpened p tag capacity).postNotice p (hubStoppedNotice k) =
      (s.sessionOpened p tag capacity).notified p NoticeUnit.reset (hubStoppedNotice k) [] := by
  have hreceived : (hubStoppedNotice k).kind.receivedIn ((s.sessionOpened p tag capacity).sessionState p) = true := by
    rw [sessionOpened_online]; rfl
  have hunit : (s.sessionOpened p tag capacity).notices[p] = NoticeUnit.reset := hn
  rw [postNotice_received hreceived, hunit, enqueue_new (by simp [NoticeUnit.reset])]
  exact deliverNotice_sends (u := { NoticeUnit.reset with queue := [hubStoppedNotice k] }) rfl (chosen_hubStopped ..)

theorem exec_hello_admits (h : Admits s p f .hello) (hc : capacity ≤ 512)
    (hp : f.payload = revision :: count16 capacity) : exec (.hello p f) s =
      .next (if revision = 1 then (s.accepted p).openSession p f.tag capacity
        else (s.accepted p).reply p f.tag .revision []) :=
  congrArg Host.Outcome.next (onRequest_admits h (a := (revision, capacity)) (by rw [hp]; exact parseHello_bytes _ hc) _)

/-- Settles O34: by the revision, then by the mode. -/
theorem helloOpensSession : Obligations.HelloOpensSession := by
  intro p f s revision capacity had hc hp
  rw [exec_hello_admits had hc hp]
  refine ⟨fun hr hm => ?_, fun r hr hm hs hn => ?_, fun hr => ?_⟩
  · rw [if_pos hr, openSession_running (s := s.accepted p) hm, accepted_welcomed]
  · rw [if_pos hr, openSession_stopped (s := s.accepted p) hm hs, accepted_welcomed, sessionOpened_hubStopped hn]
    rfl
  · rw [if_neg hr, accepted_reply]

end Sys2Proof.Machine

/-! PROOFS. Fence refused, and Unfence (R156, R168, R173, R182, R183). -/

namespace Sys2Proof.Machine

variable {s : State} {p q : Port} {f : RxFrame} {tag : Byte}

theorem parsePort_none {bs : List Byte} (h : bs.length ≠ 1 ∨ ∃ b : Byte, bs = [b] ∧ 4 ≤ b.toNat) : parsePort bs = none := by
  rcases h with h | ⟨b, rfl, hb⟩
  · match bs, h with
    | [], _ | _ :: _ :: _, _ => rfl
  · exact dif_neg (Nat.not_lt.2 hb)

theorem takeFence_own (h : q = s.supervisor) : (s.accepted p).takeFence p tag q = s.replied p tag .notPermitted [] := by
  rw [← accepted_reply]
  exact if_pos h

theorem takeFence_shut (h : q ≠ s.supervisor) (ho : ¬ (s.sessionState q).isOpen = true) :
    (s.accepted p).takeFence p tag q = s.replied p tag .notOnline [] := by
  rw [← accepted_reply]
  exact (if_neg h).trans (if_neg ho)

theorem exec_unfence_admits (h : Admits s p f .unfence) (hp : f.payload = [portByte q]) :
    exec (.unfence p f) s = .next ((s.accepted p).takeUnfence p f.tag q) :=
  congrArg Host.Outcome.next (onRequest_admits h (a := q) (by rw [hp]; exact parsePort_byte q) _)

theorem takeUnfence_own (h : q = s.supervisor) : (s.accepted p).takeUnfence p tag q = s.replied p tag .notPermitted [] := by
  rw [← accepted_reply]
  exact if_pos h

theorem takeUnfence_unfenced (h : q ≠ s.supervisor) (hs : s.sessionState q ≠ .fenced) :
    (s.accepted p).takeUnfence p tag q = s.replied p tag .notFenced [] := by
  rw [← accepted_reply]
  exact (if_neg h).trans (if_neg hs)

/-- An Unfence of a FENCED port is answered, and the port left between sessions with its Session End (R173, R183). -/
theorem takeUnfence_fenced (h : q ≠ s.supervisor) (hs : s.sessionState q = .fenced) :
    (s.accepted p).takeUnfence p tag q =
      ((s.replied p tag .done []).closeSession q).sendSessionEnd q .unfenced (s.sessions[q].number.getD 0) := by
  rw [← accepted_reply]
  exact (if_neg h).trans (if_pos hs)

theorem sendLink_up {l : LinkUnit} (h : l.up = true) (kind tag : Byte) (payload : List Byte) :
    l.sendLink kind tag payload = { l with tx := l.tx ++ [linkFrame kind tag payload] } := if_pos h

/-- The session of another port than the one just answered is closed, and its Session End sent on its own link (R156,
R168). -/
theorem replied_closeSession (hpq : p ≠ q) (hup : s.links[q].up = true) (no : SessionNo) :
    ((s.replied p tag .done []).closeSession q).sendSessionEnd q .unfenced no = { s with
      links := (s.links.set p (s.linkReplied p tag .done [])).set q { s.links[q] with
        keepalive := none, tx := s.links[q].tx ++ [linkFrame sessionEndKind 0 (2 :: le16 no)] }
      sessions := s.sessions.set q Session.idle
      notices := s.notices.set q NoticeUnit.reset } := by
  have hlink : (s.replied p tag .done []).links[q] = s.links[q] := by simp [State.replied, Fin.val_ne_of_ne hpq]
  rw [State.closeSession, State.sendSessionEnd, sendLink_setLink, hlink,
    sendLink_up (l := { s.links[q] with keepalive := none }) hup]
  rfl

/-- Settles O44: the refusals in their order; a FENCED port's session is closed behind the reply. -/
theorem fencesAnswered : Obligations.FencesAnswered := by
  refine fun p f s => ⟨fun had => ⟨fun q hp => ?_, fun h => ?_⟩, fun had => ⟨fun q hp => ?_, fun h => ?_⟩⟩
  · rw [exec_fence_admits had hp]
    refine ⟨fun h => by rw [takeFence_own h], fun h hon hcl => ?_⟩
    rw [takeFence_shut h fun ho => (isOpen_iff.1 ho).elim hon hcl]
  · exact congrArg Host.Outcome.next (onRequest_badFormat had (parsePort_none h) _)
  · rw [exec_unfence_admits had hp]
    refine ⟨fun h => by rw [takeUnfence_own h], fun h hs => by rw [takeUnfence_unfenced h hs], fun no h hs hup hno => ?_⟩
    have hpq : p ≠ q := by rw [had.may.permitted rfl]; exact h.symm
    rw [takeUnfence_fenced h hs, hno, Option.getD_some, replied_closeSession hpq hup]
  · exact congrArg Host.Outcome.next (onRequest_badFormat had (parsePort_none h) _)

end Sys2Proof.Machine

/-! PROOFS. Link Restart of a port without an open session (R157, R158, R167, R189). -/

namespace Sys2Proof.Machine

variable {s : State} {p : Port} {l : LinkUnit} {payload : List Byte}

/-- The link unit of a restarted link: reset but UP, with the hub's Link Restart to be sent (R158, R167). -/
def LinkUnit.restartAnswered : LinkUnit := { LinkUnit.reset with up := true, tx := [linkFrame linkRestartKind 0 [1]] }

theorem restartKeepalive_heard : s.restartKeepalive p = s.heard p := restartKeepalive_eq s p

/-- A Link Restart where no session is open resets and answers the link; in FENCED the notice in flight follows (R157,
R167). -/
theorem takeLinkRestart_shut (ho : ¬ (s.sessionState p).isOpen = true) (hup : s.links[p].up = true) :
    s.takeLinkRestart p = if s.sessionState p = .fenced then (s.setLink p .restartAnswered).resendNotice p
      else s.setLink p .restartAnswered := by
  have hlink : (s.setLink p s.links[p].restarted).answerLinkRestart p = s.setLink p .restartAnswered := by
    rw [State.answerLinkRestart, sendLink_setLink, LinkUnit.restarted, hup]
    rfl
  rw [State.takeLinkRestart, if_neg ho]
  dsimp only
  rw [hlink]

theorem resendNotice_none (h : s.notices[p].inFlight = none) : (s.setLink p l).resendNotice p = s.setLink p l := by
  have hl : (s.setLink p l).notices[p].inFlight = none := h
  rw [State.resendNotice, hl]

theorem resendNotice_some {n : SentNotice} (h : s.notices[p].inFlight = some n) :
    (s.setLink p l).resendNotice p = s.setLink p (l.sendSeq noticeKind 0 (noticePayload n)) := by
  have hl : (s.setLink p l).notices[p].inFlight = some n := h
  rw [State.resendNotice, hl]
  simp [State.sendNotice, State.sendSeq, State.setLink]

/-- A Link Restart with the answer flag clear, where no session is open; what the frame did to the keepalive is lost with the
link's reset. -/
theorem exec_linkRestart_shut {b : Byte} (h : s.receives p = true) (hb : b.getLsbD 0 = false)
    (ho : ¬ (s.sessionState p).isOpen = true) :
    exec (.linkRestart p [b]) s = .next (if s.sessionState p = .fenced then (s.setLink p .restartAnswered).resendNotice p
      else s.setLink p .restartAnswered) := by
  have hup : (s.heard p).links[p].up = true := by
    simpa [State.heard, LinkUnit.heard] using (receives_iff.1 h).2
  have hlink : (s.heard p).setLink p .restartAnswered = s.setLink p .restartAnswered := setLink_setLink ..
  rw [exec_linkRestart h hb, restartKeepalive_heard, takeLinkRestart_shut (s := s.heard p) ho hup, hlink]
  rfl

/-- A payload without a clear answer flag is discarded (R167, R189). -/
theorem exec_linkRestart_discarded (h : s.receives p = true) (hf : parseAnswerFlag payload ≠ some false) :
    exec (.linkRestart p payload) s = .next (s.heard p) := by
  rw [← restartKeepalive_heard]
  refine congrArg Host.Outcome.next ((if_pos h).trans ?_)
  split
  · exact absurd ‹_› hf
  · rfl

theorem parseAnswerFlag_discarded (h : payload.length ≠ 1 ∨ ∃ b : Byte, payload = [b] ∧ b.getLsbD 0 = true) :
    parseAnswerFlag payload ≠ some false := by
  rcases h with h | ⟨b, rfl, hb⟩
  · match payload, h with
    | [], _ | _ :: _ :: _, _ => simp [parseAnswerFlag]
  · rw [parseAnswerFlag, hb]
    decide

/-- Settles O32: by the answer flag, then by whether a notice in flight follows. -/
theorem linkRestarted : Obligations.LinkRestarted := by
  intro p payload s hrec answered
  refine ⟨fun b hp hb => ⟨fun h => ?_, fun n hs hn => ?_⟩, fun h =>
    exec_linkRestart_discarded hrec (parseAnswerFlag_discarded h)⟩
  · subst hp
    rcases h with hs | ⟨hs, hn⟩
    · rw [exec_linkRestart_shut hrec hb (by rw [hs]; decide), if_neg (by rw [hs]; decide)]
      rfl
    · rw [exec_linkRestart_shut hrec hb (by rw [hs]; decide), if_pos hs, resendNotice_none hn]
      rfl
  · rw [hp, exec_linkRestart_shut hrec hb (by rw [hs]; decide), if_pos hs, resendNotice_some hn]
    rfl

end Sys2Proof.Machine

/-! PROOFS. The frames of well-formed commands spell them (R160, R188, section 11.1, section 11.2). -/

namespace Sys2Proof.Machine

variable {p : Port} {expected : Byte} {fr : Frame}

/-! ## Good frames (R160) -/

theorem payloadFits_iff {bs : List Byte} : payloadFits bs = true ↔ bs.length ≤ 240 := decide_eq_true_iff

/-- The length field counts a payload that fits the lane (R160, section 11.1). -/
theorem lengthField_toNat (h : payloadFits fr.payload = true) : (count8 fr.payload.length).toNat = fr.payload.length :=
  byte_toNat (lt_of_le_of_lt (payloadFits_iff.1 h) (by decide))

theorem frame_bytes_eq : fr.bytes =
    fr.kind :: fr.tag :: fr.seq :: count8 fr.payload.length :: (fr.payload ++ le16 (crc16 fr.body)) := rfl

theorem le16_length (v : BitVec 16) : (le16 v).length = 2 := rfl

/-- The check takes the last two bytes of a frame; the header and the payload stand before it (section 11.1). -/
theorem frame_bytes_length : fr.bytes.length - 2 = fr.body.length := by simp [Frame.bytes, le16_length]

/-- A frame whose payload fits the lane is good (R160). -/
theorem isGoodFrame_bytes (h : payloadFits fr.payload = true) : isGoodFrame fr.bytes = true := by
  have hmax : fr.payload.length ≤ Config.maxPayload := payloadFits_iff.1 h
  have hcheck : fr.bytes.drop (fr.bytes.length - 2) = le16 (crc16 (fr.bytes.take (fr.bytes.length - 2))) := by
    rw [frame_bytes_length, Frame.bytes, List.drop_left, List.take_left]
  rw [frame_bytes_eq] at hcheck ⊢
  simp only [isGoodFrame, hcheck, lengthField_toNat h, hmax]
  simp [le16_length]

/-- A good frame's bytes decode to its link command, or, with the receive number, to its sequenced command (R160, R164). -/
theorem decodeFrame_bytes (h : payloadFits fr.payload = true) : decodeFrame p expected fr.bytes =
    some (if isLinkKind fr.kind = true then linkCommand p fr.kind fr.tag fr.payload
      else if fr.seq = expected then sequencedCommand p fr.kind { tag := fr.tag, seq := fr.seq, payload := fr.payload }
      else .unexpectedSequence p fr.seq) := by
  have hgood := isGoodFrame_bytes h
  have hpayload : (fr.payload ++ le16 (crc16 fr.body)).take ((fr.payload ++ le16 (crc16 fr.body)).length - 2) =
      fr.payload := by
    rw [List.length_append, le16_length, Nat.add_sub_cancel, List.take_left]
  rw [frame_bytes_eq] at hgood ⊢
  simp only [decodeFrame, hgood, hpayload, Bool.not_true, Bool.false_eq_true, if_false, apply_ite some]

end Sys2Proof.Machine

/-! ## Every command (sections 11.1, 11.2) -/

namespace Sys2Proof.Laws.CommandFrame

open Sys2Proof Sys2Proof.Machine

/-- Every command's frame gives the command back. -/
theorem statement (i : Instr) : Statement i :=
  match i with
  | .readWords p f => readWords p f
  | .writeWords p f => writeWords p f
  | .acquireRead p f => acquireRead p f
  | .acquireWrite p f => acquireWrite p f
  | .upgrade p f => upgrade p f
  | .release p f => release p f
  | .prefetch p f => prefetch p f
  | .flush p f => flush p f
  | .sync p f => sync p f
  | .recallAnswer p f => recallAnswer p f
  | .hello p f => hello p f
  | .goodbye p f => goodbye p f
  | .noticeAck p f => noticeAck p f
  | .setThreshold p f => setThreshold p f
  | .regionQuery p f => regionQuery p f
  | .hubStatus p f => hubStatus p f
  | .setTimers p f => setTimers p f
  | .fence p f => fence p f
  | .unfence p f => unfence p f
  | .restart p f => restart p f
  | .regionSet p f => regionSet p f
  | .faultList p f => faultList p f
  | .faultRead p f => faultRead p f
  | .resolveRetry p f => resolveRetry p f
  | .resolveSupply p f => resolveSupply p f
  | .resolveFail p f => resolveFail p f
  | .resolveComplete p f => resolveComplete p f
  | .resolveAbandon p f => resolveAbandon p f
  | .resolveRevert p f => resolveRevert p f
  | .supplyLine p f => supplyLine p f
  | .storeRead p f => storeRead p f
  | .storeWrite p f => storeWrite p f
  | .unknownKindFrame p kind f => unknownKindFrame p kind f
  | .ping p tag payload => ping p tag payload
  | .replayRequest p payload => replayRequest p payload
  | .linkRestart p payload => linkRestart p payload
  | .discardedLinkFrame p kind => discardedLinkFrame p kind
  | .damagedFrame .. | .unexpectedSequence .. | .linkUp _ | .linkDown _ | .keepaliveExpired _ | .recallTimeout _
  | .powerOnReset .. | .storeTimeout | .fillComplete _ | .fillFailed _ | .drainComplete | .drainFailed _
  | .directJobComplete _ | .directJobFailed _ | .grant | .waiterService _ | .allocation | .waitingRecallOpen
  | .journalSpaceService | .syncListAnswer | .goodbyeCompletion _ | .regionSetCompletion | .notice _ | .resetNLow
  | .hubTimeAdvance | .halfWordAnswered _ | .mrdyMerrInactive | .frameTransmitted _ => of_none rfl

end Sys2Proof.Laws.CommandFrame

namespace Sys2Proof.Machine

variable {p : Port} {fr : Frame} {i : Instr}

/-- Settles O15: the frame is good, so its bytes decode to what its fields name, which is the command. -/
theorem framesSpellTheirCommands : Obligations.FramesSpellTheirCommands := by
  intro i p fr hw hf
  obtain ⟨hfits, hcommand⟩ := Laws.CommandFrame.statement i hw p fr hf
  rw [decodeFrame_bytes hfits]
  split at hcommand
  · rename_i hlink
    rw [if_pos hlink, hcommand.2]
  · rename_i hlink
    rw [if_neg hlink, if_pos rfl, hcommand]

/-- These bytes spell a well-formed command when they are its frame's, with the port's receive number where the frame is
sequenced. -/
theorem decodeFrame_spelled {seq : Byte} {bytes : List Byte} (hw : i.wellFormed = true)
    (hf : commandFrame? i = some (p, fr)) (hseq : fr.seq = seq) (hbytes : fr.bytes = bytes) :
    decodeFrame p seq bytes = some i :=
  hseq ▸ hbytes ▸ framesSpellTheirCommands i p fr hw hf

/-- A run of bytes that is no good frame is a damaged frame, of its first byte (R160, R161). -/
theorem decodeFrame_damaged {seq kind : Byte} {rest : List Byte} (h : isGoodFrame (kind :: rest) = false) :
    decodeFrame p seq (kind :: rest) = some (.damagedFrame p kind) := by
  simp [decodeFrame, h]

/-- Settles O16: three are the frames of their commands, check and all; the check of the last is wrong. -/
theorem frameBytesSpelled : Obligations.FrameBytesSpelled :=
  ⟨decodeFrame_spelled rfl rfl rfl (by decide +kernel), decodeFrame_spelled rfl rfl rfl (by decide +kernel),
    decodeFrame_spelled rfl rfl rfl (by decide +kernel), decodeFrame_damaged (by decide +kernel)⟩

end Sys2Proof.Machine

/-! PROOFS. Link frames and link events of ports without an open session (R158, R159, R161, R163 to R166, R171, R176, R189). -/

namespace Sys2Proof.Machine

variable {s : State} {p : Port} {n tag kind seq : Byte} {payload : List Byte} {fr : Frame} {rest older younger : List Frame}

/-! ## Good link frames (R160, R171) -/

/-- A good frame on a port that receives is taken behind the restart of a running keepalive (R171). -/
theorem onGoodFrame_receives (h : s.receives p = true) (take : State → State) : s.onGoodFrame p take = take (s.heard p) := by
  rw [← restartKeepalive_heard]
  exact if_pos h

theorem heard_setLink : s.heard p = s.setLink p (s.links[p].heard s.keepaliveExpiry) := rfl

theorem heard_links : (s.heard p).links[p] = s.links[p].heard s.keepaliveExpiry := by simp [State.heard]

/-! ## Ping (R166) -/

/-- The Pong joins the transmit queue of a link that is UP, and nothing else changes (R163, R166). -/
theorem sendPong_heard (h : s.links[p].up = true) : (s.heard p).sendPong p tag =
    s.setLink p { s.links[p].heard s.keepaliveExpiry with
      tx := s.links[p].tx ++ [linkFrame pongKind tag [s.links[p].recvNum, s.links[p].sendNum]] } := by
  rw [State.sendPong, heard_links, heard_setLink, sendLink_setLink, sendLink_up (l := s.links[p].heard _) h]
  rfl

/-- Settles O28: the Ping is a good frame whatever its payload. -/
theorem pingAnswered : Obligations.PingAnswered := fun _ _ _ _ h =>
  congrArg Host.Outcome.next ((onGoodFrame_receives h _).trans (sendPong_heard (receives_iff.1 h).2))

/-! ## Frames rejected (R161, R164) -/

theorem setLink_self (s : State) (p : Port) : s.setLink p s.links[p] = s :=
  congrArg (fun l => { s with links := l }) (links_set_self s p)

theorem rejecting_pending {l : LinkUnit} (h : l.rejectPending = some n) : l.rejecting = l := by
  rw [LinkUnit.rejecting, h]

theorem rejecting_none {l : LinkUnit} (h : l.rejectPending = none) : l.rejecting =
    { l with rejectPending := some l.recvNum, tx := l.tx ++ [linkFrame linkRejectKind 0 [l.recvNum]] } := by
  rw [LinkUnit.rejecting, h]

/-- The Link Reject rule changes only the link, which is UP (R164). -/
theorem rejectSeq_up (h : s.links[p].up = true) : s.rejectSeq p = s.setLink p s.links[p].rejecting := by
  unfold State.rejectSeq
  cases hp : s.links[p].rejectPending with
  | some n => rw [rejecting_pending hp, setLink_self]
  | none =>
    dsimp only
    rw [rejecting_none hp, State.sendLink, sendLink_up h, setLink_setLink, State.setLink_links]
    exact congrArg (s.setLink p) (by simp)

theorem exec_damagedFrame_link (h : isLinkKind kind = true) : exec (.damagedFrame p kind) s = .next s :=
  congrArg Host.Outcome.next (if_neg (by simp [h]))

theorem exec_damagedFrame_other (hr : s.receives p = true) (h : isLinkKind kind = false) :
    exec (.damagedFrame p kind) s = .next (s.setLink p s.links[p].rejecting) :=
  congrArg Host.Outcome.next ((if_pos (by simp [hr, h])).trans (rejectSeq_up (receives_iff.1 hr).2))

theorem exec_unexpectedSequence (hr : s.receives p = true) (h : seq ≠ s.links[p].recvNum) :
    exec (.unexpectedSequence p seq) s = .next (s.setLink p (s.links[p].heard s.keepaliveExpiry).rejecting) := by
  have hup : (s.heard p).links[p].up = true := by rw [heard_links]; exact (receives_iff.1 hr).2
  refine congrArg Host.Outcome.next ((if_neg h.symm).trans ?_)
  rw [onSequenced_other hr h.symm, restartKeepalive_heard, rejectSeq_up hup, heard_links, heard_setLink, setLink_setLink]

/-- Settles O29: by the range of the damaged frame's kind; a good frame out of sequence is heard first. -/
theorem framesRejected : Obligations.FramesRejected := fun _ _ hr =>
  ⟨fun _ hk => exec_damagedFrame_link (decide_eq_true hk),
    fun _ hk => exec_damagedFrame_other hr (decide_eq_false (Nat.not_lt.2 hk)),
    fun _ hn => exec_unexpectedSequence hr hn⟩

/-! ## Replay (R165) -/

/-- The buffered frames from the first with a number on (R165). -/
theorem replayFrom_found {l : LinkUnit} (h : l.replay = older ++ fr :: younger) (ho : ∀ x ∈ older, x.seq ≠ fr.seq) :
    l.replayFrom fr.seq = some (fr :: younger) := by
  have hdrop : l.replay.dropWhile (fun x => x.seq != fr.seq) = fr :: younger := by
    rw [h, List.dropWhile_append_of_pos (by simpa using ho), List.dropWhile_cons_of_neg (by simp)]
  rw [LinkUnit.replayFrom, hdrop]

theorem replayFrom_lost {l : LinkUnit} (h : ∀ x ∈ l.replay, x.seq ≠ n) : l.replayFrom n = none := by
  have hdrop : l.replay.dropWhile (fun x => x.seq != n) = [] := by simpa using h
  rw [LinkUnit.replayFrom, hdrop]

theorem takeReplay_found (h : s.links[p].replay = older ++ fr :: younger) (ho : ∀ x ∈ older, x.seq ≠ fr.seq) :
    s.takeReplay p fr.seq = s.setLink p { s.links[p] with tx := s.links[p].tx ++ fr :: younger } := by
  rw [State.takeReplay, replayFrom_found h ho]

theorem not_isOpen {x : SessionState} (h : x = .idle ∨ x = .fenced) : ¬ x.isOpen = true := by
  rcases h with rfl | rfl <;> decide

/-- Nothing is sent for the send number, nor for a lost frame where no session is open (R165). -/
theorem takeReplay_nothing (h : ∀ x ∈ s.links[p].replay, x.seq ≠ n)
    (hn : n = s.links[p].sendNum ∨ ¬ (s.sessionState p).isOpen = true) : s.takeReplay p n = s := by
  rw [State.takeReplay, replayFrom_lost h]
  rcases hn with hn | hn
  · exact if_pos hn
  · exact (ite_congr rfl (fun _ => rfl) fun _ => if_neg hn).trans (ite_self s)

theorem exec_replayRequest_heard (h : s.receives p = true) :
    exec (.replayRequest p [n]) s = .next ((s.heard p).takeReplay p n) := by
  rw [exec_replayRequest n h, restartKeepalive_heard]

theorem parseByte_none (h : payload.length ≠ 1) : parseByte payload = none := by
  match payload, h with
  | [], _ | _ :: _ :: _, _ => rfl

/-- A payload that is not one byte is discarded (R189). -/
theorem exec_replayRequest_discarded (h : s.receives p = true) (hl : payload.length ≠ 1) :
    exec (.replayRequest p payload) s = .next (s.heard p) := by
  refine congrArg Host.Outcome.next ((onGoodFrame_receives h _).trans ?_)
  rw [parseByte_none hl]

/-- Settles O31: by whether the replay buffer holds the number; the keepalive changes nothing of the buffer. -/
theorem framesReplayed : Obligations.FramesReplayed := by
  intro p payload s h l
  refine ⟨fun older younger fr hp hr ho => ?_, fun n hp hr hn => ?_, exec_replayRequest_discarded h⟩
  · have hr' : (s.heard p).links[p].replay = older ++ fr :: younger := by rw [heard_links]; exact hr
    rw [hp, exec_replayRequest_heard h, takeReplay_found hr' ho, heard_links, heard_setLink, setLink_setLink]
    rfl
  · have hr' : ∀ x ∈ (s.heard p).links[p].replay, x.seq ≠ n := by rw [heard_links]; exact hr
    have hn' : n = (s.heard p).links[p].sendNum ∨ ¬ ((s.heard p).sessionState p).isOpen = true := by
      rw [heard_links]
      exact hn.imp_right not_isOpen
    rw [hp, exec_replayRequest_heard h, takeReplay_nothing hr' hn']

/-! ## Link events (R158, R159, R163, R176) -/

theorem notices_set_reset (h : s.notices[p] = NoticeUnit.reset) : s.notices.set p NoticeUnit.reset = s.notices := by
  rw [← h]
  exact Vector.set_getElem_self ..

theorem discardRequests_none (h : s.outstanding p = []) : s.discardRequests p = s := by
  have hkept : s.requests.filter (fun r => r.id.port != p) = s.requests :=
    List.filter_eq_self.2 fun r hr => by simpa using List.filter_eq_nil_iff.1 h r hr
  rw [State.discardRequests, hkept]

/-- The hub with a port DOWN that had nothing but its link, its session record and its notices to lose (R158, R176). -/
def State.portDown (s : State) (p : Port) : State :=
  { s with
    links := s.links.set p LinkUnit.reset
    sessions := s.sessions.set p Session.reset
    notices := s.notices.set p NoticeUnit.reset }

theorem endSession_portDown (hs : ¬ (s.sessionState p).isOpen = true) (ho : s.outstanding p = []) :
    (s.endSession p .down).setLink p LinkUnit.reset = s.portDown p := by
  rw [State.endSession, if_neg hs, discardRequests_none ho]
  exact setLink_setLink ..

theorem Quiet.portDown (h : Quiet s) (p : Port) : Quiet (s.portDown p) where
  alloc := h.alloc
  space := h.space
  region := h.region
  port := h.port
  sessions q := by
    rcases eq_or_ne q p with rfl | hne
    · simp [State.portDown, State.sessionState, Session.reset]
    · simpa [State.portDown, State.sessionState, Fin.val_ne_of_ne hne.symm] using h.sessions q

/-- A link goes down where no session is open and no request outstanding (R176). -/
theorem exec_linkDown_shut (h : s.receives p = true) (hq : Quiet s) (hs : ¬ (s.sessionState p).isOpen = true)
    (ho : s.outstanding p = []) : exec (.linkDown p) s = .next (s.portDown p) := by
  rw [exec_linkDown h, endSession_portDown hs ho, settle_quiet (hq.portDown p)]

theorem exec_linkUp_down (hr : s.resetN = true) (h : s.links[p].up = false) : exec (.linkUp p) s = .next { s with
    links := s.links.set p { LinkUnit.reset with up := true }
    sessions := s.sessions.set p Session.idle } :=
  congrArg Host.Outcome.next (if_pos (by rw [hr, h]; rfl))

theorem exec_linkUp_up (h : s.links[p].up = true) : exec (.linkUp p) s = .next s :=
  congrArg Host.Outcome.next (if_neg (by rw [h]; simp))

theorem exec_linkDown_down (h : s.links[p].up = false) : exec (.linkDown p) s = .next s :=
  congrArg Host.Outcome.next (if_neg (by rw [State.receives, h]; simp))

theorem exec_frameTransmitted (h : s.receives p = true) (htx : s.links[p].tx = fr :: rest) :
    exec (.frameTransmitted p) s = .next (s.setLink p { s.links[p] with tx := rest }) := by
  refine congrArg Host.Outcome.next ((if_pos h).trans ?_)
  rw [htx, List.tail_cons]

/-- Settles O33: by the level of the link; IDLE and FENCED are the states of an UP link without an open session. -/
theorem linkEvents : Obligations.LinkEvents := by
  intro p s hr
  have receives (hup : s.links[p].up = true) : s.receives p = true := receives_iff.2 ⟨hr, hup⟩
  refine ⟨exec_linkUp_down hr, exec_linkUp_up, fun hup hq hs ho hn => ?_, fun hup hq hs ho => ?_, exec_linkDown_down,
    fun fr rest hup htx => exec_frameTransmitted (receives hup) htx⟩
  · rw [exec_linkDown_shut (receives hup) hq (not_isOpen (.inl hs)) ho, State.portDown, notices_set_reset hn]
  · exact exec_linkDown_shut (receives hup) hq (not_isOpen (.inr hs)) ho

end Sys2Proof.Machine

/-! PROOFS. Restart (R163, R168, R184, R185). -/

namespace Sys2Proof.Machine

variable {s : State} {p : Port} {f : RxFrame}

/-- The link unit of a port once Restart has ended its session, where it has one (R168, R184). -/
def State.linkEnded (s : State) (q : Port) : LinkUnit :=
  if (s.sessionState q).hasSession then
    s.links[q].sendLink sessionEndKind 0 (sessionEndPayload .restart (s.sessions[q].number.getD 0))
  else s.links[q]

theorem endForRestart_setLink (s : State) (p : Port) : s.endForRestart p = s.setLink p (s.linkEnded p) := by
  unfold State.endForRestart State.linkEnded
  split
  · rfl
  · exact (setLink_self s p).symm

theorem setLink_links_other {q : Port} (h : q ≠ p) (l : LinkUnit) : (s.setLink p l).links[q] = s.links[q] := by
  simp [Fin.val_ne_of_ne h.symm]

theorem setLink_linkEnded_other {q : Port} (h : q ≠ p) (l : LinkUnit) : (s.setLink p l).linkEnded q = s.linkEnded q := by
  rw [State.linkEnded, setLink_links_other h]
  rfl

/-- Session Ends on different ports change different links. -/
theorem endForRestart_foldl {ps : List Port} (h : ps.Nodup) (s : State) : ps.foldl State.endForRestart s =
    { s with links := Vector.ofFn fun q : Port => if q ∈ ps then s.linkEnded q else s.links[q] } := by
  induction ps generalizing s with
  | nil => simp
  | cons p ps ih =>
    obtain ⟨hp, hps⟩ := List.nodup_cons.1 h
    rw [List.foldl_cons, endForRestart_setLink, ih hps]
    refine congrArg (fun l => { s with links := l }) (congrArg Vector.ofFn (funext fun q => ?_))
    rcases eq_or_ne q p with rfl | hne
    · simp [hp]
    · simp only [setLink_linkEnded_other hne, setLink_links_other hne, List.mem_cons, hne, false_or]

theorem LinkUnit.sendLink_up_eq (l : LinkUnit) (kind tag : Byte) (payload : List Byte) :
    (l.sendLink kind tag payload).up = l.up := by
  unfold LinkUnit.sendLink
  split <;> rfl

/-- A link frame joins the transmit queue of an UP link only (R159, R163). -/
theorem LinkUnit.sendLink_tx (l : LinkUnit) (kind tag : Byte) (payload : List Byte) :
    (l.sendLink kind tag payload).tx = l.tx ++ if l.up then [linkFrame kind tag payload] else [] := by
  unfold LinkUnit.sendLink
  split
  · rfl
  · exact (List.append_nil _).symm

theorem linkEnded_up (s : State) (q : Port) : (s.linkEnded q).up = s.links[q].up := by
  unfold State.linkEnded
  split
  · exact LinkUnit.sendLink_up_eq ..
  · rfl

/-- What waits on a link that Restart leaves: what stood there, and the Session End of a session (R163, R168). -/
theorem linkEnded_tx (s : State) (q : Port) : (s.linkEnded q).tx = s.links[q].tx ++
    (if s.links[q].up && (s.sessionState q).hasSession then
      [linkFrame sessionEndKind 0 (1 :: le16 (s.sessions[q].number.getD 0))] else []) := by
  unfold State.linkEnded
  cases (s.sessionState q).hasSession
  · simp
  · rw [if_pos rfl, LinkUnit.sendLink_tx, Bool.and_true]
    rfl

/-- Restart ends every session, and of each link keeps its state and its transmit queue, of the rest what R185 keeps (R163,
R184, R185). -/
theorem restartHub_eq (s : State) : s.restartHub = { State.reset with
    pending := s.pending
    resetN := s.resetN
    mrdy := s.mrdy
    merr := s.merr
    supervisor := s.supervisor
    hubTime := s.hubTime
    sessionCounter := s.sessionCounter
    sessions := Vector.ofFn fun q : Port => if s.links[q].up = true then Session.idle else Session.reset
    links := Vector.ofFn fun q : Port => { LinkUnit.reset with up := s.links[q].up, tx := (s.linkEnded q).tx } } := by
  have hall : ∀ q : Port, q ∈ ports := by decide
  have hsession : ∀ up : Bool, { Session.reset with state := if up then .idle else .down } =
      if up = true then Session.idle else Session.reset := by decide
  rw [State.restartHub, endForRestart_foldl (by decide), State.afterRestart]
  simp only [hall, if_true, Vector.map_ofFn, Function.comp_def, linkEnded_up, hsession]

/-! ## The reply before it -/

theorem replied_links_other {q : Port} (h : q ≠ p) (tag : Byte) : (s.replied p tag .done []).links[q] = s.links[q] := by
  simp [State.replied, Fin.val_ne_of_ne h.symm]

theorem replied_up (s : State) (p : Port) (tag : Byte) (q : Port) :
    (s.replied p tag .done []).links[q].up = s.links[q].up := by
  rw [← accepted_reply]
  exact (acceptedReply_linksOnly s p tag .done []).keeps.linkUp q

/-- The reply joins its port's transmit queue, on an UP link (R163). -/
theorem replied_tx (h : s.links[p].up = true) (tag : Byte) (q : Port) : (s.replied p tag .done []).links[q].tx =
    s.links[q].tx ++
      (if q = p then [{ kind := replyKind, tag := tag, seq := s.links[p].sendNum, payload := [0] }] else []) := by
  rcases eq_or_ne q p with rfl | hne
  · have hlink : (s.replied q tag .done []).links[q] = s.linkReplied q tag .done [] := by simp [State.replied]
    have hacc : (s.links[q].accepted s.keepaliveExpiry).up = true := h
    rw [hlink, if_pos rfl, State.linkReplied, LinkUnit.sendSeq, if_pos hacc]
    rfl
  · rw [replied_links_other hne, if_neg hne, List.append_nil]

theorem exec_restart_admits (h : Admits s p f .restart) (hp : f.payload = []) :
    exec (.restart p f) s = .next (s.replied p f.tag .done []).restartHub := by
  refine congrArg Host.Outcome.next ((onRequest_admits h (a := ()) (by rw [hp]; rfl) _).trans ?_)
  rw [accepted_reply]

/-- Settles O42: what Restart leaves of the hub in which it has been answered. -/
theorem restartTaken : Obligations.RestartTaken := by
  intro p f s had hp
  rw [exec_restart_admits had hp, restartHub_eq]
  simp only [linkEnded_tx, replied_tx had.arrives.up, replied_up]
  rw [State.replied_resetN, had.arrives.resetN]
  rfl

end Sys2Proof.Machine

/-! PROOFS. Power-on reset, Hub Status and Set Timers (R180, R181, R186, section 11.4). -/

namespace Sys2Proof.Machine

variable {s : State} {p : Port} {f : RxFrame}

/-! ## Power-on reset (R186) -/

/-- What reset gives a port: a link, a session and a notice state of power-on (R151, R158, R169). -/
theorem reset_port (p : Port) : State.reset.sessions[p] = Session.reset ∧ State.reset.links[p] = LinkUnit.reset ∧
    State.reset.notices[p] = NoticeUnit.reset :=
  ⟨Vector.getElem_replicate p.isLt, Vector.getElem_replicate p.isLt, Vector.getElem_replicate p.isLt⟩

/-- What reset gives a region: a disabled descriptor (R136). -/
theorem reset_region (i : RegionId) : State.reset.regions[i] = Region.reset := Vector.getElem_replicate i.isLt

/-- Settles O10: the ports and the regions each start alike, and every other field has its value in `State.reset`. -/
theorem resetValues : Obligations.ResetValues :=
  ⟨reset_port, rfl, rfl, rfl, rfl, rfl, rfl, rfl, rfl, rfl, rfl, rfl, rfl, rfl, rfl, rfl, rfl, rfl, rfl, rfl, rfl,
    reset_region, rfl, rfl, rfl, rfl⟩

/-! ## Set Timers (R181) -/

/-- The operand of Set Timers is good when each value is in its range (R181, section 11.3). -/
theorem parseTimers_le16 (r k : BitVec 16) (t : Byte) : parseTimers (le16 r ++ le16 k ++ [t]) =
    if 1 ≤ r.toNat ∧ r.toNat ≤ 1000 ∧ 20 ≤ k.toNat ∧ k.toNat ≤ 5000 ∧ 1 ≤ t.toNat ∧ t.toNat ≤ 100 then
      some { recallMs := r.toNat, keepaliveMs := k.toNat, storeTenths := t.toNat }
    else none := by
  simp [parseTimers, le16, of16_le16, and_assoc]

theorem parseTimers_length {bs : List Byte} (h : bs.length ≠ 5) : parseTimers bs = none := by
  unfold parseTimers
  split
  · exact absurd rfl h
  · rfl

theorem exec_setTimers_admits {x : Timers} (h : Admits s p f .setTimers) (hp : parseTimers f.payload = some x) :
    exec (.setTimers p f) s = .next { s.replied p f.tag .done [] with timers := x } := by
  refine congrArg Host.Outcome.next ((onRequest_admits h (a := x) hp _).trans ?_)
  rw [← accepted_reply]
  rfl

theorem exec_setTimers_badFormat (h : Admits s p f .setTimers) (hp : parseTimers f.payload = none) :
    exec (.setTimers p f) s = .next (s.replied p f.tag .badFormat []) :=
  congrArg _ (onRequest_badFormat h hp _)

/-- Settles O41: by whether the payload has the three values, and whether they are in range. -/
theorem timersSet : Obligations.TimersSet := by
  intro p f s had
  refine ⟨fun r k t hp => ?_, fun hlen => exec_setTimers_badFormat had (parseTimers_length hlen)⟩
  have hparse := parseTimers_le16 r k t
  rw [← hp] at hparse
  exact ⟨fun hgood => exec_setTimers_admits had (hparse.trans (if_pos hgood)),
    fun hbad => exec_setTimers_badFormat had (hparse.trans (if_neg hbad))⟩

/-! ## Hub Status (R180, section 11.4) -/

/-- The groups between the hub's and the ports': line table, recalls, journal, port and fault unit. -/
def State.statusBlocks (s : State) : List Byte :=
  s.statusTable ++ s.statusRecalls ++ s.statusJournal ++ s.statusPort ++ s.statusFaults

/-- The groups of the four ports. -/
def State.statusAgents (s : State) : List Byte := (ports.map s.statusAgent).flatten

theorem hubStatus_eq (s : State) :
    s.hubStatus = s.statusHub ++ s.statusBlocks ++ s.statusAgents ++ s.statusTimers := by
  simp only [State.hubStatus, State.statusBlocks, State.statusAgents, List.append_assoc]

/-! ### The sizes of the groups -/

theorem count16_length (n : Nat) : (count16 n).length = 2 := le16_length _

theorem capacityBytes_length (c : Option Nat) : (capacityBytes c).length = 2 := by cases c <;> rfl

theorem statusHub_length (s : State) : s.statusHub.length = 7 := rfl

theorem statusBlocks_length (s : State) : s.statusBlocks.length = 56 := by
  simp only [State.statusBlocks, State.statusTable, State.entryCount, State.statusRecalls, State.statusJournal,
    State.journalCount, State.statusPort, State.statusFaults, State.recordCount, List.length_append, List.length_cons,
    List.length_nil, count16_length]

theorem statusAgent_length (s : State) (q : Port) : (s.statusAgent q).length = 11 := by
  simp [State.statusAgent, count16_length, capacityBytes_length]

theorem statusAgents_length (s : State) : s.statusAgents.length = 44 := by
  simp [State.statusAgents, ports, statusAgent_length]

theorem statusTimers_length (s : State) : s.statusTimers.length = 6 := rfl

theorem hubStatus_length (s : State) : s.hubStatus.length = 113 := by
  simp only [hubStatus_eq, List.length_append, statusHub_length, statusBlocks_length, statusAgents_length,
    statusTimers_length]

/-! ### The places of the groups -/

theorem hubStatus_hub (s : State) : s.hubStatus.take 7 = s.statusHub := by
  rw [hubStatus_eq, List.append_assoc, List.append_assoc, List.take_left' (statusHub_length s)]

theorem hubStatus_blocks (s : State) : (s.hubStatus.drop 7).take 56 = s.statusBlocks := by
  rw [hubStatus_eq, List.append_assoc, List.append_assoc, List.drop_left' (statusHub_length s),
    List.take_left' (statusBlocks_length s)]

/-- Of pieces of one size, the piece at an index stands at that multiple of the size. -/
theorem take_drop_pieces {α β : Type} {g : α → List β} {n : Nat} (hg : ∀ a, (g a).length = n) (rest : List β) :
    ∀ (as : List α) (i : Nat) (h : i < as.length), (((as.map g).flatten ++ rest).drop (n * i)).take n = g as[i]
  | a :: as, 0, _ => by simp [List.take_left' (hg a)]
  | a :: as, i + 1, h => by
    rw [Nat.mul_succ, Nat.add_comm, ← List.drop_drop, List.map_cons, List.flatten_cons, List.append_assoc,
      List.drop_left' (hg a), take_drop_pieces hg rest as i (Nat.lt_of_succ_lt_succ h), List.getElem_cons_succ]

theorem hubStatus_agent (s : State) (q : Port) : (s.hubStatus.drop (63 + 11 * q.val)).take 11 = s.statusAgent q := by
  have hfront : (s.statusHub ++ s.statusBlocks).length = 63 := by
    rw [List.length_append, statusHub_length, statusBlocks_length]
  have hq : ports[q.val]'q.isLt = q := by revert q; decide
  rw [hubStatus_eq, ← List.drop_drop, List.append_assoc, List.drop_left' hfront, State.statusAgents,
    take_drop_pieces (statusAgent_length s) s.statusTimers ports q.val q.isLt, hq]

theorem hubStatus_timers (s : State) : s.hubStatus.drop 107 = s.statusTimers := by
  have hfront : (s.statusHub ++ s.statusBlocks ++ s.statusAgents).length = 107 := by
    rw [List.length_append, List.length_append, statusHub_length, statusBlocks_length, statusAgents_length]
  rw [hubStatus_eq, List.drop_left' hfront]

/-! ### The state that is reported: the request is outstanding, and nothing else has changed -/

theorem statusHub_asked (s : State) (p : Port) (tag : Byte) (r : Req) : (s.asked p tag r).statusHub = s.statusHub := rfl

theorem statusBlocks_asked (s : State) (p : Port) (tag : Byte) (r : Req) :
    (s.asked p tag r).statusBlocks = s.statusBlocks := rfl

/-- An admitted request counts in its own port's outstanding set alone (R31). -/
theorem outstanding_asked_length (s : State) (p q : Port) (tag : Byte) (r : Req) :
    ((s.asked p tag r).outstanding q).length = (s.outstanding q).length + if q = p then 1 else 0 := by
  have hout : (s.asked p tag r).outstanding q = s.outstanding q ++ [⟨⟨p, tag⟩, r⟩].filter fun x => x.id.port == q :=
    List.filter_append ..
  rcases eq_or_ne q p with rfl | hne
  · simp [hout]
  · simp [hout, hne, hne.symm]

theorem statusAgent_asked (s : State) (p q : Port) (tag : Byte) (r : Req) : (s.asked p tag r).statusAgent q =
    (s.sessionState q).code :: capacityBytes s.sessions[q].capacity ++ count16 (s.holdingCount q) ++
      count16 ((s.outstanding q).length + if q = p then 1 else 0) ++ [count8 s.notices[q].threshold] ++
      count16 s.notices[q].queue.length ++ [bit s.notices[q].inFlight.isSome] := by
  rw [← outstanding_asked_length s p q tag r]
  rfl

theorem statusTimers_asked (s : State) (p : Port) (tag : Byte) (r : Req) :
    (s.asked p tag r).statusTimers = s.statusTimers := rfl

theorem exec_hubStatus_admits (h : Admits s p f .hubStatus) (hp : f.payload = []) :
    exec (.hubStatus p f) s = .next (s.replied p f.tag .done (s.asked p f.tag .hubStatus).hubStatus) := by
  refine congrArg Host.Outcome.next ((onRequest_admits h (a := ()) (by rw [hp]; rfl) _).trans ?_)
  rw [accepted_reply]
  rfl

/-- Settles O38: each group stands in its place, and a field that can be none has its own byte then. -/
theorem hubStatusReported : Obligations.HubStatusReported := by
  intro p f s had hp
  refine ⟨_, exec_hubStatus_admits had hp, hubStatus_length _, ?hub, ?blocks, fun q => ?agent, ?timers⟩
  case hub =>
    rw [hubStatus_hub, statusHub_asked, State.statusHub]
    cases s.completing <;> rfl
  case blocks =>
    rw [hubStatus_blocks, statusBlocks_asked]
    simp only [State.statusBlocks, State.statusTable, State.statusRecalls, State.statusJournal, State.statusPort,
      State.statusFaults, List.append_assoc, List.cons_append, List.nil_append]
    cases s.job <;> cases s.stopRecord <;> rfl
  case agent =>
    rw [hubStatus_agent, statusAgent_asked]
    cases s.sessions[q].capacity <;> rfl
  case timers => rw [hubStatus_timers, statusTimers_asked, State.statusTimers]

end Sys2Proof.Machine

/-! PROOFS. Frames of kinds that no agent sends (R160, R164, R188). -/

namespace Sys2Proof.Machine

variable {s : State} {p : Port} {f : RxFrame} {kind tag : Byte} {payload : List Byte}

/-- Recall Answer is in the agent-to-hub rows, and so is every request kind (section 11.2). -/
theorem sequencedCommand_unknown (h : isAgentKind kind = false) :
    sequencedCommand p kind f = .unknownKindFrame p kind f := by
  have hr : kind ≠ recallAnswerKind := by rintro rfl; exact absurd h (by decide)
  rw [sequencedCommand, if_neg hr, Kind.ofCode_unknown h]

theorem linkCommand_discarded (h : isDiscardedLinkKind kind = true) :
    linkCommand p kind tag payload = .discardedLinkFrame p kind := by
  simp only [isDiscardedLinkKind, Bool.and_eq_true, bne_iff_ne] at h
  obtain ⟨⟨⟨-, hping⟩, hreplay⟩, hrestart⟩ := h
  rw [linkCommand, if_neg hping, if_neg hreplay, if_neg hrestart]

/-- The unassigned link codes are discarded: Ping, Replay Request and Link Restart lie between them (R188, section 11.2). -/
theorem isDiscardedLinkKind_unassigned (h : kind = 0 ∨ (7 ≤ kind.toNat ∧ kind.toNat ≤ 15)) :
    isDiscardedLinkKind kind = true := by
  rcases h with rfl | ⟨hlow, hhigh⟩
  · rfl
  · have hlink : isLinkKind kind = true := decide_eq_true (Nat.lt_succ_of_le hhigh)
    have hne {k : Byte} (hk : k.toNat < 7) : kind ≠ k := by rintro rfl; exact absurd hlow (Nat.not_le.2 hk)
    simp only [isDiscardedLinkKind, Bool.and_eq_true, bne_iff_ne]
    exact ⟨⟨⟨hlink, hne (by decide)⟩, hne (by decide)⟩, hne (by decide)⟩

/-- A frame of unknown kind is accepted, and answered with the refusal of its port's session state alone (R188). -/
theorem exec_unknownKindFrame (h : Arrives s p f.seq) : exec (.unknownKindFrame p kind f) s =
    .next (s.replied p f.tag (unknownKindStatus (s.sessionState p)) []) := by
  refine congrArg Host.Outcome.next ((onSequenced_arrives h _).trans ?_)
  rw [accepted_reply]
  rfl

theorem exec_discardedLinkFrame (h : s.receives p = true) : exec (.discardedLinkFrame p kind) s = .next (s.heard p) :=
  congrArg Host.Outcome.next (onGoodFrame_receives h _)

/-- Settles O30: the kind decides the command, and the session state what is answered. -/
theorem unlistedKindsRefused : Obligations.UnlistedKindsRefused := by
  intro p kind f s
  refine ⟨fun _ hkind => sequencedCommand_unknown hkind, fun har => ?_,
    fun hkind => linkCommand_discarded (isDiscardedLinkKind_unassigned hkind), exec_discardedLinkFrame⟩
  intro refused
  have refuse {x : SessionState} (hx : s.sessionState p = x) : refused (unknownKindStatus x) :=
    hx ▸ exec_unknownKindFrame har
  exact ⟨refuse, refuse, refuse, refuse⟩

end Sys2Proof.Machine

/-! PROOFS. A step and the queue of waiting commands (log entry 2). -/

namespace Sys2Proof.Machine

variable {s : State} {c : Instr} {rest : List Instr}

/-! ## What a step does, by the queue -/

theorem step_of_pending_nil (h : s.pending = []) : step s = .next s := by
  unfold step
  rw [h]

theorem step_of_pending_cons (h : s.pending = c :: rest) : step s = exec c { s with pending := rest } := by
  unfold step
  rw [h]

/-! ## A command put at the front -/

@[simp] theorem State.withCommand_pending (s : State) (c : Instr) : (s.withCommand c).pending = c :: s.pending := rfl

/-- The queue is all that a command put at the front changes: with the command taken off again, the state is as before. -/
theorem State.withCommand_taken (s : State) (c : Instr) : { s.withCommand c with pending := s.pending } = s := rfl

/-- Settles O9, by the two forms of the queue: a command in front runs on the rest, and an empty queue idles. -/
theorem stepRunsFrontCommand : Obligations.StepRunsFrontCommand := by
  refine fun c s => ⟨?_, step_of_pending_nil⟩
  have hrun : step (s.withCommand c) = exec c { s.withCommand c with pending := s.pending } :=
    step_of_pending_cons (s.withCommand_pending c)
  rw [hrun, State.withCommand_taken]

end Sys2Proof.Machine
